-- ==== Sys2Proof/Word.lean ====
section
/-! DEFINITION. The word types of the block: bytes, 32-, 64- and 128-bit cells, register numbers (R7, R21, R24). -/

namespace Sys2Proof

/-- One byte, the smallest addressable unit (R80, R87). -/
abbrev Byte := BitVec 8

/-- A 32-bit word: instruction words, addresses, control and floating-point registers (R5, R28, R32, R48). -/
abbrev Word := BitVec 32

/-- A 64-bit value, the width the EE integer rows see (R25). -/
abbrev Double := BitVec 64

/-- A 128-bit value, the storage cell of an EE general register (R24). -/
abbrev Quad := BitVec 128

/-- A register number 0 to 31 (R143 (h)). -/
abbrev RegIdx := BitVec 5

end Sys2Proof
end

