-- ==== Sys2Proof/Config.lean ====
section
/-! DEFINITION. What an implementation fixes: the two instances, the constants of R5, and the free values (opaque constants
with no body) for what the spec leaves open. -/

namespace Sys2Proof

/-- The two instances of the block (R1). -/
inductive CoreId where
  | ee    -- the 64-bit main core with the floating-point coprocessor
  | iop   -- the 32-bit I/O core
deriving DecidableEq, Repr, Inhabited

/-- `XLEN`: the width the integer rows see (R5, R25). -/
def CoreId.xlen : CoreId → Nat
  | .ee => 64
  | .iop => 32

/-- Why a virtual address is translated (R90). -/
inductive AccessKind where
  | fetch
  | load
  | store
deriving DecidableEq, Repr, Inhabited

/-- The six operations of the value function (R306). -/
inductive FpOp where
  | add
  | sub
  | mul
  | div
  | madd
  | msub
deriving DecidableEq, Repr, Inhabited

/-- An operand read as a number (R305): `fin neg m` is `m` units of 2^-149, negative when `neg`. -/
inductive FpVal where
  | nan
  | inf (neg : Bool)
  | fin (neg : Bool) (units : Nat)
deriving DecidableEq, Repr, Inhabited

/-- How a magnitude between two numbers of 24 significant bits becomes one of them (R306, L3). -/
inductive FpRounding where
  | nearestEven
  | towardZero
  | awayFromZero
deriving DecidableEq, Repr, Inhabited

/-- The parameter `FpCompute` as plain data (R5, R306): the default, or another value function, by number. What the model
lets vary in another one, and that its laws L1 to L3 hold, is log entry 8. -/
inductive FpChoice where
  | ieee
  | other (id : Nat)
deriving DecidableEq, Repr, Inhabited

/-- One half of a table entry's pair of pages (R47): frame number, cache mode, dirty, valid. -/
structure SubPage where
  pfn : BitVec 20
  c : BitVec 3
  d : Bool
  v : Bool
deriving DecidableEq, Repr, Inhabited

/-- One entry of the EE translation table, a record of fields (R47). -/
structure TlbEntry where
  mask : BitVec 12
  vpn2 : BitVec 19
  asid : BitVec 8
  g : Bool
  s : Bool
  even : SubPage
  odd : SubPage
deriving DecidableEq, Repr, Inhabited

/-- `DELAY_SLOTS` (R5, R231). -/
def Config.delaySlots : Nat := 1

/-- `USEG_TOP`, the last user-segment address (R5, R91). -/
def Config.usegTop : Word := 0x7FFFFFFF#32

/-- `WIN0` (R5, R92). -/
def Config.win0Lo : Word := 0x80000000#32
def Config.win0Hi : Word := 0x9FFFFFFF#32

/-- `WIN1` (R5, R92). -/
def Config.win1Lo : Word := 0xA0000000#32
def Config.win1Hi : Word := 0xBFFFFFFF#32

/-- `XWIN_HI`, IOP only: its first address, and the amount subtracted (R5, R93). -/
def Config.xwinHiLo : Word := 0xFFC00000#32
def Config.xwinHiOffset : Word := 0xE0000000#32

/-- `XWIN_LO`, IOP only: its last address (R5, R93). -/
def Config.xwinLoHi : Word := 0x001FFFFF#32

/-- `TLB_ENTRIES` (R5, R47). -/
def Config.tlbEntries : Nat := 48

/-- `SPR_BASE` and `SPR_SIZE` (R5, R99). -/
def Config.sprBase : Word := 0x70000000#32
def Config.sprSize : Word := 0x4000#32

/-- `VECTOR`, the one exception vector of each core (R5, R344). -/
def Config.vector : CoreId → Word
  | .ee => 0x80000180#32
  | .iop => 0x80000080#32

/-- `RESET_PC` (R5, R28). -/
def Config.resetPc : Word := 0xBFC00000#32

/-- The seven legal page-size masks (R39). -/
def Config.legalMasks : List (BitVec 12) :=
  [0x000#12, 0x003#12, 0x00F#12, 0x03F#12, 0x0FF#12, 0x3FF#12, 0xFFF#12]

/-- Free value: `Cop0Other(n)`, what MFC0 reads from control register number `n` that the core does not define; the first
argument is the free-value counter, so that it may differ at every read (R45). Log entry 11. -/
opaque Config.cop0Other : Nat → RegIdx → Word

/-- Free value: what CFC1 reads from a control register number other than 31 (R303). Log entry 11. -/
opaque Config.fcrOther : Nat → RegIdx → Double

/-- Free value: the physical address of an access through an entry with an illegal mask (R103). Log entry 12. -/
opaque Config.illegalMaskPa : Nat → TlbEntry → Word → AccessKind → Word

/-- Free value: whether such an access faults instead, and as which of miss, invalid, modified (R103). Log entry 12. -/
opaque Config.illegalMaskFault : Nat → TlbEntry → Word → AccessKind → Option (Fin 3)

/-- Free value: the sign of a result where R306 gives none: of one that is not a number (item 21 of spec/93) and, outside the
default, of a zero and of a quotient by zero. Its last word is the accumulator, 0 where the operation does not use it. Log
entry 10. -/
opaque Config.fpOpenSign : FpChoice → FpOp → Word → Word → Word → Bool

/-- Free value: how value function number `id` reads a pattern that is neither zero nor a normal number (R305). Log entry 8. -/
opaque Config.fpReading : Nat → Word → FpVal

/-- Free value: how value function number `id` rounds a result that is no number of the format (R306). Its
last word is the accumulator, 0 where the operation does not use it. Log entry 8. -/
opaque Config.fpRounding : Nat → FpOp → Word → Word → Word → FpRounding

/-- Free value: how value function number `id` rounds the product of MADD.S and MSUB.S before the sum, `none` where the sum
takes the exact product (R306). Log entries 8 and 30. -/
opaque Config.fpProduct : Nat → Word → Word → Option FpRounding

/-- Free value: what a mapped register object with custom semantics number `id` returns on a read (counter, object, offset,
access bytes, stored value), R82 (b). Log entry 6. -/
opaque Config.deviceReadValue : Nat → Nat → Nat → Nat → Quad → Quad

/-- Free value: what such an object stores after a read. Log entry 6. -/
opaque Config.deviceReadStore : Nat → Nat → Nat → Nat → Quad → Quad

/-- Free value: what such an object stores after a write of the last argument. Log entry 6. -/
opaque Config.deviceWriteStore : Nat → Nat → Nat → Nat → Quad → Quad → Quad

end Sys2Proof
end

