-- ==== Sys2Proof/Syntax.lean ====
section
/-! DEFINITION. The instructions: one constructor per row of spec/opcode_table.json, with the row's operand fields (R141,
R142, R150). Bits a row ignores (R145) are no operands. -/

namespace Sys2Proof

/-- One decoded instruction word. Operands stand in the assembler's order (R151): destination first, then sources; a load
or store as `rt, rs, imm` with `rs` the base. -/
inductive Instr where
  | sll (rd rt : RegIdx) (sa : BitVec 5)
  | srl (rd rt : RegIdx) (sa : BitVec 5)
  | sra (rd rt : RegIdx) (sa : BitVec 5)
  | jr (rs : RegIdx)
  | jalr (rd rs : RegIdx)
  | add (rd rs rt : RegIdx)
  | addu (rd rs rt : RegIdx)
  | sub (rd rs rt : RegIdx)
  | subu (rd rs rt : RegIdx)
  | and (rd rs rt : RegIdx)
  | or (rd rs rt : RegIdx)
  | xor (rd rs rt : RegIdx)
  | nor (rd rs rt : RegIdx)
  | slt (rd rs rt : RegIdx)
  | sltu (rd rs rt : RegIdx)
  | j (target : BitVec 26)
  | jal (target : BitVec 26)
  | beq (rs rt : RegIdx) (imm : BitVec 16)
  | bne (rs rt : RegIdx) (imm : BitVec 16)
  | addi (rt rs : RegIdx) (imm : BitVec 16)
  | addiu (rt rs : RegIdx) (imm : BitVec 16)
  | slti (rt rs : RegIdx) (imm : BitVec 16)
  | sltiu (rt rs : RegIdx) (imm : BitVec 16)
  | andi (rt rs : RegIdx) (imm : BitVec 16)
  | ori (rt rs : RegIdx) (imm : BitVec 16)
  | xori (rt rs : RegIdx) (imm : BitVec 16)
  | lui (rt : RegIdx) (imm : BitVec 16)
  | beql (rs rt : RegIdx) (imm : BitVec 16)
  | bnel (rs rt : RegIdx) (imm : BitVec 16)
  | lq (rt rs : RegIdx) (imm : BitVec 16)
  | sq (rt rs : RegIdx) (imm : BitVec 16)
  | lb (rt rs : RegIdx) (imm : BitVec 16)
  | lh (rt rs : RegIdx) (imm : BitVec 16)
  | lw (rt rs : RegIdx) (imm : BitVec 16)
  | lbu (rt rs : RegIdx) (imm : BitVec 16)
  | lhu (rt rs : RegIdx) (imm : BitVec 16)
  | lwu (rt rs : RegIdx) (imm : BitVec 16)
  | sb (rt rs : RegIdx) (imm : BitVec 16)
  | sh (rt rs : RegIdx) (imm : BitVec 16)
  | sw (rt rs : RegIdx) (imm : BitVec 16)
  | ld (rt rs : RegIdx) (imm : BitVec 16)
  | sd (rt rs : RegIdx) (imm : BitVec 16)
  | mfc0 (rt rd : RegIdx)
  | mtc0 (rt rd : RegIdx)
  | tlbwi
  | rfe
  | eret
  | mfc1 (rt fs : RegIdx)
  | cfc1 (rt fs : RegIdx)
  | mtc1 (rt fs : RegIdx)
  | ctc1 (rt fs : RegIdx)
  | addS (fd fs ft : RegIdx)
  | subS (fd fs ft : RegIdx)
  | mulS (fd fs ft : RegIdx)
  | divS (fd fs ft : RegIdx)
  | maddS (fd fs ft : RegIdx)
  | msubS (fd fs ft : RegIdx)
deriving DecidableEq, Repr

/-- The place of an instruction's row in spec/opcode_table.json, counted from 0. It names the row's cost parameter
`COST(mnemonic)` (R147). -/
def Instr.row : Instr → Nat
  | .sll .. => 0
  | .srl .. => 1
  | .sra .. => 2
  | .jr .. => 3
  | .jalr .. => 4
  | .add .. => 5
  | .addu .. => 6
  | .sub .. => 7
  | .subu .. => 8
  | .and .. => 9
  | .or .. => 10
  | .xor .. => 11
  | .nor .. => 12
  | .slt .. => 13
  | .sltu .. => 14
  | .j .. => 15
  | .jal .. => 16
  | .beq .. => 17
  | .bne .. => 18
  | .addi .. => 19
  | .addiu .. => 20
  | .slti .. => 21
  | .sltiu .. => 22
  | .andi .. => 23
  | .ori .. => 24
  | .xori .. => 25
  | .lui .. => 26
  | .beql .. => 27
  | .bnel .. => 28
  | .lq .. => 29
  | .sq .. => 30
  | .lb .. => 31
  | .lh .. => 32
  | .lw .. => 33
  | .lbu .. => 34
  | .lhu .. => 35
  | .lwu .. => 36
  | .sb .. => 37
  | .sh .. => 38
  | .sw .. => 39
  | .ld .. => 40
  | .sd .. => 41
  | .mfc0 .. => 42
  | .mtc0 .. => 43
  | .tlbwi => 44
  | .rfe => 45
  | .eret => 46
  | .mfc1 .. => 47
  | .cfc1 .. => 48
  | .mtc1 .. => 49
  | .ctc1 .. => 50
  | .addS .. => 51
  | .subS .. => 52
  | .mulS .. => 53
  | .divS .. => 54
  | .maddS .. => 55
  | .msubS .. => 56

end Sys2Proof
end

