-- ==== Sys2Proof/WellFormed.lean ====
section
/-! DEFINITION. Well-formedness of an instruction for a core: its row stands in that core's decode table (R146). Operand
fields have their exact widths in the type, so nothing else can be wrong with an instruction. -/

namespace Sys2Proof

/-- The rows that stand in the EE table only (R146): the likely branches, the 64- and 128-bit accesses and LWU, ERET and
TLBWI, and every coprocessor-1 row. -/
def Instr.eeOnly : Instr → Bool
  | .beql .. => true
  | .bnel .. => true
  | .lwu .. => true
  | .ld .. => true
  | .lq .. => true
  | .sd .. => true
  | .sq .. => true
  | .eret => true
  | .tlbwi => true
  | .mfc1 .. => true
  | .cfc1 .. => true
  | .mtc1 .. => true
  | .ctc1 .. => true
  | .addS .. => true
  | .subS .. => true
  | .mulS .. => true
  | .divS .. => true
  | .maddS .. => true
  | .msubS .. => true
  | .sll .. => false
  | .srl .. => false
  | .sra .. => false
  | .jr .. => false
  | .jalr .. => false
  | .add .. => false
  | .addu .. => false
  | .sub .. => false
  | .subu .. => false
  | .and .. => false
  | .or .. => false
  | .xor .. => false
  | .nor .. => false
  | .slt .. => false
  | .sltu .. => false
  | .j .. => false
  | .jal .. => false
  | .beq .. => false
  | .bne .. => false
  | .addi .. => false
  | .addiu .. => false
  | .slti .. => false
  | .sltiu .. => false
  | .andi .. => false
  | .ori .. => false
  | .xori .. => false
  | .lui .. => false
  | .lb .. => false
  | .lh .. => false
  | .lw .. => false
  | .lbu .. => false
  | .lhu .. => false
  | .sb .. => false
  | .sh .. => false
  | .sw .. => false
  | .mfc0 .. => false
  | .mtc0 .. => false
  | .rfe => false

/-- The one row that stands in the IOP table only (R146). -/
def Instr.iopOnly (i : Instr) : Bool := i = .rfe

/-- An instruction is well-formed for a core when that core's table holds its row (R146). -/
def Instr.wf (c : CoreId) (i : Instr) : Bool :=
  match c with
  | .ee => !i.iopOnly
  | .iop => !i.eeOnly

end Sys2Proof
end

