-- ==== Sys2Proof/Decode.lean ====
section
/-! DEFINITION. The decode table: the fields of an instruction word (R141), the dispatch tree (R144, R145, R150), the
encoder (R142), and the table of masks and matches in the shape the spec prints it. -/

namespace Sys2Proof

/-- `opcode`, bits 31:26 (R141). -/
def opcodeOf (w : Word) : BitVec 6 := w.extractLsb' 26 6

/-- `rs`, bits 25:21, also the sub-field key under opcodes 0x10 and 0x11 (R141). -/
def rsOf (w : Word) : RegIdx := w.extractLsb' 21 5

/-- `rt` (`ft`), bits 20:16 (R141). -/
def rtOf (w : Word) : RegIdx := w.extractLsb' 16 5

/-- `rd` (`fs`), bits 15:11 (R141). -/
def rdOf (w : Word) : RegIdx := w.extractLsb' 11 5

/-- `sa` (`fd`), bits 10:6 (R141). -/
def saOf (w : Word) : BitVec 5 := w.extractLsb' 6 5

/-- `funct`, bits 5:0 (R141). -/
def functOf (w : Word) : BitVec 6 := w.extractLsb' 0 6

/-- `imm`, bits 15:0 (R141). -/
def immOf (w : Word) : BitVec 16 := w.extractLsb' 0 16

/-- `target`, bits 25:0 (R141). -/
def targetOf (w : Word) : BitVec 26 := w.extractLsb' 0 26

/-- What `Decode` answers: a row of the core's table with its operands, or `Unknown` (R144, R148). -/
inductive Decoded where
  | row (i : Instr)
  | unknown
deriving DecidableEq, Repr

/-- A row of the table of `owner` only: a word of it is `Unknown` on the other core (R146). -/
def onCore (c owner : CoreId) (i : Instr) : Decoded :=
  if c = owner then .row i else .unknown

/-- Opcode 0x00: the key is (SPECIAL, funct) (R150). -/
def decodeSpecial (w : Word) : Decoded :=
  match (functOf w).toNat with
  | 0x00 => .row (.sll (rdOf w) (rtOf w) (saOf w))
  | 0x02 => .row (.srl (rdOf w) (rtOf w) (saOf w))
  | 0x03 => .row (.sra (rdOf w) (rtOf w) (saOf w))
  | 0x08 => .row (.jr (rsOf w))
  | 0x09 => .row (.jalr (rdOf w) (rsOf w))
  | 0x20 => .row (.add (rdOf w) (rsOf w) (rtOf w))
  | 0x21 => .row (.addu (rdOf w) (rsOf w) (rtOf w))
  | 0x22 => .row (.sub (rdOf w) (rsOf w) (rtOf w))
  | 0x23 => .row (.subu (rdOf w) (rsOf w) (rtOf w))
  | 0x24 => .row (.and (rdOf w) (rsOf w) (rtOf w))
  | 0x25 => .row (.or (rdOf w) (rsOf w) (rtOf w))
  | 0x26 => .row (.xor (rdOf w) (rsOf w) (rtOf w))
  | 0x27 => .row (.nor (rdOf w) (rsOf w) (rtOf w))
  | 0x2A => .row (.slt (rdOf w) (rsOf w) (rtOf w))
  | 0x2B => .row (.sltu (rdOf w) (rsOf w) (rtOf w))
  | _ => .unknown

/-- Opcode 0x10: the key is the sub-field, or funct under sub-field 0x10 (R144, R150). R145 and R284 say that ERET ignores bits
24:6; that bits 24:21 are key all the same, so that only bits 20:6 are ignored and 43FFFFD8 is `Unknown`, is DEDUCED from
R142 (format C0O), the pseudocode of R144 and the mask of the row in R150 (log entry 31). -/
def decodeCop0 (c : CoreId) (w : Word) : Decoded :=
  match (rsOf w).toNat with
  | 0x00 => .row (.mfc0 (rtOf w) (rdOf w))
  | 0x04 => .row (.mtc0 (rtOf w) (rdOf w))
  | 0x10 =>
    match (functOf w).toNat with
    | 0x02 => onCore c .ee .tlbwi
    | 0x10 => onCore c .iop .rfe
    | 0x18 => onCore c .ee .eret
    | _ => .unknown
  | _ => .unknown

/-- Opcode 0x11, whose rows all stand in the EE table only (R150). -/
def decodeCop1 (c : CoreId) (w : Word) : Decoded :=
  match (rsOf w).toNat with
  | 0x00 => onCore c .ee (.mfc1 (rtOf w) (rdOf w))
  | 0x02 => onCore c .ee (.cfc1 (rtOf w) (rdOf w))
  | 0x04 => onCore c .ee (.mtc1 (rtOf w) (rdOf w))
  | 0x06 => onCore c .ee (.ctc1 (rtOf w) (rdOf w))
  | 0x10 =>
    match (functOf w).toNat with
    | 0x00 => onCore c .ee (.addS (saOf w) (rdOf w) (rtOf w))
    | 0x01 => onCore c .ee (.subS (saOf w) (rdOf w) (rtOf w))
    | 0x02 => onCore c .ee (.mulS (saOf w) (rdOf w) (rtOf w))
    | 0x03 => onCore c .ee (.divS (saOf w) (rdOf w) (rtOf w))
    | 0x1C => onCore c .ee (.maddS (saOf w) (rdOf w) (rtOf w))
    | 0x1D => onCore c .ee (.msubS (saOf w) (rdOf w) (rtOf w))
    | _ => .unknown
  | _ => .unknown

/-- `Decode(core, w)` (R144): total on all 2^32 words, looking only at the dispatch keys (R145). -/
def decode (c : CoreId) (w : Word) : Decoded :=
  match (opcodeOf w).toNat with
  | 0x00 => decodeSpecial w
  | 0x10 => decodeCop0 c w
  | 0x11 => decodeCop1 c w
  | 0x02 => .row (.j (targetOf w))
  | 0x03 => .row (.jal (targetOf w))
  | 0x04 => .row (.beq (rsOf w) (rtOf w) (immOf w))
  | 0x05 => .row (.bne (rsOf w) (rtOf w) (immOf w))
  | 0x08 => .row (.addi (rtOf w) (rsOf w) (immOf w))
  | 0x09 => .row (.addiu (rtOf w) (rsOf w) (immOf w))
  | 0x0A => .row (.slti (rtOf w) (rsOf w) (immOf w))
  | 0x0B => .row (.sltiu (rtOf w) (rsOf w) (immOf w))
  | 0x0C => .row (.andi (rtOf w) (rsOf w) (immOf w))
  | 0x0D => .row (.ori (rtOf w) (rsOf w) (immOf w))
  | 0x0E => .row (.xori (rtOf w) (rsOf w) (immOf w))
  | 0x0F => .row (.lui (rtOf w) (immOf w))
  | 0x14 => onCore c .ee (.beql (rsOf w) (rtOf w) (immOf w))
  | 0x15 => onCore c .ee (.bnel (rsOf w) (rtOf w) (immOf w))
  | 0x1E => onCore c .ee (.lq (rtOf w) (rsOf w) (immOf w))
  | 0x1F => onCore c .ee (.sq (rtOf w) (rsOf w) (immOf w))
  | 0x20 => .row (.lb (rtOf w) (rsOf w) (immOf w))
  | 0x21 => .row (.lh (rtOf w) (rsOf w) (immOf w))
  | 0x23 => .row (.lw (rtOf w) (rsOf w) (immOf w))
  | 0x24 => .row (.lbu (rtOf w) (rsOf w) (immOf w))
  | 0x25 => .row (.lhu (rtOf w) (rsOf w) (immOf w))
  | 0x27 => onCore c .ee (.lwu (rtOf w) (rsOf w) (immOf w))
  | 0x28 => .row (.sb (rtOf w) (rsOf w) (immOf w))
  | 0x29 => .row (.sh (rtOf w) (rsOf w) (immOf w))
  | 0x2B => .row (.sw (rtOf w) (rsOf w) (immOf w))
  | 0x37 => onCore c .ee (.ld (rtOf w) (rsOf w) (immOf w))
  | 0x3F => onCore c .ee (.sd (rtOf w) (rsOf w) (immOf w))
  | _ => .unknown

/-- Format R with opcode 0x00 (R142). -/
def rWord (rs rt rd sa : BitVec 5) (funct : BitVec 6) : Word :=
  0x00#6 ++ rs ++ rt ++ rd ++ sa ++ funct

/-- Format I (R142). -/
def iWord (opcode : BitVec 6) (rs rt : BitVec 5) (imm : BitVec 16) : Word :=
  opcode ++ rs ++ rt ++ imm

/-- Format J (R142). -/
def jWord (opcode : BitVec 6) (target : BitVec 26) : Word :=
  opcode ++ target

/-- Formats C0M, C0O, C1M and C1A (R142). -/
def copWord (opcode : BitVec 6) (sub rt rd sa : BitVec 5) (funct : BitVec 6) : Word :=
  opcode ++ sub ++ rt ++ rd ++ sa ++ funct

/-- The canonical word of an instruction: the bits its row ignores are 0 (R142). -/
def encode : Instr → Word
  | .sll rd rt sa => rWord 0#5 rt rd sa 0x00#6
  | .srl rd rt sa => rWord 0#5 rt rd sa 0x02#6
  | .sra rd rt sa => rWord 0#5 rt rd sa 0x03#6
  | .jr rs => rWord rs 0#5 0#5 0#5 0x08#6
  | .jalr rd rs => rWord rs 0#5 rd 0#5 0x09#6
  | .add rd rs rt => rWord rs rt rd 0#5 0x20#6
  | .addu rd rs rt => rWord rs rt rd 0#5 0x21#6
  | .sub rd rs rt => rWord rs rt rd 0#5 0x22#6
  | .subu rd rs rt => rWord rs rt rd 0#5 0x23#6
  | .and rd rs rt => rWord rs rt rd 0#5 0x24#6
  | .or rd rs rt => rWord rs rt rd 0#5 0x25#6
  | .xor rd rs rt => rWord rs rt rd 0#5 0x26#6
  | .nor rd rs rt => rWord rs rt rd 0#5 0x27#6
  | .slt rd rs rt => rWord rs rt rd 0#5 0x2A#6
  | .sltu rd rs rt => rWord rs rt rd 0#5 0x2B#6
  | .j target => jWord 0x02#6 target
  | .jal target => jWord 0x03#6 target
  | .beq rs rt imm => iWord 0x04#6 rs rt imm
  | .bne rs rt imm => iWord 0x05#6 rs rt imm
  | .addi rt rs imm => iWord 0x08#6 rs rt imm
  | .addiu rt rs imm => iWord 0x09#6 rs rt imm
  | .slti rt rs imm => iWord 0x0A#6 rs rt imm
  | .sltiu rt rs imm => iWord 0x0B#6 rs rt imm
  | .andi rt rs imm => iWord 0x0C#6 rs rt imm
  | .ori rt rs imm => iWord 0x0D#6 rs rt imm
  | .xori rt rs imm => iWord 0x0E#6 rs rt imm
  | .lui rt imm => iWord 0x0F#6 0#5 rt imm
  | .beql rs rt imm => iWord 0x14#6 rs rt imm
  | .bnel rs rt imm => iWord 0x15#6 rs rt imm
  | .lq rt rs imm => iWord 0x1E#6 rs rt imm
  | .sq rt rs imm => iWord 0x1F#6 rs rt imm
  | .lb rt rs imm => iWord 0x20#6 rs rt imm
  | .lh rt rs imm => iWord 0x21#6 rs rt imm
  | .lw rt rs imm => iWord 0x23#6 rs rt imm
  | .lbu rt rs imm => iWord 0x24#6 rs rt imm
  | .lhu rt rs imm => iWord 0x25#6 rs rt imm
  | .lwu rt rs imm => iWord 0x27#6 rs rt imm
  | .sb rt rs imm => iWord 0x28#6 rs rt imm
  | .sh rt rs imm => iWord 0x29#6 rs rt imm
  | .sw rt rs imm => iWord 0x2B#6 rs rt imm
  | .ld rt rs imm => iWord 0x37#6 rs rt imm
  | .sd rt rs imm => iWord 0x3F#6 rs rt imm
  | .mfc0 rt rd => copWord 0x10#6 0x00#5 rt rd 0#5 0#6
  | .mtc0 rt rd => copWord 0x10#6 0x04#5 rt rd 0#5 0#6
  | .tlbwi => copWord 0x10#6 0x10#5 0#5 0#5 0#5 0x02#6
  | .rfe => copWord 0x10#6 0x10#5 0#5 0#5 0#5 0x10#6
  | .eret => copWord 0x10#6 0x10#5 0#5 0#5 0#5 0x18#6
  | .mfc1 rt fs => copWord 0x11#6 0x00#5 rt fs 0#5 0#6
  | .cfc1 rt fs => copWord 0x11#6 0x02#5 rt fs 0#5 0#6
  | .mtc1 rt fs => copWord 0x11#6 0x04#5 rt fs 0#5 0#6
  | .ctc1 rt fs => copWord 0x11#6 0x06#5 rt fs 0#5 0#6
  | .addS fd fs ft => copWord 0x11#6 0x10#5 ft fs fd 0x00#6
  | .subS fd fs ft => copWord 0x11#6 0x10#5 ft fs fd 0x01#6
  | .mulS fd fs ft => copWord 0x11#6 0x10#5 ft fs fd 0x02#6
  | .divS fd fs ft => copWord 0x11#6 0x10#5 ft fs fd 0x03#6
  | .maddS fd fs ft => copWord 0x11#6 0x10#5 ft fs fd 0x1C#6
  | .msubS fd fs ft => copWord 0x11#6 0x10#5 ft fs fd 0x1D#6

/-- The four bytes of a word as memory holds them, the least significant first (R87, R140). -/
def bytesOfWord (w : Word) : List Byte :=
  [w.extractLsb' 0 8, w.extractLsb' 8 8, w.extractLsb' 16 8, w.extractLsb' 24 8]

/-- The word that four bytes in memory order make (R87); a missing byte counts as 0. -/
def wordOfBytes (bs : List Byte) : Word :=
  bs.getD 3 0#8 ++ bs.getD 2 0#8 ++ bs.getD 1 0#8 ++ bs.getD 0 0#8

/-- `Decode` on the bytes of an instruction in memory order (R87, R140, R144). -/
def decodeBytes (c : CoreId) (bs : List Byte) : Decoded := decode c (wordOfBytes bs)

/-- The instruction the decoder reads from a word of the opcode table: the EE table, then the IOP table (R146: the only row
the EE table lacks is RFE). -/
def decodeTableWord (nbits w : Nat) : Option Instr :=
  let bytes := bytesOfWord (BitVec.ofNat 32 (w % 2 ^ nbits))
  match decodeBytes .ee bytes with
  | .row i => some i
  | .unknown =>
    match decodeBytes .iop bytes with
    | .row i => some i
    | .unknown => none

/-- One row of the opcode map as R150 prints it: mnemonic, mask, match, and whose table holds it. -/
structure OpcodeRow where
  mnemonic : String
  mask : Word
  pattern : Word
  onEE : Bool
  onIOP : Bool
deriving DecidableEq, Repr

/-- R150: the rows under opcode 0x00. -/
def opcodeRowsSpecial : List OpcodeRow :=
  [⟨"SLL", 0xFC00003F#32, 0x00000000#32, true, true⟩,
   ⟨"SRL", 0xFC00003F#32, 0x00000002#32, true, true⟩,
   ⟨"SRA", 0xFC00003F#32, 0x00000003#32, true, true⟩,
   ⟨"JR", 0xFC00003F#32, 0x00000008#32, true, true⟩,
   ⟨"JALR", 0xFC00003F#32, 0x00000009#32, true, true⟩,
   ⟨"ADD", 0xFC00003F#32, 0x00000020#32, true, true⟩,
   ⟨"ADDU", 0xFC00003F#32, 0x00000021#32, true, true⟩,
   ⟨"SUB", 0xFC00003F#32, 0x00000022#32, true, true⟩,
   ⟨"SUBU", 0xFC00003F#32, 0x00000023#32, true, true⟩,
   ⟨"AND", 0xFC00003F#32, 0x00000024#32, true, true⟩,
   ⟨"OR", 0xFC00003F#32, 0x00000025#32, true, true⟩,
   ⟨"XOR", 0xFC00003F#32, 0x00000026#32, true, true⟩,
   ⟨"NOR", 0xFC00003F#32, 0x00000027#32, true, true⟩,
   ⟨"SLT", 0xFC00003F#32, 0x0000002A#32, true, true⟩,
   ⟨"SLTU", 0xFC00003F#32, 0x0000002B#32, true, true⟩]

/-- R150: jumps, branches and immediate arithmetic. -/
def opcodeRowsImmediate : List OpcodeRow :=
  [⟨"J", 0xFC000000#32, 0x08000000#32, true, true⟩,
   ⟨"JAL", 0xFC000000#32, 0x0C000000#32, true, true⟩,
   ⟨"BEQ", 0xFC000000#32, 0x10000000#32, true, true⟩,
   ⟨"BNE", 0xFC000000#32, 0x14000000#32, true, true⟩,
   ⟨"ADDI", 0xFC000000#32, 0x20000000#32, true, true⟩,
   ⟨"ADDIU", 0xFC000000#32, 0x24000000#32, true, true⟩,
   ⟨"SLTI", 0xFC000000#32, 0x28000000#32, true, true⟩,
   ⟨"SLTIU", 0xFC000000#32, 0x2C000000#32, true, true⟩,
   ⟨"ANDI", 0xFC000000#32, 0x30000000#32, true, true⟩,
   ⟨"ORI", 0xFC000000#32, 0x34000000#32, true, true⟩,
   ⟨"XORI", 0xFC000000#32, 0x38000000#32, true, true⟩,
   ⟨"LUI", 0xFC000000#32, 0x3C000000#32, true, true⟩,
   ⟨"BEQL", 0xFC000000#32, 0x50000000#32, true, false⟩,
   ⟨"BNEL", 0xFC000000#32, 0x54000000#32, true, false⟩]

/-- R150: loads and stores. -/
def opcodeRowsMemory : List OpcodeRow :=
  [⟨"LQ", 0xFC000000#32, 0x78000000#32, true, false⟩,
   ⟨"SQ", 0xFC000000#32, 0x7C000000#32, true, false⟩,
   ⟨"LB", 0xFC000000#32, 0x80000000#32, true, true⟩,
   ⟨"LH", 0xFC000000#32, 0x84000000#32, true, true⟩,
   ⟨"LW", 0xFC000000#32, 0x8C000000#32, true, true⟩,
   ⟨"LBU", 0xFC000000#32, 0x90000000#32, true, true⟩,
   ⟨"LHU", 0xFC000000#32, 0x94000000#32, true, true⟩,
   ⟨"LWU", 0xFC000000#32, 0x9C000000#32, true, false⟩,
   ⟨"SB", 0xFC000000#32, 0xA0000000#32, true, true⟩,
   ⟨"SH", 0xFC000000#32, 0xA4000000#32, true, true⟩,
   ⟨"SW", 0xFC000000#32, 0xAC000000#32, true, true⟩,
   ⟨"LD", 0xFC000000#32, 0xDC000000#32, true, false⟩,
   ⟨"SD", 0xFC000000#32, 0xFC000000#32, true, false⟩]

/-- R150: the coprocessor rows. -/
def opcodeRowsCoprocessor : List OpcodeRow :=
  [⟨"MFC0", 0xFFE00000#32, 0x40000000#32, true, true⟩,
   ⟨"MTC0", 0xFFE00000#32, 0x40800000#32, true, true⟩,
   ⟨"TLBWI", 0xFFE0003F#32, 0x42000002#32, true, false⟩,
   ⟨"RFE", 0xFFE0003F#32, 0x42000010#32, false, true⟩,
   ⟨"ERET", 0xFFE0003F#32, 0x42000018#32, true, false⟩,
   ⟨"MFC1", 0xFFE00000#32, 0x44000000#32, true, false⟩,
   ⟨"CFC1", 0xFFE00000#32, 0x44400000#32, true, false⟩,
   ⟨"MTC1", 0xFFE00000#32, 0x44800000#32, true, false⟩,
   ⟨"CTC1", 0xFFE00000#32, 0x44C00000#32, true, false⟩,
   ⟨"ADD.S", 0xFFE0003F#32, 0x46000000#32, true, false⟩,
   ⟨"SUB.S", 0xFFE0003F#32, 0x46000001#32, true, false⟩,
   ⟨"MUL.S", 0xFFE0003F#32, 0x46000002#32, true, false⟩,
   ⟨"DIV.S", 0xFFE0003F#32, 0x46000003#32, true, false⟩,
   ⟨"MADD.S", 0xFFE0003F#32, 0x4600001C#32, true, false⟩,
   ⟨"MSUB.S", 0xFFE0003F#32, 0x4600001D#32, true, false⟩]

/-- The opcode map (R150), in the order of spec/opcode_table.json. -/
def opcodeTable : List OpcodeRow :=
  opcodeRowsSpecial ++ opcodeRowsImmediate ++ opcodeRowsMemory ++ opcodeRowsCoprocessor

/-- Whether a core's table holds a row (R146). -/
def OpcodeRow.on (r : OpcodeRow) : CoreId → Bool
  | .ee => r.onEE
  | .iop => r.onIOP

/-- `w` selects the row when `w & mask == match` (R150). -/
def OpcodeRow.matches (r : OpcodeRow) (w : Word) : Bool := w &&& r.mask = r.pattern

/-- Two rows no word can match at once: their matches differ in a bit that both masks cover (R150). -/
def OpcodeRow.disjoint (r t : OpcodeRow) : Bool :=
  r.pattern &&& (r.mask &&& t.mask) ≠ t.pattern &&& (r.mask &&& t.mask)

end Sys2Proof
end

