-- ==== Sys2Proof/Machine/State.lean ====
section
/-! DEFINITION. The machine's state as plain data: both instances, the shared physical space, the platform and scheduler
inputs, and the state right after reset. Every register and record is the one spec/10_state.md names. -/

namespace Sys2Proof.Machine

/-- The direction an address fault records (R30, R90): `Store` for a store, `LoadOrFetch` otherwise. -/
inductive Dir where
  | loadOrFetch
  | store
deriving DecidableEq, Repr

/-- The kind of an exception record with its auxiliary data (R30, R330). -/
inductive ExcKind where
  | interrupt (lines : BitVec 8)
  | addressError (va : Word) (dir : Dir)
  | translationMiss (va : Word) (dir : Dir)
  | translationInvalid (va : Word) (dir : Dir)
  | translationModified (va : Word) (dir : Dir)
  | arithmeticOverflow
  | coprocessorUnusable (cop : BitVec 2)
deriving DecidableEq, Repr

/-- One entry of the exception queue: kind and auxiliary data, and the return point captured when it is raised (R30). -/
structure Record where
  kind : ExcKind
  epc : Word
  bdflag : Bool
deriving DecidableEq, Repr

/-- The branch-delay record `bd` (R29, R230). -/
inductive Tracker where
  | idle
  | pending (target : Word) (remaining : Nat)
deriving DecidableEq, Repr

/-- The three failure values of the mapper (R84). -/
inductive MapError where
  | unmapped
  | sizeViolation
  | alignViolation
deriving DecidableEq, Repr

/-- The direction of a physical access (R83). -/
inductive BusDir where
  | read
  | write
deriving DecidableEq, Repr

/-- Why a run aborts (R182). -/
inductive AbortReason where
  | unimplementedMode                                                -- R94 (a)
  | unimplementedStage2                                              -- R94 (b)
  | bus (kind : MapError) (pa : Word) (bytes : Nat) (dir : BusDir)   -- R86
  | tlbIndexOutOfRange (index : BitVec 6)                            -- R286
deriving DecidableEq, Repr

/-- The diagnostic context of an abort: core, PC, instruction word if one was fetched, cycle count (R51, R182). -/
structure AbortContext where
  core : CoreId
  pc : Word
  word : Option Word
  cycles : BitVec 64
deriving DecidableEq, Repr

/-- `run` (R51). -/
inductive Run where
  | running
  | aborted (reason : AbortReason) (ctx : AbortContext)
deriving DecidableEq, Repr

/-- An event of the diagnostic interface (R185). -/
inductive Event where
  | unknownInstruction (core : CoreId) (address : Word) (word : Word)
  | abort (reason : AbortReason) (ctx : AbortContext)
deriving DecidableEq, Repr

/-- The width of a mapped register object (R82 (b)). -/
inductive RegWidth where
  | w8
  | w16
  | w32
  | w64
  | w128
deriving DecidableEq, Repr

/-- How a mapped register object answers: it keeps the value last written, or it has custom read and write functions, which
are the platform's (R82 (b)); `custom id` names which. -/
inductive RegSemantics where
  | plain
  | custom (id : Nat)
deriving DecidableEq, Repr

/-- The kinds of mapped object (R82). -/
inductive ObjectKind where
  | ram (size : Nat)
  | register (width : RegWidth) (semantics : RegSemantics)
  | constant (size : Nat) (pattern : List Byte)
deriving DecidableEq, Repr

/-- A mapped object of `PhysMap`: its base physical address and its kind, which fixes its extent (R81, R82). -/
structure MappedObject where
  base : Nat
  kind : ObjectKind
deriving DecidableEq, Repr

/-- The bytes of the mapped objects, by physical address: a list in one canonical form (`Memory.wf`). -/
abbrev Memory := List Host.Cell

/-- The state elements that both instances have in the same shape (R20): program counter (R28), tracker (R29), queue (R30),
the control registers Status, Cause, EPC and BadVAddr (R33 to R36, R42, R43), the cycle counter (R52), and the value the
last step returned to the scheduler (R170). -/
structure Control where
  pc : Word
  bd : Tracker
  xq : List Record
  status : Word
  cause : Word
  epc : Word
  badVAddr : Word
  cyclesTotal : BitVec 64
  returned : BitVec 64
deriving DecidableEq, Repr

/-- The EE instance (R20): general registers (R24), control state, the EE control registers (R37 to R41), the translation
table (R47), the floating-point file (R48, R49) and the three interrupt input lines (R31). -/
structure EECore where
  gpr : Vector Quad 32
  ctl : Control
  index : Word
  entryLo0 : Word
  entryLo1 : Word
  pageMask : Word
  entryHi : Word
  errorEpc : Word
  tlb : Vector TlbEntry 48
  fpr : Vector Word 32
  acc : Word
  fcr31 : Word
  int0 : Bool
  int1 : Bool
  timer : Bool
deriving DecidableEq, Repr

/-- The IOP instance (R20): general registers (R24), control state and the six interrupt input lines, `L2` in bit 0 up to
`L7` in bit 5 (R31). -/
structure IOPCore where
  gpr : Vector Word 32
  ctl : Control
  lines : BitVec 6
deriving DecidableEq, Repr

/-- The open parameters of R5 besides `PhysMap` and `irq_in`: the cost of row `n` is 1 more than entry `n` of `extraCosts` (0
where the list ends), likewise for the unknown word and the early end, so that each is at least 1 (R170); `FP_CLAMP_MAX`
(R307); and which `FpCompute` (R306). -/
structure Params where
  extraCosts : List Nat
  unknownExtra : Nat
  earlyExtra : Nat
  fpClampMax : Word
  fpCompute : FpChoice
deriving DecidableEq, Repr

/-- An action of the agents outside a core's step (R10, R112): the scheduler calls the step of one instance, an input line
changes, an agent reads or writes through the mapper, or a device changes the bytes of its own object. -/
inductive Action where
  | step (core : CoreId)
  | eeLines (int0 int1 timer : Bool)
  | iopLines (lines : BitVec 6)
  | busRead (pa : Word) (bytes : Nat)
  | busWrite (pa : Word) (bytes : Nat) (value : Quad)
  | deviceUpdate (pa : Word) (bytes : Nat) (value : Quad)
deriving DecidableEq, Repr

/-- The whole machine. `turn` is the instance whose step runs (or ran last); `agenda` is what the scheduler and the external
agents do next, in order, and when it is empty the instance of `turn` goes on stepping; `inFlight` is the instruction word
of the step under way; `freeCount` is the counter the free values are applied to. -/
structure State where
  turn : CoreId
  ee : EECore
  iop : IOPCore
  mem : Memory
  physMap : List MappedObject
  params : Params
  run : Run
  log : List Event
  inFlight : Option Word
  agenda : List Action
  freeCount : Nat
deriving DecidableEq, Repr

/-- Why the machine stops. -/
inductive Fault where
  /-- Raised by `step` when `run` is `Aborted`: "no step of either instance is taken" (R51, R182). Safe: the spec says so. -/
  | runAborted
deriving DecidableEq, Repr

/-- Why the model gives no next state. -/
inductive Refusal where
  /-- Raised by an arm of `exec` whose instruction has no meaning yet; no arm does. Safe. -/
  | notModelled (mnemonic : String)
  /-- Raised by `step` when two objects of `PhysMap` overlap or one reaches past the physical space: item 29 of
  spec/93_implementation_defined.md refuses such a map (R81). Safe: the state is outside the spec's domain. -/
  | invalidPhysMap
deriving DecidableEq, Repr

/-- A control part right after reset: `pc` at `RESET_PC` (R28), tracker idle (R29), queue empty (R30), Status as given, the
rest at the values of log entry 1. -/
def Control.reset (status : Word) : Control where
  pc := Config.resetPc
  bd := .idle
  xq := []
  status := status
  cause := 0#32
  epc := 0#32
  badVAddr := 0#32
  cyclesTotal := 0#64
  returned := 0#64

/-- A sub-page with every field 0 (log entry 1). -/
def zeroSubPage : SubPage := ⟨0#20, 0#3, false, false⟩

/-- A table entry with every field 0, which is valid for no page (log entry 1). -/
def zeroEntry : TlbEntry := ⟨0#12, 0#19, 0#8, false, false, zeroSubPage, zeroSubPage⟩

/-- EE right after reset: Status is 0x00000004 (R33); what the spec leaves unspecified is 0 (log entry 1). -/
def EECore.reset : EECore where
  gpr := Vector.replicate 32 0#128
  ctl := Control.reset 0x00000004#32
  index := 0#32
  entryLo0 := 0#32
  entryLo1 := 0#32
  pageMask := 0#32
  entryHi := 0#32
  errorEpc := 0#32
  tlb := Vector.replicate 48 zeroEntry
  fpr := Vector.replicate 32 0#32
  acc := 0#32
  fcr31 := 0#32
  int0 := false
  int1 := false
  timer := false

/-- IOP right after reset: Status is 0 (R42); what the spec leaves unspecified is 0 (log entry 1). -/
def IOPCore.reset : IOPCore where
  gpr := Vector.replicate 32 0#32
  ctl := Control.reset 0x00000000#32
  lines := 0#6

/-- The default parameters: every cost 1, `FP_CLAMP_MAX` 0x7F7FFFFF (R5), and the default value function (R306). -/
def Params.default : Params where
  extraCosts := []
  unknownExtra := 0
  earlyExtra := 0
  fpClampMax := 0x7F7FFFFF#32
  fpCompute := .ieee

/-- The platform map of the reset state: one RAM block over the whole physical space (log entry 2). -/
def resetPhysMap : List MappedObject := [⟨0, .ram (2 ^ 32)⟩]

/-- The machine right after reset (R390, R391): both instances at their reset values, no memory byte listed, `run` running
(R51); the scheduler's and the platform's inputs as log entries 2 and 4 say. -/
def State.reset : State where
  turn := .ee
  ee := EECore.reset
  iop := IOPCore.reset
  mem := []
  physMap := resetPhysMap
  params := Params.default
  run := .running
  log := []
  inFlight := none
  agenda := []
  freeCount := 0

end Sys2Proof.Machine
end

