-- ==== Sys2Proof/Machine/Ops.lean ====
section
/-! DEFINITION. The named operations over the state: bytes of memory, the mapper (R81 to R86), register cells (R21 to R27),
control registers (R32 to R46), the translator (R90 to R104), the access primitives (R105, R108, R109), raising, dispatching
and returning from an exception (R334 to R349, R284, R285), and abort (R182). -/

namespace Sys2Proof.Machine

/-- What a handler answers: always a next state in this model; the type is the host's. -/
abbrev Result := Host.Outcome State Fault Refusal

/-! ### Bytes of memory -/

/-- What a byte that nothing has written reads as (log entry 3). -/
def Memory.unlisted : Byte := 0#8

/-- One byte of memory. -/
def Memory.read : Memory → Nat → Byte
  | [], _ => Memory.unlisted
  | (k, b) :: m, a => if k = a then b else Memory.read m a

/-- Write one byte, keeping the canonical form. -/
def Memory.write : Memory → Nat → Byte → Memory
  | [], a, v => if v = Memory.unlisted then [] else [(a, v)]
  | (k, b) :: m, a, v =>
    if a < k then
      if v = Memory.unlisted then (k, b) :: m else (a, v) :: (k, b) :: m
    else if a = k then
      if v = Memory.unlisted then m else (a, v) :: m
    else (k, b) :: Memory.write m a v

/-- Every address of the list lies above `lo`, addresses rise strictly, and no entry equals what an unlisted byte reads as. -/
def Memory.wfAbove : Option Nat → Memory → Bool
  | _, [] => true
  | lo, (k, b) :: m =>
    (match lo with
      | none => true
      | some l => decide (l < k)) && decide (b ≠ Memory.unlisted) && Memory.wfAbove (some k) m

/-- The canonical form of a memory. -/
def Memory.wf (m : Memory) : Bool := Memory.wfAbove none m

/-- The `n` bytes at `a` as a little-endian number (R87). -/
def Memory.readLE (m : Memory) : (a n : Nat) → Nat
  | _, 0 => 0
  | a, n + 1 => (Memory.read m a).toNat + 256 * Memory.readLE m (a + 1) n

/-- Write the `n` low bytes of `v` at `a`, the least significant first (R87). -/
def Memory.writeLE (m : Memory) : (a n v : Nat) → Memory
  | _, 0, _ => m
  | a, n + 1, v => Memory.writeLE (Memory.write m a (BitVec.ofNat 8 v)) (a + 1) n (v / 256)

/-! ### The register cell (R21 to R23) -/

/-- Whether a cell of `w` bits supports an access of `size` bits at element `k`: a 128-bit cell every size class by element,
any other cell its own width only (R22). -/
def cellSupports (w size k : Nat) : Bool :=
  if w = 128 then [8, 16, 32, 64, 128].contains size && decide (k < 128 / size)
  else decide (w ∈ [8, 16, 32, 64]) && decide (size = w) && decide (k = 0)

/-- Read element `k` of size `size` of a cell; an unsupported access is a typed error (R22, R23). -/
def cellRead {w : Nat} (cell : BitVec w) (size k : Nat) : Except MapError (BitVec size) :=
  if cellSupports w size k then .ok (cell.extractLsb' (size * k) size) else .error .sizeViolation

/-- Write element `k` of size `size` of a cell; an unsupported access is a typed error and changes nothing (R22, R23). -/
def cellWrite {w : Nat} (cell : BitVec w) (size k : Nat) (v : BitVec size) : Except MapError (BitVec w) :=
  if cellSupports w size k then
    let hole : BitVec w := (BitVec.allOnes size).setWidth w <<< (size * k)
    .ok ((cell &&& ~~~hole) ||| (v.setWidth w <<< (size * k)))
  else .error .sizeViolation

/-! ### The mapper -/

/-- The bytes of a register object of each width (R82 (b)). -/
def RegWidth.bytes : RegWidth → Nat
  | .w8 => 1
  | .w16 => 2
  | .w32 => 4
  | .w64 => 8
  | .w128 => 16

/-- The extent of an object in bytes (R81, R82). -/
def MappedObject.extent (o : MappedObject) : Nat :=
  match o.kind with
  | .ram size => size
  | .register w _ => w.bytes
  | .constant size _ => size

/-- An object whose declared range contains a physical address (R83). -/
def MappedObject.contains (o : MappedObject) (pa : Nat) : Bool :=
  decide (o.base ≤ pa) && decide (pa < o.base + o.extent)

/-- Two objects whose extents do not overlap (R81). That an object of extent 0 based strictly inside another counts as an overlap
is the model's choice (DESIGN CHOICE: log entry 33). -/
def MappedObject.disjoint (o p : MappedObject) : Bool :=
  decide (o.base + o.extent ≤ p.base) || decide (p.base + p.extent ≤ o.base)

/-- A map whose objects lie in the physical space and do not overlap (R80, R81). -/
def physMapValid : List MappedObject → Bool
  | [] => true
  | o :: os => decide (o.base + o.extent ≤ 2 ^ 32) && os.all (MappedObject.disjoint o) && physMapValid os

/-- Whether an object supports an access of `n` bytes (R82): a RAM or constant block every size class up to its size, a
register below 128 bits its own width only, a 128-bit register every size class. -/
def MappedObject.supports (o : MappedObject) (n : Nat) : Bool :=
  [1, 2, 4, 8, 16].contains n &&
    match o.kind with
    | .ram size => decide (n ≤ size)
    | .constant size _ => decide (n ≤ size)
    | .register .w128 _ => true
    | .register w _ => decide (n = w.bytes)

/-- The object an access reaches and the offset inside it, or the typed error (R83). The size check comes first. -/
def locate (objects : List MappedObject) (pa : Word) (n : Nat) : Except MapError (MappedObject × Nat) :=
  match objects.find? (fun o => o.contains pa.toNat) with
  | none => .error .unmapped
  | some o =>
    let off := pa.toNat - o.base
    if ¬ o.supports n then .error .sizeViolation
    else if off % n ≠ 0 ∨ off + n > o.extent then .error .alignViolation
    else .ok (o, off)

/-- The bytes of a constant block's pattern from an offset on, as a little-endian number (R82 (c)). That the pattern repeats
through the block (DEDUCED: log entry 18), and that an empty one reads 0 (DESIGN CHOICE: log entry 32), are the model's. -/
def constantBytes (pattern : List Byte) (off : Nat) : Nat → Nat
  | 0 => 0
  | n + 1 => (pattern.getD (off % pattern.length) 0#8).toNat + 256 * constantBytes pattern (off + 1) n

/-- `PhysRead(pa, n)` (R83, R85). A custom register answers and stores what the platform's functions say (log entry 6). -/
def physRead (pa : Word) (n : Nat) (s : State) : Except MapError (BitVec (8 * n) × State) :=
  match locate s.physMap pa n with
  | .error e => .error e
  | .ok (o, off) =>
    match o.kind with
    | .ram _ => .ok (BitVec.ofNat (8 * n) (Memory.readLE s.mem pa.toNat n), s)
    | .constant _ pattern => .ok (BitVec.ofNat (8 * n) (constantBytes pattern off n), s)
    | .register _ .plain => .ok (BitVec.ofNat (8 * n) (Memory.readLE s.mem pa.toNat n), s)
    | .register w (.custom id) =>
      let stored := BitVec.ofNat 128 (Memory.readLE s.mem o.base w.bytes)
      let value := Config.deviceReadValue s.freeCount id off n stored
      let after := Config.deviceReadStore s.freeCount id off n stored
      .ok (value.setWidth (8 * n),
        { s with mem := Memory.writeLE s.mem o.base w.bytes after.toNat, freeCount := s.freeCount + 1 })

/-- `PhysWrite(pa, n, v)` (R83). A constant block discards the value (R82 (c)). -/
def physWrite (pa : Word) (n : Nat) (v : BitVec (8 * n)) (s : State) : Except MapError State :=
  match locate s.physMap pa n with
  | .error e => .error e
  | .ok (o, off) =>
    match o.kind with
    | .ram _ => .ok { s with mem := Memory.writeLE s.mem pa.toNat n v.toNat }
    | .constant _ _ => .ok s
    | .register _ .plain => .ok { s with mem := Memory.writeLE s.mem pa.toNat n v.toNat }
    | .register w (.custom id) =>
      let stored := BitVec.ofNat 128 (Memory.readLE s.mem o.base w.bytes)
      let after := Config.deviceWriteStore s.freeCount id off n stored (v.setWidth 128)
      .ok { s with mem := Memory.writeLE s.mem o.base w.bytes after.toNat, freeCount := s.freeCount + 1 }

/-! ### The core that steps -/

/-- The control part of the instance whose turn it is. -/
def State.ctl (s : State) : Control :=
  match s.turn with
  | .ee => s.ee.ctl
  | .iop => s.iop.ctl

/-- Replace the control part of the instance whose turn it is. -/
def State.setCtl (s : State) (k : Control) : State :=
  match s.turn with
  | .ee => { s with ee := { s.ee with ctl := k } }
  | .iop => { s with iop := { s.iop with ctl := k } }

/-! ### General registers (R24 to R26) -/

/-- `q[r]`: the whole 128-bit cell of EE general register `r`; register 0 reads 0 (R24, R26). -/
def State.q (s : State) (r : RegIdx) : Quad :=
  if r = 0#5 then 0#128 else s.ee.gpr[r.toNat]'r.isLt

/-- `q[r] <- v`; a write to register 0 is discarded (R26). -/
def State.setQ (s : State) (r : RegIdx) (v : Quad) : State :=
  if r = 0#5 then s else { s with ee := { s.ee with gpr := s.ee.gpr.set r.toNat v r.isLt } }

/-- The 32-bit cell of IOP general register `r`; register 0 reads 0 (R24, R26). -/
def State.r32 (s : State) (r : RegIdx) : Word :=
  if r = 0#5 then 0#32 else s.iop.gpr[r.toNat]'r.isLt

/-- Write an IOP general register; a write to register 0 is discarded (R26). -/
def State.setR32 (s : State) (r : RegIdx) (v : Word) : State :=
  if r = 0#5 then s else { s with iop := { s.iop with gpr := s.iop.gpr.set r.toNat v r.isLt } }

/-- The low `n` bits of general register `r` of the stepping core; `x[r]` is `s.x r XLEN`, `w32(r)` is `s.x r 32` (R8, R25). -/
def State.x (s : State) (r : RegIdx) (n : Nat) : BitVec n :=
  match s.turn with
  | .ee => (s.q r).setWidth n
  | .iop => (s.r32 r).setWidth n

/-- A 128-bit cell from its upper and its lower half (R22, R25). -/
def joinHalves (hi lo : Double) : Quad := hi ++ lo

/-- `x[r] <- v` for the stepping core, the value given for every width and taken at `XLEN`; on EE bits 127:64 of the cell
keep their value (R8, R25). -/
def State.setX (s : State) (r : RegIdx) (v : (n : Nat) → BitVec n) : State :=
  match s.turn with
  | .ee => s.setQ r (joinHalves ((s.q r).extractLsb' 64 64) (v 64))
  | .iop => s.setR32 r (v 32)

/-- `sx(v)`: the 32-bit value sign-extended to the width of the register (R8). -/
def sx (v : Word) (n : Nat) : BitVec n := v.signExtend n

/-- `zext(v)` for a value of any width (R7). -/
def zx {k : Nat} (v : BitVec k) (n : Nat) : BitVec n := v.setWidth n

/-! ### Status and the predicates derived from it (R46) -/

/-- The bits of `w` outside `mask` with the bits of `v` inside it: how a masked register write acts (R21, R282). -/
def setBits (w mask v : Word) : Word := (w &&& ~~~mask) ||| (v &&& mask)

/-- EE Status.KSU, bits 4:3 (R33). -/
def ksu (status : Word) : BitVec 2 := status.extractLsb' 3 2

/-- `KernelMode` (R46). -/
def kernelMode (c : CoreId) (status : Word) : Bool :=
  match c with
  | .ee => decide (ksu status = 0#2) || status.getLsbD 1 || status.getLsbD 2
  | .iop => !status.getLsbD 1

/-- `UserMode` (R46). -/
def userMode (c : CoreId) (status : Word) : Bool :=
  match c with
  | .ee => decide (ksu status = 2#2) && !status.getLsbD 1 && !status.getLsbD 2
  | .iop => status.getLsbD 1

/-- `IntEnabled` (R46): EE IE and EIE and neither EXL nor ERL; IOP IEc. -/
def intEnabled (c : CoreId) (status : Word) : Bool :=
  match c with
  | .ee => status.getLsbD 0 && status.getLsbD 16 && !status.getLsbD 1 && !status.getLsbD 2
  | .iop => status.getLsbD 0

/-- `CopUsable(n)` (R46): coprocessor 0 also in kernel mode, the others by their CU bit alone. -/
def copUsable (c : CoreId) (status : Word) (n : BitVec 2) : Bool :=
  if n = 0#2 then kernelMode c status || status.getLsbD 28
  else status.getLsbD (28 + n.toNat)

/-- `CopUsable(n)` of the stepping core. -/
def State.copUsable (s : State) (n : BitVec 2) : Bool := Machine.copUsable s.turn s.ctl.status n

/-! ### Control registers by number (R32 to R45) -/

/-- The write mask of a control register, `none` where the core does not define the number (R32 to R43). -/
def cop0WriteMask (c : CoreId) (n : RegIdx) : Option Word :=
  match c, n.toNat with
  | .ee, 0 => some 0x0000003F#32
  | .ee, 2 => some 0x83FFFFFF#32
  | .ee, 3 => some 0x03FFFFFF#32
  | .ee, 5 => some 0x01FFE000#32
  | .ee, 8 => some 0x00000000#32
  | .ee, 10 => some 0xFFFFE0FF#32
  | .ee, 12 => some 0xF0018C1F#32
  | .ee, 13 => some 0x00000000#32
  | .ee, 14 => some 0xFFFFFFFF#32
  | .ee, 30 => some 0xFFFFFFFF#32
  | .iop, 8 => some 0x00000000#32
  | .iop, 12 => some 0xF000FF3F#32
  | .iop, 13 => some 0x00000300#32
  | .iop, 14 => some 0xFFFFFFFF#32
  | _, _ => none

/-- The bits of a control register that its fields cover; a reserved bit reads as 0 (R33 to R44). -/
def cop0ReadMask (c : CoreId) (n : RegIdx) : Word :=
  match c, n.toNat with
  | .ee, 0 => 0x0000003F#32
  | .ee, 2 => 0x83FFFFFF#32
  | .ee, 3 => 0x03FFFFFF#32
  | .ee, 5 => 0x01FFE000#32
  | .ee, 10 => 0xFFFFE0FF#32
  | .ee, 12 => 0xF0018C1F#32
  | .ee, 13 => 0xB0008C7C#32
  | .iop, 12 => 0xF000FF3F#32
  | .iop, 13 => 0xB000FF7C#32
  | _, _ => 0xFFFFFFFF#32

/-- The cell of a control register of the stepping core; 0 for a number it does not define (never read there). -/
def State.cop0Cell (s : State) (n : RegIdx) : Word :=
  match s.turn, n.toNat with
  | .ee, 0 => s.ee.index
  | .ee, 2 => s.ee.entryLo0
  | .ee, 3 => s.ee.entryLo1
  | .ee, 5 => s.ee.pageMask
  | .ee, 10 => s.ee.entryHi
  | .ee, 30 => s.ee.errorEpc
  | _, 8 => s.ctl.badVAddr
  | _, 12 => s.ctl.status
  | _, 13 => s.ctl.cause
  | _, 14 => s.ctl.epc
  | _, _ => 0#32

/-- Store into the cell of a control register of the stepping core. -/
def State.setCop0Cell (s : State) (n : RegIdx) (v : Word) : State :=
  match s.turn, n.toNat with
  | .ee, 0 => { s with ee := { s.ee with index := v } }
  | .ee, 2 => { s with ee := { s.ee with entryLo0 := v } }
  | .ee, 3 => { s with ee := { s.ee with entryLo1 := v } }
  | .ee, 5 => { s with ee := { s.ee with pageMask := v } }
  | .ee, 10 => { s with ee := { s.ee with entryHi := v } }
  | .ee, 30 => { s with ee := { s.ee with errorEpc := v } }
  | _, 8 => s.setCtl { s.ctl with badVAddr := v }
  | _, 12 => s.setCtl { s.ctl with status := v }
  | _, 13 => s.setCtl { s.ctl with cause := v }
  | _, 14 => s.setCtl { s.ctl with epc := v }
  | _, _ => s

/-- What MFC0 reads from control register `n`: the read view of a defined register, the free value `Cop0Other(n)` of any
other (R44, R45, R281). -/
def State.cop0Read (s : State) (n : RegIdx) : Word :=
  match cop0WriteMask s.turn n with
  | some _ => s.cop0Cell n &&& cop0ReadMask s.turn n
  | none => Config.cop0Other s.freeCount n

/-- What MTC0 does to control register `n`: the masked write of a defined register, nothing to any other (R45, R282). -/
def State.cop0Write (s : State) (n : RegIdx) (v : Word) : State :=
  match cop0WriteMask s.turn n with
  | some mask => s.setCop0Cell n (setBits (s.cop0Cell n) mask v)
  | none => s

/-! ### Floating-point registers (R48) -/

/-- `f[r]` (R48). -/
def State.f (s : State) (r : RegIdx) : Word := s.ee.fpr[r.toNat]'r.isLt

/-- `f[r] <- v` (R48). -/
def State.setF (s : State) (r : RegIdx) (v : Word) : State :=
  { s with ee := { s.ee with fpr := s.ee.fpr.set r.toNat v r.isLt } }

/-! ### The translator (R90 to R104) -/

/-- What `Translate` answers (R90): a physical address, a fault, or the abort of R94. -/
inductive Translation where
  | ok (pa : Word)
  | fault (k : ExcKind)
  | abort (r : AbortReason)
deriving DecidableEq, Repr

/-- The direction a fault records (R90). -/
def dirOf : AccessKind → Dir
  | .store => .store
  | .load => .loadOrFetch
  | .fetch => .loadOrFetch

/-- Whether an entry matches an address: the page numbers agree outside the entry's mask (R95). -/
def entryMatches (e : TlbEntry) (va : Word) : Bool :=
  va.extractLsb' 13 19 &&& ~~~(e.mask.setWidth 19) = e.vpn2 &&& ~~~(e.mask.setWidth 19)

/-- The matching entry of least index (R95, R104). -/
def findEntry (tlb : Vector TlbEntry 48) (va : Word) : Option TlbEntry :=
  tlb.toList.find? (fun e => entryMatches e va)

/-- The number of 1 bits of a page mask (R97). -/
def maskBits (m : BitVec 12) : Nat :=
  ((List.range 12).filter (fun k => m.getLsbD k)).length

/-- The sub-page an address falls in: odd when bit `12 + popcount(Mask)` is 1 (R97). -/
def subPageOf (e : TlbEntry) (va : Word) : SubPage :=
  if va.getLsbD (12 + maskBits e.mask) then e.odd else e.even

/-- The page-offset mask of an entry (R98). -/
def offMaskOf (e : TlbEntry) : Word := (e.mask.setWidth 32 <<< 12) ||| 0x00000FFF#32

/-- The physical address of an entry without the scratchpad flag (R98). -/
def entryPhysical (e : TlbEntry) (va : Word) : Word :=
  (((subPageOf e va).pfn.setWidth 32 <<< 12) &&& ~~~(offMaskOf e)) ||| (va &&& offMaskOf e)

/-- The unspecified translation of an entry with an illegal mask, as a free value (R103, log entry 12). -/
def illegalMaskTranslation (count : Nat) (e : TlbEntry) (va : Word) (kind : AccessKind) : Translation :=
  match Config.illegalMaskFault count e va kind with
  | none => .ok (Config.illegalMaskPa count e va kind)
  | some k =>
    if k = 0 then .fault (.translationMiss va (dirOf kind))
    else if k = 1 ∨ kind ≠ .store then .fault (.translationInvalid va (dirOf kind))
    else .fault (.translationModified va .store)

/-- Stages 2 to 4 on EE (R95 to R99). -/
def translateTable (ee : EECore) (count : Nat) (va : Word) (kind : AccessKind) : Translation :=
  match findEntry ee.tlb va with
  | none => .fault (.translationMiss va (dirOf kind))
  | some e =>
    if ¬ Config.legalMasks.contains e.mask then illegalMaskTranslation count e va kind
    else if ¬ e.g ∧ e.asid ≠ ee.entryHi.extractLsb' 0 8 then .fault (.translationMiss va (dirOf kind))
    else if ¬ (subPageOf e va).v then .fault (.translationInvalid va (dirOf kind))
    else if kind = .store ∧ ¬ (subPageOf e va).d then .fault (.translationModified va .store)
    else if e.s then .ok (Config.sprBase + (va &&& (Config.sprSize - 1#32)))
    else .ok (entryPhysical e va)

/-- The fixed windows of kernel mode (R92, R93). -/
def window (c : CoreId) (va : Word) : Option Word :=
  if Config.win0Lo ≤ va ∧ va ≤ Config.win0Hi then some (va - Config.win0Lo)
  else if Config.win1Lo ≤ va ∧ va ≤ Config.win1Hi then some (va - Config.win1Lo)
  else if c = .iop ∧ Config.xwinHiLo ≤ va then some (va - Config.xwinHiOffset)
  else if c = .iop ∧ va ≤ Config.xwinLoHi then some va
  else none

/-- Stages 2 to 4: the table on EE; IOP has none and aborts (R94 (b), R95). -/
def translateMapped (va : Word) (kind : AccessKind) (s : State) : Translation :=
  match s.turn with
  | .ee => translateTable s.ee s.freeCount va kind
  | .iop => .abort .unimplementedStage2

/-- `Translate(va, kind)` of the stepping core (R90 to R101). -/
def translate (va : Word) (kind : AccessKind) (s : State) : Translation :=
  if userMode s.turn s.ctl.status then
    if Config.usegTop < va then .fault (.addressError va (dirOf kind))
    else translateMapped va kind s
  else if kernelMode s.turn s.ctl.status then
    match window s.turn va with
    | some pa => .ok pa
    | none => translateMapped va kind s
  else .abort .unimplementedMode

/-! ### Composite access primitives (R105, R108, R109) -/

/-- What an access of a core answers: a value and the state after it, a raise, or an abort. -/
inductive Access (α : Type) where
  | ok (v : α) (s : State)
  | raised (k : ExcKind)
  | aborted (r : AbortReason)
deriving DecidableEq, Repr

/-- Alignment, translation and one physical read of `n` bytes (R89, R105, R108). -/
def readVirtual (kind : AccessKind) (va : Word) (n : Nat) (s : State) : Access (BitVec (8 * n)) :=
  if va.toNat % n ≠ 0 then .raised (.addressError va .loadOrFetch)
  else
    match translate va kind s with
    | .fault k => .raised k
    | .abort r => .aborted r
    | .ok pa =>
      match physRead pa n s with
      | .error e => .aborted (.bus e pa n .read)
      | .ok (v, t) => .ok v t

/-- `MemRead(va, n)` (R108). -/
def memRead (va : Word) (n : Nat) (s : State) : Access (BitVec (8 * n)) := readVirtual .load va n s

/-- `FetchWord(pc)` (R105). -/
def fetchWord (s : State) : Access Word := readVirtual .fetch s.ctl.pc 4 s

/-- `MemWrite(va, n, v)` (R109). -/
def memWrite (va : Word) (n : Nat) (v : BitVec (8 * n)) (s : State) : Access Unit :=
  if va.toNat % n ≠ 0 then .raised (.addressError va .store)
  else
    match translate va .store s with
    | .fault k => .raised k
    | .abort r => .aborted r
    | .ok pa =>
      match physWrite pa n v s with
      | .error e => .aborted (.bus e pa n .write)
      | .ok t => .ok () t

/-! ### The program counter and the tracker -/

/-- Step 7: `pc <- pc + 4` (R178). -/
def State.advance (s : State) : State := s.setCtl { s.ctl with pc := s.ctl.pc + 4#32 }

/-- `arm(t)`: the tracker takes the target, whatever it held (R231, R233). -/
def State.arm (s : State) (t : Word) : State := s.setCtl { s.ctl with bd := .pending t Config.delaySlots }

/-- `ResolveBranchDelay()`, step 3 (R232). -/
def State.resolveBranchDelay (s : State) : State :=
  match s.ctl.bd with
  | .idle => s
  | .pending t 0 => s.setCtl { s.ctl with pc := t, bd := .idle }
  | .pending t (r + 1) => s.setCtl { s.ctl with bd := .pending t r }

/-! ### Abort and the unknown word -/

/-- `abort(reason)`: the run ends, with the context and the event of R182. -/
def State.abort (s : State) (r : AbortReason) : State :=
  let ctx : AbortContext := ⟨s.turn, s.ctl.pc, s.inFlight, s.ctl.cyclesTotal⟩
  { s with run := .aborted r ctx, log := s.log ++ [Event.abort r ctx], inFlight := none }

/-- The unknown-instruction handler and the advance of step 7 (R148, R180): one log event, nothing else. -/
def State.unknownInstruction (s : State) (w : Word) : State :=
  State.advance { s with log := s.log ++ [Event.unknownInstruction s.turn s.ctl.pc w] }

/-! ### Raising and taking an exception -/

/-- The return point of a synchronous record raised for the instruction at `pc` (R335). -/
def returnPoint (k : Control) : Word × Bool :=
  match k.bd with
  | .pending _ 0 => (k.pc - 4#32, true)
  | _ => (k.pc, false)

/-- `raise K(info)` (R334): append the record; the instruction ends and `pc` stays. -/
def State.raise (s : State) (kind : ExcKind) : State :=
  s.setCtl { s.ctl with xq := s.ctl.xq ++ [⟨kind, (returnPoint s.ctl).1, (returnPoint s.ctl).2⟩] }

/-- `Code(kind, dir)`, the exception code written to Cause (R331). -/
def excCode : ExcKind → BitVec 5
  | .interrupt _ => 0#5
  | .translationModified _ _ => 1#5
  | .translationMiss _ .loadOrFetch => 2#5
  | .translationInvalid _ .loadOrFetch => 2#5
  | .translationMiss _ .store => 3#5
  | .translationInvalid _ .store => 3#5
  | .addressError _ .loadOrFetch => 4#5
  | .addressError _ .store => 5#5
  | .coprocessorUnusable _ => 11#5
  | .arithmeticOverflow => 12#5

/-- The place of a kind in the priority order, 0 the highest (R337). -/
def priority : ExcKind → Nat
  | .interrupt _ => 0
  | .addressError _ _ => 1
  | .translationMiss _ _ => 2
  | .translationInvalid _ _ => 3
  | .translationModified _ _ => 4
  | .arithmeticOverflow => 5
  | .coprocessorUnusable _ => 6

/-- The record of highest priority; of two of one kind, the earlier (R337, R340). -/
def topRecord : Record → List Record → Record
  | r, [] => r
  | r, t :: ts => if priority t.kind < priority r.kind then topRecord t ts else topRecord r ts

/-- Cause after a dispatch: BD, ExcCode, and CE for CoprocessorUnusable (R340). -/
def causeAfter (cause : Word) (r : Record) : Word :=
  let c1 := setBits cause 0x80000000#32 (if r.bdflag then 0x80000000#32 else 0#32)
  let c2 := setBits c1 0x0000007C#32 ((excCode r.kind).setWidth 32 <<< 2)
  match r.kind with
  | .coprocessorUnusable cop => setBits c2 0x30000000#32 (cop.setWidth 32 <<< 28)
  | _ => c2

/-- The virtual address a dispatch writes into BadVAddr, for the address kinds (R340, R343). -/
def badAddress : ExcKind → Option Word
  | .addressError va _ => some va
  | .translationMiss va _ => some va
  | .translationInvalid va _ => some va
  | .translationModified va _ => some va
  | _ => none

/-- The virtual address whose page number a dispatch writes into EE EntryHi, for the Translation kinds (R340, R343). -/
def badPage : ExcKind → Option Word
  | .translationMiss va _ => some va
  | .translationInvalid va _ => some va
  | .translationModified va _ => some va
  | _ => none

/-- Status after a dispatch: EE sets EXL (R341); IOP pushes the mode and enable stack (R342). -/
def statusAfter (c : CoreId) (status : Word) : Word :=
  match c with
  | .ee => setBits status 0x00000002#32 0x00000002#32
  | .iop => setBits status 0x0000003F#32 ((status &&& 0x0000000F#32) <<< 2)

/-- The control part after the dispatch of a record (R340). -/
def Control.take (c : CoreId) (k : Control) (r : Record) : Control :=
  { k with
    xq := []
    epc := r.epc
    cause := causeAfter k.cause r
    badVAddr := (badAddress r.kind).getD k.badVAddr
    status := statusAfter c k.status
    bd := .idle
    pc := Config.vector c }

/-- EntryHi after the dispatch of a record: VPN2 takes the page of a Translation record (R343). -/
def entryHiAfter (entryHi : Word) (r : Record) : Word :=
  match badPage r.kind with
  | some va => setBits entryHi 0xFFFFE000#32 va
  | none => entryHi

/-- TAKING AN EXCEPTION: the effect of dispatching the record `r` on the stepping core (R340 to R345). -/
def State.takeException (s : State) (r : Record) : State :=
  match s.turn with
  | .ee => { s with ee := { s.ee with ctl := Control.take .ee s.ee.ctl r, entryHi := entryHiAfter s.ee.entryHi r } }
  | .iop => { s with iop := { s.iop with ctl := Control.take .iop s.iop.ctl r } }

/-- RETURNING FROM AN EXCEPTION on EE (R284): from ErrorEPC when ERL is set, else from EPC; the tracker becomes idle. -/
def State.returnEE (s : State) : State :=
  let k := s.ee.ctl
  if k.status.getLsbD 2 then
    { s with ee := { s.ee with ctl :=
      { k with pc := s.ee.errorEpc, status := setBits k.status 0x00000004#32 0#32, bd := .idle } } }
  else
    { s with ee := { s.ee with ctl :=
      { k with pc := k.epc, status := setBits k.status 0x00000002#32 0#32, bd := .idle } } }

/-- Status after RFE: bits 3:0 take bits 5:2 (R285). -/
def statusPopped (status : Word) : Word := setBits status 0x0000000F#32 (status >>> 2)

/-- RETURNING FROM AN EXCEPTION on IOP (R285): pop the mode and enable stack; `pc` is not written. -/
def State.returnIOP (s : State) : State :=
  s.setCtl { s.ctl with status := statusPopped s.ctl.status }

/-! ### Interrupts (R347 to R349, R336) -/

/-- A line as the bit `k` of a word. -/
def lineBit (b : Bool) (k : Nat) : Word := if b then 1#32 <<< k else 0#32

/-- The interrupt input lines of the stepping core in the places of Cause they are mirrored to (R348). -/
def State.lineBits (s : State) : Word :=
  match s.turn with
  | .ee => lineBit s.ee.int0 10 ||| lineBit s.ee.int1 11 ||| lineBit s.ee.timer 15
  | .iop => s.iop.lines.setWidth 32 <<< 10

/-- The bits of Cause that mirror lines (R34, R43, R348). -/
def lineMask : CoreId → Word
  | .ee => 0x00008C00#32
  | .iop => 0x0000FC00#32

/-- The mirror of step 1 (R348). -/
def State.mirrorLines (s : State) : State :=
  s.setCtl { s.ctl with cause := setBits s.ctl.cause (lineMask s.turn) s.lineBits }

/-- The fields that say which lines are pending and unmasked (R349). On EE only bits 10, 11, 15 exist. -/
def pendingLines (c : CoreId) (k : Control) : BitVec 8 :=
  ((k.cause &&& cop0ReadMask c 13#5) &&& (k.status &&& cop0ReadMask c 12#5)).extractLsb' 8 8

/-- Eligibility (R349). -/
def eligible (c : CoreId) (k : Control) : Bool := intEnabled c k.status && decide (pendingLines c k ≠ 0#8)

/-- A record that is no Interrupt. -/
def Record.synchronous (r : Record) : Bool :=
  match r.kind with
  | .interrupt _ => false
  | _ => true

/-- The return point of an Interrupt record (R336). -/
def interruptReturnPoint (k : Control) : Word × Bool :=
  match k.xq.find? Record.synchronous with
  | some r => (r.epc, r.bdflag)
  | none =>
    match k.bd with
    | .idle => (k.pc, false)
    | .pending t 0 => (t, false)
    | .pending _ (_ + 1) => (k.pc - 4#32, true)

/-- `SampleInterrupts()`, step 1 (R172, R348, R349). -/
def State.sampleInterrupts (s : State) : State :=
  let m := s.mirrorLines
  if eligible m.turn m.ctl then
    m.setCtl { m.ctl with xq := m.ctl.xq ++
      [⟨.interrupt (pendingLines m.turn m.ctl), (interruptReturnPoint m.ctl).1, (interruptReturnPoint m.ctl).2⟩] }
  else m

end Sys2Proof.Machine
end

