-- ==== Sys2Proof/Machine/Operands.lean ====
section
/-! DEFINITION. Operand forms: immediates, shift amounts, effective addresses and branch targets (R143, R235, R250), and the
shapes in which the integer rows read sources and write a destination (R221). -/

namespace Sys2Proof.Machine

/-- A signed immediate at width `n`: `sext(imm)` (R143 (a)). -/
def signedImm (imm : BitVec 16) (n : Nat) : BitVec n := imm.signExtend n

/-- A logical immediate at width `n`: `zext(imm)` (R143 (b)). -/
def logicalImm (imm : BitVec 16) (n : Nat) : BitVec n := imm.setWidth n

/-- LUI's 32-bit value: `imm` in the high half (R143 (c)). -/
def upperImm (imm : BitVec 16) : Word := imm ++ 0#16

/-- The branch target `A + 4 + (sext_32(imm) << 2)` (R143 (e), R235). -/
def branchTarget (a : Word) (imm : BitVec 16) : Word := a + 4#32 + (signedImm imm 32 <<< 2)

/-- The jump target `(A + 4)[31:28] ## target ## 0b00` (R143 (f), R235). -/
def jumpTarget (a : Word) (target : BitVec 26) : Word := (a + 4#32).extractLsb' 28 4 ++ target ++ 0#2

/-- The link value `A + 8` (R241, R243). -/
def linkValue (a : Word) : Word := a + 8#32

/-- The effective address of a load or store (R143 (d), R250). -/
def effectiveAddress (s : State) (rs : RegIdx) (imm : BitVec 16) : Word := s.x rs 32 + signedImm imm 32

/-- The effective address with its low four bits cleared (R258, R264). -/
def quadAddress (s : State) (rs : RegIdx) (imm : BitVec 16) : Word := effectiveAddress s rs imm &&& 0xFFFFFFF0#32

/-- `1` or `0` at width `n`, the result of a comparison (R208). -/
def flagValue (b : Bool) (n : Nat) : BitVec n := if b then 1 else 0

/-- A result at full width, and the advance: two register sources (R221 (b)). -/
def regResult (f : (n : Nat) → BitVec n → BitVec n → BitVec n) (rd rs rt : RegIdx) (s : State) : Result :=
  .next (State.advance (s.setX rd (fun n => f n (s.x rs n) (s.x rt n))))

/-- A result at full width, and the advance: one register source and an immediate at that width (R221 (b)). -/
def immResult (f : (n : Nat) → BitVec n → BitVec n → BitVec n) (rt rs : RegIdx) (imm : (n : Nat) → BitVec n) (s : State) :
    Result :=
  .next (State.advance (s.setX rt (fun n => f n (s.x rs n) (imm n))))

/-- A 32-bit result written as `sx(result)`, and the advance (R221 (a)). -/
def wordResult (rd : RegIdx) (v : Word) (s : State) : Result := .next (State.advance (s.setX rd (sx v)))

/-- A row of the EE table only. On IOP its word is `Unknown` and takes that handler (R146, R148; log entry 15). -/
def eeRow (i : Instr) (s : State) (body : State → Result) : Result :=
  match s.turn with
  | .ee => body s
  | .iop => .next (s.unknownInstruction (encode i))

/-- A row of the IOP table only. On EE its word is `Unknown` (R146, R148; log entry 15). -/
def iopRow (i : Instr) (s : State) (body : State → Result) : Result :=
  match s.turn with
  | .ee => .next (s.unknownInstruction (encode i))
  | .iop => body s

/-- The coprocessor-usable test that comes first in every coprocessor row (R280, R300). -/
def usableRow (cop : BitVec 2) (s : State) (body : State → Result) : Result :=
  if s.copUsable cop then body s else .next (s.raise (.coprocessorUnusable cop))

end Sys2Proof.Machine
end

