-- ==== Sys2Proof/Machine/Branch.lean ====
section
/-! DEFINITION. The eight control-transfer rows (spec/41_branch_jump.md). The address of the executing instruction is `pc`. -/

namespace Sys2Proof.Machine

/-- Whether two general registers are equal on all `XLEN` bits (R236). -/
def sameX (s : State) (rs rt : RegIdx) : Bool := s.x rs s.turn.xlen = s.x rt s.turn.xlen

/-- A conditional branch: arm the tracker or nothing (R236, R237). -/
def branchIf (taken : Bool) (imm : BitVec 16) (s : State) : Result :=
  .next (State.advance (if taken then s.arm (branchTarget s.ctl.pc imm) else s))

/-- A likely branch: arm the tracker, or skip the slot by one more advance (R238, R239). -/
def branchLikelyIf (taken : Bool) (imm : BitVec 16) (s : State) : Result :=
  .next (State.advance (if taken then s.arm (branchTarget s.ctl.pc imm) else s.advance))

/-- BEQ (R236). -/
def execBeq (rs rt : RegIdx) (imm : BitVec 16) (s : State) : Result := branchIf (sameX s rs rt) imm s

/-- BNE (R237). -/
def execBne (rs rt : RegIdx) (imm : BitVec 16) (s : State) : Result := branchIf (!sameX s rs rt) imm s

/-- BEQL, EE only (R238). -/
def execBeql (rs rt : RegIdx) (imm : BitVec 16) (s : State) : Result :=
  eeRow (.beql rs rt imm) s (fun s => branchLikelyIf (sameX s rs rt) imm s)

/-- BNEL, EE only (R239). -/
def execBnel (rs rt : RegIdx) (imm : BitVec 16) (s : State) : Result :=
  eeRow (.bnel rs rt imm) s (fun s => branchLikelyIf (!sameX s rs rt) imm s)

/-- J (R240). -/
def execJ (target : BitVec 26) (s : State) : Result := .next (State.advance (s.arm (jumpTarget s.ctl.pc target)))

/-- JAL: the link register takes `zext(A + 8)` (R241). -/
def execJal (target : BitVec 26) (s : State) : Result :=
  .next (State.advance (State.arm (s.setX 31#5 (zx (linkValue s.ctl.pc))) (jumpTarget s.ctl.pc target)))

/-- JR (R242). -/
def execJr (rs : RegIdx) (s : State) : Result := .next (State.advance (s.arm (s.x rs 32)))

/-- JALR: the target is read before the link is written (R243). -/
def execJalr (rd rs : RegIdx) (s : State) : Result :=
  .next (State.advance (State.arm (s.setX rd (zx (linkValue s.ctl.pc))) (s.x rs 32)))

end Sys2Proof.Machine
end

