-- ==== Sys2Proof/Machine/Flags.lean ====
section
/-! DEFINITION. Overflow detection of the integer rows (R200, R221 (d)), the value function of the floating-point family with
its outcome class (R305, R306), and the flag procedure and clamp (R307). The integer side has no flags (R50). -/

namespace Sys2Proof.Machine

/-- Whether an exact integer fits 32 bits signed (R200). -/
def fitsWord (n : Int) : Bool := decide (-(2 ^ 31) ≤ n) && decide (n ≤ 2 ^ 31 - 1)

/-- The exact signed sum of two words (R200). -/
def exactSum (a b : Word) : Int := a.toInt + b.toInt

/-- The exact signed difference of two words (R202). -/
def exactDiff (a b : Word) : Int := a.toInt - b.toInt

/-- An arithmetic row that detects overflow: the exact result, sign-extended, or the exception and no write (R200, R202). -/
def checkedResult (rd : RegIdx) (n : Int) (s : State) : Result :=
  if fitsWord n then .next (State.advance (s.setX rd (sx (BitVec.ofInt 32 n))))
  else .next (s.raise .arithmeticOverflow)

/-! ### The value function (R305, R306)

Finite values are counted in units of 2^-149, the least binary32 magnitude, so that every finite operand is an integer
number of units and every exact result a fraction of two natural numbers with a sign. -/

/-- The outcome classes of the value function (R306). -/
inductive FpClass where
  | normal
  | overflow
  | underflow
deriving DecidableEq, Repr

/-- An exact result: not a number, an infinity, or `num / den` units with a sign. -/
inductive FpExact where
  | nan
  | inf (neg : Bool)
  | ratio (neg : Bool) (num den : Nat)
deriving DecidableEq, Repr

/-- `exponent`, bits 30:23 of a floating-point pattern (R305). -/
def fpExponent (w : Word) : Nat := (w.extractLsb' 23 8).toNat

/-- `fraction`, bits 22:0 of a floating-point pattern (R305). -/
def fpFraction (w : Word) : Nat := (w.extractLsb' 0 23).toNat

/-- The IEEE 754 binary32 number a pattern stands for, with exponent bias 127 (R305). -/
def fpDecode (w : Word) : FpVal :=
  if fpExponent w = 255 then (if fpFraction w = 0 then .inf (w.getLsbD 31) else .nan)
  else if fpExponent w = 0 then .fin (w.getLsbD 31) (fpFraction w)
  else .fin (w.getLsbD 31) ((2 ^ 23 + fpFraction w) <<< (fpExponent w - 1))

/-- A pattern that is neither zero nor a normal number of binary32. -/
def fpSpecial (w : Word) : Bool :=
  fpExponent w == 255 || (fpExponent w == 0 && fpFraction w != 0)

/-- How a value function reads an operand (R305): zeros and normal numbers as binary32 whichever it is; the other patterns as
binary32 in the default, and as it likes in another (log entry 8). -/
def fpRead (ch : FpChoice) (w : Word) : FpVal :=
  match ch with
  | .ieee => fpDecode w
  | .other id => if fpSpecial w then Config.fpReading id w else fpDecode w

/-- The units of 2^128, the first magnitude binary32 cannot hold. -/
def fpInfUnits : Nat := 1 <<< 277

/-- The units of the largest finite binary32 magnitude. -/
def fpMaxUnits : Nat := (2 ^ 24 - 1) <<< 253

/-- The units of the least normal magnitude 2^-126. -/
def fpMinNormalUnits : Nat := 2 ^ 23

/-- `num / den` units rounded to 24 significant bits (R306). -/
def fpRound (mode : FpRounding) (num den : Nat) : Nat :=
  let shift := Nat.log2 (num / den) - 23
  let unit := den <<< shift
  let q := num / unit
  let r := num % unit
  let up :=
    match mode with
    | .nearestEven => decide (unit < 2 * r) || (decide (2 * r = unit) && decide (q % 2 = 1))
    | .towardZero => false
    | .awayFromZero => decide (r ≠ 0)
  (if up then q + 1 else q) <<< shift

/-- The bit pattern of a rounded magnitude; an infinity from 2^128 on. -/
def fpEncode (neg : Bool) (units : Nat) : Word :=
  let magnitude : BitVec 31 :=
    if fpInfUnits ≤ units then 0x7F800000#31
    else if units < 2 ^ 23 then BitVec.ofNat 31 units
    else
      let top := Nat.log2 units
      BitVec.ofNat 31 ((top - 22) * 2 ^ 23 + ((units >>> (top - 23)) - 2 ^ 23))
  BitVec.ofBool neg ++ magnitude

/-- A signed number of units. -/
def fpSigned (neg : Bool) (units : Nat) : Int := if neg then -(units : Int) else units

/-- A number read as a result. -/
def fpPlain : FpVal → FpExact
  | .nan => .nan
  | .inf a => .inf a
  | .fin a m => .ratio a m 1

/-- `-x`. -/
def fpNeg : FpExact → FpExact
  | .nan => .nan
  | .inf a => .inf (!a)
  | .ratio a num den => .ratio (!a) num den

/-- `x + y` (R306). An exact zero is negative only when both addends are negative. -/
def fpAdd : FpVal → FpExact → FpExact
  | .nan, _ => .nan
  | _, .nan => .nan
  | .inf a, .inf b => if a = b then .inf a else .nan
  | .inf a, .ratio _ _ _ => .inf a
  | .fin _ _, .inf b => .inf b
  | .fin a m, .ratio b num den =>
    let sum := fpSigned a (m * den) + fpSigned b num
    if sum = 0 then .ratio (a && b) 0 1 else .ratio (decide (sum < 0)) sum.natAbs den

/-- `x × y` (R306). -/
def fpMul : FpVal → FpVal → FpExact
  | .nan, _ => .nan
  | _, .nan => .nan
  | .inf a, .inf b => .inf (a ^^ b)
  | .inf a, .fin b n => if n = 0 then .nan else .inf (a ^^ b)
  | .fin a m, .inf b => if m = 0 then .nan else .inf (a ^^ b)
  | .fin a m, .fin b n => .ratio (a ^^ b) (m * n) (2 ^ 149)

/-- `x / y` (R306): a nonzero number over zero is an infinity, `0 / 0` is not a number. -/
def fpDiv : FpVal → FpVal → FpExact
  | .nan, _ => .nan
  | _, .nan => .nan
  | .inf _, .inf _ => .nan
  | .inf a, .fin b _ => .inf (a ^^ b)
  | .fin a _, .inf b => .ratio (a ^^ b) 0 1
  | .fin a m, .fin b n =>
    if n = 0 then (if m = 0 then .nan else .inf (a ^^ b)) else .ratio (a ^^ b) (m * 2 ^ 149) n

/-- A product "rounded before the sum" (R306). One past the largest number becomes an infinity, or that number when rounding
is toward zero. -/
def fpRoundProduct (mode : FpRounding) : FpExact → FpExact
  | .nan => .nan
  | .inf a => .inf a
  | .ratio a num den =>
    if fpRound mode num den < fpInfUnits then .ratio a (fpRound mode num den) 1
    else if mode = .towardZero then .ratio a fpMaxUnits 1
    else .inf a

/-- The product that MADD.S and MSUB.S add or subtract: in the default rounded to nearest, which the model also takes for law
L2's ideal result (DEDUCED: R306; line 389 of spec/95_test_vectors.md needs it; log entry 30); in another value function
exact or rounded, as it likes. -/
def fpProduct (ch : FpChoice) (a b : Word) : FpExact :=
  match ch with
  | .ieee => fpRoundProduct .nearestEven (fpMul (fpRead ch a) (fpRead ch b))
  | .other id =>
    match Config.fpProduct id a b with
    | none => fpMul (fpRead ch a) (fpRead ch b)
    | some mode => fpRoundProduct mode (fpMul (fpRead ch a) (fpRead ch b))

/-- The ideal result of an operation, before its last rounding (R306; for MADD.S and MSUB.S log entry 30). -/
def fpExact (ch : FpChoice) (op : FpOp) (a b c : Word) : FpExact :=
  match op with
  | .add => fpAdd (fpRead ch a) (fpPlain (fpRead ch b))
  | .sub => fpAdd (fpRead ch a) (fpNeg (fpPlain (fpRead ch b)))
  | .mul => fpMul (fpRead ch a) (fpRead ch b)
  | .div => fpDiv (fpRead ch a) (fpRead ch b)
  | .madd => fpAdd (fpRead ch c) (fpProduct ch a b)
  | .msub => fpAdd (fpRead ch c) (fpNeg (fpProduct ch a b))

/-- The class of an ideal result of `num / den` units, by law L2 of R306, which every value function satisfies; where the
sentence on the default's class says otherwise it yields (DEDUCED: log entry 9). -/
def fpClass (num den : Nat) : FpClass :=
  if fpMaxUnits * den < num then .overflow
  else if 0 < num ∧ num < fpMinNormalUnits * den then .underflow
  else .normal

/-- The third operand as far as an operation uses it: `c`, the accumulator, is "used by madd and msub only" (R306). -/
def fpThird (op : FpOp) (c : Word) : Word :=
  match op with
  | .add => 0#32
  | .sub => 0#32
  | .mul => 0#32
  | .div => 0#32
  | .madd => c
  | .msub => c

/-- How a value function rounds its result (R306): the default to nearest even, another as it likes (log entry 8). -/
def fpResultRounding (ch : FpChoice) (op : FpOp) (a b c : Word) : FpRounding :=
  match ch with
  | .ieee => .nearestEven
  | .other id => Config.fpRounding id op a b (fpThird op c)

/-- A sign that R306 does not state, of the operation and the operands it uses (log entry 10). -/
def fpOpenSign (ch : FpChoice) (op : FpOp) (a b c : Word) : Bool := Config.fpOpenSign ch op a b (fpThird op c)

/-- The sign of a result for which law L3 leaves one of two encodings, and R306 states a sign for the default only: an exact
zero, and an infinite quotient. In another value function it is free (DESIGN CHOICE: log entry 10). -/
def fpEitherSign (ch : FpChoice) (op : FpOp) (a b c : Word) (neg : Bool) : Bool :=
  match ch with
  | .ieee => neg
  | .other _ => fpOpenSign ch op a b c

/-- `FpCompute(op, a, b, c)`, with the parameter `ch` (R306): the class of the ideal result, and the result's encoding. The
sign of a result that is not a number is free (log entry 10). -/
def fpCompute (ch : FpChoice) (op : FpOp) (a b c : Word) : FpClass × Word :=
  match fpExact ch op a b c with
  | .nan => (.overflow, BitVec.ofBool (fpOpenSign ch op a b c) ++ 0x7FC00000#31)
  | .inf neg => (.overflow, fpEncode (if op = .div then fpEitherSign ch op a b c neg else neg) fpInfUnits)
  | .ratio neg num den =>
    (fpClass num den, fpEncode (if num = 0 then fpEitherSign ch op a b c neg else neg)
      (fpRound (fpResultRounding ch op a b c) num den))

/-! ### The flag procedure (R49, R307) -/

/-- `fcr31` after an arithmetic row: the one-shot bits O (15) and U (14) show this operation, the sticky bits SO (4) and SU (3)
are only ever set, every other bit is kept (R49, R307). -/
def fcr31After (fcr31 : Word) (cls : FpClass) : Word :=
  match cls with
  | .normal => setBits fcr31 0x0000C000#32 0x00000000#32
  | .overflow => setBits fcr31 0x0000C010#32 0x00008010#32
  | .underflow => setBits fcr31 0x0000C008#32 0x00004008#32

/-- The value written: the result, the clamp with the result's sign, or a signed zero (R307). -/
def fpClamp (clampMax : Word) (cls : FpClass) (r : Word) : Word :=
  match cls with
  | .normal => r
  | .overflow => r.extractLsb' 31 1 ++ clampMax.extractLsb' 0 31
  | .underflow => r.extractLsb' 31 1 ++ 0#31

end Sys2Proof.Machine
end

