-- ==== Sys2Proof/Machine/Coproc1.lean ====
section
/-! DEFINITION. The ten floating-point coprocessor rows, EE only (spec/44_fpu_cop1.md). -/

namespace Sys2Proof.Machine

/-- MFC1 (R301). -/
def execMfc1 (rt fs : RegIdx) (s : State) : Result :=
  eeRow (.mfc1 rt fs) s (fun s => usableRow 1#2 s (fun s => .next (State.advance (s.setX rt (sx (s.f fs))))))

/-- MTC1 (R302). -/
def execMtc1 (rt fs : RegIdx) (s : State) : Result :=
  eeRow (.mtc1 rt fs) s (fun s => usableRow 1#2 s (fun s => .next (State.advance (s.setF fs (s.x rt 32)))))

/-- What CFC1 reads: `sx(fcr31)` for number 31, a free value for any other (R303, log entry 11). -/
def fcrRead (s : State) (fs : RegIdx) (n : Nat) : BitVec n :=
  if fs = 31#5 then sx s.ee.fcr31 n else (Config.fcrOther s.freeCount fs).setWidth n

/-- CFC1 (R303). -/
def execCfc1 (rt fs : RegIdx) (s : State) : Result :=
  eeRow (.cfc1 rt fs) s (fun s => usableRow 1#2 s (fun s => .next (State.advance (s.setX rt (fcrRead s fs)))))

/-- What CTC1 does: all 32 bits of `fcr31` for number 31, nothing for any other (R304). -/
def fcrWrite (s : State) (fs : RegIdx) (v : Word) : State :=
  if fs = 31#5 then { s with ee := { s.ee with fcr31 := v } } else s

/-- CTC1 (R304). -/
def execCtc1 (rt fs : RegIdx) (s : State) : Result :=
  eeRow (.ctc1 rt fs) s (fun s => usableRow 1#2 s (fun s => .next (State.advance (fcrWrite s fs (s.x rt 32)))))

/-- `FpArith(op, fd, fs, ft)` past the usable test: the value, the flags, the clamp, the write (R307). -/
def fpArith (op : FpOp) (fd fs ft : RegIdx) (s : State) : State :=
  let out := fpCompute s.params.fpCompute op (s.f fs) (s.f ft) s.ee.acc
  let t : State := { s with ee := { s.ee with fcr31 := fcr31After s.ee.fcr31 out.1 } }
  t.setF fd (fpClamp s.params.fpClampMax out.1 out.2)

/-- The body of every arithmetic row (R307). -/
def fpRow (op : FpOp) (fd fs ft : RegIdx) (s : State) : Result :=
  usableRow 1#2 s (fun s => .next (State.advance (fpArith op fd fs ft s)))

/-- ADD.S (R308). -/
def execAddS (fd fs ft : RegIdx) (s : State) : Result := eeRow (.addS fd fs ft) s (fpRow .add fd fs ft)

/-- SUB.S (R309). -/
def execSubS (fd fs ft : RegIdx) (s : State) : Result := eeRow (.subS fd fs ft) s (fpRow .sub fd fs ft)

/-- MUL.S (R310). -/
def execMulS (fd fs ft : RegIdx) (s : State) : Result := eeRow (.mulS fd fs ft) s (fpRow .mul fd fs ft)

/-- DIV.S (R311). -/
def execDivS (fd fs ft : RegIdx) (s : State) : Result := eeRow (.divS fd fs ft) s (fpRow .div fd fs ft)

/-- MADD.S: the accumulator is read, never written (R312). -/
def execMaddS (fd fs ft : RegIdx) (s : State) : Result := eeRow (.maddS fd fs ft) s (fpRow .madd fd fs ft)

/-- MSUB.S: the accumulator is read, never written (R313). -/
def execMsubS (fd fs ft : RegIdx) (s : State) : Result := eeRow (.msubS fd fs ft) s (fpRow .msub fd fs ft)

end Sys2Proof.Machine
end

