-- ==== Sys2Proof/Machine/Integer.lean ====
section
/-! DEFINITION. The 21 integer rows (spec/40_integer_alu.md), on both cores. -/

namespace Sys2Proof.Machine

/-- SLL (R210). -/
def execSll (rd rt : RegIdx) (sa : BitVec 5) (s : State) : Result := wordResult rd (s.x rt 32 <<< sa.toNat) s

/-- SRL (R211). -/
def execSrl (rd rt : RegIdx) (sa : BitVec 5) (s : State) : Result := wordResult rd (s.x rt 32 >>> sa.toNat) s

/-- SRA (R212). -/
def execSra (rd rt : RegIdx) (sa : BitVec 5) (s : State) : Result := wordResult rd ((s.x rt 32).sshiftRight sa.toNat) s

/-- ADD (R200). -/
def execAdd (rd rs rt : RegIdx) (s : State) : Result := checkedResult rd (exactSum (s.x rs 32) (s.x rt 32)) s

/-- ADDU (R201). -/
def execAddu (rd rs rt : RegIdx) (s : State) : Result := wordResult rd (s.x rs 32 + s.x rt 32) s

/-- SUB (R202). -/
def execSub (rd rs rt : RegIdx) (s : State) : Result := checkedResult rd (exactDiff (s.x rs 32) (s.x rt 32)) s

/-- SUBU (R203). -/
def execSubu (rd rs rt : RegIdx) (s : State) : Result := wordResult rd (s.x rs 32 - s.x rt 32) s

/-- AND (R204). -/
def execAnd (rd rs rt : RegIdx) (s : State) : Result := regResult (fun _ a b => a &&& b) rd rs rt s

/-- OR (R205). -/
def execOr (rd rs rt : RegIdx) (s : State) : Result := regResult (fun _ a b => a ||| b) rd rs rt s

/-- XOR (R206). -/
def execXor (rd rs rt : RegIdx) (s : State) : Result := regResult (fun _ a b => a ^^^ b) rd rs rt s

/-- NOR (R207). -/
def execNor (rd rs rt : RegIdx) (s : State) : Result := regResult (fun _ a b => ~~~(a ||| b)) rd rs rt s

/-- SLT (R208). -/
def execSlt (rd rs rt : RegIdx) (s : State) : Result := regResult (fun n a b => flagValue (a.slt b) n) rd rs rt s

/-- SLTU (R209). -/
def execSltu (rd rs rt : RegIdx) (s : State) : Result := regResult (fun n a b => flagValue (a.ult b) n) rd rs rt s

/-- ADDI (R213). -/
def execAddi (rt rs : RegIdx) (imm : BitVec 16) (s : State) : Result :=
  checkedResult rt (exactSum (s.x rs 32) (signedImm imm 32)) s

/-- ADDIU (R214). -/
def execAddiu (rt rs : RegIdx) (imm : BitVec 16) (s : State) : Result := wordResult rt (s.x rs 32 + signedImm imm 32) s

/-- SLTI (R215). -/
def execSlti (rt rs : RegIdx) (imm : BitVec 16) (s : State) : Result :=
  immResult (fun n a b => flagValue (a.slt b) n) rt rs (signedImm imm) s

/-- SLTIU: the immediate is sign-extended, then compared unsigned (R216). -/
def execSltiu (rt rs : RegIdx) (imm : BitVec 16) (s : State) : Result :=
  immResult (fun n a b => flagValue (a.ult b) n) rt rs (signedImm imm) s

/-- ANDI (R217). -/
def execAndi (rt rs : RegIdx) (imm : BitVec 16) (s : State) : Result :=
  immResult (fun _ a b => a &&& b) rt rs (logicalImm imm) s

/-- ORI (R218). -/
def execOri (rt rs : RegIdx) (imm : BitVec 16) (s : State) : Result :=
  immResult (fun _ a b => a ||| b) rt rs (logicalImm imm) s

/-- XORI (R219). -/
def execXori (rt rs : RegIdx) (imm : BitVec 16) (s : State) : Result :=
  immResult (fun _ a b => a ^^^ b) rt rs (logicalImm imm) s

/-- LUI (R220). -/
def execLui (rt : RegIdx) (imm : BitVec 16) (s : State) : Result := wordResult rt (upperImm imm) s

end Sys2Proof.Machine
end

