-- ==== Sys2Proof/Machine/LoadStore.lean ====
section
/-! DEFINITION. The thirteen load and store rows (spec/42_load_store.md). -/

namespace Sys2Proof.Machine

/-- A load: one read of `n` bytes at `va`, then the register write `put`; a raise or an abort writes no register (R259). -/
def loadRow (n : Nat) (va : Word) (put : State → BitVec (8 * n) → State) (s : State) : Result :=
  match memRead va n s with
  | .ok v t => .next (State.advance (put t v))
  | .raised k => .next (s.raise k)
  | .aborted r => .next (s.abort r)

/-- A store: one write of `n` bytes at `va`; no register changes (R259). -/
def storeRow (n : Nat) (va : Word) (v : BitVec (8 * n)) (s : State) : Result :=
  match memWrite va n v s with
  | .ok _ t => .next (State.advance t)
  | .raised k => .next (s.raise k)
  | .aborted r => .next (s.abort r)

/-- The register write of a load that sign-extends to `XLEN` (R251). -/
def putSigned {n : Nat} (rt : RegIdx) (t : State) (v : BitVec (8 * n)) : State := t.setX rt (fun k => v.signExtend k)

/-- The register write of a load that zero-extends to `XLEN` (R252). -/
def putUnsigned {n : Nat} (rt : RegIdx) (t : State) (v : BitVec (8 * n)) : State := t.setX rt (fun k => v.setWidth k)

/-- LB (R251). -/
def execLb (rt rs : RegIdx) (imm : BitVec 16) (s : State) : Result :=
  loadRow 1 (effectiveAddress s rs imm) (putSigned rt) s

/-- LBU (R252). -/
def execLbu (rt rs : RegIdx) (imm : BitVec 16) (s : State) : Result :=
  loadRow 1 (effectiveAddress s rs imm) (putUnsigned rt) s

/-- LH (R253). -/
def execLh (rt rs : RegIdx) (imm : BitVec 16) (s : State) : Result :=
  loadRow 2 (effectiveAddress s rs imm) (putSigned rt) s

/-- LHU (R254). -/
def execLhu (rt rs : RegIdx) (imm : BitVec 16) (s : State) : Result :=
  loadRow 2 (effectiveAddress s rs imm) (putUnsigned rt) s

/-- LW (R255). -/
def execLw (rt rs : RegIdx) (imm : BitVec 16) (s : State) : Result :=
  loadRow 4 (effectiveAddress s rs imm) (putSigned rt) s

/-- LWU, EE only (R256). -/
def execLwu (rt rs : RegIdx) (imm : BitVec 16) (s : State) : Result :=
  eeRow (.lwu rt rs imm) s (fun s => loadRow 4 (effectiveAddress s rs imm) (putUnsigned rt) s)

/-- LD, EE only (R257). -/
def execLd (rt rs : RegIdx) (imm : BitVec 16) (s : State) : Result :=
  eeRow (.ld rt rs imm) s (fun s => loadRow 8 (effectiveAddress s rs imm) (putUnsigned rt) s)

/-- LQ, EE only: the low four address bits are cleared and the whole cell is written (R258). -/
def execLq (rt rs : RegIdx) (imm : BitVec 16) (s : State) : Result :=
  eeRow (.lq rt rs imm) s (fun s => loadRow 16 (quadAddress s rs imm) (fun t v => t.setQ rt v) s)

/-- SB (R260). -/
def execSb (rt rs : RegIdx) (imm : BitVec 16) (s : State) : Result :=
  storeRow 1 (effectiveAddress s rs imm) (s.x rt 8) s

/-- SH (R261). -/
def execSh (rt rs : RegIdx) (imm : BitVec 16) (s : State) : Result :=
  storeRow 2 (effectiveAddress s rs imm) (s.x rt 16) s

/-- SW (R262). -/
def execSw (rt rs : RegIdx) (imm : BitVec 16) (s : State) : Result :=
  storeRow 4 (effectiveAddress s rs imm) (s.x rt 32) s

/-- SD, EE only (R263). -/
def execSd (rt rs : RegIdx) (imm : BitVec 16) (s : State) : Result :=
  eeRow (.sd rt rs imm) s (fun s => storeRow 8 (effectiveAddress s rs imm) (s.x rt 64) s)

/-- SQ, EE only: the low four address bits are cleared and the whole cell is stored (R264). -/
def execSq (rt rs : RegIdx) (imm : BitVec 16) (s : State) : Result :=
  eeRow (.sq rt rs imm) s (fun s => storeRow 16 (quadAddress s rs imm) (s.q rt) s)

end Sys2Proof.Machine
end

