-- ==== Sys2Proof/Machine/System.lean ====
section
/-! DEFINITION. The five system-coprocessor rows (spec/43_system_cop0.md). -/

namespace Sys2Proof.Machine

/-- MFC0 (R281). -/
def execMfc0 (rt rd : RegIdx) (s : State) : Result :=
  usableRow 0#2 s (fun s => .next (State.advance (s.setX rt (sx (s.cop0Read rd)))))

/-- MTC0 (R282). -/
def execMtc0 (rt rd : RegIdx) (s : State) : Result :=
  usableRow 0#2 s (fun s => .next (State.advance (s.cop0Write rd (s.x rt 32))))

/-- ERET, EE only; step 7 does not advance (R284). -/
def execEret (s : State) : Result :=
  eeRow .eret s (fun s => usableRow 0#2 s (fun s => .next s.returnEE))

/-- RFE, IOP only (R285). -/
def execRfe (s : State) : Result :=
  iopRow .rfe s (fun s => usableRow 0#2 s (fun s => .next s.returnIOP.advance))

/-- The entry that TLBWI writes, from PageMask, EntryHi and the two EntryLo registers (R286). -/
def tlbwiEntry (ee : EECore) : TlbEntry where
  mask := ee.pageMask.extractLsb' 13 12
  vpn2 := ee.entryHi.extractLsb' 13 19
  asid := ee.entryHi.extractLsb' 0 8
  g := ee.entryLo0.getLsbD 0 && ee.entryLo1.getLsbD 0
  s := ee.entryLo0.getLsbD 31
  even := ⟨ee.entryLo0.extractLsb' 6 20, ee.entryLo0.extractLsb' 3 3, ee.entryLo0.getLsbD 2, ee.entryLo0.getLsbD 1⟩
  odd := ⟨ee.entryLo1.extractLsb' 6 20, ee.entryLo1.extractLsb' 3 3, ee.entryLo1.getLsbD 2, ee.entryLo1.getLsbD 1⟩

/-- Write entry `Index[5:0]` of the table, or abort when there is no such entry (R286). -/
def tableWrite (s : State) : State :=
  let i := s.ee.index.extractLsb' 0 6
  if h : i.toNat < 48 then
    State.advance { s with ee := { s.ee with tlb := s.ee.tlb.set i.toNat (tlbwiEntry s.ee) h } }
  else s.abort (.tlbIndexOutOfRange i)

/-- TLBWI, EE only (R286). -/
def execTlbwi (s : State) : Result :=
  eeRow .tlbwi s (fun s => usableRow 0#2 s (fun s => .next (tableWrite s)))

end Sys2Proof.Machine
end

