-- ==== Sys2Proof/Machine/Sequencer.lean ====
section
/-! DEFINITION. The step sequencer around the handler (spec/50_sequencer.md): the scheduler and the external agents, steps 1 to
5, the end of a step, and where a word stands so that the next step fetches it. -/

namespace Sys2Proof.Machine

/-! ### Costs (R147, R170, R179 to R181) -/

/-- `COST(m)` of an instruction's row, at least 1 (R170, R179). -/
def rowCost (p : Params) (i : Instr) : Nat := 1 + p.extraCosts.getD i.row 0

/-- `UNKNOWN_COST`, at least 1 (R170, R180). -/
def unknownCost (p : Params) : Nat := 1 + p.unknownExtra

/-- `EARLY_COST`, at least 1 (R170, R181). -/
def earlyCost (p : Params) : Nat := 1 + p.earlyExtra

/-- `Finish(c)`: the cost is added to `cycles_total` and returned (R184); the step's instruction word is gone (R53) and the
free-value counter moves on. -/
def State.finish (s : State) (c : Nat) : State :=
  let t := s.setCtl { s.ctl with
    cyclesTotal := s.ctl.cyclesTotal + BitVec.ofNat 64 c
    returned := BitVec.ofNat 64 c }
  { t with inFlight := none, freeCount := s.freeCount + 1 }

/-- Step 8 after a handler: the row's cost, or nothing when the handler aborted the run (R179, R182). -/
def retire (i : Instr) (t : State) : State :=
  match t.run with
  | .running => t.finish (rowCost t.params i)
  | .aborted _ _ => t

/-! ### The scheduler and the external agents (R10, R112) -/

/-- A device changes bytes inside one of its own objects; elsewhere nothing happens (R4 (a), R112). -/
def State.deviceUpdate (s : State) (pa : Word) (n : Nat) (v : Quad) : State :=
  match s.physMap.find? (fun o => o.contains pa.toNat) with
  | some o =>
    if pa.toNat + n ≤ o.base + o.extent then { s with mem := Memory.writeLE s.mem pa.toNat n v.toNat } else s
  | none => s

/-- The effect of one external action; a typed error of the mapper changes nothing (R84, R112). The step of a core is no
external action and leaves the state to the sequencer. -/
def State.external (s : State) : Action → State
  | .step c => { s with turn := c }
  | .eeLines a b t => { s with ee := { s.ee with int0 := a, int1 := b, timer := t } }
  | .iopLines l => { s with iop := { s.iop with lines := l } }
  | .busRead pa n =>
    match physRead pa n s with
    | .ok (_, t) => t
    | .error _ => s
  | .busWrite pa n v =>
    match physWrite pa n (v.setWidth (8 * n)) s with
    | .ok t => t
    | .error _ => s
  | .deviceUpdate pa n v => s.deviceUpdate pa n v

/-! ### Steps 1 to 5 -/

/-- What the sequencer has before a handler runs: the machine stops, the model refuses, the transition is over, or the
instruction `i` is to run at the state given. -/
inductive Front where
  | stop (f : Fault)
  | reject (r : Refusal)
  | done (s : State)
  | run (i : Instr) (s : State)
deriving DecidableEq, Repr

/-- Steps 3 to 5, when the queue is empty (R174 to R176); an unknown word runs its handler (R180). -/
def fetchFront (s : State) : Front :=
  let b := s.resolveBranchDelay
  match fetchWord b with
  | .raised k => .done ((b.raise k).finish (earlyCost s.params))
  | .aborted r => .done (State.abort { b with inFlight := none } r)
  | .ok w t =>
    match decode t.turn w with
    | .unknown => .done ((t.unknownInstruction w).finish (unknownCost s.params))
    | .row i => .run i { t with inFlight := some w }

/-- Steps 1 to 5 of the instance whose turn it is (R171 to R176). -/
def coreFront (s : State) : Front :=
  let m := s.sampleInterrupts
  match m.ctl.xq with
  | r :: rs => .done ((m.takeException (topRecord r rs)).finish (earlyCost s.params))
  | [] => fetchFront m

/-- One transition of the machine up to the handler: nothing happens after an abort (R182), an invalid map is refused (R81),
else the next action of the agenda is due, or the instance of `turn` steps when there is none (R112). -/
def front (s : State) : Front :=
  match s.run with
  | .aborted _ _ => .stop .runAborted
  | .running =>
    if physMapValid s.physMap then
      match s.agenda with
      | [] => coreFront s
      | .step c :: rest => coreFront { s with agenda := rest, turn := c }
      | a :: rest => .done (State.external { s with agenda := rest } a)
    else .reject .invalidPhysMap

/-! ### Where the next instruction is fetched -/

/-- The other instance. -/
def otherCore : CoreId → CoreId
  | .ee => .iop
  | .iop => .ee

/-- The instance that is to run a word: the one whose turn it is if its table holds the word's row, else the other if that
one's does (R146). -/
def coreFor (turn : CoreId) (w : Word) : CoreId :=
  match decode turn w with
  | .row _ => turn
  | .unknown =>
    match decode (otherCore turn) w with
    | .row _ => otherCore turn
    | .unknown => turn

/-- The state with a word stored where the instance of `turn` fetches next, its bytes in memory order (R87, R105, R174). -/
def State.placeWord (s : State) (w : Word) : State :=
  match translate s.resolveBranchDelay.ctl.pc .fetch s with
  | .ok pa => { s with mem := Memory.writeLE s.mem pa.toNat 4 w.toNat }
  | .fault _ => s
  | .abort _ => s

end Sys2Proof.Machine
end

