-- ==== Sys2Proof/Machine/Step.lean ====
section
/-! DEFINITION. One transition of the machine, and the state in which the next step fetches a given word. -/

namespace Sys2Proof.Machine

/-- One transition: an external action, or one call of an instance's step function, its eight steps in order (R171). -/
def step (s : State) : Host.Outcome State Fault Refusal :=
  match front s with
  | .stop f => .fault f
  | .reject r => .refused r
  | .done t => .next t
  | .run i t =>
    match exec i t with
    | .next u => .next (retire i u)
    | .fault f => .fault f
    | .refused r => .refused r

/-- The state `s` with an instruction stored where `step` fetches its next one: no action of the agenda stands before it, and
the instance whose table holds the word's row steps (log entry 22). -/
def State.withFetchWord (s : State) (nbits w : Nat) : State :=
  let word : Word := BitVec.ofNat 32 (w % 2 ^ nbits)
  State.placeWord { s with agenda := [], turn := coreFor s.turn word } word

end Sys2Proof.Machine
end

