-- ==== Sys2Proof/Safety.lean ====
section
/-! DEFINITION. The terms in which claims are stated: what two states share (frames), how an instruction ends, and the
invariant every transition keeps. -/

namespace Sys2Proof.Machine

/-! ### What two states share -/

/-- Every byte of memory reads the same. -/
def SameMemory (s t : State) : Prop := ∀ a, Memory.read t.mem a = Memory.read s.mem a

/-- Every byte outside the `n` bytes at `lo` reads the same. -/
def SameMemoryOutside (lo n : Nat) (s t : State) : Prop :=
  ∀ a, (a < lo ∨ lo + n ≤ a) → Memory.read t.mem a = Memory.read s.mem a

/-- Every general register of both instances reads the same, in every bit. -/
def SameRegs (s t : State) : Prop := ∀ r, t.q r = s.q r ∧ t.r32 r = s.r32 r

/-- Every general register but number `rd` reads the same, in every bit. -/
def SameRegsBut (rd : RegIdx) (s t : State) : Prop := ∀ r, r ≠ rd → t.q r = s.q r ∧ t.r32 r = s.r32 r

/-- Bits 127:64 of every EE general register read the same. -/
def SameUpperHalves (s t : State) : Prop := ∀ r, (t.q r).extractLsb' 64 64 = (s.q r).extractLsb' 64 64

/-- The floating-point registers and `fcr31` are the same. -/
def SameFp (s t : State) : Prop := (∀ r, t.f r = s.f r) ∧ t.ee.fcr31 = s.ee.fcr31

/-- The EE control registers that only MTC0 and dispatch write are the same (Status, Cause, EPC and BadVAddr stand in the
control part). -/
structure SameCop0 (s t : State) : Prop where
  index : t.ee.index = s.ee.index
  entryLo0 : t.ee.entryLo0 = s.ee.entryLo0
  entryLo1 : t.ee.entryLo1 = s.ee.entryLo1
  pageMask : t.ee.pageMask = s.ee.pageMask
  entryHi : t.ee.entryHi = s.ee.entryHi
  errorEpc : t.ee.errorEpc = s.ee.errorEpc

/-- The parts that almost no instruction touches are the same: whose turn it is, the platform, the parameters, the run, the
log, the word in flight, the agenda, the free-value counter, the accumulator, the input lines, and all of the other
instance. -/
structure SameRest (s t : State) : Prop where
  turn : t.turn = s.turn
  physMap : t.physMap = s.physMap
  params : t.params = s.params
  run : t.run = s.run
  log : t.log = s.log
  inFlight : t.inFlight = s.inFlight
  agenda : t.agenda = s.agenda
  freeCount : t.freeCount = s.freeCount
  acc : t.ee.acc = s.ee.acc
  int0 : t.ee.int0 = s.ee.int0
  int1 : t.ee.int1 = s.ee.int1
  timer : t.ee.timer = s.ee.timer
  lines : t.iop.lines = s.iop.lines
  otherIop : s.turn = .ee → t.iop = s.iop
  otherEe : s.turn = .iop → t.ee = s.ee

/-- The translation table is the same. -/
def SameTable (s t : State) : Prop := t.ee.tlb = s.ee.tlb

/-- The control part of the stepping core is the same but for `pc`. -/
def SameControl (s t : State) : Prop := t.ctl = { s.ctl with pc := t.ctl.pc }

/-- Nothing changes but `pc`. -/
structure OnlyPc (s t : State) : Prop where
  rest : SameRest s t
  table : SameTable s t
  cop0 : SameCop0 s t
  fp : SameFp s t
  memory : SameMemory s t
  regs : SameRegs s t
  control : SameControl s t

/-- Nothing changes but `pc` and bits `XLEN-1:0` of general register `rd`. -/
structure OnlyReg (rd : RegIdx) (s t : State) : Prop where
  rest : SameRest s t
  table : SameTable s t
  cop0 : SameCop0 s t
  fp : SameFp s t
  memory : SameMemory s t
  regs : SameRegsBut rd s t
  upper : SameUpperHalves s t
  control : SameControl s t

/-- Nothing changes but the tracker, `pc`, and bits `XLEN-1:0` of general register `rd`. -/
structure OnlyTrackerAndReg (rd : RegIdx) (s t : State) : Prop where
  rest : SameRest s t
  table : SameTable s t
  cop0 : SameCop0 s t
  fp : SameFp s t
  memory : SameMemory s t
  regs : SameRegsBut rd s t
  upper : SameUpperHalves s t
  control : t.ctl = { s.ctl with pc := t.ctl.pc, bd := t.ctl.bd }

/-! ### How an instruction ends -/

/-- The instruction writes `v` (taken at `XLEN`) into general register `rd`, advances `pc` by 4 and does nothing else; with
`rd` = 0 no register changes. -/
structure WritesReg (rd : RegIdx) (v : (n : Nat) → BitVec n) (s t : State) : Prop where
  frame : OnlyReg rd s t
  pc : t.ctl.pc = s.ctl.pc + 4#32
  zero : rd = 0#5 → SameRegs s t
  value : rd ≠ 0#5 → t.x rd s.turn.xlen = v s.turn.xlen

/-- The stepping core executes in a delay slot: its tracker is `Pending(t, 0)` (R335). -/
def InSlot (s : State) : Prop := ∃ target, s.ctl.bd = .pending target 0

/-- The instruction raises: a record of `kind` is appended to the queue with the return point of R335, and nothing else
changes, `pc` included (R334). -/
structure Raises (kind : ExcKind) (s t : State) : Prop where
  rest : SameRest s t
  table : SameTable s t
  cop0 : SameCop0 s t
  fp : SameFp s t
  memory : SameMemory s t
  regs : SameRegs s t
  record : ∃ epc flag, t.ctl = { s.ctl with xq := s.ctl.xq ++ [⟨kind, epc, flag⟩] } ∧
    (InSlot s → epc = s.ctl.pc - 4#32 ∧ flag = true) ∧ (¬ InSlot s → epc = s.ctl.pc ∧ flag = false)

/-- The instruction aborts the run: `run` and the log take the reason with its context, and nothing else of the machine
changes (R182). -/
structure Aborts (reason : AbortReason) (s t : State) : Prop where
  run : t.run = .aborted reason ⟨s.turn, s.ctl.pc, s.inFlight, s.ctl.cyclesTotal⟩
  log : t.log = s.log ++ [.abort reason ⟨s.turn, s.ctl.pc, s.inFlight, s.ctl.cyclesTotal⟩]
  inFlight : t.inFlight = none
  rest : SameRest s { t with run := s.run, log := s.log, inFlight := s.inFlight }
  ee : t.ee = s.ee
  iop : t.iop = s.iop
  mem : t.mem = s.mem

/-- Nothing changes but `pc` and the tracker. -/
structure OnlyTracker (s t : State) : Prop where
  rest : SameRest s t
  table : SameTable s t
  cop0 : SameCop0 s t
  fp : SameFp s t
  memory : SameMemory s t
  regs : SameRegs s t
  control : t.ctl = { s.ctl with pc := t.ctl.pc, bd := t.ctl.bd }

/-- Nothing changes but the control registers, `pc` and the tracker. -/
structure OnlyControlRegs (s t : State) : Prop where
  rest : SameRest s t
  table : SameTable s t
  fp : SameFp s t
  memory : SameMemory s t
  regs : SameRegs s t

/-- Nothing changes but `pc`, the floating-point registers and `fcr31`. -/
structure OnlyFp (s t : State) : Prop where
  rest : SameRest s t
  table : SameTable s t
  cop0 : SameCop0 s t
  memory : SameMemory s t
  regs : SameRegs s t
  control : SameControl s t

/-- A store of `n` bytes at physical address `lo` ends: `pc` advances by 4 and nothing outside those bytes changes. -/
structure StoresAt (lo n : Nat) (s t : State) : Prop where
  rest : SameRest s t
  table : SameTable s t
  cop0 : SameCop0 s t
  fp : SameFp s t
  memory : SameMemoryOutside lo n s t
  regs : SameRegs s t
  control : t.ctl = { s.ctl with pc := s.ctl.pc + 4#32 }

/-- Byte `k` from physical address `pa` on. -/
def byteAt (s : State) (pa : Word) (k : Nat) : Byte := Memory.read s.mem (pa.toNat + k)

/-- An access of `n` bytes at `pa` reaches RAM or a register object that keeps what is written (R82). -/
def PlainAccess (s : State) (pa : Word) (n : Nat) : Prop :=
  ∃ o off, locate s.physMap pa n = .ok (o, off) ∧
    ((∃ size, o.kind = .ram size) ∨ ∃ w, o.kind = .register w .plain)

/-- The sizes of access that an object of each kind accepts (R82 (a), (b), (c)). -/
def Accepts : ObjectKind → Nat → Prop
  | .ram size, n => n ∈ [1, 2, 4, 8, 16] ∧ n ≤ size
  | .constant size _, n => n ∈ [1, 2, 4, 8, 16] ∧ n ≤ size
  | .register .w8 _, n => n = 1
  | .register .w16 _, n => n = 2
  | .register .w32 _, n => n = 4
  | .register .w64 _, n => n = 8
  | .register .w128 _, n => n ∈ [1, 2, 4, 8, 16]

/-- The loads: destination, base, offset and width in bytes (R88). -/
inductive IsLoad : Instr → RegIdx → RegIdx → BitVec 16 → Nat → Prop
  | lb (rt rs : RegIdx) (imm : BitVec 16) : IsLoad (.lb rt rs imm) rt rs imm 1
  | lbu (rt rs : RegIdx) (imm : BitVec 16) : IsLoad (.lbu rt rs imm) rt rs imm 1
  | lh (rt rs : RegIdx) (imm : BitVec 16) : IsLoad (.lh rt rs imm) rt rs imm 2
  | lhu (rt rs : RegIdx) (imm : BitVec 16) : IsLoad (.lhu rt rs imm) rt rs imm 2
  | lw (rt rs : RegIdx) (imm : BitVec 16) : IsLoad (.lw rt rs imm) rt rs imm 4
  | lwu (rt rs : RegIdx) (imm : BitVec 16) : IsLoad (.lwu rt rs imm) rt rs imm 4
  | ld (rt rs : RegIdx) (imm : BitVec 16) : IsLoad (.ld rt rs imm) rt rs imm 8
  | lq (rt rs : RegIdx) (imm : BitVec 16) : IsLoad (.lq rt rs imm) rt rs imm 16

/-- The stores: data register, base, offset and width in bytes (R88). -/
inductive IsStore : Instr → RegIdx → RegIdx → BitVec 16 → Nat → Prop
  | sb (rt rs : RegIdx) (imm : BitVec 16) : IsStore (.sb rt rs imm) rt rs imm 1
  | sh (rt rs : RegIdx) (imm : BitVec 16) : IsStore (.sh rt rs imm) rt rs imm 2
  | sw (rt rs : RegIdx) (imm : BitVec 16) : IsStore (.sw rt rs imm) rt rs imm 4
  | sd (rt rs : RegIdx) (imm : BitVec 16) : IsStore (.sd rt rs imm) rt rs imm 8
  | sq (rt rs : RegIdx) (imm : BitVec 16) : IsStore (.sq rt rs imm) rt rs imm 16

/-- The virtual address an access of `n` bytes uses: the effective address of R250, for a quad access with its low four bits
cleared (R258, R264). -/
def accessAddress (s : State) (rs : RegIdx) (imm : BitVec 16) (n : Nat) : Word :=
  if n = 16 then (s.x rs 32 + imm.signExtend 32) &&& 0xFFFFFFF0#32 else s.x rs 32 + imm.signExtend 32

/-- What one floating-point arithmetic row leaves (R307): the value written by class, the one-shot flags of this operation,
the sticky flags, every other bit of `fcr31` and every other register as before, and `pc` advanced. -/
structure FpResult (op : FpOp) (fd fs ft : RegIdx) (s t : State) : Prop where
  frame : OnlyFp s t
  pc : t.ctl.pc = s.ctl.pc + 4#32
  others : ∀ r, r ≠ fd → t.f r = s.f r
  normal : (fpCompute s.params.fpCompute op (s.f fs) (s.f ft) s.ee.acc).1 = .normal →
    t.f fd = (fpCompute s.params.fpCompute op (s.f fs) (s.f ft) s.ee.acc).2
  overflow : (fpCompute s.params.fpCompute op (s.f fs) (s.f ft) s.ee.acc).1 = .overflow →
    (t.f fd).getLsbD 31 = (fpCompute s.params.fpCompute op (s.f fs) (s.f ft) s.ee.acc).2.getLsbD 31 ∧
      (t.f fd).extractLsb' 0 31 = s.params.fpClampMax.extractLsb' 0 31
  underflow : (fpCompute s.params.fpCompute op (s.f fs) (s.f ft) s.ee.acc).1 = .underflow →
    (t.f fd).getLsbD 31 = (fpCompute s.params.fpCompute op (s.f fs) (s.f ft) s.ee.acc).2.getLsbD 31 ∧
      (t.f fd).extractLsb' 0 31 = 0#31
  oneShotO : t.ee.fcr31.getLsbD 15 = decide ((fpCompute s.params.fpCompute op (s.f fs) (s.f ft) s.ee.acc).1 = .overflow)
  oneShotU : t.ee.fcr31.getLsbD 14 = decide ((fpCompute s.params.fpCompute op (s.f fs) (s.f ft) s.ee.acc).1 = .underflow)
  stickyO : t.ee.fcr31.getLsbD 4 =
    (s.ee.fcr31.getLsbD 4 || decide ((fpCompute s.params.fpCompute op (s.f fs) (s.f ft) s.ee.acc).1 = .overflow))
  stickyU : t.ee.fcr31.getLsbD 3 =
    (s.ee.fcr31.getLsbD 3 || decide ((fpCompute s.params.fpCompute op (s.f fs) (s.f ft) s.ee.acc).1 = .underflow))
  otherBits : ∀ k, k ≠ 15 → k ≠ 14 → k ≠ 4 → k ≠ 3 → t.ee.fcr31.getLsbD k = s.ee.fcr31.getLsbD k

/-- The bits of a word that the decoder reads for an instruction: the dispatch keys of its row and the operand fields of the
row's format (R142, R145). Every other bit is ignored. -/
def usedBits (i : Instr) : Word :=
  match i.row with
  | 0 => 0xFC1FFFFF#32
  | 1 => 0xFC1FFFFF#32
  | 2 => 0xFC1FFFFF#32
  | 3 => 0xFFE0003F#32
  | 4 => 0xFFE0F83F#32
  | 26 => 0xFC1FFFFF#32
  | 44 => 0xFFE0003F#32
  | 45 => 0xFFE0003F#32
  | 46 => 0xFFE0003F#32
  | n =>
    if n < 15 then 0xFFFFF83F#32
    else if 42 ≤ n ∧ n < 51 then 0xFFFFF800#32
    else 0xFFFFFFFF#32

/-- Entry `e` has the page number of `va`: bits 31:13 agree wherever the mask hides none (R95). -/
def PageAgrees (e : TlbEntry) (va : Word) : Prop :=
  ∀ k, k < 19 → e.mask.getLsbD k = false → va.getLsbD (13 + k) = e.vpn2.getLsbD k

/-- The seven legal page masks, each with the number of page-offset bits it gives (R39, R97, R98). -/
def pageOffsetBits : List (BitVec 12 × Nat) :=
  [(0x000#12, 12), (0x003#12, 14), (0x00F#12, 16), (0x03F#12, 18), (0x0FF#12, 20), (0x3FF#12, 22), (0xFFF#12, 24)]

/-- The control registers of EE that MTC0 reaches, each with its write mask (R33 to R41). -/
def eeWriteMasks : List (RegIdx × Word) :=
  [(0#5, 0x0000003F#32), (2#5, 0x83FFFFFF#32), (3#5, 0x03FFFFFF#32), (5#5, 0x01FFE000#32), (8#5, 0x00000000#32),
   (10#5, 0xFFFFE0FF#32), (12#5, 0xF0018C1F#32), (13#5, 0x00000000#32), (14#5, 0xFFFFFFFF#32), (30#5, 0xFFFFFFFF#32)]

/-- The control registers of IOP that MTC0 reaches, each with its write mask (R35, R36, R42, R43). -/
def iopWriteMasks : List (RegIdx × Word) :=
  [(8#5, 0x00000000#32), (12#5, 0xF000FF3F#32), (13#5, 0x00000300#32), (14#5, 0xFFFFFFFF#32)]

/-- The step function of instance `c` is what the scheduler calls next, in a running machine with a valid map. -/
structure CallsStep (c : CoreId) (s : State) : Prop where
  run : s.run = .running
  map : physMapValid s.physMap = true
  due : (s.agenda = [] ∧ s.turn = c) ∨ ∃ rest, s.agenda = .step c :: rest

/-- The state in which the step function of instance `c` begins when the scheduler calls it: the call is off the agenda, and
it is `c`'s turn (R112). -/
def State.called (s : State) (c : CoreId) : State := { s with agenda := s.agenda.tail, turn := c }

/-! ### The invariant -/

/-- A word whose reserved bits are 0: no bit outside the fields of control register `n` (R44). -/
def ReservedClear (c : CoreId) (n : RegIdx) (w : Word) : Prop := w &&& ~~~(cop0ReadMask c n) = 0#32

/-- A record that step 4 or a handler can have raised: synchronous, and TranslationModified for stores only (R97, R339). -/
def RaisedRecord (r : Record) : Prop :=
  r.synchronous = true ∧ ∀ va, r.kind ≠ .translationModified va .loadOrFetch

/-- The invariant of one control part between transitions: reserved bits of Status and Cause are 0 (R44); the tracker is
idle or counts 1 or 0 (R29); the queue is empty or holds one synchronous record (R30, R337). -/
structure ControlInv (c : CoreId) (k : Control) : Prop where
  status : ReservedClear c 12#5 k.status
  cause : ReservedClear c 13#5 k.cause
  tracker : k.bd = .idle ∨ ∃ target, k.bd = .pending target 0 ∨ k.bd = .pending target 1
  queue : k.xq = [] ∨ ∃ r, k.xq = [r] ∧ RaisedRecord r

/-- The invariant of the machine between transitions: the memory is in its canonical form, register 0 of both instances holds
0 (R26), no reserved bit of a control register is set (R44), trackers and queues are as R29 and R30 say, and no
instruction word is in flight (R53). -/
structure Inv (s : State) : Prop where
  memory : Memory.wf s.mem = true
  eeZero : s.ee.gpr[0] = 0#128
  iopZero : s.iop.gpr[0] = 0#32
  eeControl : ControlInv .ee s.ee.ctl
  iopControl : ControlInv .iop s.iop.ctl
  index : ReservedClear .ee 0#5 s.ee.index
  entryLo0 : ReservedClear .ee 2#5 s.ee.entryLo0
  entryLo1 : ReservedClear .ee 3#5 s.ee.entryLo1
  pageMask : ReservedClear .ee 5#5 s.ee.pageMask
  entryHi : ReservedClear .ee 10#5 s.ee.entryHi
  inFlight : s.inFlight = none

/-! ### When a step reaches its handler -/

/-- The scheduler is about to call the step function of instance `c`, whose queue is empty and for which no interrupt is
eligible once its lines are mirrored (R171 to R173, R349). -/
structure ReadyToFetch (c : CoreId) (s : State) : Prop where
  calls : CallsStep c s
  queue : (s.called c).ctl.xq = []
  quiet : eligible c (s.called c).mirrorLines.ctl = false

/-- The state of instance `c` after steps 1 to 3 of a step that goes on to the fetch (R172 to R174). -/
def State.beforeFetch (s : State) (c : CoreId) : State := (s.called c).mirrorLines.resolveBranchDelay

/-- What the dispatch of a record `r` leaves in the control part, from the control part `k` after the mirror (R340): EPC, the
fields of Cause (BD, ExcCode, and CE for CoprocessorUnusable), BadVAddr for the address kinds, the tracker idle, the
queue empty, and `pc` at the vector. -/
structure Dispatched (c : CoreId) (r : Record) (k l : Control) : Prop where
  epc : l.epc = r.epc
  branchDelay : l.cause.getLsbD 31 = r.bdflag
  code : l.cause.extractLsb' 2 5 = excCode r.kind
  cop : l.cause.extractLsb' 28 2 =
    match r.kind with
    | .coprocessorUnusable n => n
    | _ => k.cause.extractLsb' 28 2
  causeRest : ∀ b, b ≠ 31 → b ≠ 28 → b ≠ 29 → (b < 2 ∨ 6 < b) → l.cause.getLsbD b = k.cause.getLsbD b
  badVAddr : l.badVAddr =
    match r.kind with
    | .addressError va _ => va
    | .translationMiss va _ => va
    | .translationInvalid va _ => va
    | .translationModified va _ => va
    | _ => k.badVAddr
  statusEE : c = .ee → l.status = k.status ||| 0x00000002#32
  statusIOP : c = .iop → l.status.extractLsb' 0 2 = 0#2 ∧ l.status.extractLsb' 2 4 = k.status.extractLsb' 0 4 ∧
    l.status.extractLsb' 6 26 = k.status.extractLsb' 6 26
  tracker : l.bd = .idle
  queue : l.xq = []
  pcEE : c = .ee → l.pc = 0x80000180#32
  pcIOP : c = .iop → l.pc = 0x80000080#32

/-- EntryHi after the dispatch of `r` on EE: VPN2 is the page of a Translation record, ASID stays (R343). -/
def PageRecorded (r : Record) (before after : Word) : Prop :=
  match r.kind with
  | .translationMiss va _ =>
    after.extractLsb' 13 19 = va.extractLsb' 13 19 ∧ after.extractLsb' 0 13 = before.extractLsb' 0 13
  | .translationInvalid va _ =>
    after.extractLsb' 13 19 = va.extractLsb' 13 19 ∧ after.extractLsb' 0 13 = before.extractLsb' 0 13
  | .translationModified va _ =>
    after.extractLsb' 13 19 = va.extractLsb' 13 19 ∧ after.extractLsb' 0 13 = before.extractLsb' 0 13
  | _ => after = before

/-- The end of a step (R184, R53): no word is in flight and the counter of free values has moved on; `t` is otherwise, in the
parts almost nothing touches, as `s`. -/
structure EndsStep (s t : State) : Prop where
  rest : SameRest s { t with inFlight := s.inFlight, freeCount := s.freeCount }
  inFlight : t.inFlight = none
  freeCount : t.freeCount = s.freeCount + 1

/-- What a step that dispatches leaves outside the control part, Status, Cause and EntryHi included there: general registers,
floating-point registers, memory, the table, the other EE control registers, the input lines, the accumulator, the log, and
all of the other instance (R340). -/
structure DispatchFrame (s t : State) : Prop where
  ends : EndsStep s t
  regs : SameRegs s t
  fp : SameFp s t
  memory : SameMemory s t
  table : SameTable s t
  index : t.ee.index = s.ee.index
  entryLo0 : t.ee.entryLo0 = s.ee.entryLo0
  entryLo1 : t.ee.entryLo1 = s.ee.entryLo1
  pageMask : t.ee.pageMask = s.ee.pageMask
  errorEpc : t.ee.errorEpc = s.ee.errorEpc

/-! ### The value function, in rational numbers -/

/-- The rational number of a finite binary32 pattern: sign bit 31, exponent bits 30:23 with bias 127, fraction bits 22:0
(R305). -/
def binary32 (w : Word) : ℚ :=
  (if w.getLsbD 31 then -1 else 1) *
    (if fpExponent w = 0 then (fpFraction w : ℚ) / 2 ^ 23 * 2 ^ (-126 : ℤ)
      else (1 + (fpFraction w : ℚ) / 2 ^ 23) * 2 ^ ((fpExponent w : ℤ) - 127))

/-- A finite pattern. -/
def Finite32 (w : Word) : Prop := fpExponent w ≠ 255

/-- An infinity. -/
def Infinite32 (w : Word) : Prop := fpExponent w = 255 ∧ fpFraction w = 0

/-- The "representable maximum" of R306. -/
def greatestFinite : ℚ := (2 - 2 ^ (-23 : ℤ)) * 2 ^ (127 : ℤ)

/-- The least magnitude "held as a normal number" (R306). -/
def leastNormal : ℚ := 2 ^ (-126 : ℤ)

/-- From this magnitude on, rounding to nearest gives an infinity: halfway from the greatest finite number to 2^128. -/
def infiniteFrom : ℚ := 2 ^ (128 : ℤ) - 2 ^ (103 : ℤ)

/-- `w` is the finite number nearest to `q`, and where two are as near the one with an even last bit (R306). -/
def Nearest (q : ℚ) (w : Word) : Prop :=
  Finite32 w ∧ ∀ v, Finite32 v → |binary32 w - q| ≤ |binary32 v - q| ∧
    (binary32 v ≠ binary32 w → |binary32 v - q| = |binary32 w - q| → w.getLsbD 0 = false)

/-- `w` is `q`, or one of the two finite numbers around it: none lies from `q` up to, but not at, `w`. -/
def Neighbour (q : ℚ) (w : Word) : Prop :=
  Finite32 w ∧ ∀ v, Finite32 v → ¬ (q ≤ binary32 v ∧ binary32 v < binary32 w) ∧ ¬ (binary32 w < binary32 v ∧ binary32 v ≤ q)

/-- The default's ideal result is the number `q` (R306, R308 to R313); the product of MADD.S and MSUB.S is rounded before the
sum (log entry 30). -/
def FpIdeal (op : FpOp) (a b c : Word) (q : ℚ) : Prop :=
  match op with
  | .add => Finite32 a ∧ Finite32 b ∧ q = binary32 a + binary32 b
  | .sub => Finite32 a ∧ Finite32 b ∧ q = binary32 a - binary32 b
  | .mul => Finite32 a ∧ Finite32 b ∧ q = binary32 a * binary32 b
  | .div => Finite32 a ∧ (Finite32 b ∧ binary32 b ≠ 0 ∧ q = binary32 a / binary32 b ∨ Infinite32 b ∧ q = 0)
  | .madd => Finite32 a ∧ Finite32 b ∧ Finite32 c ∧ |binary32 a * binary32 b| < infiniteFrom ∧
      ∃ p, Nearest (binary32 a * binary32 b) p ∧ q = binary32 c + binary32 p
  | .msub => Finite32 a ∧ Finite32 b ∧ Finite32 c ∧ |binary32 a * binary32 b| < infiniteFrom ∧
      ∃ p, Nearest (binary32 a * binary32 b) p ∧ q = binary32 c - binary32 p

/-- The product of two patterns is of an infinity, with one or with a number that is not zero. -/
def InfiniteFactor (a b : Word) : Prop :=
  Infinite32 a ∧ (Infinite32 b ∨ Finite32 b ∧ binary32 b ≠ 0) ∨ Finite32 a ∧ binary32 a ≠ 0 ∧ Infinite32 b

/-- The rounded product of two patterns is an infinity: a factor is one, or it is of two numbers and past the range. -/
def InfiniteProduct (a b : Word) : Prop :=
  InfiniteFactor a b ∨ Finite32 a ∧ Finite32 b ∧ infiniteFrom ≤ |binary32 a * binary32 b|

/-- The product of two patterns is a number of the range. -/
def FiniteProduct (a b : Word) : Prop := Finite32 a ∧ Finite32 b ∧ |binary32 a * binary32 b| < infiniteFrom

/-- The sum of operand `c` and an addend of sign `addendNeg`, which is infinite or finite, is an infinity of sign `neg`. -/
def InfiniteSum (c : Word) (infinite finite : Prop) (addendNeg neg : Bool) : Prop :=
  Infinite32 c ∧ (finite ∨ infinite ∧ addendNeg = c.getLsbD 31) ∧ neg = c.getLsbD 31 ∨
    Finite32 c ∧ infinite ∧ neg = addendNeg

/-- The default's result is an infinity of sign `neg` before its class is taken (R306). -/
def FpInfinite (op : FpOp) (a b c : Word) (neg : Bool) : Prop :=
  match op with
  | .add => InfiniteSum a (Infinite32 b) (Finite32 b) (b.getLsbD 31) neg
  | .sub => InfiniteSum a (Infinite32 b) (Finite32 b) (!b.getLsbD 31) neg
  | .mul => InfiniteFactor a b ∧ neg = (a.getLsbD 31 ^^ b.getLsbD 31)
  | .div => (Infinite32 a ∧ Finite32 b ∨ Finite32 a ∧ binary32 a ≠ 0 ∧ Finite32 b ∧ binary32 b = 0) ∧
      neg = (a.getLsbD 31 ^^ b.getLsbD 31)
  | .madd => InfiniteSum c (InfiniteProduct a b) (FiniteProduct a b) (a.getLsbD 31 ^^ b.getLsbD 31) neg
  | .msub => InfiniteSum c (InfiniteProduct a b) (FiniteProduct a b) (!(a.getLsbD 31 ^^ b.getLsbD 31)) neg

/-- The sign of an ideal result that is zero, as IEEE 754 has it under rounding to nearest: of a sum negative only where both
addends are, of a product or a quotient the signs' exclusive or. -/
def zeroSign (op : FpOp) (a b c : Word) : Bool :=
  match op with
  | .add => a.getLsbD 31 && b.getLsbD 31
  | .sub => a.getLsbD 31 && !b.getLsbD 31
  | .mul => a.getLsbD 31 ^^ b.getLsbD 31
  | .div => a.getLsbD 31 ^^ b.getLsbD 31
  | .madd => c.getLsbD 31 && (a.getLsbD 31 ^^ b.getLsbD 31)
  | .msub => c.getLsbD 31 && !(a.getLsbD 31 ^^ b.getLsbD 31)

/-- All that R306 says of the default value function, operand by operand: classes by law L2, the nearest number where the
class is Normal, signs, and Overflow for what is not a number, with no sign (log entries 9, 10 and 30). -/
structure FpDefault (op : FpOp) (a b c : Word) (out : FpClass × Word) : Prop where
  large : ∀ q, FpIdeal op a b c q → greatestFinite < |q| → out.1 = .overflow ∧ out.2.getLsbD 31 = decide (q < 0)
  small : ∀ q, FpIdeal op a b c q → q ≠ 0 → |q| < leastNormal → out.1 = .underflow ∧ out.2.getLsbD 31 = decide (q < 0)
  fits : ∀ q, FpIdeal op a b c q → leastNormal ≤ |q| → |q| ≤ greatestFinite → out.1 = .normal ∧ Nearest q out.2
  zero : FpIdeal op a b c 0 → out = (.normal, BitVec.ofBool (zeroSign op a b c) ++ 0#31)
  infinite : ∀ neg, FpInfinite op a b c neg → out.1 = .overflow ∧ out.2.getLsbD 31 = neg
  neither : (∀ q, ¬ FpIdeal op a b c q) → (∀ neg, ¬ FpInfinite op a b c neg) → out.1 = .overflow

/-- The value function `ch` reads the pattern `w` as the number `q`. -/
def Reads (ch : FpChoice) (w : Word) (q : ℚ) : Prop :=
  ∃ neg units, fpRead ch w = .fin neg units ∧ q = (if neg then -1 else 1) * (units : ℚ) / 2 ^ 149

/-- Laws L2 and L3 for an ideal result `q`: the class; where Normal, the encoding of `q` or of a number beside it; where not,
its sign (R306). -/
structure FpLaw (q : ℚ) (out : FpClass × Word) : Prop where
  overflow : out.1 = .overflow ↔ greatestFinite < |q|
  underflow : out.1 = .underflow ↔ q ≠ 0 ∧ |q| < leastNormal
  normal : out.1 = .normal → Neighbour q out.2
  sign : out.1 ≠ .normal → out.2.getLsbD 31 = decide (q < 0)

/-- The product of `x` and `y` that MADD.S and MSUB.S take, with which `law` then holds: exact, or rounded to a number beside it;
past the range it may give Overflow at once (log entry 30). -/
def SomeProduct (x y : ℚ) (out : FpClass × Word) (law : ℚ → Prop) : Prop :=
  law (x * y) ∨ (∃ p, Neighbour (x * y) p ∧ law (binary32 p)) ∨ greatestFinite < |x * y| ∧ out.1 = .overflow

/-- The laws of R306 for any value function `ch`, on operands it reads as numbers: L2 and L3 for the operation's ideal result,
which for a nonzero or zero number over zero exceeds every number or is none. -/
structure FpLaws (ch : FpChoice) (op : FpOp) (a b c : Word) (out : FpClass × Word) : Prop where
  add : ∀ x y, op = .add → Reads ch a x → Reads ch b y → FpLaw (x + y) out
  sub : ∀ x y, op = .sub → Reads ch a x → Reads ch b y → FpLaw (x - y) out
  mul : ∀ x y, op = .mul → Reads ch a x → Reads ch b y → FpLaw (x * y) out
  div : ∀ x y, op = .div → Reads ch a x → Reads ch b y → y ≠ 0 → FpLaw (x / y) out
  divZero : ∀ x, op = .div → Reads ch a x → Reads ch b 0 → out.1 = .overflow
  madd : ∀ x y z, op = .madd → Reads ch a x → Reads ch b y → Reads ch c z →
    SomeProduct x y out fun p => FpLaw (z + p) out
  msub : ∀ x y z, op = .msub → Reads ch a x → Reads ch b y → Reads ch c z →
    SomeProduct x y out fun p => FpLaw (z - p) out
  notNumber : fpRead ch a = .nan ∨ fpRead ch b = .nan ∨ (op = .madd ∨ op = .msub) ∧ fpRead ch c = .nan → out.1 = .overflow

end Sys2Proof.Machine
end

