-- ==== Sys2Proof/Certificates/Slice0/Obligations.lean ====
section
/-! DEFINITION. The statements for the provers. Each docstring names the rules of spec/ it formalises. -/

section

open Sys2Proof Sys2Proof.Machine

/-! ### Encoding (spec/30_encoding.md) -/

/-- Decode and encode agree on every well-formed instruction of either core (R142, R144, R146, R150). -/
def Obligations.DecodeOfEncode : Prop :=
  ∀ (c : CoreId) (i : Instr), i.wf c = true → decode c (encode i) = .row i

/-- The decoder follows the opcode map, word for word and both ways: what a word decodes to has its row in the core's table
and the word matches it, and a word that matches a row of the core's table decodes to that row (R144, R146, R150). -/
def Obligations.DecodeFollowsTheMap : Prop :=
  (∀ (c : CoreId) (w : Word) (i : Instr), decode c w = .row i →
    i.wf c = true ∧ ∃ r, opcodeTable[i.row]? = some r ∧ r.on c = true ∧ r.matches w = true) ∧
  ∀ (c : CoreId) (w : Word) (n : Nat) (r : OpcodeRow), opcodeTable[n]? = some r → r.on c = true →
    r.matches w = true → ∃ i, decode c w = .row i ∧ i.row = n

/-- The decoder reads the keys and the operand fields of a word and ignores every other bit: the canonical word of what a
word decodes to is the word with those other bits cleared (R145). That bits 24:21 of ERET are key, not ignored, is the model's
reading of the spec's files (log entry 31). -/
def Obligations.IgnoredBitsAreIgnored : Prop :=
  ∀ (c : CoreId) (w : Word) (i : Instr), decode c w = .row i → encode i = w &&& usedBits i

/-- Words the spec prints decode to the instruction it prints beside them, and words of the other core's table or of no row
are `Unknown` (R146, R148, R200, R210, R242, R251, R281, R284, R285, R308). -/
def Obligations.SpecWordsDecode : Prop :=
  (∀ c, decode c 0x00221820#32 = .row (.add 3#5 1#5 2#5)) ∧
  (∀ c, decode c 0x00021900#32 = .row (.sll 3#5 2#5 4#5)) ∧
  (∀ c, decode c 0x03E00008#32 = .row (.jr 31#5)) ∧
  (∀ c, decode c 0x80220003#32 = .row (.lb 2#5 1#5 3#16)) ∧
  (∀ c, decode c 0x40026000#32 = .row (.mfc0 2#5 12#5)) ∧
  decode .ee 0x42000018#32 = .row .eret ∧ decode .iop 0x42000018#32 = .unknown ∧
  decode .iop 0x42000010#32 = .row .rfe ∧ decode .ee 0x42000010#32 = .unknown ∧
  decode .ee 0x460208C0#32 = .row (.addS 3#5 1#5 2#5) ∧ decode .iop 0x460208C0#32 = .unknown ∧
  (∀ c, decode c 0x0000000F#32 = .unknown)

/-- A row of the other core's table runs as the unknown word it is on this core: one log event, `pc + 4`, nothing else
(R146, R148, R180). Running `exec` on such an instruction is reached by no step; see log entry 15. -/
def Obligations.ForeignRowIsNoOperation : Prop :=
  ∀ (i : Instr) (s : State), i.wf s.turn = false →
    ∃ t, exec i s = .next t ∧ t.log = s.log ++ [.unknownInstruction s.turn s.ctl.pc (encode i)] ∧
      t.ctl = { s.ctl with pc := s.ctl.pc + 4#32 } ∧ SameRest s { t with log := s.log } ∧ SameRegs s t ∧ SameFp s t ∧
      SameCop0 s t ∧ SameTable s t ∧ SameMemory s t

/-! ### Cells and memory (spec/10_state.md, spec/20_memory.md) -/

/-- A supported access to a register cell reads back what it wrote and leaves the other elements of its size; an unsupported
one is a typed error (R21, R22, R23). -/
def Obligations.CellRoundTrip : Prop :=
  ∀ (w size k : Nat) (cell : BitVec w) (v : BitVec size),
    (cellSupports w size k = true →
      ∃ after, cellWrite cell size k v = .ok after ∧ cellRead after size k = .ok v ∧
        ∀ j, j ≠ k → cellRead after size j = cellRead cell size j) ∧
    (cellSupports w size k = false →
      cellWrite cell size k v = .error .sizeViolation ∧ cellRead cell size k = .error .sizeViolation)

/-- General register 0 of both instances holds 0 in all its bits: every read gives 0, every write is discarded, and so at reset
(R26). -/
def Obligations.RegisterZeroIsConstant : Prop :=
  (∀ (s : State) (n : Nat), s.q 0#5 = 0#128 ∧ s.r32 0#5 = 0#32 ∧ s.x 0#5 n = 0#n) ∧
  (∀ (s : State) (v : Quad) (w : Word) (u : (n : Nat) → BitVec n),
    s.setQ 0#5 v = s ∧ s.setR32 0#5 w = s ∧ s.setX 0#5 u = s) ∧
  State.reset.ee.gpr[0] = 0#128 ∧ State.reset.iop.gpr[0] = 0#32

/-- Two memories in canonical form that read the same everywhere are the same data. The list form is the model's (log
entry 3); the bytes are those of R82 and R87. -/
def Obligations.EqualReadsEqualMemories : Prop :=
  ∀ m n : Memory, Memory.wf m = true → Memory.wf n = true → (∀ a, Memory.read m a = Memory.read n a) → m = n

/-- A write through the mapper to RAM or to a register object that keeps its value reads back, its bytes lie least
significant first, and no other byte and nothing else changes; a constant block answers its pattern and discards every
write (R82, R83, R87). That the pattern repeats through the block, and that an empty one reads 0, are the model's choices
(log entries 18 and 32). -/
def Obligations.WrittenValueReadsBack : Prop :=
  ∀ (s : State) (pa : Word) (n : Nat) (v : BitVec (8 * n)),
    (Memory.wf s.mem = true → PlainAccess s pa n →
      ∃ t, physWrite pa n v s = .ok t ∧ physRead pa n t = .ok (v, t) ∧ t = { s with mem := t.mem } ∧
        (∀ k, k < n → byteAt t pa k = v.extractLsb' (8 * k) 8) ∧ SameMemoryOutside pa.toNat n s t) ∧
    ∀ (o : MappedObject) (off size : Nat) (pattern : List Byte),
      locate s.physMap pa n = .ok (o, off) → o.kind = .constant size pattern →
      physWrite pa n v s = .ok s ∧ ∃ r, physRead pa n s = .ok (r, s) ∧
        ∀ k, k < n → r.extractLsb' (8 * k) 8 = pattern.getD ((off + k) % pattern.length) 0#8

/-- The mapper in a valid map: no object, or the one object that contains the address; then the size check, then the
alignment check (R81, R82, R83). -/
def Obligations.MapperFindsTheObject : Prop :=
  ∀ (objects : List MappedObject) (pa : Word) (n : Nat), physMapValid objects = true →
    ((∀ o ∈ objects, ¬ (o.base ≤ pa.toNat ∧ pa.toNat ≤ o.base + o.extent - 1 ∧ 0 < o.extent)) →
      locate objects pa n = .error .unmapped) ∧
    ∀ o ∈ objects, o.base ≤ pa.toNat → pa.toNat < o.base + o.extent →
      (¬ Accepts o.kind n → locate objects pa n = .error .sizeViolation) ∧
      (Accepts o.kind n → ((pa.toNat - o.base) % n ≠ 0 ∨ pa.toNat - o.base + n > o.extent) →
        locate objects pa n = .error .alignViolation) ∧
      (Accepts o.kind n → (pa.toNat - o.base) % n = 0 → pa.toNat - o.base + n ≤ o.extent →
        locate objects pa n = .ok (o, pa.toNat - o.base))

/-! ### The translator (spec/20_memory.md) -/

/-- The predicates derived from Status (R46). -/
def Obligations.StatusPredicates : Prop :=
  ∀ st : Word,
    (kernelMode .ee st = true ↔ st.extractLsb' 3 2 = 0#2 ∨ st.getLsbD 1 = true ∨ st.getLsbD 2 = true) ∧
    (userMode .ee st = true ↔ st.extractLsb' 3 2 = 2#2 ∧ st.getLsbD 1 = false ∧ st.getLsbD 2 = false) ∧
    ((kernelMode .ee st = false ∧ userMode .ee st = false) ↔
      (st.extractLsb' 3 2 = 1#2 ∨ st.extractLsb' 3 2 = 3#2) ∧ st.getLsbD 1 = false ∧ st.getLsbD 2 = false) ∧
    (intEnabled .ee st = true ↔
      st.getLsbD 0 = true ∧ st.getLsbD 16 = true ∧ st.getLsbD 1 = false ∧ st.getLsbD 2 = false) ∧
    (kernelMode .iop st = true ↔ st.getLsbD 1 = false) ∧ (userMode .iop st = true ↔ st.getLsbD 1 = true) ∧
    (kernelMode .iop st = true ∨ userMode .iop st = true) ∧
    (intEnabled .iop st = true ↔ st.getLsbD 0 = true) ∧
    ∀ c, (copUsable c st 0#2 = true ↔ kernelMode c st = true ∨ st.getLsbD 28 = true) ∧
      ∀ n : BitVec 2, n ≠ 0#2 → (copUsable c st n = true ↔ st.getLsbD (28 + n.toNat) = true)

/-- Stage 1 in kernel mode: the two fixed windows of both cores translate by subtraction, whatever the access, with no fault
(R92); the two extra windows are IOP's only, and with no window Stage 2 follows (R93). -/
def Obligations.KernelModeWindows : Prop :=
  ∀ (s : State) (va : Word) (kind : AccessKind), kernelMode s.turn s.ctl.status = true →
    (0x80000000#32 ≤ va → va ≤ 0x9FFFFFFF#32 →
      translate va kind s = .ok (va - 0x80000000#32) ∧ va - 0x80000000#32 ≤ 0x1FFFFFFF#32) ∧
    (0xA0000000#32 ≤ va → va ≤ 0xBFFFFFFF#32 →
      translate va kind s = .ok (va - 0xA0000000#32) ∧ va - 0xA0000000#32 ≤ 0x1FFFFFFF#32) ∧
    (s.turn = .iop → 0xFFC00000#32 ≤ va → translate va kind s = .ok (va - 0xE0000000#32)) ∧
    (s.turn = .iop → va ≤ 0x001FFFFF#32 → translate va kind s = .ok va) ∧
    (s.turn = .iop → 0x001FFFFF#32 < va → (va < 0x80000000#32 ∨ 0xBFFFFFFF#32 < va) → va < 0xFFC00000#32 →
      translate va kind s = translateMapped va kind s) ∧
    (s.turn = .ee → (va < 0x80000000#32 ∨ 0xBFFFFFFF#32 < va) → translate va kind s = translateMapped va kind s)

/-- Stage 1 in user mode: an address above the bound is an AddressError of the access's direction, an address up to the bound
goes to Stage 2 (R91). -/
def Obligations.UserSegmentBound : Prop :=
  ∀ (s : State) (va : Word) (kind : AccessKind), userMode s.turn s.ctl.status = true →
    (0x7FFFFFFF#32 < va → kind = .store → translate va kind s = .fault (.addressError va .store)) ∧
    (0x7FFFFFFF#32 < va → kind ≠ .store → translate va kind s = .fault (.addressError va .loadOrFetch)) ∧
    (va ≤ 0x7FFFFFFF#32 → translate va kind s = translateMapped va kind s)

/-- The two unimplemented paths of the translator abort: a mode that is neither user nor kernel, and Stage 2 on IOP, which
takes every user address up to the bound and every kernel address outside the four windows (R94). -/
def Obligations.UnimplementedPathsAbort : Prop :=
  ∀ (s : State) (va : Word) (kind : AccessKind),
    (kernelMode s.turn s.ctl.status = false → userMode s.turn s.ctl.status = false →
      s.turn = .ee ∧ translate va kind s = .abort .unimplementedMode) ∧
    (s.turn = .iop → translateMapped va kind s = .abort .unimplementedStage2) ∧
    (s.turn = .iop → userMode s.turn s.ctl.status = true → va ≤ 0x7FFFFFFF#32 →
      translate va kind s = .abort .unimplementedStage2) ∧
    (s.turn = .iop → kernelMode s.turn s.ctl.status = true → 0x001FFFFF#32 < va →
      (va < 0x80000000#32 ∨ 0xBFFFFFFF#32 < va) → va < 0xFFC00000#32 →
      translate va kind s = .abort .unimplementedStage2)

/-- Stages 2 to 4 on EE. No entry with the page number: a miss. The entry of least index with it: a miss when it is not
global and its identifier is not the current one; else invalid, modified, the scratchpad window, or the frame and offset
combined, for each legal page size (R95 to R99, R104). What an entry with an illegal mask gives is a free value and stands in
no statement (R103, log entry 12). -/
def Obligations.TableLookup : Prop :=
  ∀ (s : State) (va : Word) (kind : AccessKind) (dir : Dir), s.turn = .ee →
    (kind = .store → dir = .store) → (kind ≠ .store → dir = .loadOrFetch) →
    ((∀ i (h : i < 48), ¬ PageAgrees s.ee.tlb[i] va) →
      translateMapped va kind s = .fault (.translationMiss va dir)) ∧
    ∀ i (h : i < 48), PageAgrees s.ee.tlb[i] va → (∀ j (g : j < i), ¬ PageAgrees s.ee.tlb[j] va) →
      ∀ (e : TlbEntry) (b : Nat) (p : SubPage), s.ee.tlb[i] = e → (e.mask, b) ∈ pageOffsetBits →
        (va.getLsbD b = true → p = e.odd) → (va.getLsbD b = false → p = e.even) →
        (e.g = false → e.asid ≠ s.ee.entryHi.extractLsb' 0 8 →
          translateMapped va kind s = .fault (.translationMiss va dir)) ∧
        ((e.g = true ∨ e.asid = s.ee.entryHi.extractLsb' 0 8) →
          (p.v = false → translateMapped va kind s = .fault (.translationInvalid va dir)) ∧
          (p.v = true → kind = .store → p.d = false →
            translateMapped va kind s = .fault (.translationModified va .store)) ∧
          (p.v = true → (kind ≠ .store ∨ p.d = true) → e.s = true →
            translateMapped va kind s = .ok (BitVec.ofNat 32 (0x70000000 + va.toNat % 0x4000))) ∧
          (p.v = true → (kind ≠ .store ∨ p.d = true) → e.s = false →
            translateMapped va kind s =
              .ok (BitVec.ofNat 32 (p.pfn.toNat * 4096 / 2 ^ b * 2 ^ b + va.toNat % 2 ^ b))))

/-! ### Loads and stores (spec/42_load_store.md) -/

/-- A misaligned load or store raises AddressError with its address and direction, and nothing else happens (R89, R259). -/
def Obligations.MisalignedAccessRaises : Prop :=
  ∀ (i : Instr) (rt rs : RegIdx) (imm : BitVec 16) (n : Nat) (s : State), i.wf s.turn = true →
    (accessAddress s rs imm n).toNat % n ≠ 0 →
    (IsLoad i rt rs imm n →
      ∃ t, exec i s = .next t ∧ Raises (.addressError (accessAddress s rs imm n) .loadOrFetch) s t) ∧
    (IsStore i rt rs imm n →
      ∃ t, exec i s = .next t ∧ Raises (.addressError (accessAddress s rs imm n) .store) s t)

/-- A load or store whose translation faults raises that fault and has no other effect; one whose translation aborts, or whose
physical access gets a typed error, ends the run (R86, R94, R100, R108, R109, R259). -/
def Obligations.FailedAccessEndsInstruction : Prop :=
  ∀ (i : Instr) (rt rs : RegIdx) (imm : BitVec 16) (n : Nat) (s : State) (kind : AccessKind) (dir : BusDir),
    i.wf s.turn = true →
    (IsLoad i rt rs imm n ∧ kind = .load ∧ dir = .read ∨ IsStore i rt rs imm n ∧ kind = .store ∧ dir = .write) →
    (accessAddress s rs imm n).toNat % n = 0 →
    (∀ k, translate (accessAddress s rs imm n) kind s = .fault k → ∃ t, exec i s = .next t ∧ Raises k s t) ∧
    (∀ r, translate (accessAddress s rs imm n) kind s = .abort r → ∃ t, exec i s = .next t ∧ Aborts r s t) ∧
    (∀ pa e, translate (accessAddress s rs imm n) kind s = .ok pa → locate s.physMap pa n = .error e →
      ∃ t, exec i s = .next t ∧ Aborts (.bus e pa n dir) s t)

/-- LB, LBU, LH, LHU and LW from RAM or a register object that keeps its value: the bytes at the physical address, the lowest
least significant, sign- or zero-extended into `rt`; with `rt` = 0 no register changes (R87, R250 to R255, R259). -/
def Obligations.LoadsReadMemory : Prop :=
  ∀ (rt rs : RegIdx) (imm : BitVec 16) (s : State) (pa : Word),
    translate (accessAddress s rs imm 1) .load s = .ok pa →
    (PlainAccess s pa 1 →
      (∃ t, exec (.lb rt rs imm) s = .next t ∧ WritesReg rt (fun n => (byteAt s pa 0).signExtend n) s t) ∧
      (∃ t, exec (.lbu rt rs imm) s = .next t ∧ WritesReg rt (fun n => (byteAt s pa 0).setWidth n) s t)) ∧
    (PlainAccess s pa 2 → (accessAddress s rs imm 2).toNat % 2 = 0 →
      (∃ t, exec (.lh rt rs imm) s = .next t ∧
        WritesReg rt (fun n => (byteAt s pa 1 ++ byteAt s pa 0).signExtend n) s t) ∧
      (∃ t, exec (.lhu rt rs imm) s = .next t ∧
        WritesReg rt (fun n => (byteAt s pa 1 ++ byteAt s pa 0).setWidth n) s t)) ∧
    (PlainAccess s pa 4 → (accessAddress s rs imm 4).toNat % 4 = 0 →
      ∃ t, exec (.lw rt rs imm) s = .next t ∧
        WritesReg rt (fun n => (byteAt s pa 3 ++ byteAt s pa 2 ++ byteAt s pa 1 ++ byteAt s pa 0).signExtend n) s t)

/-- LWU and LD likewise, and LQ, which writes all 128 bits from the address with its low four bits cleared (R256 to R258). -/
def Obligations.EeLoadsReadMemory : Prop :=
  ∀ (rt rs : RegIdx) (imm : BitVec 16) (s : State) (pa : Word), s.turn = .ee →
    (translate (accessAddress s rs imm 4) .load s = .ok pa → PlainAccess s pa 4 →
      (accessAddress s rs imm 4).toNat % 4 = 0 →
      ∃ t, exec (.lwu rt rs imm) s = .next t ∧
        WritesReg rt (fun n => (byteAt s pa 3 ++ byteAt s pa 2 ++ byteAt s pa 1 ++ byteAt s pa 0).setWidth n) s t) ∧
    (translate (accessAddress s rs imm 8) .load s = .ok pa → PlainAccess s pa 8 →
      (accessAddress s rs imm 8).toNat % 8 = 0 →
      ∃ t, exec (.ld rt rs imm) s = .next t ∧ OnlyReg rt s t ∧ t.ctl.pc = s.ctl.pc + 4#32 ∧
        (rt = 0#5 → SameRegs s t) ∧
        (rt ≠ 0#5 → ∀ k, k < 8 → (t.x rt 64).extractLsb' (8 * k) 8 = byteAt s pa k)) ∧
    (translate (accessAddress s rs imm 16) .load s = .ok pa → PlainAccess s pa 16 →
      ∃ t, exec (.lq rt rs imm) s = .next t ∧ SameRest s t ∧ SameTable s t ∧ SameCop0 s t ∧ SameFp s t ∧
        SameMemory s t ∧ SameRegsBut rt s t ∧ SameControl s t ∧ t.ctl.pc = s.ctl.pc + 4#32 ∧
        (rt = 0#5 → SameRegs s t) ∧
        (rt ≠ 0#5 → ∀ k, k < 16 → (t.q rt).extractLsb' (8 * k) 8 = byteAt s pa k))

/-- SB, SH and SW to RAM or a register object that keeps its value: the low bytes of `rt` at the physical address of the
effective address, the least significant lowest, and nothing else changes (R87, R250, R259 to R262). The memory is in
the canonical form that every step keeps (StepKeepsInvariant). -/
def Obligations.StoresWriteMemory : Prop :=
  ∀ (rt rs : RegIdx) (imm : BitVec 16) (s : State) (pa : Word), Memory.wf s.mem = true →
    translate (accessAddress s rs imm 1) .store s = .ok pa →
    (PlainAccess s pa 1 →
      ∃ t, exec (.sb rt rs imm) s = .next t ∧ StoresAt pa.toNat 1 s t ∧ byteAt t pa 0 = s.x rt 8) ∧
    (PlainAccess s pa 2 → (accessAddress s rs imm 2).toNat % 2 = 0 →
      ∃ t, exec (.sh rt rs imm) s = .next t ∧ StoresAt pa.toNat 2 s t ∧
        byteAt t pa 1 ++ byteAt t pa 0 = s.x rt 16) ∧
    (PlainAccess s pa 4 → (accessAddress s rs imm 4).toNat % 4 = 0 →
      ∃ t, exec (.sw rt rs imm) s = .next t ∧ StoresAt pa.toNat 4 s t ∧
        byteAt t pa 3 ++ byteAt t pa 2 ++ byteAt t pa 1 ++ byteAt t pa 0 = s.x rt 32)

/-- SD likewise, and SQ, which stores all 128 bits at the address with its low four bits cleared (R263, R264). -/
def Obligations.EeStoresWriteMemory : Prop :=
  ∀ (rt rs : RegIdx) (imm : BitVec 16) (s : State) (pa : Word), s.turn = .ee → Memory.wf s.mem = true →
    (translate (accessAddress s rs imm 8) .store s = .ok pa → PlainAccess s pa 8 →
      (accessAddress s rs imm 8).toNat % 8 = 0 →
      ∃ t, exec (.sd rt rs imm) s = .next t ∧ StoresAt pa.toNat 8 s t ∧
        ∀ k, k < 8 → byteAt t pa k = (s.x rt 64).extractLsb' (8 * k) 8) ∧
    (translate (accessAddress s rs imm 16) .store s = .ok pa → PlainAccess s pa 16 →
      ∃ t, exec (.sq rt rs imm) s = .next t ∧ StoresAt pa.toNat 16 s t ∧
        ∀ k, k < 16 → byteAt t pa k = (s.q rt).extractLsb' (8 * k) 8)

/-- A load or a store that reaches an object of any kind (a constant block, a register object with functions of its own)
completes: a load puts what one physical read gives in the low bits of `rt`, a narrow one sign-extended (LB, LH, LW) or
zero-extended (LBU, LHU, LWU), a store makes one physical write of the data, and the rest is as the object leaves it (R83,
R88, R116, R251 to R256, R259). -/
def Obligations.AccessOfAnyObject : Prop :=
  ∀ (i : Instr) (rt rs : RegIdx) (imm : BitVec 16) (n : Nat) (s u : State) (pa : Word), i.wf s.turn = true →
    (accessAddress s rs imm n).toNat % n = 0 →
    (∀ v, IsLoad i rt rs imm n → translate (accessAddress s rs imm n) .load s = .ok pa →
      physRead pa n s = .ok (v, u) →
      ∃ t, exec i s = .next t ∧ SameRest u t ∧ SameMemory u t ∧ SameRegsBut rt s t ∧ SameFp s t ∧ SameCop0 s t ∧
        SameTable s t ∧ t.ctl = { s.ctl with pc := s.ctl.pc + 4#32 } ∧ (n ≠ 16 → SameUpperHalves s t) ∧
        (rt = 0#5 → SameRegs s t) ∧ (rt ≠ 0#5 → s.turn = .ee → (t.q rt).setWidth (8 * n) = v) ∧
        (rt ≠ 0#5 → s.turn = .iop → (t.r32 rt).setWidth (8 * n) = v) ∧
        (rt ≠ 0#5 → n ≠ 16 → t.x rt s.turn.xlen =
          if i ∈ [.lb rt rs imm, .lh rt rs imm, .lw rt rs imm] then v.signExtend s.turn.xlen
          else v.setWidth s.turn.xlen)) ∧
    (IsStore i rt rs imm n → translate (accessAddress s rs imm n) .store s = .ok pa →
      physWrite pa n ((s.q rt).setWidth (8 * n)) s = .ok u → s.turn = .ee →
      ∃ t, exec i s = .next t ∧ OnlyPc u t ∧ t.ctl.pc = s.ctl.pc + 4#32) ∧
    (IsStore i rt rs imm n → translate (accessAddress s rs imm n) .store s = .ok pa →
      physWrite pa n ((s.r32 rt).setWidth (8 * n)) s = .ok u → s.turn = .iop →
      ∃ t, exec i s = .next t ∧ OnlyPc u t ∧ t.ctl.pc = s.ctl.pc + 4#32)

/-- A fetch sees a store at once: the word an agent or a core wrote at the physical address of `pc` is the word fetched
(R87, R105, R115). -/
def Obligations.FetchSeesStores : Prop :=
  ∀ (s t : State) (pa w : Word), Memory.wf s.mem = true → PlainAccess s pa 4 → s.ctl.pc.toNat % 4 = 0 →
    translate s.ctl.pc .fetch s = .ok pa → physWrite pa 4 w s = .ok t → fetchWord t = .ok w t

/-! ### Integer rows (spec/40_integer_alu.md) -/

/-- AND, OR, XOR and NOR work on all `XLEN` bits; SLT and SLTU compare all of them, signed and unsigned, and give 1 or 0 (R204
to R209). -/
def Obligations.FullWidthRows : Prop :=
  ∀ (rd rs rt : RegIdx) (s : State),
    (∃ t, exec (.and rd rs rt) s = .next t ∧ WritesReg rd (fun n => s.x rs n &&& s.x rt n) s t) ∧
    (∃ t, exec (.or rd rs rt) s = .next t ∧ WritesReg rd (fun n => s.x rs n ||| s.x rt n) s t) ∧
    (∃ t, exec (.xor rd rs rt) s = .next t ∧ WritesReg rd (fun n => s.x rs n ^^^ s.x rt n) s t) ∧
    (∃ t, exec (.nor rd rs rt) s = .next t ∧ WritesReg rd (fun n => ~~~(s.x rs n ||| s.x rt n)) s t) ∧
    (∃ t, exec (.slt rd rs rt) s = .next t ∧
      WritesReg rd (fun n => if (s.x rs n).toInt < (s.x rt n).toInt then 1 else 0) s t) ∧
    (∃ t, exec (.sltu rd rs rt) s = .next t ∧
      WritesReg rd (fun n => if (s.x rs n).toNat < (s.x rt n).toNat then 1 else 0) s t)

/-- ADDU, SUBU, ADDIU and LUI give the low 32 bits of the exact result, sign-extended, and never raise (R201, R203, R214,
R220, R221). -/
def Obligations.WrappingRows : Prop :=
  ∀ (rd rs rt : RegIdx) (imm : BitVec 16) (s : State),
    (∃ t, exec (.addu rd rs rt) s = .next t ∧
      WritesReg rd (fun n => (BitVec.ofNat 32 ((s.x rs 32).toNat + (s.x rt 32).toNat)).signExtend n) s t) ∧
    (∃ t, exec (.subu rd rs rt) s = .next t ∧
      WritesReg rd (fun n => (BitVec.ofInt 32 ((s.x rs 32).toNat - (s.x rt 32).toNat : Int)).signExtend n) s t) ∧
    (∃ t, exec (.addiu rd rs imm) s = .next t ∧
      WritesReg rd (fun n => (BitVec.ofInt 32 ((s.x rs 32).toInt + imm.toInt)).signExtend n) s t) ∧
    (∃ t, exec (.lui rd imm) s = .next t ∧
      WritesReg rd (fun n => (BitVec.ofNat 32 (imm.toNat * 65536)).signExtend n) s t)

/-- ADD, SUB and ADDI. When the exact result fits 32 bits signed, that integer is written at full width; when it does not,
ArithmeticOverflow is raised, whatever the destination, and nothing else changes (R200, R202, R213, R334). -/
def Obligations.CheckedRows : Prop :=
  ∀ (rd rs rt : RegIdx) (imm : BitVec 16) (s : State) (sum diff isum : Int),
    sum = (s.x rs 32).toInt + (s.x rt 32).toInt → diff = (s.x rs 32).toInt - (s.x rt 32).toInt →
    isum = (s.x rs 32).toInt + imm.toInt →
    (-2 ^ 31 ≤ sum → sum ≤ 2 ^ 31 - 1 →
      ∃ t, exec (.add rd rs rt) s = .next t ∧ WritesReg rd (fun n => BitVec.ofInt n sum) s t) ∧
    (-2 ^ 31 ≤ diff → diff ≤ 2 ^ 31 - 1 →
      ∃ t, exec (.sub rd rs rt) s = .next t ∧ WritesReg rd (fun n => BitVec.ofInt n diff) s t) ∧
    (-2 ^ 31 ≤ isum → isum ≤ 2 ^ 31 - 1 →
      ∃ t, exec (.addi rd rs imm) s = .next t ∧ WritesReg rd (fun n => BitVec.ofInt n isum) s t) ∧
    ((sum < -2 ^ 31 ∨ 2 ^ 31 - 1 < sum) →
      ∃ t, exec (.add rd rs rt) s = .next t ∧ Raises .arithmeticOverflow s t) ∧
    ((diff < -2 ^ 31 ∨ 2 ^ 31 - 1 < diff) →
      ∃ t, exec (.sub rd rs rt) s = .next t ∧ Raises .arithmeticOverflow s t) ∧
    ((isum < -2 ^ 31 ∨ 2 ^ 31 - 1 < isum) →
      ∃ t, exec (.addi rd rs imm) s = .next t ∧ Raises .arithmeticOverflow s t)

/-- SLL, SRL and SRA shift the low word by `sa` and sign-extend: times, divided by (unsigned), and divided by (signed,
toward minus infinity) the power of two (R210 to R212). -/
def Obligations.ShiftRows : Prop :=
  ∀ (rd rt : RegIdx) (sa : BitVec 5) (s : State),
    (∃ t, exec (.sll rd rt sa) s = .next t ∧
      WritesReg rd (fun n => (BitVec.ofNat 32 ((s.x rt 32).toNat * 2 ^ sa.toNat)).signExtend n) s t) ∧
    (∃ t, exec (.srl rd rt sa) s = .next t ∧
      WritesReg rd (fun n => (BitVec.ofNat 32 ((s.x rt 32).toNat / 2 ^ sa.toNat)).signExtend n) s t) ∧
    (∃ t, exec (.sra rd rt sa) s = .next t ∧
      WritesReg rd (fun n => BitVec.ofInt n ((s.x rt 32).toInt / 2 ^ sa.toNat)) s t)

/-- ANDI, ORI and XORI zero-extend the immediate; SLTI and SLTIU sign-extend it, SLTIU then comparing unsigned (R215 to R219).
-/
def Obligations.ImmediateRows : Prop :=
  ∀ (rt rs : RegIdx) (imm : BitVec 16) (s : State),
    (∃ t, exec (.andi rt rs imm) s = .next t ∧ WritesReg rt (fun n => s.x rs n &&& BitVec.ofNat n imm.toNat) s t) ∧
    (∃ t, exec (.ori rt rs imm) s = .next t ∧ WritesReg rt (fun n => s.x rs n ||| BitVec.ofNat n imm.toNat) s t) ∧
    (∃ t, exec (.xori rt rs imm) s = .next t ∧ WritesReg rt (fun n => s.x rs n ^^^ BitVec.ofNat n imm.toNat) s t) ∧
    (∃ t, exec (.slti rt rs imm) s = .next t ∧
      WritesReg rt (fun n => if (s.x rs n).toInt < (BitVec.ofInt n imm.toInt).toInt then 1 else 0) s t) ∧
    (∃ t, exec (.sltiu rt rs imm) s = .next t ∧
      WritesReg rt (fun n => if (s.x rs n).toNat < (BitVec.ofInt n imm.toInt).toNat then 1 else 0) s t)

/-! ### Control transfers (spec/41_branch_jump.md) -/

/-- BEQ and BNE compare all `XLEN` bits. Taken: the tracker takes the target and one delay slot, and `pc` moves to the slot;
not taken: `pc` moves on and nothing else changes (R231, R235 to R237). -/
def Obligations.BranchRows : Prop :=
  ∀ (rs rt : RegIdx) (imm : BitVec 16) (s : State) (target : Word),
    target = BitVec.ofInt 32 (s.ctl.pc.toNat + 4 + imm.toInt * 4) →
    (s.x rs s.turn.xlen = s.x rt s.turn.xlen →
      (∃ t, exec (.beq rs rt imm) s = .next t ∧ OnlyTracker s t ∧ t.ctl.pc = s.ctl.pc + 4#32 ∧
        t.ctl.bd = .pending target 1) ∧
      (∃ t, exec (.bne rs rt imm) s = .next t ∧ OnlyPc s t ∧ t.ctl.pc = s.ctl.pc + 4#32)) ∧
    (s.x rs s.turn.xlen ≠ s.x rt s.turn.xlen →
      (∃ t, exec (.bne rs rt imm) s = .next t ∧ OnlyTracker s t ∧ t.ctl.pc = s.ctl.pc + 4#32 ∧
        t.ctl.bd = .pending target 1) ∧
      (∃ t, exec (.beq rs rt imm) s = .next t ∧ OnlyPc s t ∧ t.ctl.pc = s.ctl.pc + 4#32))

/-- BEQL and BNEL likewise when taken; when not taken `pc` skips the slot (R238, R239). -/
def Obligations.LikelyRows : Prop :=
  ∀ (rs rt : RegIdx) (imm : BitVec 16) (s : State) (target : Word), s.turn = .ee →
    target = BitVec.ofInt 32 (s.ctl.pc.toNat + 4 + imm.toInt * 4) →
    (s.x rs 64 = s.x rt 64 →
      (∃ t, exec (.beql rs rt imm) s = .next t ∧ OnlyTracker s t ∧ t.ctl.pc = s.ctl.pc + 4#32 ∧
        t.ctl.bd = .pending target 1) ∧
      (∃ t, exec (.bnel rs rt imm) s = .next t ∧ OnlyPc s t ∧ t.ctl.pc = s.ctl.pc + 8#32)) ∧
    (s.x rs 64 ≠ s.x rt 64 →
      (∃ t, exec (.bnel rs rt imm) s = .next t ∧ OnlyTracker s t ∧ t.ctl.pc = s.ctl.pc + 4#32 ∧
        t.ctl.bd = .pending target 1) ∧
      (∃ t, exec (.beql rs rt imm) s = .next t ∧ OnlyPc s t ∧ t.ctl.pc = s.ctl.pc + 8#32))

/-- J, JAL, JR and JALR: the tracker takes the target, `pc` moves to the slot, and the link is the address after the slot,
zero-extended; JALR reads its target before it writes the link, and links nowhere when `rd` = 0 (R231, R235, R240 to
R243). -/
def Obligations.JumpRows : Prop :=
  ∀ (rd rs : RegIdx) (index : BitVec 26) (s : State) (target : Word),
    target = BitVec.ofNat 32 ((s.ctl.pc + 4#32).toNat / 2 ^ 28 * 2 ^ 28 + index.toNat * 4) →
    (∃ t, exec (.j index) s = .next t ∧ OnlyTracker s t ∧ t.ctl.pc = s.ctl.pc + 4#32 ∧
      t.ctl.bd = .pending target 1) ∧
    (∃ t, exec (.jal index) s = .next t ∧ OnlyTrackerAndReg 31#5 s t ∧ t.ctl.pc = s.ctl.pc + 4#32 ∧
      t.ctl.bd = .pending target 1 ∧ (t.x 31#5 s.turn.xlen).toNat = (s.ctl.pc + 8#32).toNat) ∧
    (∃ t, exec (.jr rs) s = .next t ∧ OnlyTracker s t ∧ t.ctl.pc = s.ctl.pc + 4#32 ∧
      t.ctl.bd = .pending (s.x rs 32) 1) ∧
    (∃ t, exec (.jalr rd rs) s = .next t ∧ OnlyTrackerAndReg rd s t ∧ t.ctl.pc = s.ctl.pc + 4#32 ∧
      t.ctl.bd = .pending (s.x rs 32) 1 ∧ (rd = 0#5 → SameRegs s t) ∧
      (rd ≠ 0#5 → (t.x rd s.turn.xlen).toNat = (s.ctl.pc + 8#32).toNat))

/-- The tracker's transition before a fetch (R232). -/
def Obligations.TrackerResolves : Prop :=
  ∀ (s : State) (target : Word) (r : Nat),
    (s.ctl.bd = .idle → s.resolveBranchDelay = s) ∧
    (s.ctl.bd = .pending target 0 → OnlyTracker s s.resolveBranchDelay ∧
      s.resolveBranchDelay.ctl.pc = target ∧ s.resolveBranchDelay.ctl.bd = .idle) ∧
    (s.ctl.bd = .pending target (r + 1) → OnlyTracker s s.resolveBranchDelay ∧
      s.resolveBranchDelay.ctl.pc = s.ctl.pc ∧ s.resolveBranchDelay.ctl.bd = .pending target r)

/-! ### The system coprocessor (spec/43_system_cop0.md) -/

/-- MFC0 completes for every register number and writes the register's read view, sign-extended; each defined number reads
the register of that name with its reserved bits 0 (R33 to R44, R281). What an undefined number reads is a free value (R45,
log entry 11). -/
def Obligations.ControlRegisterReads : Prop :=
  ∀ (rt rd : RegIdx) (s : State), s.copUsable 0#2 = true →
    (∃ t, exec (.mfc0 rt rd) s = .next t ∧ WritesReg rt (fun n => (s.cop0Read rd).signExtend n) s t) ∧
    (s.turn = .ee →
      s.cop0Read 0#5 = s.ee.index &&& 0x0000003F#32 ∧ s.cop0Read 2#5 = s.ee.entryLo0 &&& 0x83FFFFFF#32 ∧
      s.cop0Read 3#5 = s.ee.entryLo1 &&& 0x03FFFFFF#32 ∧ s.cop0Read 5#5 = s.ee.pageMask &&& 0x01FFE000#32 ∧
      s.cop0Read 8#5 = s.ctl.badVAddr ∧ s.cop0Read 10#5 = s.ee.entryHi &&& 0xFFFFE0FF#32 ∧
      s.cop0Read 12#5 = s.ctl.status &&& 0xF0018C1F#32 ∧ s.cop0Read 13#5 = s.ctl.cause &&& 0xB0008C7C#32 ∧
      s.cop0Read 14#5 = s.ctl.epc ∧ s.cop0Read 30#5 = s.ee.errorEpc) ∧
    (s.turn = .iop →
      s.cop0Read 8#5 = s.ctl.badVAddr ∧ s.cop0Read 12#5 = s.ctl.status &&& 0xF000FF3F#32 ∧
      s.cop0Read 13#5 = s.ctl.cause &&& 0xB000FF7C#32 ∧ s.cop0Read 14#5 = s.ctl.epc)

/-- MTC0 changes the bits of the register's write mask to the low word of `rt`, keeps its other bits and every other control
register, and to an undefined number does nothing (R33 to R45, R282). -/
def Obligations.ControlRegisterWrites : Prop :=
  ∀ (rt rd : RegIdx) (s : State), s.copUsable 0#2 = true →
    ∃ t, exec (.mtc0 rt rd) s = .next t ∧ OnlyControlRegs s t ∧
      t.ctl = { s.ctl with
        pc := s.ctl.pc + 4#32, status := t.ctl.status, cause := t.ctl.cause, epc := t.ctl.epc,
        badVAddr := t.ctl.badVAddr } ∧
      (∀ n, n ≠ rd → t.cop0Cell n = s.cop0Cell n) ∧
      (s.turn = .ee → ∀ m, (rd, m) ∈ eeWriteMasks → t.cop0Cell rd = (s.cop0Cell rd &&& ~~~m) ||| (s.x rt 32 &&& m)) ∧
      (s.turn = .iop → ∀ m, (rd, m) ∈ iopWriteMasks → t.cop0Cell rd = (s.cop0Cell rd &&& ~~~m) ||| (s.x rt 32 &&& m)) ∧
      (s.turn = .ee → (∀ m, (rd, m) ∉ eeWriteMasks) → OnlyPc s t) ∧
      (s.turn = .iop → (∀ m, (rd, m) ∉ iopWriteMasks) → OnlyPc s t)

/-- ERET: to ErrorEPC with ERL cleared when ERL is set, else to EPC with EXL cleared; the tracker becomes idle, and no other
state changes (R284, R287). -/
def Obligations.EretReturns : Prop :=
  ∀ s : State, s.turn = .ee → s.copUsable 0#2 = true →
    ∃ t, exec .eret s = .next t ∧ SameRest s t ∧ SameTable s t ∧ SameCop0 s t ∧ SameFp s t ∧ SameMemory s t ∧
      SameRegs s t ∧
      (s.ctl.status.getLsbD 2 = true →
        t.ctl = { s.ctl with pc := s.ee.errorEpc, bd := .idle, status := s.ctl.status &&& 0xFFFFFFFB#32 }) ∧
      (s.ctl.status.getLsbD 2 = false →
        t.ctl = { s.ctl with pc := s.ctl.epc, bd := .idle, status := s.ctl.status &&& 0xFFFFFFFD#32 })

/-- RFE: Status bits 3:0 take bits 5:2, every other bit stays, `pc` advances, and no other state changes (R285). -/
def Obligations.RfePops : Prop :=
  ∀ s : State, s.turn = .iop → s.copUsable 0#2 = true →
    ∃ t, exec .rfe s = .next t ∧ SameRest s t ∧ SameTable s t ∧ SameCop0 s t ∧ SameFp s t ∧ SameMemory s t ∧
      SameRegs s t ∧ t.ctl = { s.ctl with pc := s.ctl.pc + 4#32, status := t.ctl.status } ∧
      t.ctl.status.extractLsb' 0 4 = s.ctl.status.extractLsb' 2 4 ∧
      t.ctl.status.extractLsb' 4 28 = s.ctl.status.extractLsb' 4 28

/-- TLBWI writes entry `Index[5:0]` from PageMask, EntryHi and the two EntryLo registers, field by field, and no other entry;
an index of 48 to 63 aborts the run (R286). -/
def Obligations.TlbwiWritesEntry : Prop :=
  ∀ (s : State) (i : Nat), s.turn = .ee → s.copUsable 0#2 = true → i = (s.ee.index.extractLsb' 0 6).toNat →
    (∀ h : i < 48, ∃ t, exec .tlbwi s = .next t ∧ SameRest s t ∧ SameCop0 s t ∧ SameFp s t ∧ SameMemory s t ∧
      SameRegs s t ∧ t.ctl = { s.ctl with pc := s.ctl.pc + 4#32 } ∧
      (∀ j (g : j < 48), j ≠ i → t.ee.tlb[j] = s.ee.tlb[j]) ∧
      t.ee.tlb[i].mask = s.ee.pageMask.extractLsb' 13 12 ∧ t.ee.tlb[i].vpn2 = s.ee.entryHi.extractLsb' 13 19 ∧
      t.ee.tlb[i].asid = s.ee.entryHi.extractLsb' 0 8 ∧
      (t.ee.tlb[i].g = true ↔ s.ee.entryLo0.getLsbD 0 = true ∧ s.ee.entryLo1.getLsbD 0 = true) ∧
      t.ee.tlb[i].s = s.ee.entryLo0.getLsbD 31 ∧
      t.ee.tlb[i].even = ⟨s.ee.entryLo0.extractLsb' 6 20, s.ee.entryLo0.extractLsb' 3 3, s.ee.entryLo0.getLsbD 2,
        s.ee.entryLo0.getLsbD 1⟩ ∧
      t.ee.tlb[i].odd = ⟨s.ee.entryLo1.extractLsb' 6 20, s.ee.entryLo1.extractLsb' 3 3, s.ee.entryLo1.getLsbD 2,
        s.ee.entryLo1.getLsbD 1⟩) ∧
    (48 ≤ i → ∃ t, exec .tlbwi s = .next t ∧ Aborts (.tlbIndexOutOfRange (s.ee.index.extractLsb' 0 6)) s t)

/-- Every system row raises CoprocessorUnusable(0) when coprocessor 0 is not usable, every floating-point row
CoprocessorUnusable(1) when coprocessor 1 is not, and nothing else changes (R280, R300). -/
def Obligations.CoprocessorUnusableRows : Prop :=
  ∀ (a b d : RegIdx) (s : State) (i : Instr), i.wf s.turn = true →
    (i ∈ [.mfc0 a b, .mtc0 a b, .eret, .rfe, .tlbwi] → s.copUsable 0#2 = false →
      ∃ t, exec i s = .next t ∧ Raises (.coprocessorUnusable 0#2) s t) ∧
    (i ∈ [.mfc1 a b, .cfc1 a b, .mtc1 a b, .ctc1 a b, .addS a b d, .subS a b d, .mulS a b d, .divS a b d, .maddS a b d,
        .msubS a b d] → s.copUsable 1#2 = false →
      ∃ t, exec i s = .next t ∧ Raises (.coprocessorUnusable 1#2) s t)

/-! ### The floating-point coprocessor (spec/44_fpu_cop1.md) -/

/-- The four moves: MFC1 and CFC1 of register 31 sign-extend into `rt`, MTC1 writes one floating register, CTC1 all 32 bits of
`fcr31`; CTC1 to another number does nothing, and CFC1 of another number gives some value, free in this model (R301 to
R304, log entry 11). -/
def Obligations.FloatingMoves : Prop :=
  ∀ (rt fs : RegIdx) (s : State), s.turn = .ee → s.copUsable 1#2 = true →
    (∃ t, exec (.mfc1 rt fs) s = .next t ∧ WritesReg rt (fun n => (s.f fs).signExtend n) s t) ∧
    (∃ t, exec (.mtc1 rt fs) s = .next t ∧ OnlyFp s t ∧ t.ctl.pc = s.ctl.pc + 4#32 ∧ t.f fs = s.x rt 32 ∧
      (∀ r, r ≠ fs → t.f r = s.f r) ∧ t.ee.fcr31 = s.ee.fcr31) ∧
    (∃ t v, exec (.cfc1 rt fs) s = .next t ∧ WritesReg rt v s t ∧ (fs = 31#5 → v = fun n => s.ee.fcr31.signExtend n)) ∧
    (∃ t, exec (.ctc1 rt fs) s = .next t ∧ OnlyFp s t ∧ t.ctl.pc = s.ctl.pc + 4#32 ∧ (∀ r, t.f r = s.f r) ∧
      (fs = 31#5 → t.ee.fcr31 = s.x rt 32) ∧ (fs ≠ 31#5 → t.ee.fcr31 = s.ee.fcr31))

/-- The six arithmetic rows leave what R307 says of their value and class: the value, the clamp or the signed zero, the
one-shot and the sticky flags, and nothing else (R307 to R313), for every choice of the parameter `FpCompute` (log entry 8).
What the value function itself gives is WrittenValueIsFinite. -/
def Obligations.FloatingArithmeticRows : Prop :=
  ∀ (fd fs ft : RegIdx) (s : State), s.turn = .ee → s.copUsable 1#2 = true →
    (∃ t, exec (.addS fd fs ft) s = .next t ∧ FpResult .add fd fs ft s t) ∧
    (∃ t, exec (.subS fd fs ft) s = .next t ∧ FpResult .sub fd fs ft s t) ∧
    (∃ t, exec (.mulS fd fs ft) s = .next t ∧ FpResult .mul fd fs ft s t) ∧
    (∃ t, exec (.divS fd fs ft) s = .next t ∧ FpResult .div fd fs ft s t) ∧
    (∃ t, exec (.maddS fd fs ft) s = .next t ∧ FpResult .madd fd fs ft s t) ∧
    (∃ t, exec (.msubS fd fs ft) s = .next t ∧ FpResult .msub fd fs ft s t)

/-- What the value function gives (R305, R306). Every choice of it satisfies laws L2 and L3, reads zeros and normal numbers as
binary32, and lets a row write no infinity, NaN or subnormal number when the clamp constant is a finite normal one (R307);
the accumulator `c` is used by MADD.S and MSUB.S only; the default choice rounds to nearest even throughout. The model's readings of R306 stand in log entries 8 (what varies), 9
(the default's class is L2's), 10 (which signs are free) and 30 (the ideal result of MADD.S and MSUB.S). -/
def Obligations.WrittenValueIsFinite : Prop :=
  ∀ (ch : FpChoice) (op : FpOp) (a b c : Word),
    FpLaws ch op a b c (fpCompute ch op a b c) ∧
    FpDefault op a b c (fpCompute .ieee op a b c) ∧
    (op ≠ .madd → op ≠ .msub → ∀ c', fpCompute ch op a b c' = fpCompute ch op a b c) ∧
    (∀ w, Finite32 w → (fpExponent w = 0 → fpFraction w = 0) → ∀ q, Reads ch w q ↔ q = binary32 w) ∧
    ∀ clampMax v : Word, clampMax.extractLsb' 23 8 ≠ 255#8 → clampMax.extractLsb' 23 8 ≠ 0#8 →
      v = fpClamp clampMax (fpCompute ch op a b c).1 (fpCompute ch op a b c).2 →
      v.extractLsb' 23 8 ≠ 255#8 ∧ (v.extractLsb' 23 8 = 0#8 → v.extractLsb' 0 23 = 0#23)

/-- A sticky flag, once set, stays set through every step but one that runs CTC1 to register 31 (R49, R304, R307). -/
def Obligations.StickyFlagsStay : Prop :=
  ∀ (s t : State) (k : Nat), (k = 4 ∨ k = 3) → step s = .next t → s.ee.fcr31.getLsbD k = true →
    (∀ rt u, front s ≠ .run (.ctc1 rt 31#5) u) → t.ee.fcr31.getLsbD k = true

/-! ### Exceptions (spec/60_exceptions.md) -/

/-- The code written to Cause for each kind and direction (R331). -/
def Obligations.ExceptionCodes : Prop :=
  ∀ (va : Word) (lines : BitVec 8) (cop : BitVec 2),
    excCode (.interrupt lines) = 0#5 ∧ excCode (.translationModified va .store) = 1#5 ∧
    excCode (.translationMiss va .loadOrFetch) = 2#5 ∧ excCode (.translationInvalid va .loadOrFetch) = 2#5 ∧
    excCode (.translationMiss va .store) = 3#5 ∧ excCode (.translationInvalid va .store) = 3#5 ∧
    excCode (.addressError va .loadOrFetch) = 4#5 ∧ excCode (.addressError va .store) = 5#5 ∧
    excCode (.coprocessorUnusable cop) = 11#5 ∧ excCode .arithmeticOverflow = 12#5 ∧
    ∀ k, excCode k ∈ [0#5, 1#5, 2#5, 3#5, 4#5, 5#5, 11#5, 12#5]

/-- The record serviced is one of the queue, and none of the queue has a higher priority, in the order Interrupt,
AddressError, TranslationMiss, TranslationInvalid, TranslationModified, ArithmeticOverflow, CoprocessorUnusable, whatever the
addresses, directions, lines and coprocessor numbers (R337). -/
def Obligations.HighestPriorityIsServiced : Prop :=
  (∀ (r : Record) (rs : List Record), topRecord r rs ∈ r :: rs ∧
    ∀ x ∈ r :: rs, priority (topRecord r rs).kind ≤ priority x.kind) ∧
  ∀ (v1 v2 v3 v4 : Word) (d1 d2 d3 d4 : Dir) (lines : BitVec 8) (cop : BitVec 2),
    [.interrupt lines, .addressError v1 d1, .translationMiss v2 d2, .translationInvalid v3 d3, .translationModified v4 d4,
      .arithmeticOverflow, .coprocessorUnusable cop].Pairwise fun k l => priority k < priority l

/-- Eligibility: interrupts enabled, and some line both pending in Cause and unmasked in Status; on EE only bits 10, 11 and 15
count (R349). -/
def Obligations.EligibilityRule : Prop :=
  ∀ k : Control,
    (eligible .ee k = true ↔ intEnabled .ee k.status = true ∧
      ∃ b ∈ [10, 11, 15], k.cause.getLsbD b = true ∧ k.status.getLsbD b = true) ∧
    (eligible .iop k = true ↔ intEnabled .iop k.status = true ∧
      ∃ b ∈ [8, 9, 10, 11, 12, 13, 14, 15], k.cause.getLsbD b = true ∧ k.status.getLsbD b = true)

/-- Every step of an instance, whatever it then does, leaves in Cause the lines as they stood when it began (R172, R348). -/
def Obligations.EveryStepMirrorsLines : Prop :=
  ∀ (s t : State) (c : CoreId), CallsStep c s → step s = .next t →
    (c = .ee → t.ee.ctl.cause.getLsbD 10 = s.ee.int0 ∧ t.ee.ctl.cause.getLsbD 11 = s.ee.int1 ∧
      t.ee.ctl.cause.getLsbD 15 = s.ee.timer) ∧
    (c = .iop → t.iop.ctl.cause.extractLsb' 10 6 = s.iop.lines)

/-- A step that finds a record in the queue and no interrupt eligible dispatches the record, whether the scheduler calls it by
its agenda or by default: it fetches and executes nothing, returns the early cost, and leaves what R340 says (R173, R181,
R184, R340 to R345). -/
def Obligations.QueuedRecordIsDispatched : Prop :=
  ∀ (c : CoreId) (s b : State) (r : Record), CallsStep c s → b = s.called c → b.ctl.xq = [r] →
    eligible c b.mirrorLines.ctl = false →
    ∃ t, step s = .next t ∧ DispatchFrame b t ∧ Dispatched c r b.mirrorLines.ctl t.ctl ∧
      (c = .ee → PageRecorded r b.ee.entryHi t.ee.entryHi) ∧
      t.ctl.cyclesTotal = b.ctl.cyclesTotal + BitVec.ofNat 64 (1 + b.params.earlyExtra) ∧
      t.ctl.returned = BitVec.ofNat 64 (1 + b.params.earlyExtra)

/-- An eligible interrupt is dispatched at once, before any queued synchronous record, which is discarded, in any step the
scheduler calls. Its return point is that record's; with an empty queue it is the next instruction, the branch when the slot
has not run, or the target when it has. Nothing is fetched and the early cost is returned (R172, R181, R336, R345, R349). -/
def Obligations.EligibleInterruptIsTaken : Prop :=
  ∀ (c : CoreId) (s b : State), CallsStep c s → b = s.called c →
    (b.ctl.xq = [] ∨ ∃ r, b.ctl.xq = [r] ∧ r.synchronous = true) → eligible c b.mirrorLines.ctl = true →
    ∃ t lines epc flag, step s = .next t ∧ DispatchFrame b t ∧
      Dispatched c ⟨.interrupt lines, epc, flag⟩ b.mirrorLines.ctl t.ctl ∧
      (c = .ee → t.ee.entryHi = b.ee.entryHi) ∧
      t.ctl.cyclesTotal = b.ctl.cyclesTotal + BitVec.ofNat 64 (1 + b.params.earlyExtra) ∧
      t.ctl.returned = BitVec.ofNat 64 (1 + b.params.earlyExtra) ∧
      (∀ r, b.ctl.xq = [r] → epc = r.epc ∧ flag = r.bdflag) ∧
      (b.ctl.xq = [] → b.ctl.bd = .idle → epc = b.ctl.pc ∧ flag = false) ∧
      (∀ target, b.ctl.xq = [] → b.ctl.bd = .pending target 1 → epc = b.ctl.pc - 4#32 ∧ flag = true) ∧
      (∀ target, b.ctl.xq = [] → b.ctl.bd = .pending target 0 → epc = target ∧ flag = false)

/-- A return undoes an entry. EE: after the dispatch of `r` with ERL clear, ERET goes to the return point and leaves Status as
it was with EXL clear. IOP: after the dispatch, RFE leaves the current and previous mode and enable bits as they were (R340
to R342, R352, R284, R285). -/
def Obligations.ReturnUndoesEntry : Prop :=
  ∀ (s : State) (r : Record),
    (s.turn = .ee → s.ctl.status.getLsbD 2 = false →
      ∃ t, exec .eret (s.takeException r) = .next t ∧ t.ctl.pc = r.epc ∧
        t.ctl.status = s.ctl.status &&& 0xFFFFFFFD#32 ∧ t.ctl.bd = .idle ∧ t.ctl.xq = []) ∧
    (s.turn = .iop →
      ∃ t, exec .rfe (s.takeException r) = .next t ∧ t.ctl.status.extractLsb' 0 4 = s.ctl.status.extractLsb' 0 4 ∧
        t.ctl.status.extractLsb' 6 26 = s.ctl.status.extractLsb' 6 26 ∧ t.ctl.epc = r.epc)

/-! ### The sequencer (spec/50_sequencer.md) -/

/-- A step whose fetch gives the word of a row runs that row at the state after steps 1 to 3 and the fetch, with the word in
flight, and adds its cost. The word is what one physical read gives, from RAM or a register object that keeps its value the
four bytes there, and no change (R87, R105, R171 to R179, R184). -/
def Obligations.StepRunsDecodedInstruction : Prop :=
  ∀ (c : CoreId) (s b u : State) (pa w : Word) (i : Instr), ReadyToFetch c s → b = s.beforeFetch c →
    b.ctl.pc.toNat % 4 = 0 → translate b.ctl.pc .fetch b = .ok pa → physRead pa 4 b = .ok (w, u) →
    decode c w = .row i →
    (PlainAccess b pa 4 → u = b ∧ w = byteAt b pa 3 ++ byteAt b pa 2 ++ byteAt b pa 1 ++ byteAt b pa 0) ∧
    ∃ t v : State, i.wf c = true ∧ exec i { u with inFlight := some w } = .next t ∧ step s = .next v ∧
      (t.run = .running → v = { t.setCtl { t.ctl with
        cyclesTotal := t.ctl.cyclesTotal + BitVec.ofNat 64 (1 + t.params.extraCosts.getD i.row 0),
        returned := BitVec.ofNat 64 (1 + t.params.extraCosts.getD i.row 0) } with
          inFlight := none, freeCount := t.freeCount + 1 }) ∧
      (t.run ≠ .running → v = t)

/-- A step whose fetch gives the word of no row logs it, advances `pc` by 4, costs the unknown cost, and changes nothing else
of the state after the fetch; the word is as in StepRunsDecodedInstruction (R87, R105, R148, R180). -/
def Obligations.UnknownWordIsNoOperation : Prop :=
  ∀ (c : CoreId) (s b u : State) (pa w : Word), ReadyToFetch c s → b = s.beforeFetch c →
    b.ctl.pc.toNat % 4 = 0 → translate b.ctl.pc .fetch b = .ok pa → physRead pa 4 b = .ok (w, u) →
    decode c w = .unknown →
    (PlainAccess b pa 4 → u = b ∧ w = byteAt b pa 3 ++ byteAt b pa 2 ++ byteAt b pa 1 ++ byteAt b pa 0) ∧
    ∃ t, step s = .next t ∧ t.log = s.log ++ [.unknownInstruction c b.ctl.pc w] ∧
      t.ctl = { b.ctl with
        pc := b.ctl.pc + 4#32
        cyclesTotal := b.ctl.cyclesTotal + BitVec.ofNat 64 (1 + s.params.unknownExtra)
        returned := BitVec.ofNat 64 (1 + s.params.unknownExtra) } ∧
      EndsStep u { t with log := u.log } ∧ SameRegs b t ∧ SameFp b t ∧ SameCop0 b t ∧ SameTable b t ∧ SameMemory u t ∧
      t.run = .running

/-- A step whose fetch fails. Misaligned `pc` or a faulting translation: the record is queued, `pc` stays, the early cost is
returned, and nothing else changes. An aborting translation or a mapper error: the run is aborted (R86, R89, R94, R105, R175,
R182). -/
def Obligations.FailedFetchEndsStep : Prop :=
  ∀ (c : CoreId) (s b : State), ReadyToFetch c s → b = s.beforeFetch c →
    (∀ k, (b.ctl.pc.toNat % 4 ≠ 0 ∧ k = .addressError b.ctl.pc .loadOrFetch ∨
        b.ctl.pc.toNat % 4 = 0 ∧ translate b.ctl.pc .fetch b = .fault k) →
      ∃ t epc flag, step s = .next t ∧ EndsStep b t ∧ SameRegs b t ∧ SameFp b t ∧ SameCop0 b t ∧ SameTable b t ∧
        SameMemory b t ∧ t.run = .running ∧
        t.ctl = { b.ctl with
          xq := [⟨k, epc, flag⟩]
          cyclesTotal := b.ctl.cyclesTotal + BitVec.ofNat 64 (1 + s.params.earlyExtra)
          returned := BitVec.ofNat 64 (1 + s.params.earlyExtra) } ∧
        (InSlot b → epc = b.ctl.pc - 4#32 ∧ flag = true) ∧ (¬ InSlot b → epc = b.ctl.pc ∧ flag = false)) ∧
    (∀ r, b.ctl.pc.toNat % 4 = 0 → translate b.ctl.pc .fetch b = .abort r →
      ∃ t, step s = .next t ∧ Aborts r { b with inFlight := none } t) ∧
    (∀ pa e, b.ctl.pc.toNat % 4 = 0 → translate b.ctl.pc .fetch b = .ok pa → locate s.physMap pa 4 = .error e →
      ∃ t, step s = .next t ∧ Aborts (.bus e pa 4 .read) { b with inFlight := none } t)

/-- When a transition gives no next state: never in a running machine with a valid map; always after an abort; and a map whose
objects overlap or reach past the physical space is refused (R51, R81, R182, R183). Two parts are the model's choice: that
after an abort every transition stops, an external action too (log entry 14; R51 and R182 speak of steps of the instances),
and that such a map is a refusal (log entry 13), also where one of the two extents is empty (log entry 33). -/
def Obligations.WhenTheMachineStops : Prop :=
  ∀ s : State, (s.run = .running → physMapValid s.physMap = true → ∃ t, step s = .next t) ∧
    (∀ r ctx, s.run = .aborted r ctx → step s = .fault .runAborted) ∧
    (s.run = .running → physMapValid s.physMap = false → step s = .refused .invalidPhysMap)

/-- A step of one instance changes nothing of the other, and the step taken is the scheduler's choice (R20, R112). -/
def Obligations.StepLeavesOtherInstance : Prop :=
  ∀ (s t : State) (c : CoreId), CallsStep c s → step s = .next t →
    t.turn = c ∧ (c = .ee → t.iop = s.iop) ∧ (c = .iop → t.ee = s.ee)

/-- An action of an external agent changes no register of either instance: only lines, memory objects, the agenda and the
counter of free values (R31, R112, R396). -/
def Obligations.AgentsTouchNoRegister : Prop :=
  ∀ (s : State) (a : Action) (rest : List Action), s.run = .running → physMapValid s.physMap = true →
    s.agenda = a :: rest → (∀ c, a ≠ .step c) →
    ∃ t, step s = .next t ∧ t.agenda = rest ∧ SameRegs s t ∧ SameFp s t ∧ SameCop0 s t ∧ SameTable s t ∧
      t.ee.ctl = s.ee.ctl ∧ t.iop.ctl = s.iop.ctl ∧ t.ee.acc = s.ee.acc ∧ t.run = s.run ∧ t.log = s.log ∧
      t.physMap = s.physMap ∧ t.params = s.params

/-- No transition changes the accumulator, and the translation table changes only in a step that runs TLBWI (R47, R48). -/
def Obligations.AccumulatorAndTableWriters : Prop :=
  ∀ s t : State, step s = .next t →
    t.ee.acc = s.ee.acc ∧ (t.ee.tlb ≠ s.ee.tlb → ∃ u, front s = .run .tlbwi u)

/-- A step that runs an instruction in user mode without CU[0] changes no control register but Cause's line bits: it stays in
user mode (R280, R288, R353). -/
def Obligations.UserCodeKeepsControlRegisters : Prop :=
  ∀ (c : CoreId) (s b t : State), ReadyToFetch c s → b = s.called c → userMode c b.ctl.status = true →
    b.ctl.status.getLsbD 28 = false → step s = .next t →
    t.ctl.status = b.ctl.status ∧ t.ctl.epc = b.ctl.epc ∧ t.ctl.badVAddr = b.ctl.badVAddr ∧
      (∀ k, (k < 10 ∨ 15 < k) → t.ctl.cause.getLsbD k = b.ctl.cause.getLsbD k) ∧ SameCop0 b t ∧ SameTable b t

/-- The defined reset values (R26, R28, R29, R30, R33, R42, R43, R51, R52, R391). -/
def Obligations.ResetValues : Prop :=
  State.reset.q 0#5 = 0#128 ∧ State.reset.r32 0#5 = 0#32 ∧
  State.reset.ee.ctl.pc = 0xBFC00000#32 ∧ State.reset.iop.ctl.pc = 0xBFC00000#32 ∧
  State.reset.ee.ctl.bd = .idle ∧ State.reset.iop.ctl.bd = .idle ∧
  State.reset.ee.ctl.xq = [] ∧ State.reset.iop.ctl.xq = [] ∧
  State.reset.ee.ctl.status = 0x00000004#32 ∧ State.reset.iop.ctl.status = 0x00000000#32 ∧
  State.reset.iop.ctl.cause.extractLsb' 8 2 = 0#2 ∧ State.reset.run = .running ∧
  State.reset.ee.ctl.cyclesTotal = 0#64 ∧ State.reset.iop.ctl.cyclesTotal = 0#64

/-- The invariant holds at reset. It rests on values the spec leaves open there (log entries 1 and 3). -/
def Obligations.ResetMeetsInvariant : Prop := Inv State.reset

/-- Every transition keeps the invariant: canonical memory, register 0 of both instances, the reserved bits of every control
register, the trackers, the queues, and no word in flight between steps (R26, R29, R30, R44, R53). -/
def Obligations.StepKeepsInvariant : Prop :=
  ∀ s t : State, Inv s → step s = .next t → Inv t

end
end

