-- ==== Sys2Proof/Laws/Decode.lean ====
section
/-! SUPPORT. The fields of an assembled word, and the key bits of each format. -/

namespace Sys2Proof

theorem extract_append_low {n m : Nat} (x : BitVec n) (y : BitVec m) (s l : Nat) (h : s + l ≤ m) :
    (x ++ y).extractLsb' s l = y.extractLsb' s l := by
  ext i hi; simp [BitVec.getLsbD_append]; omega

theorem extract_append_high {n m : Nat} (x : BitVec n) (y : BitVec m) (s l : Nat) (h : m ≤ s) :
    (x ++ y).extractLsb' s l = x.extractLsb' (s - m) l := by
  ext i hi
  simp [BitVec.getLsbD_append, show ¬ s + i < m by omega, show s + i - m = s - m + i by omega]

theorem extract_all {n : Nat} (x : BitVec n) : x.extractLsb' 0 n = x := by
  ext i hi; simp

/-! ### Fields of a word of each format (R141, R142) -/

/-- Formats C0M, C0O, C1M, C1A, and R with opcode 0. -/
theorem copWord_fields (op : BitVec 6) (a b c d : BitVec 5) (f : BitVec 6) :
    opcodeOf (copWord op a b c d f) = op ∧ rsOf (copWord op a b c d f) = a ∧ rtOf (copWord op a b c d f) = b ∧
      rdOf (copWord op a b c d f) = c ∧ saOf (copWord op a b c d f) = d ∧ functOf (copWord op a b c d f) = f := by
  refine ⟨?_, ?_, ?_, ?_, ?_, ?_⟩
  · show BitVec.extractLsb' (n := 6 + 5 + 5 + 5 + 5 + 6) 26 6 (op ++ a ++ b ++ c ++ d ++ f) = op
    iterate 5 rw [extract_append_high _ _ _ _ (by decide)]
    exact extract_all op
  · show BitVec.extractLsb' (n := 6 + 5 + 5 + 5 + 5 + 6) 21 5 (op ++ a ++ b ++ c ++ d ++ f) = a
    iterate 4 rw [extract_append_high _ _ _ _ (by decide)]
    rw [extract_append_low _ _ _ _ (by decide)]
    exact extract_all a
  · show BitVec.extractLsb' (n := 6 + 5 + 5 + 5 + 5 + 6) 16 5 (op ++ a ++ b ++ c ++ d ++ f) = b
    iterate 3 rw [extract_append_high _ _ _ _ (by decide)]
    rw [extract_append_low _ _ _ _ (by decide)]
    exact extract_all b
  · show BitVec.extractLsb' (n := 6 + 5 + 5 + 5 + 5 + 6) 11 5 (op ++ a ++ b ++ c ++ d ++ f) = c
    iterate 2 rw [extract_append_high _ _ _ _ (by decide)]
    rw [extract_append_low _ _ _ _ (by decide)]
    exact extract_all c
  · show BitVec.extractLsb' (n := 6 + 5 + 5 + 5 + 5 + 6) 6 5 (op ++ a ++ b ++ c ++ d ++ f) = d
    rw [extract_append_high _ _ _ _ (by decide), extract_append_low _ _ _ _ (by decide)]
    exact extract_all d
  · show BitVec.extractLsb' (n := 6 + 5 + 5 + 5 + 5 + 6) 0 6 (op ++ a ++ b ++ c ++ d ++ f) = f
    rw [extract_append_low _ _ _ _ (by decide)]
    exact extract_all f

theorem rWord_eq (rs rt rd sa : BitVec 5) (f : BitVec 6) : rWord rs rt rd sa f = copWord 0#6 rs rt rd sa f := rfl

/-- Format I. -/
theorem iWord_fields (op : BitVec 6) (a b : BitVec 5) (imm : BitVec 16) :
    opcodeOf (iWord op a b imm) = op ∧ rsOf (iWord op a b imm) = a ∧ rtOf (iWord op a b imm) = b ∧
      immOf (iWord op a b imm) = imm := by
  refine ⟨?_, ?_, ?_, ?_⟩
  · show BitVec.extractLsb' (n := 6 + 5 + 5 + 16) 26 6 (op ++ a ++ b ++ imm) = op
    iterate 3 rw [extract_append_high _ _ _ _ (by decide)]
    exact extract_all op
  · show BitVec.extractLsb' (n := 6 + 5 + 5 + 16) 21 5 (op ++ a ++ b ++ imm) = a
    iterate 2 rw [extract_append_high _ _ _ _ (by decide)]
    rw [extract_append_low _ _ _ _ (by decide)]
    exact extract_all a
  · show BitVec.extractLsb' (n := 6 + 5 + 5 + 16) 16 5 (op ++ a ++ b ++ imm) = b
    rw [extract_append_high _ _ _ _ (by decide), extract_append_low _ _ _ _ (by decide)]
    exact extract_all b
  · show BitVec.extractLsb' (n := 6 + 5 + 5 + 16) 0 16 (op ++ a ++ b ++ imm) = imm
    rw [extract_append_low _ _ _ _ (by decide)]
    exact extract_all imm

/-- Format J. -/
theorem jWord_fields (op : BitVec 6) (t : BitVec 26) : opcodeOf (jWord op t) = op ∧ targetOf (jWord op t) = t := by
  refine ⟨?_, ?_⟩
  · show BitVec.extractLsb' (n := 6 + 26) 26 6 (op ++ t) = op
    rw [extract_append_high _ _ _ _ (by decide)]
    exact extract_all op
  · show BitVec.extractLsb' (n := 6 + 26) 0 26 (op ++ t) = t
    rw [extract_append_low _ _ _ _ (by decide)]
    exact extract_all t

/-! ### Key bits as masks (R144, R145, R150) -/

/-- The mask of a row keyed by opcode alone. -/
theorem opcode_mask (w : Word) : w &&& 0xFC000000#32 = (opcodeOf w).setWidth 32 <<< 26 := by
  unfold opcodeOf
  apply BitVec.eq_of_getLsbD_eq; intro i hi; interval_cases i <;> simp

/-- The mask of a row keyed by opcode and funct. -/
theorem special_mask (w : Word) :
    w &&& 0xFC00003F#32 = (opcodeOf w).setWidth 32 <<< 26 ||| (functOf w).setWidth 32 := by
  unfold opcodeOf functOf
  apply BitVec.eq_of_getLsbD_eq; intro i hi; interval_cases i <;> simp

/-- The mask of a row keyed by opcode and sub-field. -/
theorem sub_mask (w : Word) :
    w &&& 0xFFE00000#32 = (opcodeOf w).setWidth 32 <<< 26 ||| (rsOf w).setWidth 32 <<< 21 := by
  unfold opcodeOf rsOf
  apply BitVec.eq_of_getLsbD_eq; intro i hi; interval_cases i <;> simp

/-- The mask of a row keyed by opcode, sub-field and funct. -/
theorem subFunct_mask (w : Word) :
    w &&& 0xFFE0003F#32 =
      (opcodeOf w).setWidth 32 <<< 26 ||| (rsOf w).setWidth 32 <<< 21 ||| (functOf w).setWidth 32 := by
  unfold opcodeOf rsOf functOf
  apply BitVec.eq_of_getLsbD_eq; intro i hi; interval_cases i <;> simp

/-! ### The key of an assembled word -/

theorem rWord_key (rs rt rd sa : BitVec 5) (f : BitVec 6) :
    rWord rs rt rd sa f &&& 0xFC00003F#32 = f.setWidth 32 := by
  simp [special_mask, rWord_eq, copWord_fields]

theorem iWord_key (op : BitVec 6) (a b : BitVec 5) (imm : BitVec 16) :
    iWord op a b imm &&& 0xFC000000#32 = op.setWidth 32 <<< 26 := by
  simp [opcode_mask, iWord_fields]

theorem jWord_key (op : BitVec 6) (t : BitVec 26) : jWord op t &&& 0xFC000000#32 = op.setWidth 32 <<< 26 := by
  simp [opcode_mask, jWord_fields]

theorem copWord_sub_key (op : BitVec 6) (a b c d : BitVec 5) (f : BitVec 6) :
    copWord op a b c d f &&& 0xFFE00000#32 = op.setWidth 32 <<< 26 ||| a.setWidth 32 <<< 21 := by
  simp [sub_mask, copWord_fields]

theorem copWord_key (op : BitVec 6) (a b c d : BitVec 5) (f : BitVec 6) :
    copWord op a b c d f &&& 0xFFE0003F#32 =
      op.setWidth 32 <<< 26 ||| a.setWidth 32 <<< 21 ||| f.setWidth 32 := by
  simp [subFunct_mask, copWord_fields]

end Sys2Proof
end

