-- ==== Sys2Proof/Laws/Float.lean ====
section
/-! SUPPORT. The value function of the floating-point family in rational numbers: what rounding and encoding give. -/

namespace Sys2Proof.Machine

/-- The exact quotient as a multiple of a power of two below `2^24` of it, with the remainder, and which neighbour is taken. -/
theorem fpRound_cases (mode : FpRounding) (num den : Nat) (hd : 0 < den) :
    ∃ s q r, num = q * (den * 2 ^ s) + r ∧ r < den * 2 ^ s ∧ q < 2 ^ 24 ∧ (s = 0 ∨ 2 ^ 23 ≤ q) ∧
      (fpRound mode num den = q * 2 ^ s ∧ (mode = .nearestEven → 2 * r ≤ den * 2 ^ s ∧ (2 * r = den * 2 ^ s → q % 2 = 0)) ∧
          (mode = .awayFromZero → r = 0) ∨
        fpRound mode num den = (q + 1) * 2 ^ s ∧ 0 < r ∧
          (mode = .nearestEven → den * 2 ^ s ≤ 2 * r ∧ (2 * r = den * 2 ^ s → q % 2 = 1)) ∧ mode ≠ .towardZero) := by
  refine ⟨Nat.log2 (num / den) - 23, num / (den <<< (Nat.log2 (num / den) - 23)),
    num % (den <<< (Nat.log2 (num / den) - 23)), ?_, ?_, ?_, ?_, ?_⟩
  · rw [← Nat.shiftLeft_eq]; exact (Nat.div_add_mod' _ _).symm
  · rw [← Nat.shiftLeft_eq]; exact Nat.mod_lt _ (by rw [Nat.shiftLeft_eq]; positivity)
  · rw [Nat.shiftLeft_eq, ← Nat.div_div_eq_div_mul]
    rcases Nat.eq_zero_or_pos (num / den) with h | h
    · rw [h]; simp
    · have := (Nat.log2_lt (n := num / den) (k := Nat.log2 (num / den) + 1) (by omega)).1 (by omega)
      rw [Nat.div_lt_iff_lt_mul (by positivity), ← pow_add]
      exact lt_of_lt_of_le this (Nat.pow_le_pow_right (by norm_num) (by omega))
  · rcases Nat.lt_or_ge (Nat.log2 (num / den)) 24 with h | h
    · left; omega
    · right
      rw [Nat.shiftLeft_eq, ← Nat.div_div_eq_div_mul, Nat.le_div_iff_mul_le (by positivity), ← pow_add]
      have h0 : num / den ≠ 0 := by intro h0; rw [h0] at h; simp at h
      have := Nat.log2_self_le h0
      exact le_trans (Nat.pow_le_pow_right (by norm_num) (by omega)) this
  · unfold fpRound
    simp only [Nat.shiftLeft_eq]
    generalize Nat.log2 (num / den) - 23 = s
    generalize hq : num / (den * 2 ^ s) = q
    generalize hr : num % (den * 2 ^ s) = r
    have hu : 0 < den * 2 ^ s := by positivity
    have hr' : r < den * 2 ^ s := hr ▸ Nat.mod_lt _ hu
    generalize den * 2 ^ s = u at *
    cases mode
    · simp only
      split
      · rename_i h; simp at h
        right; refine ⟨rfl, by omega, fun _ => by omega, by simp⟩
      · rename_i h; simp at h
        left; refine ⟨rfl, fun _ => by omega, by simp⟩
    · left; simp
    · simp only
      split
      · rename_i h; simp at h
        right; refine ⟨rfl, by omega, by simp, by simp⟩
      · rename_i h; simp at h
        left; refine ⟨rfl, by simp, fun _ => h⟩

/-- No number of 24 significant bits lies strictly between two neighbouring multiples of their last bit. -/
theorem significant_gap (m k q s : Nat) (hm : m < 2 ^ 24) (hs : s = 0 ∨ 2 ^ 23 ≤ q) :
    m * 2 ^ k ≤ q * 2 ^ s ∨ (q + 1) * 2 ^ s ≤ m * 2 ^ k := by
  rcases Nat.lt_or_ge k s with h | h
  · left
    obtain ⟨d, rfl⟩ : ∃ d, s = k + 1 + d := ⟨s - k - 1, by omega⟩
    have hq : 2 ^ 23 ≤ q := by omega
    calc m * 2 ^ k ≤ 2 ^ 24 * 2 ^ k := Nat.mul_le_mul_right _ hm.le
      _ = 2 ^ 23 * 2 ^ (k + 1) := by ring
      _ ≤ q * 2 ^ (k + 1 + d) := Nat.mul_le_mul hq (Nat.pow_le_pow_right (by norm_num) (by omega))
  · obtain ⟨d, rfl⟩ : ∃ d, k = s + d := ⟨k - s, by omega⟩
    have e : m * 2 ^ (s + d) = (m * 2 ^ d) * 2 ^ s := by ring
    rw [e]
    rcases Nat.lt_or_ge q (m * 2 ^ d) with h | h
    · right; exact Nat.mul_le_mul_right _ h
    · left; exact Nat.mul_le_mul_right _ h

/-- The fields of a pattern built from sign, exponent and fraction. -/
theorem fp_fields (neg : Bool) (e f : Nat) (he : e < 256) (hf : f < 2 ^ 23) :
    let w : Word := BitVec.ofBool neg ++ BitVec.ofNat 31 (e * 2 ^ 23 + f)
    w.getLsbD 31 = neg ∧ fpExponent w = e ∧ fpFraction w = f ∧ w.getLsbD 0 = decide (f % 2 = 1) := by
  intro w
  have hw : w.toNat = neg.toNat * 2 ^ 31 + (e * 2 ^ 23 + f) := by
    show (BitVec.ofBool neg ++ BitVec.ofNat 31 (e * 2 ^ 23 + f)).toNat = _
    rw [BitVec.toNat_append, BitVec.toNat_ofNat, BitVec.toNat_ofBool, Nat.mod_eq_of_lt (by omega),
      ← Nat.shiftLeft_add_eq_or_of_lt (by omega), Nat.shiftLeft_eq]
  refine ⟨?_, ?_, ?_, ?_⟩
  · rw [BitVec.getLsbD, Nat.testBit_eq_decide_div_mod_eq, hw]
    cases neg <;> simp <;> omega
  · unfold fpExponent
    rw [BitVec.extractLsb'_toNat, Nat.shiftRight_eq_div_pow, hw]
    cases neg <;> simp <;> omega
  · unfold fpFraction
    rw [BitVec.extractLsb'_toNat, Nat.shiftRight_eq_div_pow, hw]
    cases neg <;> simp <;> omega
  · rw [BitVec.getLsbD, Nat.testBit_eq_decide_div_mod_eq, hw]
    cases neg <;> simp <;> omega

/-- A magnitude of 24 significant bits is encoded as itself (R305). -/
theorem fpEncode_spec (neg : Bool) (m s : Nat) (hm : m ≤ 2 ^ 24) (hs : s = 0 ∨ 2 ^ 23 ≤ m) (hlt : m * 2 ^ s < fpInfUnits) :
    fpDecode (fpEncode neg (m * 2 ^ s)) = .fin neg (m * 2 ^ s) ∧ fpExponent (fpEncode neg (m * 2 ^ s)) ≠ 255 ∧
      (fpEncode neg (m * 2 ^ s)).getLsbD 31 = neg ∧ (fpEncode neg (m * 2 ^ s)).getLsbD 0 = decide (m % 2 = 1) := by
  -- normalise the significand
  rcases Nat.lt_or_ge (m * 2 ^ s) (2 ^ 23) with hsub | hsub
  · have hs0 : s = 0 := by
      rcases hs with h | h
      · exact h
      · exfalso
        have : m ≤ m * 2 ^ s := Nat.le_mul_of_pos_right _ (by positivity)
        omega
    subst hs0
    simp only [pow_zero, mul_one] at *
    have hf := fp_fields neg 0 m (by norm_num) hsub
    have he : fpEncode neg m = BitVec.ofBool neg ++ BitVec.ofNat 31 (0 * 2 ^ 23 + m) := by
      unfold fpEncode; simp only [Nat.not_le.2 hlt, if_false, hsub, if_true]; simp
    rw [he]
    simp only at hf
    obtain ⟨h1, h2, h3, h4⟩ := hf
    refine ⟨?_, by omega, h1, h4⟩
    unfold fpDecode
    rw [h1, h2, h3]; simp
  · -- find m', s' with 2^23 ≤ m' < 2^24
    obtain ⟨m', s', hm', hm'', he', hpar⟩ : ∃ m' s',
        2 ^ 23 ≤ m' ∧ m' < 2 ^ 24 ∧ m * 2 ^ s = m' * 2 ^ s' ∧ m % 2 = m' % 2 := by
      rcases Nat.lt_or_ge m (2 ^ 24) with h | h
      · refine ⟨m, s, ?_, h, rfl, rfl⟩
        rcases hs with h0 | h0
        · subst h0; simpa using hsub
        · exact h0
      · have : m = 2 ^ 24 := le_antisymm hm h
        subst this
        exact ⟨2 ^ 23, s + 1, le_refl _, by norm_num, by ring, by norm_num⟩
    rw [he'] at hlt hsub ⊢
    rw [hpar]
    have hlog : Nat.log2 (m' * 2 ^ s') = 23 + s' := by
      have h0 : m' * 2 ^ s' ≠ 0 := by omega
      rw [Nat.log2_eq_iff h0]
      constructor
      · rw [pow_add]; exact Nat.mul_le_mul_right _ hm'
      · rw [show 23 + s' + 1 = 24 + s' by omega, pow_add]; exact (Nat.mul_lt_mul_right (by positivity)).2 hm''
    have hs' : s' < 254 := by
      by_contra hc
      have : 2 ^ 23 * 2 ^ 254 ≤ m' * 2 ^ s' := Nat.mul_le_mul hm' (Nat.pow_le_pow_right (by norm_num) (by omega))
      have e : (2 : Nat) ^ 23 * 2 ^ 254 = fpInfUnits := by rw [← Nat.shiftLeft_eq]; rfl
      omega
    have he : fpEncode neg (m' * 2 ^ s') = BitVec.ofBool neg ++ BitVec.ofNat 31 ((s' + 1) * 2 ^ 23 + (m' - 2 ^ 23)) := by
      unfold fpEncode
      rw [if_neg (Nat.not_le.2 hlt), if_neg (Nat.not_lt.2 hsub), hlog]
      dsimp only
      rw [Nat.shiftRight_eq_div_pow, show 23 + s' - 23 = s' by omega, show 23 + s' - 22 = s' + 1 by omega,
        Nat.mul_div_cancel _ (by positivity)]
    rw [he]
    obtain ⟨h1, h2, h3, h4⟩ := fp_fields neg (s' + 1) (m' - 2 ^ 23) (by omega) (by omega)
    refine ⟨?_, by omega, h1, by rw [h4]; simp; omega⟩
    unfold fpDecode
    rw [h1, h2, h3]
    simp only [show ¬ s' + 1 = 255 by omega, if_false, Nat.add_eq_zero_iff, one_ne_zero, and_false, Nat.add_sub_cancel]
    rw [Nat.shiftLeft_eq, Nat.add_sub_cancel' hm']

/-- A finite pattern reads as a number of 24 significant bits below 2^128, and that number is `binary32` of it. -/
theorem finite_reads (w : Word) (h : Finite32 w) :
    ∃ m k, m < 2 ^ 24 ∧ k < 254 ∧ fpDecode w = .fin (w.getLsbD 31) (m * 2 ^ k) ∧
      binary32 w = (if w.getLsbD 31 then -1 else 1) * ((m * 2 ^ k : Nat) : ℚ) / 2 ^ 149 := by
  have hf : fpFraction w < 2 ^ 23 := (w.extractLsb' 0 23).isLt
  have he : fpExponent w < 256 := (w.extractLsb' 23 8).isLt
  unfold Finite32 at h
  unfold fpDecode binary32
  simp only [h, if_false]
  by_cases h0 : fpExponent w = 0
  · refine ⟨fpFraction w, 0, by omega, by norm_num, by simp [h0], ?_⟩
    rw [if_pos h0]; push_cast
    rw [show (2 : ℚ) ^ (-126 : ℤ) = 1 / 2 ^ 126 by norm_num]
    ring
  · refine ⟨2 ^ 23 + fpFraction w, fpExponent w - 1, by omega, by omega, by simp [h0, Nat.shiftLeft_eq], ?_⟩
    rw [if_neg h0]; push_cast
    obtain ⟨d, hd⟩ : ∃ d, fpExponent w = d + 1 := ⟨fpExponent w - 1, by omega⟩
    rw [hd]; push_cast
    rw [show ((d : ℤ) + 1 - 127) = (d : ℤ) - 126 by ring, zpow_sub₀ (by norm_num)]
    simp only [zpow_natCast]
    rw [show (2 : ℚ) ^ (126 : ℤ) = 2 ^ 126 by norm_num]
    field_simp
    ring

/-- `1` or `-1`. -/
def signOf (neg : Bool) : ℚ := if neg then -1 else 1

theorem signOf_mul_self (neg : Bool) : signOf neg * signOf neg = 1 := by cases neg <;> norm_num [signOf]

theorem abs_signOf_mul (neg : Bool) (x : ℚ) : |signOf neg * x| = |x| := by cases neg <;> simp [signOf]

/-- An encoded magnitude is the number of its units. -/
theorem binary32_encode (neg : Bool) (m s : Nat) (hm : m ≤ 2 ^ 24) (hs : s = 0 ∨ 2 ^ 23 ≤ m) (hlt : m * 2 ^ s < fpInfUnits) :
    binary32 (fpEncode neg (m * 2 ^ s)) = signOf neg * ((m * 2 ^ s : Nat) : ℚ) / 2 ^ 149 := by
  obtain ⟨hd, he, -, -⟩ := fpEncode_spec neg m s hm hs hlt
  obtain ⟨m', k', -, -, hd', hb⟩ := finite_reads _ he
  rw [hd] at hd'
  injection hd' with h1 h2
  rw [hb, ← h1, h2]; rfl

/-- Seen from the side of the sign `neg`, a finite number is not strictly between two neighbouring multiples of the last bit
of a number of 24 significant bits. -/
theorem finite_gap (neg : Bool) (q s : Nat) (hs : s = 0 ∨ 2 ^ 23 ≤ q) (v : Word) (hv : Finite32 v) :
    signOf neg * binary32 v * 2 ^ 149 ≤ ((q * 2 ^ s : Nat) : ℚ) ∨
      (((q + 1) * 2 ^ s : Nat) : ℚ) ≤ signOf neg * binary32 v * 2 ^ 149 := by
  obtain ⟨m, k, hm, -, -, hb⟩ := finite_reads v hv
  have e : signOf neg * binary32 v * 2 ^ 149 = signOf (neg ^^ v.getLsbD 31) * ((m * 2 ^ k : Nat) : ℚ) := by
    rw [hb]
    cases neg <;> cases v.getLsbD 31 <;> simp [signOf]
  rw [e]
  cases neg ^^ v.getLsbD 31
  · simp only [signOf, Bool.false_eq_true, if_false, one_mul]
    rcases significant_gap m k q s hm hs with h | h
    · left; exact_mod_cast h
    · right; exact_mod_cast h
  · left
    simp only [signOf, if_true]
    have h1 : (0 : ℚ) ≤ ((m * 2 ^ k : Nat) : ℚ) := Nat.cast_nonneg _
    have h2 : (0 : ℚ) ≤ ((q * 2 ^ s : Nat) : ℚ) := Nat.cast_nonneg _
    linarith

/-- `w` encodes `±units`, with the sign given, and is beside `x`; in the nearest mode it is nearest, with ties to even. -/
structure RoundsTo (mode : FpRounding) (neg : Bool) (units : Nat) (x : ℚ) (w : Word) : Prop where
  sign : w.getLsbD 31 = neg
  reads : fpDecode w = .fin neg units
  value : binary32 w = signOf neg * (units : ℚ) / 2 ^ 149
  beside : Neighbour x w
  nearest : mode = .nearestEven → Nearest x w

/-- Rounding in rational numbers: the result is a finite pattern of the given sign beside `±num/den` units, nearest to it with
ties to even in that mode (R306). -/
theorem fpRound_spec (mode : FpRounding) (neg : Bool) (num den : Nat) (hd : 0 < den)
    (hlt : fpRound mode num den < fpInfUnits) (x : ℚ) (hx : x = signOf neg * ((num : ℚ) / den) / 2 ^ 149) :
    RoundsTo mode neg (fpRound mode num den) x (fpEncode neg (fpRound mode num den)) := by
  obtain ⟨s, q, r, hnum, hr, hq, hs, hcase⟩ := fpRound_cases mode num den hd
  have hdq : (0 : ℚ) < den := by exact_mod_cast hd
  have hX : (num : ℚ) / den = ((q * 2 ^ s : Nat) : ℚ) + (r : ℚ) / den := by
    rw [hnum]; push_cast; field_simp
  have hU : (((q + 1) * 2 ^ s : Nat) : ℚ) = ((q * 2 ^ s : Nat) : ℚ) + ((2 ^ s : Nat) : ℚ) := by push_cast; ring
  have hρ0 : (0 : ℚ) ≤ (r : ℚ) / den := div_nonneg (Nat.cast_nonneg _) hdq.le
  have hρ : (r : ℚ) / den < ((2 ^ s : Nat) : ℚ) := by
    rw [div_lt_iff₀ hdq]; exact_mod_cast (by rw [mul_comm]; exact hr)
  have hhalf : ∀ a b : Nat, (a ≤ b ↔ (a : ℚ) / den ≤ (b : ℚ) / den) := fun a b => by
    rw [div_le_div_iff_of_pos_right hdq]; exact_mod_cast Iff.rfl
  have hunit : ((den * 2 ^ s : Nat) : ℚ) / den = ((2 ^ s : Nat) : ℚ) := by push_cast; field_simp
  have htwo : ((2 * r : Nat) : ℚ) / den = 2 * ((r : ℚ) / den) := by push_cast; ring
  -- distances from the side of the sign
  have hside : ∀ v, Finite32 v → ∃ z : ℚ, z = signOf neg * binary32 v * 2 ^ 149 ∧
      binary32 v = signOf neg * z / 2 ^ 149 ∧ |binary32 v - x| = |z - (num : ℚ) / den| / 2 ^ 149 := fun v _ => by
    refine ⟨_, rfl, ?_, ?_⟩
    · rw [show signOf neg * (signOf neg * binary32 v * 2 ^ 149) / 2 ^ 149 = signOf neg * signOf neg * binary32 v by ring,
        signOf_mul_self, one_mul]
    · rw [hx, show binary32 v - signOf neg * ((num : ℚ) / den) / 2 ^ 149 =
        signOf neg * (signOf neg * binary32 v * 2 ^ 149 - (num : ℚ) / den) / 2 ^ 149 by
          rw [show signOf neg * (signOf neg * binary32 v * 2 ^ 149 - (num : ℚ) / den) / 2 ^ 149 =
            signOf neg * signOf neg * binary32 v - signOf neg * ((num : ℚ) / den) / 2 ^ 149 by ring, signOf_mul_self, one_mul],
        abs_div, abs_signOf_mul, abs_of_pos (pow_pos two_pos 149 : (0 : ℚ) < 2 ^ 149)]
  have hgap := fun v hv => finite_gap neg q s hs v hv
  generalize hQ : ((q * 2 ^ s : Nat) : ℚ) = Q at *
  generalize hUU : ((2 ^ s : Nat) : ℚ) = U at *
  generalize hρρ : (r : ℚ) / den = ρ at *
  rw [hU] at hgap
  -- what is the same for both neighbours
  have main : ∀ m : Nat, fpRound mode num den = m * 2 ^ s → m ≤ 2 ^ 24 → (s = 0 ∨ 2 ^ 23 ≤ m) →
      (((m * 2 ^ s : Nat) : ℚ) = Q ∨ ((m * 2 ^ s : Nat) : ℚ) = Q + U ∧ 0 < ρ) →
      (mode = .nearestEven → (((m * 2 ^ s : Nat) : ℚ) = Q → 2 * ρ ≤ U) ∧ (((m * 2 ^ s : Nat) : ℚ) = Q + U → U ≤ 2 * ρ) ∧
        (2 * ρ = U → m % 2 = 0)) →
      RoundsTo mode neg (fpRound mode num den) x (fpEncode neg (fpRound mode num den)) := fun m hm hm24 hms hW heven => by
    rw [hm] at hlt ⊢
    obtain ⟨h1, h2, h3, h4⟩ := fpEncode_spec neg m s hm24 hms hlt
    have h5 := binary32_encode neg m s hm24 hms hlt
    refine ⟨h3, h1, h5, ⟨h2, fun v hv => ?_⟩, fun hmode => ⟨h2, fun v hv => ?_⟩⟩
    · obtain ⟨z, hz, hvz, -⟩ := hside v hv
      have hg := hgap v hv
      rw [← hz] at hg
      generalize ((m * 2 ^ s : Nat) : ℚ) = W at *
      rw [h5, hvz, hx, hX]
      have hp : (0 : ℚ) < 2 ^ 149 := pow_pos two_pos 149
      cases neg <;> simp only [signOf, Bool.false_eq_true, if_false, if_true, div_le_div_iff_of_pos_right hp,
        div_lt_div_iff_of_pos_right hp, one_mul, neg_mul, neg_le_neg_iff, neg_lt_neg_iff] <;>
        constructor <;> rintro ⟨ha, hb⟩ <;> rcases hW with hW | ⟨hW, hpos⟩ <;> rcases hg with hg | hg <;> linarith
    · obtain ⟨z, hz, hvz, hdv⟩ := hside v hv
      obtain ⟨zw, hzw, hwz, hdw⟩ := hside _ h2
      have hg := hgap v hv
      rw [← hz] at hg
      obtain ⟨e1, e2, e3⟩ := heven hmode
      have hzw' : zw = ((m * 2 ^ s : Nat) : ℚ) := by
        rw [hzw, h5, show signOf neg * (signOf neg * ((m * 2 ^ s : Nat) : ℚ) / 2 ^ 149) * 2 ^ 149 =
          signOf neg * signOf neg * ((m * 2 ^ s : Nat) : ℚ) by ring, signOf_mul_self, one_mul]
      have hne : binary32 v ≠ binary32 (fpEncode neg (m * 2 ^ s)) → z ≠ zw := fun hn he => hn (by rw [hvz, hwz, he])
      rw [hdv, hdw, hX, hzw', h4]
      rw [hzw'] at hne
      generalize ((m * 2 ^ s : Nat) : ℚ) = W at *
      have hp : (0 : ℚ) < 2 ^ 149 := pow_pos two_pos 149
      rw [div_le_div_iff_of_pos_right hp, div_left_inj' hp.ne']
      have key : |W - (Q + ρ)| ≤ |z - (Q + ρ)| ∧ (z ≠ W → |z - (Q + ρ)| = |W - (Q + ρ)| → 2 * ρ = U) := by
        rcases hW with hW | ⟨hW, hpos⟩
        · have := e1 hW
          rw [hW, show Q - (Q + ρ) = -ρ by ring, abs_neg, abs_of_nonneg hρ0]
          rcases hg with hg | hg
          · rw [abs_of_nonpos (by linarith)]
            exact ⟨by linarith, fun hn he => absurd (by linarith) hn⟩
          · rw [abs_of_nonneg (by linarith)]
            exact ⟨by linarith, fun hn he => by linarith⟩
        · have := e2 hW
          rw [hW, show Q + U - (Q + ρ) = U - ρ by ring, abs_of_nonneg (by linarith : (0 : ℚ) ≤ U - ρ)]
          rcases hg with hg | hg
          · rw [abs_of_nonpos (by linarith)]
            exact ⟨by linarith, fun hn he => by linarith⟩
          · rw [abs_of_nonneg (by linarith)]
            exact ⟨by linarith, fun hn he => absurd (by linarith) hn⟩
      refine ⟨key.1, fun hn he => ?_⟩
      have := e3 (key.2 (hne hn) he)
      simp [this]
  rcases hcase with ⟨hm, he, -⟩ | ⟨hm, hr0, he, -⟩
  · refine main q hm hq.le hs (.inl hQ) fun hmode => ?_
    obtain ⟨e1, e2⟩ := he hmode
    have e1' := (hhalf _ _).1 e1
    rw [htwo, hunit] at e1'
    refine ⟨fun _ => e1', fun h => ?_, fun h => ?_⟩
    · rw [hQ] at h; have : (0 : ℚ) < U := lt_of_le_of_lt hρ0 hρ; linarith
    · apply e2; apply le_antisymm e1; rw [hhalf, htwo, hunit, h]
  · refine main (q + 1) hm (by omega) (by omega) (.inr ⟨hU, ?_⟩) fun hmode => ?_
    · rw [← hρρ]; have : (0 : ℚ) < r := by exact_mod_cast hr0
      exact div_pos this hdq
    · obtain ⟨e1, e2⟩ := he hmode
      have e1' := (hhalf _ _).1 e1
      rw [htwo, hunit] at e1'
      refine ⟨fun h => ?_, fun _ => e1', fun h => ?_⟩
      · rw [hU] at h; have : (0 : ℚ) < U := lt_of_le_of_lt hρ0 hρ; linarith
      · have : 2 * r = den * 2 ^ s := by
          apply le_antisymm
          · rw [hhalf, htwo, hunit, h]
          · exact e1
        have := e2 this; omega

/-! ### Exact results as numbers, their classes, and the default's rounding -/

/-- The sign bit of an encoded magnitude. -/
theorem fpEncode_sign (neg : Bool) (u : Nat) : (fpEncode neg u).getLsbD 31 = neg := by
  show (BitVec.ofBool neg ++ (_ : BitVec 31)).getLsbD 31 = neg
  rw [BitVec.getLsbD_append]
  cases neg <;> simp

/-- `±num / den` units of 2^-149 as a rational number. -/
def ratioVal (neg : Bool) (num den : Nat) : ℚ := signOf neg * ((num : ℚ) / den) / 2 ^ 149

theorem abs_ratioVal (neg : Bool) (num den : Nat) : |ratioVal neg num den| = (num : ℚ) / den / 2 ^ 149 := by
  unfold ratioVal
  rw [mul_div_assoc, abs_signOf_mul, abs_of_nonneg]
  positivity

theorem greatestFinite_units : greatestFinite = (fpMaxUnits : ℚ) / 2 ^ 149 := by
  unfold greatestFinite fpMaxUnits
  rw [Nat.shiftLeft_eq]; push_cast
  norm_num

theorem leastNormal_units : leastNormal = (fpMinNormalUnits : ℚ) / 2 ^ 149 := by
  unfold leastNormal fpMinNormalUnits
  push_cast; norm_num

/-- An exact result is past the greatest finite number when its quotient is past that many units. -/
theorem ratioVal_large_iff {neg : Bool} {num den : Nat} (hd : 0 < den) :
    greatestFinite < |ratioVal neg num den| ↔ fpMaxUnits * den < num := by
  have hdq : (0 : ℚ) < den := by exact_mod_cast hd
  rw [abs_ratioVal, greatestFinite_units, div_lt_div_iff_of_pos_right (pow_pos two_pos 149), lt_div_iff₀ hdq]
  exact_mod_cast Iff.rfl

/-- An exact result is below the least normal number when its quotient is below that many units. -/
theorem ratioVal_small_iff {neg : Bool} {num den : Nat} (hd : 0 < den) :
    |ratioVal neg num den| < leastNormal ↔ num < fpMinNormalUnits * den := by
  have hdq : (0 : ℚ) < den := by exact_mod_cast hd
  rw [abs_ratioVal, leastNormal_units, div_lt_div_iff_of_pos_right (pow_pos two_pos 149), div_lt_iff₀ hdq]
  exact_mod_cast Iff.rfl

theorem ratioVal_zero_iff {neg : Bool} {num den : Nat} (hd : 0 < den) : ratioVal neg num den = 0 ↔ num = 0 := by
  have hdq : (den : ℚ) ≠ 0 := by exact_mod_cast hd.ne'
  rw [← abs_eq_zero, abs_ratioVal]
  simp [hdq]

/-- A result that is not zero is negative when its sign says so. -/
theorem ratioVal_neg_iff {neg : Bool} {num den : Nat} (hd : 0 < den) (hn : 0 < num) :
    decide (ratioVal neg num den < 0) = neg := by
  have hdq : (0 : ℚ) < den := by exact_mod_cast hd
  have hnq : (0 : ℚ) < num := by exact_mod_cast hn
  have h : (0 : ℚ) < (num : ℚ) / den := div_pos hnq hdq
  have h2 : (0 : ℚ) < (num : ℚ) / den / 2 ^ 149 := div_pos h (pow_pos two_pos 149)
  unfold ratioVal
  cases neg
  · simp only [signOf, Bool.false_eq_true, if_false, one_mul, decide_eq_false_iff_not]; linarith
  · simp only [signOf, if_true, decide_eq_true_eq]; rw [mul_div_assoc]; linarith

/-- A quotient up to the greatest finite number does not round to an infinity. -/
theorem fpRound_lt {mode : FpRounding} {num den : Nat} (hd : 0 < den) (h : num ≤ fpMaxUnits * den) :
    fpRound mode num den < fpInfUnits := by
  have hlt : fpMaxUnits < fpInfUnits := by decide
  obtain ⟨s, q, r, hnum, hr, hq, hs, hcase⟩ := fpRound_cases mode num den hd
  have hg := significant_gap (2 ^ 24 - 1) 253 q s (by norm_num) hs
  rw [show (2 ^ 24 - 1) * 2 ^ 253 = fpMaxUnits by unfold fpMaxUnits; rw [Nat.shiftLeft_eq]] at hg
  have hq' : q * 2 ^ s ≤ fpMaxUnits := by
    by_contra hc
    have : fpMaxUnits * den < q * (den * 2 ^ s) := by
      rw [show q * (den * 2 ^ s) = (q * 2 ^ s) * den by ring]; exact (Nat.mul_lt_mul_right hd).2 (by omega)
    omega
  rcases hcase with ⟨he, -⟩ | ⟨he, hr0, -⟩
  · rw [he]; omega
  · rw [he]
    rcases hg with hg | hg
    · exfalso
      have : fpMaxUnits * den ≤ q * (den * 2 ^ s) := by
        rw [show q * (den * 2 ^ s) = (q * 2 ^ s) * den by ring]; exact Nat.mul_le_mul_right _ hg
      omega
    · omega

/-- Laws L2 and L3 for the class and the encoding of any exact quotient (R306). -/
theorem fpClass_fpRound_law (mode : FpRounding) (neg : Bool) (num den : Nat) (hd : 0 < den) :
    FpLaw (ratioVal neg num den) (fpClass num den, fpEncode neg (fpRound mode num den)) := by
  have hmm : fpMinNormalUnits < fpMaxUnits := by decide
  have hmd : fpMinNormalUnits * den < fpMaxUnits * den := (Nat.mul_lt_mul_right hd).2 hmm
  refine ⟨?_, ?_, ?_, ?_⟩
  · rw [ratioVal_large_iff hd]; unfold fpClass; simp only; split
    · simp_all
    · split <;> simp_all
  · rw [ratioVal_small_iff hd, ne_eq, ratioVal_zero_iff hd]; unfold fpClass; simp only; split
    · simp only [reduceCtorEq, false_iff]; omega
    · split
      · simp; omega
      · simp; omega
  · intro h
    have : num ≤ fpMaxUnits * den := by
      by_contra hc; unfold fpClass at h; simp only at h; rw [if_pos (by omega)] at h; cases h
    exact (fpRound_spec mode neg num den hd (fpRound_lt hd this) _ rfl).beside
  · intro h
    have : 0 < num := by
      by_contra hc
      apply h; unfold fpClass; simp only
      have : num = 0 := by omega
      subst this; simp
    simp only [fpEncode_sign, ratioVal_neg_iff hd this]

/-- An exact zero is Normal and keeps its sign. -/
theorem fpRound_zero (mode : FpRounding) (neg : Bool) (den : Nat) :
    fpEncode neg (fpRound mode 0 den) = BitVec.ofBool neg ++ 0#31 ∧ fpClass 0 den = .normal := by
  constructor
  · have : fpRound mode 0 den = 0 := by
      unfold fpRound; cases mode <;> simp [Nat.shiftLeft_eq]
    rw [this]; rfl
  · simp [fpClass]

/-- The sum of a finite operand and a finite addend, as a number, with the sign of an exact zero. -/
theorem fpAdd_ratio (a : Bool) (m : Nat) (b : Bool) (n d : Nat) (hd : 0 < d) :
    ∃ s N D, fpAdd (.fin a m) (.ratio b n d) = .ratio s N D ∧ 0 < D ∧
    ratioVal s N D = ratioVal a m 1 + ratioVal b n d ∧ (N = 0 → s = (a && b)) := by
  have hdq : (d : ℚ) ≠ 0 := by exact_mod_cast hd.ne'
  have cast : ((fpSigned a (m * d) + fpSigned b n : Int) : ℚ) = signOf a * m * d + signOf b * n := by
    cases a <;> cases b <;> simp [fpSigned, signOf]
  have goal : ratioVal a m 1 + ratioVal b n d = ((fpSigned a (m * d) + fpSigned b n : Int) : ℚ) / d / 2 ^ 149 := by
    rw [cast]; unfold ratioVal; field_simp; push_cast; ring
  unfold fpAdd; simp only
  generalize fpSigned a (m * d) + fpSigned b n = S at *
  split
  · rename_i h
    exact ⟨_, _, _, rfl, one_pos, by rw [goal, h]; simp [ratioVal], fun _ => rfl⟩
  · rename_i h
    refine ⟨_, _, _, rfl, hd, ?_, fun h0 => absurd (Int.natAbs_eq_zero.1 h0) h⟩
    rw [goal]; unfold ratioVal
    congr 1
    by_cases hs : S < 0
    · have : ((S.natAbs : ℕ) : ℚ) = -(S : ℚ) := by
        rw [← Int.cast_natCast, show ((S.natAbs : ℕ) : Int) = -S by omega, Int.cast_neg]
      simp [hs, signOf, this]; ring
    · have : ((S.natAbs : ℕ) : ℚ) = (S : ℚ) := by
        rw [← Int.cast_natCast, show ((S.natAbs : ℕ) : Int) = S by omega]
      simp [hs, signOf, this]

theorem ratioVal_mul (a : Bool) (m : Nat) (b : Bool) (n : Nat) :
    ratioVal (a ^^ b) (m * n) (2 ^ 149) = ratioVal a m 1 * ratioVal b n 1 := by
  unfold ratioVal; cases a <;> cases b <;> simp [signOf] <;> ring

theorem ratioVal_neg (a : Bool) (m d : Nat) : ratioVal (!a) m d = - ratioVal a m d := by
  unfold ratioVal; cases a <;> simp [signOf] <;> ring

theorem ratioVal_div (a : Bool) (m : Nat) (b : Bool) (n : Nat) (hn : 0 < n) :
    ratioVal (a ^^ b) (m * 2 ^ 149) n = ratioVal a m 1 / ratioVal b n 1 := by
  have hnq : (n : ℚ) ≠ 0 := by exact_mod_cast hn.ne'
  unfold ratioVal; cases a <;> cases b <;> simp [signOf] <;> field_simp <;> norm_num

theorem ratioVal_one (a : Bool) (m : Nat) : ratioVal a m 1 = signOf a * (m : ℚ) / 2 ^ 149 := by unfold ratioVal; simp

/-- What rounding a product before the sum can give (R306). -/
theorem fpRoundProduct_cases (mode : FpRounding) (a : Bool) (n d : Nat) (hd : 0 < d) :
    (∃ p, Neighbour (ratioVal a n d) p ∧ (mode = .nearestEven → Nearest (ratioVal a n d) p) ∧ fpRound mode n d < fpInfUnits ∧
       fpRoundProduct mode (.ratio a n d) = .ratio a (fpRound mode n d) 1 ∧
      binary32 p = ratioVal a (fpRound mode n d) 1) ∨
    (greatestFinite < |ratioVal a n d| ∧ mode = .towardZero ∧ fpRoundProduct mode (.ratio a n d) = .ratio a fpMaxUnits 1) ∨
    (greatestFinite < |ratioVal a n d| ∧ fpInfUnits ≤ fpRound mode n d ∧ fpRoundProduct mode (.ratio a n d) = .inf a) := by
  by_cases h : fpRound mode n d < fpInfUnits
  · left
    have r := fpRound_spec mode a n d hd h _ rfl
    exact ⟨_, r.beside, r.nearest, h, by simp [fpRoundProduct, h], by rw [r.value, ratioVal_one]⟩
  · right
    have hl : greatestFinite < |ratioVal a n d| := by
      rw [ratioVal_large_iff hd]; by_contra hc; exact h (fpRound_lt hd (by omega))
    by_cases hm : mode = .towardZero
    · left; subst hm; exact ⟨hl, rfl, by simp [fpRoundProduct, h]⟩
    · right; exact ⟨hl, by omega, by simp [fpRoundProduct, h, hm]⟩

/-- A finite pattern reads as its number in the default (R305). -/
theorem fpRead_finite {w : Word} (h : Finite32 w) :
    ∃ m, fpRead .ieee w = .fin (w.getLsbD 31) m ∧ binary32 w = ratioVal (w.getLsbD 31) m 1 := by
  obtain ⟨m, k, -, -, h1, h2⟩ := finite_reads w h
  exact ⟨m * 2 ^ k, h1, by rw [h2, ratioVal_one]; rfl⟩

theorem fpRead_infinite {w : Word} (h : Infinite32 w) : fpRead .ieee w = .inf (w.getLsbD 31) := by
  unfold fpRead fpDecode; simp only [h.1, h.2, if_true]

theorem fpRead_nan {w : Word} (h : ¬ Finite32 w) (h' : ¬ Infinite32 w) : fpRead .ieee w = .nan := by
  unfold Finite32 Infinite32 at *
  push Not at h
  unfold fpRead fpDecode; simp only [h, if_true]
  rw [if_neg (fun e => h' ⟨h, e⟩)]

theorem infiniteFrom_units : infiniteFrom = ((2 ^ 25 - 1) * 2 ^ 252 : Nat) / 2 ^ 149 := by
  unfold infiniteFrom; push_cast; norm_num

/-- At the last bit of the greatest finite number: what rounds up is what reaches the half above it. -/
theorem halfway_above_greatest {q r u P v : Nat} (hP : 0 < P) (hr : r < u) (hq : q < 2 ^ 24)
    (hcase : v = q * P ∧ (2 * r ≤ u ∧ (2 * r = u → q % 2 = 0)) ∨
      v = (q + 1) * P ∧ (u ≤ 2 * r ∧ (2 * r = u → q % 2 = 1))) :
    v < 2 ^ 24 * P ↔ 2 * (q * u + r) < (2 ^ 25 - 1) * u := by
  have key : ∀ x, (x * P < 2 ^ 24 * P ↔ x < 2 ^ 24) := fun x => Nat.mul_lt_mul_right hP
  rcases Nat.lt_or_ge q (2 ^ 24 - 1) with h | h
  · have : (q + 1) * u ≤ (2 ^ 24 - 1) * u := Nat.mul_le_mul_right _ h
    have e : (q + 1) * u = q * u + u := by ring
    constructor
    · intro _; omega
    · intro _
      rcases hcase with ⟨he, -⟩ | ⟨he, -⟩ <;> rw [he, key] <;> omega
  · have hq' : q = 2 ^ 24 - 1 := by omega
    subst hq'
    rcases hcase with ⟨he, h2, h3⟩ | ⟨he, h2, h3⟩ <;> rw [he, key]
    · have : 2 * r ≠ u := fun hc => by have := h3 hc; norm_num at this
      omega
    · omega

/-- Rounding to nearest gives a finite number exactly below `infiniteFrom`. -/
theorem fpRound_finite_iff {s : Bool} {n d : Nat} (hd : 0 < d) :
    fpRound .nearestEven n d < fpInfUnits ↔ |ratioVal s n d| < infiniteFrom := by
  have hdq : (0 : ℚ) < d := by exact_mod_cast hd
  rw [abs_ratioVal, infiniteFrom_units, div_lt_div_iff_of_pos_right (pow_pos two_pos 149), div_lt_iff₀ hdq]
  rw [show ((((2 ^ 25 - 1) * 2 ^ 252 : Nat) : ℚ) * d) = ((((2 ^ 25 - 1) * 2 ^ 252) * d : Nat) : ℚ) by
    push_cast; ring, Nat.cast_lt]
  obtain ⟨s, q, r, hnum, hr, hq, hs, hcase⟩ := fpRound_cases .nearestEven n d hd
  have hinf : fpInfUnits = 2 ^ 24 * 2 ^ 253 := by rw [← Nat.shiftLeft_eq]; rfl
  have e1 : (2 ^ 25 - 1) * 2 ^ 252 * d * 2 = (2 ^ 25 - 1) * (d * 2 ^ 253) := by ring
  have dpos : 0 < d * 2 ^ 253 := by positivity
  have : (n < (2 ^ 25 - 1) * 2 ^ 252 * d) ↔ 2 * n < (2 ^ 25 - 1) * (d * 2 ^ 253) := by omega
  rw [this, hinf]
  -- compare s with 253
  rcases lt_trichotomy s 253 with h | h | h
  · have b1 : (q + 1) * 2 ^ s ≤ 2 ^ 24 * 2 ^ 252 := Nat.mul_le_mul (by omega) (Nat.pow_le_pow_right (by norm_num) (by omega))
    have b2 : n < (q + 1) * 2 ^ s * d := by
      rw [hnum, show (q + 1) * 2 ^ s * d = q * (d * 2 ^ s) + d * 2 ^ s by ring]; omega
    have b3 : n < 2 ^ 24 * 2 ^ 252 * d := lt_of_lt_of_le b2 (Nat.mul_le_mul_right _ b1)
    have b4 : 2 ^ 24 * 2 ^ 252 * d * 2 = 2 ^ 24 * (d * 2 ^ 253) := by ring
    have b5 : 2 ^ 24 * 2 ^ 252 < 2 ^ 24 * 2 ^ 253 :=
      Nat.mul_lt_mul_of_pos_left (Nat.pow_lt_pow_right (by norm_num) (by norm_num)) (by norm_num)
    have b6 : q * 2 ^ s ≤ (q + 1) * 2 ^ s := Nat.mul_le_mul_right _ (by omega)
    constructor
    · intro _; omega
    · intro _
      rcases hcase with ⟨he, -⟩ | ⟨he, -⟩ <;> rw [he] <;> omega
  · subst h
    have hh : 2 * n = 2 * (q * (d * 2 ^ 253) + r) := congrArg (2 * ·) hnum
    rw [hh]
    refine halfway_above_greatest (pow_pos two_pos 253) hr hq ?_
    rcases hcase with ⟨he, h1, -⟩ | ⟨he, -, h1, -⟩
    · exact .inl ⟨he, h1 rfl⟩
    · exact .inr ⟨he, h1 rfl⟩
  · have b1 : 2 ^ 23 * 2 ^ 254 ≤ q * 2 ^ s := Nat.mul_le_mul (by omega) (Nat.pow_le_pow_right (by norm_num) (by omega))
    have b0 : 2 ^ 23 * 2 ^ 254 = 2 ^ 24 * 2 ^ 253 := by rw [show 254 = 253 + 1 by norm_num, pow_succ]; ring
    have b2 : q * 2 ^ s * d ≤ n := by
      rw [hnum, show q * 2 ^ s * d = q * (d * 2 ^ s) by ring]; omega
    have b3 : 2 ^ 24 * (d * 2 ^ 253) ≤ n := by
      refine le_trans ?_ b2
      rw [show 2 ^ 24 * (d * 2 ^ 253) = (2 ^ 24 * 2 ^ 253) * d by ring]
      exact Nat.mul_le_mul_right _ (by omega)
    have b6 : q * 2 ^ s ≤ (q + 1) * 2 ^ s := Nat.mul_le_mul_right _ (by omega)
    constructor
    · intro h0; exfalso
      rcases hcase with ⟨he, -⟩ | ⟨he, -⟩ <;> rw [he] at h0 <;> omega
    · intro _; omega

/-- Two finite patterns of one value have the same last bit. -/
theorem finite_lastBit_eq {v w : Word} (hv : Finite32 v) (hw : Finite32 w) (h : binary32 v = binary32 w) :
    v.getLsbD 0 = w.getLsbD 0 := by
  have hb : ∀ w : Word, w.getLsbD 0 = decide (fpFraction w % 2 = 1) := fun w => by
    unfold fpFraction
    rw [BitVec.getLsbD, Nat.testBit_eq_decide_div_mod_eq, BitVec.extractLsb'_toNat]
    simp
  obtain ⟨m, hm, em⟩ := fpRead_finite hv
  obtain ⟨n, hn, en⟩ := fpRead_finite hw
  have hmn : m = n := by
    have := congrArg abs h
    rw [em, en, abs_ratioVal, abs_ratioVal, div_left_inj' (pow_pos two_pos 149).ne'] at this
    simpa using this
  have hf : fpFraction v < 2 ^ 23 := (v.extractLsb' 0 23).isLt
  have hf' : fpFraction w < 2 ^ 23 := (w.extractLsb' 0 23).isLt
  unfold Finite32 at hv hw
  unfold fpRead fpDecode at hm hn
  simp only [hv, hw, if_false] at hm hn
  rw [hb, hb]
  suffices fpFraction v = fpFraction w by rw [this]
  subst hmn
  by_cases h1 : fpExponent v = 0 <;> by_cases h2 : fpExponent w = 0 <;>
    simp only [h1, h2, if_true, if_false, FpVal.fin.injEq, Nat.shiftLeft_eq] at hm hn
  · omega
  · exfalso
    have : 2 ^ 23 * 1 ≤ (2 ^ 23 + fpFraction w) * 2 ^ (fpExponent w - 1) := Nat.mul_le_mul (by omega) Nat.one_le_two_pow
    omega
  · exfalso
    have : 2 ^ 23 * 1 ≤ (2 ^ 23 + fpFraction v) * 2 ^ (fpExponent v - 1) := Nat.mul_le_mul (by omega) Nat.one_le_two_pow
    omega
  · have e := hm.2.trans hn.2.symm
    have l1 : Nat.log2 ((2 ^ 23 + fpFraction v) * 2 ^ (fpExponent v - 1)) = 23 + (fpExponent v - 1) := by
      rw [Nat.log2_eq_iff (by positivity)]
      constructor
      · rw [pow_add]; exact Nat.mul_le_mul_right _ (by omega)
      · rw [show 23 + (fpExponent v - 1) + 1 = 24 + (fpExponent v - 1) by omega, pow_add]
        exact (Nat.mul_lt_mul_right (by positivity)).2 (by omega)
    have l2 : Nat.log2 ((2 ^ 23 + fpFraction w) * 2 ^ (fpExponent w - 1)) = 23 + (fpExponent w - 1) := by
      rw [Nat.log2_eq_iff (by positivity)]
      constructor
      · rw [pow_add]; exact Nat.mul_le_mul_right _ (by omega)
      · rw [show 23 + (fpExponent w - 1) + 1 = 24 + (fpExponent w - 1) by omega, pow_add]
        exact (Nat.mul_lt_mul_right (by positivity)).2 (by omega)
    rw [e, l2] at l1
    rw [show fpExponent v - 1 = fpExponent w - 1 by omega] at e
    have := Nat.eq_of_mul_eq_mul_right (by positivity) e
    omega

/-- The number nearest to a quotient, with ties to even, is unique. -/
theorem nearest_unique {s : Bool} {n d : Nat} (hd : 0 < d) (hlt : fpRound .nearestEven n d < fpInfUnits) {p : Word}
    (hp : Nearest (ratioVal s n d) p) :
    binary32 p = ratioVal s (fpRound .nearestEven n d) 1 := by
  have r := fpRound_spec .nearestEven s n d hd hlt _ rfl
  set w := fpEncode s (fpRound .nearestEven n d) with hw
  have hn := r.nearest rfl
  rw [ratioVal_one, ← r.value]
  by_contra hne
  -- equal distance, both even
  have d1 := (hp.2 w hn.1)
  have d2 := (hn.2 p hp.1)
  have de := le_antisymm d1.1 d2.1
  have ep := d1.2 (Ne.symm hne) de.symm
  have ew := d2.2 hne de
  -- the other neighbour is odd
  obtain ⟨k, q, r', hnum, hr, hq, hs, hcase⟩ := fpRound_cases .nearestEven n d hd
  have hdq : (0 : ℚ) < d := by exact_mod_cast hd
  have hX : (n : ℚ) / d = ((q * 2 ^ k : Nat) : ℚ) + (r' : ℚ) / d := by
    rw [hnum]; push_cast; field_simp
  have hU : (((q + 1) * 2 ^ k : Nat) : ℚ) = ((q * 2 ^ k : Nat) : ℚ) + ((2 ^ k : Nat) : ℚ) := by push_cast; ring
  have hρ0 : (0 : ℚ) ≤ (r' : ℚ) / d := div_nonneg (Nat.cast_nonneg _) hdq.le
  have hρ : (r' : ℚ) / d < ((2 ^ k : Nat) : ℚ) := by
    rw [div_lt_iff₀ hdq]; exact_mod_cast (by rw [mul_comm]; exact hr)
  have hg := finite_gap s q k hs p hp.1
  have dist : ∀ v : Word, |binary32 v - ratioVal s n d| = |signOf s * binary32 v * 2 ^ 149 - (n : ℚ) / d| / 2 ^ 149 :=
      fun v => by
    unfold ratioVal
    rw [show binary32 v - signOf s * ((n : ℚ) / d) / 2 ^ 149 =
        signOf s * (signOf s * binary32 v * 2 ^ 149 - (n : ℚ) / d) / 2 ^ 149 by
          rw [show signOf s * (signOf s * binary32 v * 2 ^ 149 - (n : ℚ) / d) / 2 ^ 149 =
            signOf s * signOf s * binary32 v - signOf s * ((n : ℚ) / d) / 2 ^ 149 by ring, signOf_mul_self, one_mul],
        abs_div, abs_signOf_mul, abs_of_pos (pow_pos two_pos 149 : (0 : ℚ) < 2 ^ 149)]
  rw [dist, dist, div_left_inj' (pow_pos two_pos 149).ne'] at de
  have wz : signOf s * binary32 w * 2 ^ 149 = (fpRound .nearestEven n d : ℚ) := by
    rw [r.value, show signOf s * (signOf s * (fpRound .nearestEven n d : ℚ) / 2 ^ 149) * 2 ^ 149 =
      signOf s * signOf s * (fpRound .nearestEven n d : ℚ) by ring, signOf_mul_self, one_mul]
  have back : ∀ v : Word, binary32 v = signOf s * (signOf s * binary32 v * 2 ^ 149) / 2 ^ 149 := fun v => by
    rw [show signOf s * (signOf s * binary32 v * 2 ^ 149) / 2 ^ 149 = signOf s * signOf s * binary32 v by ring,
      signOf_mul_self, one_mul]
  have hz : signOf s * binary32 p * 2 ^ 149 ≠ (fpRound .nearestEven n d : ℚ) := fun hc => hne (by
    rw [back p, hc, ← wz, ← back w])
  rw [wz, hX] at de
  have lastOf : ∀ m : Nat, m ≤ 2 ^ 24 → (k = 0 ∨ 2 ^ 23 ≤ m) → m * 2 ^ k < fpInfUnits →
      signOf s * binary32 p * 2 ^ 149 = ((m * 2 ^ k : Nat) : ℚ) → p.getLsbD 0 = decide (m % 2 = 1) := by
    intro m h1 h2 h3 h4
    obtain ⟨-, f2, -, f4⟩ := fpEncode_spec s m k h1 h2 h3
    rw [← f4]
    apply finite_lastBit_eq hp.1 f2
    rw [binary32_encode s m k h1 h2 h3, back p, h4]
  have bound : ∀ m : Nat, signOf s * binary32 p * 2 ^ 149 = ((m * 2 ^ k : Nat) : ℚ) → m * 2 ^ k < fpInfUnits := by
    intro m h
    obtain ⟨m', k', a1, a2, -, a4⟩ := finite_reads p hp.1
    have hlt' : m' * 2 ^ k' < fpInfUnits := by
      have : m' * 2 ^ k' ≤ (2 ^ 24 - 1) * 2 ^ 253 := Nat.mul_le_mul (by omega) (Nat.pow_le_pow_right (by norm_num) (by omega))
      have e : (2 ^ 24 - 1) * 2 ^ 253 < fpInfUnits := by rw [← Nat.shiftLeft_eq]; decide
      omega
    have : |signOf s * binary32 p * 2 ^ 149| = ((m' * 2 ^ k' : Nat) : ℚ) := by
      rw [a4, show signOf s * ((if p.getLsbD 31 then (-1 : ℚ) else 1) * ((m' * 2 ^ k' : Nat) : ℚ) / 2 ^ 149) * 2 ^ 149 =
        signOf s * (signOf (p.getLsbD 31) * ((m' * 2 ^ k' : Nat) : ℚ)) by unfold signOf; ring, abs_signOf_mul, abs_signOf_mul,
        abs_of_nonneg (Nat.cast_nonneg _)]
    rw [h, abs_of_nonneg (Nat.cast_nonneg _)] at this
    have : m * 2 ^ k = m' * 2 ^ k' := by exact_mod_cast this
    omega
  generalize hz' : signOf s * binary32 p * 2 ^ 149 = z at *
  rcases hcase with ⟨he, hmode, -⟩ | ⟨he, hr0, hmode, -⟩
  · obtain ⟨h1, h2⟩ := hmode rfl
    rw [he] at hz de
    have : 2 * ((r' : ℚ) / d) ≤ ((2 ^ k : Nat) : ℚ) := by
      rw [← mul_div_assoc, div_le_iff₀ hdq]; exact_mod_cast (by rw [mul_comm (2 ^ k)]; exact h1)
    rw [show ((q * 2 ^ k : Nat) : ℚ) - (((q * 2 ^ k : Nat) : ℚ) + (r' : ℚ) / d) = -((r' : ℚ) / d) by ring,
      abs_neg, abs_of_nonneg hρ0] at de
    have hzq : z = (((q + 1) * 2 ^ k : Nat) : ℚ) ∧ 2 * ((r' : ℚ) / d) = ((2 ^ k : Nat) : ℚ) := by
      rw [hU] at hg ⊢
      rcases hg with hg | hg
      · exfalso; rw [abs_of_nonpos (by linarith)] at de; apply hz; linarith
      · rw [abs_of_nonneg (by linarith)] at de; constructor <;> linarith
    have heq : 2 * r' = d * 2 ^ k := by
      have := hzq.2
      rw [← mul_div_assoc, div_eq_iff hdq.ne'] at this
      have h3 : 2 * r' = 2 ^ k * d := by exact_mod_cast this
      rw [h3, mul_comm]
    have q0 := h2 heq
    have := lastOf (q + 1) (by omega) (by omega) (bound _ hzq.1) hzq.1
    rw [ep] at this
    simp at this; omega
  · obtain ⟨h1, h2⟩ := hmode rfl
    rw [he] at hz de
    have : ((2 ^ k : Nat) : ℚ) ≤ 2 * ((r' : ℚ) / d) := by
      rw [← mul_div_assoc, le_div_iff₀ hdq]; exact_mod_cast (by rw [mul_comm (2 ^ k)]; exact h1)
    rw [hU, show ((q * 2 ^ k : Nat) : ℚ) + ((2 ^ k : Nat) : ℚ) - (((q * 2 ^ k : Nat) : ℚ) + (r' : ℚ) / d) =
      ((2 ^ k : Nat) : ℚ) - (r' : ℚ) / d by ring,
      abs_of_nonneg (show (0 : ℚ) ≤ ((2 ^ k : Nat) : ℚ) - (r' : ℚ) / d by linarith)] at de
    have hzq : z = ((q * 2 ^ k : Nat) : ℚ) ∧ 2 * ((r' : ℚ) / d) = ((2 ^ k : Nat) : ℚ) := by
      rw [hU] at hg hz
      rcases hg with hg | hg
      · rw [abs_of_nonpos (by linarith)] at de; constructor <;> linarith
      · exfalso; rw [abs_of_nonneg (by linarith)] at de; apply hz; linarith
    have heq : 2 * r' = d * 2 ^ k := by
      have := hzq.2
      rw [← mul_div_assoc, div_eq_iff hdq.ne'] at this
      have h3 : 2 * r' = 2 ^ k * d := by exact_mod_cast this
      rw [h3, mul_comm]
    have q0 := h2 heq
    have := lastOf q (by omega) (by omega) (bound _ hzq.1) hzq.1
    rw [ep] at this
    simp at this; omega

end Sys2Proof.Machine
end

