-- ==== Sys2Proof/Laws/State.lean ====
section
/-! SUPPORT. One lemma per field for each update of the state, so that no later proof unfolds a record update. -/

namespace Sys2Proof.Machine

/-! ### The control part of the stepping core -/
@[simp] theorem setCtl_turn (s : State) (k : Control) : (s.setCtl k).turn = s.turn := by unfold State.setCtl; split <;> rfl
@[simp] theorem setCtl_mem (s : State) (k : Control) : (s.setCtl k).mem = s.mem := by unfold State.setCtl; split <;> rfl
@[simp] theorem setCtl_physMap (s : State) (k : Control) : (s.setCtl k).physMap = s.physMap := by unfold State.setCtl; split <;> rfl
@[simp] theorem setCtl_params (s : State) (k : Control) : (s.setCtl k).params = s.params := by unfold State.setCtl; split <;> rfl
@[simp] theorem setCtl_run (s : State) (k : Control) : (s.setCtl k).run = s.run := by unfold State.setCtl; split <;> rfl
@[simp] theorem setCtl_log (s : State) (k : Control) : (s.setCtl k).log = s.log := by unfold State.setCtl; split <;> rfl
@[simp] theorem setCtl_inFlight (s : State) (k : Control) : (s.setCtl k).inFlight = s.inFlight := by unfold State.setCtl; split <;> rfl
@[simp] theorem setCtl_agenda (s : State) (k : Control) : (s.setCtl k).agenda = s.agenda := by unfold State.setCtl; split <;> rfl
@[simp] theorem setCtl_freeCount (s : State) (k : Control) : (s.setCtl k).freeCount = s.freeCount := by unfold State.setCtl; split <;> rfl
@[simp] theorem setCtl_ee_gpr (s : State) (k : Control) : (s.setCtl k).ee.gpr = s.ee.gpr := by unfold State.setCtl; split <;> rfl
@[simp] theorem setCtl_ee_index (s : State) (k : Control) : (s.setCtl k).ee.index = s.ee.index := by unfold State.setCtl; split <;> rfl
@[simp] theorem setCtl_ee_entryLo0 (s : State) (k : Control) : (s.setCtl k).ee.entryLo0 = s.ee.entryLo0 := by unfold State.setCtl; split <;> rfl
@[simp] theorem setCtl_ee_entryLo1 (s : State) (k : Control) : (s.setCtl k).ee.entryLo1 = s.ee.entryLo1 := by unfold State.setCtl; split <;> rfl
@[simp] theorem setCtl_ee_pageMask (s : State) (k : Control) : (s.setCtl k).ee.pageMask = s.ee.pageMask := by unfold State.setCtl; split <;> rfl
@[simp] theorem setCtl_ee_entryHi (s : State) (k : Control) : (s.setCtl k).ee.entryHi = s.ee.entryHi := by unfold State.setCtl; split <;> rfl
@[simp] theorem setCtl_ee_errorEpc (s : State) (k : Control) : (s.setCtl k).ee.errorEpc = s.ee.errorEpc := by unfold State.setCtl; split <;> rfl
@[simp] theorem setCtl_ee_tlb (s : State) (k : Control) : (s.setCtl k).ee.tlb = s.ee.tlb := by unfold State.setCtl; split <;> rfl
@[simp] theorem setCtl_ee_fpr (s : State) (k : Control) : (s.setCtl k).ee.fpr = s.ee.fpr := by unfold State.setCtl; split <;> rfl
@[simp] theorem setCtl_ee_acc (s : State) (k : Control) : (s.setCtl k).ee.acc = s.ee.acc := by unfold State.setCtl; split <;> rfl
@[simp] theorem setCtl_ee_fcr31 (s : State) (k : Control) : (s.setCtl k).ee.fcr31 = s.ee.fcr31 := by unfold State.setCtl; split <;> rfl
@[simp] theorem setCtl_ee_int0 (s : State) (k : Control) : (s.setCtl k).ee.int0 = s.ee.int0 := by unfold State.setCtl; split <;> rfl
@[simp] theorem setCtl_ee_int1 (s : State) (k : Control) : (s.setCtl k).ee.int1 = s.ee.int1 := by unfold State.setCtl; split <;> rfl
@[simp] theorem setCtl_ee_timer (s : State) (k : Control) : (s.setCtl k).ee.timer = s.ee.timer := by unfold State.setCtl; split <;> rfl
@[simp] theorem setCtl_iop_gpr (s : State) (k : Control) : (s.setCtl k).iop.gpr = s.iop.gpr := by unfold State.setCtl; split <;> rfl
@[simp] theorem setCtl_iop_lines (s : State) (k : Control) : (s.setCtl k).iop.lines = s.iop.lines := by unfold State.setCtl; split <;> rfl
@[simp] theorem setCtl_ctl (s : State) (k : Control) : (s.setCtl k).ctl = k := by unfold State.ctl State.setCtl; cases s.turn <;> simp
@[simp] theorem setCtl_setCtl (s : State) (k l : Control) : (s.setCtl k).setCtl l = s.setCtl l := by
  unfold State.setCtl; cases s.turn <;> simp
@[simp] theorem setCtl_q (s : State) (k : Control) (r : RegIdx) : (s.setCtl k).q r = s.q r := by simp [State.q]
@[simp] theorem setCtl_r32 (s : State) (k : Control) (r : RegIdx) : (s.setCtl k).r32 r = s.r32 r := by simp [State.r32]
@[simp] theorem setCtl_x (s : State) (k : Control) (r : RegIdx) (n : Nat) : (s.setCtl k).x r n = s.x r n := by simp [State.x]
@[simp] theorem setCtl_f (s : State) (k : Control) (r : RegIdx) : (s.setCtl k).f r = s.f r := by simp [State.f]
theorem setCtl_iop_of_ee (s : State) (k : Control) (h : s.turn = .ee) : (s.setCtl k).iop = s.iop := by simp [State.setCtl, h]
theorem setCtl_ee_of_iop (s : State) (k : Control) (h : s.turn = .iop) : (s.setCtl k).ee = s.ee := by simp [State.setCtl, h]
@[simp] theorem setCtl_self (s : State) : s.setCtl s.ctl = s := by rcases s with ⟨_ | _, _⟩ <;> rfl
/-! ### setQ -/

@[simp] theorem setQ_turn (s : State) (r : RegIdx) (v : Quad) : (s.setQ r v).turn = s.turn := by unfold State.setQ; split <;> rfl
@[simp] theorem setQ_mem (s : State) (r : RegIdx) (v : Quad) : (s.setQ r v).mem = s.mem := by unfold State.setQ; split <;> rfl
@[simp] theorem setQ_physMap (s : State) (r : RegIdx) (v : Quad) : (s.setQ r v).physMap = s.physMap := by unfold State.setQ; split <;> rfl
@[simp] theorem setQ_params (s : State) (r : RegIdx) (v : Quad) : (s.setQ r v).params = s.params := by unfold State.setQ; split <;> rfl
@[simp] theorem setQ_run (s : State) (r : RegIdx) (v : Quad) : (s.setQ r v).run = s.run := by unfold State.setQ; split <;> rfl
@[simp] theorem setQ_log (s : State) (r : RegIdx) (v : Quad) : (s.setQ r v).log = s.log := by unfold State.setQ; split <;> rfl
@[simp] theorem setQ_inFlight (s : State) (r : RegIdx) (v : Quad) : (s.setQ r v).inFlight = s.inFlight := by unfold State.setQ; split <;> rfl
@[simp] theorem setQ_agenda (s : State) (r : RegIdx) (v : Quad) : (s.setQ r v).agenda = s.agenda := by unfold State.setQ; split <;> rfl
@[simp] theorem setQ_freeCount (s : State) (r : RegIdx) (v : Quad) : (s.setQ r v).freeCount = s.freeCount := by unfold State.setQ; split <;> rfl
@[simp] theorem setQ_ee_index (s : State) (r : RegIdx) (v : Quad) : (s.setQ r v).ee.index = s.ee.index := by unfold State.setQ; split <;> rfl
@[simp] theorem setQ_ee_entryLo0 (s : State) (r : RegIdx) (v : Quad) : (s.setQ r v).ee.entryLo0 = s.ee.entryLo0 := by unfold State.setQ; split <;> rfl
@[simp] theorem setQ_ee_entryLo1 (s : State) (r : RegIdx) (v : Quad) : (s.setQ r v).ee.entryLo1 = s.ee.entryLo1 := by unfold State.setQ; split <;> rfl
@[simp] theorem setQ_ee_pageMask (s : State) (r : RegIdx) (v : Quad) : (s.setQ r v).ee.pageMask = s.ee.pageMask := by unfold State.setQ; split <;> rfl
@[simp] theorem setQ_ee_entryHi (s : State) (r : RegIdx) (v : Quad) : (s.setQ r v).ee.entryHi = s.ee.entryHi := by unfold State.setQ; split <;> rfl
@[simp] theorem setQ_ee_errorEpc (s : State) (r : RegIdx) (v : Quad) : (s.setQ r v).ee.errorEpc = s.ee.errorEpc := by unfold State.setQ; split <;> rfl
@[simp] theorem setQ_ee_tlb (s : State) (r : RegIdx) (v : Quad) : (s.setQ r v).ee.tlb = s.ee.tlb := by unfold State.setQ; split <;> rfl
@[simp] theorem setQ_ee_fpr (s : State) (r : RegIdx) (v : Quad) : (s.setQ r v).ee.fpr = s.ee.fpr := by unfold State.setQ; split <;> rfl
@[simp] theorem setQ_ee_acc (s : State) (r : RegIdx) (v : Quad) : (s.setQ r v).ee.acc = s.ee.acc := by unfold State.setQ; split <;> rfl
@[simp] theorem setQ_ee_fcr31 (s : State) (r : RegIdx) (v : Quad) : (s.setQ r v).ee.fcr31 = s.ee.fcr31 := by unfold State.setQ; split <;> rfl
@[simp] theorem setQ_ee_int0 (s : State) (r : RegIdx) (v : Quad) : (s.setQ r v).ee.int0 = s.ee.int0 := by unfold State.setQ; split <;> rfl
@[simp] theorem setQ_ee_int1 (s : State) (r : RegIdx) (v : Quad) : (s.setQ r v).ee.int1 = s.ee.int1 := by unfold State.setQ; split <;> rfl
@[simp] theorem setQ_ee_timer (s : State) (r : RegIdx) (v : Quad) : (s.setQ r v).ee.timer = s.ee.timer := by unfold State.setQ; split <;> rfl
@[simp] theorem setQ_ee_ctl (s : State) (r : RegIdx) (v : Quad) : (s.setQ r v).ee.ctl = s.ee.ctl := by unfold State.setQ; split <;> rfl
@[simp] theorem setQ_iop_gpr (s : State) (r : RegIdx) (v : Quad) : (s.setQ r v).iop.gpr = s.iop.gpr := by unfold State.setQ; split <;> rfl
@[simp] theorem setQ_iop_lines (s : State) (r : RegIdx) (v : Quad) : (s.setQ r v).iop.lines = s.iop.lines := by unfold State.setQ; split <;> rfl
@[simp] theorem setQ_iop_ctl (s : State) (r : RegIdx) (v : Quad) : (s.setQ r v).iop.ctl = s.iop.ctl := by unfold State.setQ; split <;> rfl
@[simp] theorem setQ_ctl (s : State) (r : RegIdx) (v : Quad) : (s.setQ r v).ctl = s.ctl := by simp [State.ctl]
/-! ### setR32 -/

@[simp] theorem setR32_turn (s : State) (r : RegIdx) (v : Word) : (s.setR32 r v).turn = s.turn := by unfold State.setR32; split <;> rfl
@[simp] theorem setR32_mem (s : State) (r : RegIdx) (v : Word) : (s.setR32 r v).mem = s.mem := by unfold State.setR32; split <;> rfl
@[simp] theorem setR32_physMap (s : State) (r : RegIdx) (v : Word) : (s.setR32 r v).physMap = s.physMap := by unfold State.setR32; split <;> rfl
@[simp] theorem setR32_params (s : State) (r : RegIdx) (v : Word) : (s.setR32 r v).params = s.params := by unfold State.setR32; split <;> rfl
@[simp] theorem setR32_run (s : State) (r : RegIdx) (v : Word) : (s.setR32 r v).run = s.run := by unfold State.setR32; split <;> rfl
@[simp] theorem setR32_log (s : State) (r : RegIdx) (v : Word) : (s.setR32 r v).log = s.log := by unfold State.setR32; split <;> rfl
@[simp] theorem setR32_inFlight (s : State) (r : RegIdx) (v : Word) : (s.setR32 r v).inFlight = s.inFlight := by unfold State.setR32; split <;> rfl
@[simp] theorem setR32_agenda (s : State) (r : RegIdx) (v : Word) : (s.setR32 r v).agenda = s.agenda := by unfold State.setR32; split <;> rfl
@[simp] theorem setR32_freeCount (s : State) (r : RegIdx) (v : Word) : (s.setR32 r v).freeCount = s.freeCount := by unfold State.setR32; split <;> rfl
@[simp] theorem setR32_ee_gpr (s : State) (r : RegIdx) (v : Word) : (s.setR32 r v).ee.gpr = s.ee.gpr := by unfold State.setR32; split <;> rfl
@[simp] theorem setR32_ee_index (s : State) (r : RegIdx) (v : Word) : (s.setR32 r v).ee.index = s.ee.index := by unfold State.setR32; split <;> rfl
@[simp] theorem setR32_ee_entryLo0 (s : State) (r : RegIdx) (v : Word) : (s.setR32 r v).ee.entryLo0 = s.ee.entryLo0 := by unfold State.setR32; split <;> rfl
@[simp] theorem setR32_ee_entryLo1 (s : State) (r : RegIdx) (v : Word) : (s.setR32 r v).ee.entryLo1 = s.ee.entryLo1 := by unfold State.setR32; split <;> rfl
@[simp] theorem setR32_ee_pageMask (s : State) (r : RegIdx) (v : Word) : (s.setR32 r v).ee.pageMask = s.ee.pageMask := by unfold State.setR32; split <;> rfl
@[simp] theorem setR32_ee_entryHi (s : State) (r : RegIdx) (v : Word) : (s.setR32 r v).ee.entryHi = s.ee.entryHi := by unfold State.setR32; split <;> rfl
@[simp] theorem setR32_ee_errorEpc (s : State) (r : RegIdx) (v : Word) : (s.setR32 r v).ee.errorEpc = s.ee.errorEpc := by unfold State.setR32; split <;> rfl
@[simp] theorem setR32_ee_tlb (s : State) (r : RegIdx) (v : Word) : (s.setR32 r v).ee.tlb = s.ee.tlb := by unfold State.setR32; split <;> rfl
@[simp] theorem setR32_ee_fpr (s : State) (r : RegIdx) (v : Word) : (s.setR32 r v).ee.fpr = s.ee.fpr := by unfold State.setR32; split <;> rfl
@[simp] theorem setR32_ee_acc (s : State) (r : RegIdx) (v : Word) : (s.setR32 r v).ee.acc = s.ee.acc := by unfold State.setR32; split <;> rfl
@[simp] theorem setR32_ee_fcr31 (s : State) (r : RegIdx) (v : Word) : (s.setR32 r v).ee.fcr31 = s.ee.fcr31 := by unfold State.setR32; split <;> rfl
@[simp] theorem setR32_ee_int0 (s : State) (r : RegIdx) (v : Word) : (s.setR32 r v).ee.int0 = s.ee.int0 := by unfold State.setR32; split <;> rfl
@[simp] theorem setR32_ee_int1 (s : State) (r : RegIdx) (v : Word) : (s.setR32 r v).ee.int1 = s.ee.int1 := by unfold State.setR32; split <;> rfl
@[simp] theorem setR32_ee_timer (s : State) (r : RegIdx) (v : Word) : (s.setR32 r v).ee.timer = s.ee.timer := by unfold State.setR32; split <;> rfl
@[simp] theorem setR32_ee_ctl (s : State) (r : RegIdx) (v : Word) : (s.setR32 r v).ee.ctl = s.ee.ctl := by unfold State.setR32; split <;> rfl
@[simp] theorem setR32_iop_lines (s : State) (r : RegIdx) (v : Word) : (s.setR32 r v).iop.lines = s.iop.lines := by unfold State.setR32; split <;> rfl
@[simp] theorem setR32_iop_ctl (s : State) (r : RegIdx) (v : Word) : (s.setR32 r v).iop.ctl = s.iop.ctl := by unfold State.setR32; split <;> rfl
@[simp] theorem setR32_ctl (s : State) (r : RegIdx) (v : Word) : (s.setR32 r v).ctl = s.ctl := by simp [State.ctl]
@[simp] theorem setQ_iop (s : State) (r : RegIdx) (v : Quad) : (s.setQ r v).iop = s.iop := by unfold State.setQ; split <;> rfl
@[simp] theorem setR32_ee (s : State) (r : RegIdx) (v : Word) : (s.setR32 r v).ee = s.ee := by unfold State.setR32; split <;> rfl
@[simp] theorem setQ_r32 (s : State) (r : RegIdx) (v : Quad) (k : RegIdx) : (s.setQ r v).r32 k = s.r32 k := by simp [State.r32]
@[simp] theorem setR32_q (s : State) (r : RegIdx) (v : Word) (k : RegIdx) : (s.setR32 r v).q k = s.q k := by simp [State.q]

/-- The low part of a concatenation. -/
theorem append_low {n m : Nat} (x : BitVec n) (y : BitVec m) : (x ++ y).setWidth m = y := by
  ext i h; simp [BitVec.getLsbD_append, h]

/-- The high part of a concatenation. -/
theorem append_high {n m : Nat} (x : BitVec n) (y : BitVec m) : (x ++ y).extractLsb' m n = x := by
  ext i h; simp [BitVec.getLsbD_append, h]

/-- The lower half of a joined cell. -/
@[simp] theorem joinHalves_low (hi lo : Double) : (joinHalves hi lo).setWidth 64 = lo := append_low hi lo

/-- The upper half of a joined cell. -/
@[simp] theorem joinHalves_high (hi lo : Double) : (joinHalves hi lo).extractLsb' 64 64 = hi := append_high hi lo

/-- What reading an EE cell gives after a write of one (R21, R26). -/
theorem setQ_q (s : State) (r : RegIdx) (v : Quad) (k : RegIdx) :
    (s.setQ r v).q k = if k = r ∧ r ≠ 0#5 then v else s.q k := by
  unfold State.q State.setQ
  by_cases hk : k = 0#5
  · subst hk; by_cases hr : r = 0#5 <;> simp [hr, eq_comm]
  · by_cases hr : r = 0#5
    · simp [hk, hr]
    · by_cases h : k = r
      · subst h; simp [hk]
      · have hn : r.toNat ≠ k.toNat := fun e => h (BitVec.eq_of_toNat_eq e.symm)
        simp [hk, hr, h, Vector.getElem_set_ne, hn]

/-- What reading an IOP cell gives after a write of one (R21, R26). -/
theorem setR32_r32 (s : State) (r : RegIdx) (v : Word) (k : RegIdx) :
    (s.setR32 r v).r32 k = if k = r ∧ r ≠ 0#5 then v else s.r32 k := by
  unfold State.r32 State.setR32
  by_cases hk : k = 0#5
  · subst hk; by_cases hr : r = 0#5 <;> simp [hr, eq_comm]
  · by_cases hr : r = 0#5
    · simp [hk, hr]
    · by_cases h : k = r
      · subst h; simp [hk]
      · have hn : r.toNat ≠ k.toNat := fun e => h (BitVec.eq_of_toNat_eq e.symm)
        simp [hk, hr, h, Vector.getElem_set_ne, hn]

@[simp] theorem q_zero (s : State) : s.q 0#5 = 0#128 := by simp [State.q]
@[simp] theorem r32_zero (s : State) : s.r32 0#5 = 0#32 := by simp [State.r32]

/-- Register 0 reads 0 at every width (R26). -/
@[simp] theorem x_zero (s : State) (n : Nat) : s.x 0#5 n = 0#n := by unfold State.x; split <;> simp

/-! ### setX -/

@[simp] theorem setX_turn (s : State) (r : RegIdx) (v : (n : Nat) → BitVec n) : (s.setX r v).turn = s.turn := by unfold State.setX; split <;> simp
@[simp] theorem setX_mem (s : State) (r : RegIdx) (v : (n : Nat) → BitVec n) : (s.setX r v).mem = s.mem := by unfold State.setX; split <;> simp
@[simp] theorem setX_physMap (s : State) (r : RegIdx) (v : (n : Nat) → BitVec n) : (s.setX r v).physMap = s.physMap := by unfold State.setX; split <;> simp
@[simp] theorem setX_params (s : State) (r : RegIdx) (v : (n : Nat) → BitVec n) : (s.setX r v).params = s.params := by unfold State.setX; split <;> simp
@[simp] theorem setX_run (s : State) (r : RegIdx) (v : (n : Nat) → BitVec n) : (s.setX r v).run = s.run := by unfold State.setX; split <;> simp
@[simp] theorem setX_log (s : State) (r : RegIdx) (v : (n : Nat) → BitVec n) : (s.setX r v).log = s.log := by unfold State.setX; split <;> simp
@[simp] theorem setX_inFlight (s : State) (r : RegIdx) (v : (n : Nat) → BitVec n) : (s.setX r v).inFlight = s.inFlight := by unfold State.setX; split <;> simp
@[simp] theorem setX_agenda (s : State) (r : RegIdx) (v : (n : Nat) → BitVec n) : (s.setX r v).agenda = s.agenda := by unfold State.setX; split <;> simp
@[simp] theorem setX_freeCount (s : State) (r : RegIdx) (v : (n : Nat) → BitVec n) : (s.setX r v).freeCount = s.freeCount := by unfold State.setX; split <;> simp
@[simp] theorem setX_ee_index (s : State) (r : RegIdx) (v : (n : Nat) → BitVec n) : (s.setX r v).ee.index = s.ee.index := by unfold State.setX; split <;> simp
@[simp] theorem setX_ee_entryLo0 (s : State) (r : RegIdx) (v : (n : Nat) → BitVec n) : (s.setX r v).ee.entryLo0 = s.ee.entryLo0 := by unfold State.setX; split <;> simp
@[simp] theorem setX_ee_entryLo1 (s : State) (r : RegIdx) (v : (n : Nat) → BitVec n) : (s.setX r v).ee.entryLo1 = s.ee.entryLo1 := by unfold State.setX; split <;> simp
@[simp] theorem setX_ee_pageMask (s : State) (r : RegIdx) (v : (n : Nat) → BitVec n) : (s.setX r v).ee.pageMask = s.ee.pageMask := by unfold State.setX; split <;> simp
@[simp] theorem setX_ee_entryHi (s : State) (r : RegIdx) (v : (n : Nat) → BitVec n) : (s.setX r v).ee.entryHi = s.ee.entryHi := by unfold State.setX; split <;> simp
@[simp] theorem setX_ee_errorEpc (s : State) (r : RegIdx) (v : (n : Nat) → BitVec n) : (s.setX r v).ee.errorEpc = s.ee.errorEpc := by unfold State.setX; split <;> simp
@[simp] theorem setX_ee_tlb (s : State) (r : RegIdx) (v : (n : Nat) → BitVec n) : (s.setX r v).ee.tlb = s.ee.tlb := by unfold State.setX; split <;> simp
@[simp] theorem setX_ee_fpr (s : State) (r : RegIdx) (v : (n : Nat) → BitVec n) : (s.setX r v).ee.fpr = s.ee.fpr := by unfold State.setX; split <;> simp
@[simp] theorem setX_ee_acc (s : State) (r : RegIdx) (v : (n : Nat) → BitVec n) : (s.setX r v).ee.acc = s.ee.acc := by unfold State.setX; split <;> simp
@[simp] theorem setX_ee_fcr31 (s : State) (r : RegIdx) (v : (n : Nat) → BitVec n) : (s.setX r v).ee.fcr31 = s.ee.fcr31 := by unfold State.setX; split <;> simp
@[simp] theorem setX_ee_int0 (s : State) (r : RegIdx) (v : (n : Nat) → BitVec n) : (s.setX r v).ee.int0 = s.ee.int0 := by unfold State.setX; split <;> simp
@[simp] theorem setX_ee_int1 (s : State) (r : RegIdx) (v : (n : Nat) → BitVec n) : (s.setX r v).ee.int1 = s.ee.int1 := by unfold State.setX; split <;> simp
@[simp] theorem setX_ee_timer (s : State) (r : RegIdx) (v : (n : Nat) → BitVec n) : (s.setX r v).ee.timer = s.ee.timer := by unfold State.setX; split <;> simp
@[simp] theorem setX_ee_ctl (s : State) (r : RegIdx) (v : (n : Nat) → BitVec n) : (s.setX r v).ee.ctl = s.ee.ctl := by unfold State.setX; split <;> simp
@[simp] theorem setX_iop_lines (s : State) (r : RegIdx) (v : (n : Nat) → BitVec n) : (s.setX r v).iop.lines = s.iop.lines := by unfold State.setX; split <;> simp
@[simp] theorem setX_iop_ctl (s : State) (r : RegIdx) (v : (n : Nat) → BitVec n) : (s.setX r v).iop.ctl = s.iop.ctl := by unfold State.setX; split <;> simp
@[simp] theorem setX_ctl (s : State) (r : RegIdx) (v : (n : Nat) → BitVec n) : (s.setX r v).ctl = s.ctl := by simp [State.ctl]
@[simp] theorem setX_f (s : State) (r : RegIdx) (v : (n : Nat) → BitVec n) (k : RegIdx) : (s.setX r v).f k = s.f k := by simp [State.f]
@[simp] theorem setX_zero (s : State) (v : (n : Nat) → BitVec n) : s.setX 0#5 v = s := by unfold State.setX; split <;> simp [State.setQ, State.setR32]

/-- A written register reads the value at `XLEN` (R25). -/
theorem setX_x_self (s : State) (r : RegIdx) (v : (n : Nat) → BitVec n) (h : r ≠ 0#5) :
    (s.setX r v).x r s.turn.xlen = v s.turn.xlen := by
  unfold State.x
  rw [setX_turn]
  cases ht : s.turn
  · simp only [State.setX, ht, setQ_q, h, and_self, ne_eq, not_false_eq_true, if_true, CoreId.xlen, joinHalves_low]
  · simp [State.setX, ht, setR32_r32, h, CoreId.xlen]

/-- A write of one register leaves every other cell of both cores as it is (R25). -/
theorem setX_other (s : State) (r k : RegIdx) (v : (n : Nat) → BitVec n) (h : k ≠ r) :
    (s.setX r v).q k = s.q k ∧ (s.setX r v).r32 k = s.r32 k := by
  unfold State.setX; split <;> simp [setQ_q, setR32_r32, h]

/-- Bits 127:64 of the written EE cell keep their value (R25). -/
theorem setX_upper (s : State) (r k : RegIdx) (v : (n : Nat) → BitVec n) :
    ((s.setX r v).q k).extractLsb' 64 64 = (s.q k).extractLsb' 64 64 := by
  unfold State.setX
  split
  · rw [setQ_q]; split
    · rename_i h; obtain ⟨rfl, -⟩ := h
      exact joinHalves_high _ _
    · rfl
  · simp

/-- The other instance keeps its registers (R20). -/
theorem setX_other_core (s : State) (r : RegIdx) (v : (n : Nat) → BitVec n) :
    (s.turn = .ee → (s.setX r v).iop = s.iop) ∧ (s.turn = .iop → (s.setX r v).ee = s.ee) := by
  constructor <;> intro h <;> simp [State.setX, h]

/-! ### setF -/

@[simp] theorem setF_turn (s : State) (r : RegIdx) (v : Word) : (s.setF r v).turn = s.turn := rfl
@[simp] theorem setF_mem (s : State) (r : RegIdx) (v : Word) : (s.setF r v).mem = s.mem := rfl
@[simp] theorem setF_physMap (s : State) (r : RegIdx) (v : Word) : (s.setF r v).physMap = s.physMap := rfl
@[simp] theorem setF_params (s : State) (r : RegIdx) (v : Word) : (s.setF r v).params = s.params := rfl
@[simp] theorem setF_run (s : State) (r : RegIdx) (v : Word) : (s.setF r v).run = s.run := rfl
@[simp] theorem setF_log (s : State) (r : RegIdx) (v : Word) : (s.setF r v).log = s.log := rfl
@[simp] theorem setF_inFlight (s : State) (r : RegIdx) (v : Word) : (s.setF r v).inFlight = s.inFlight := rfl
@[simp] theorem setF_agenda (s : State) (r : RegIdx) (v : Word) : (s.setF r v).agenda = s.agenda := rfl
@[simp] theorem setF_freeCount (s : State) (r : RegIdx) (v : Word) : (s.setF r v).freeCount = s.freeCount := rfl
@[simp] theorem setF_iop (s : State) (r : RegIdx) (v : Word) : (s.setF r v).iop = s.iop := rfl
@[simp] theorem setF_ee_gpr (s : State) (r : RegIdx) (v : Word) : (s.setF r v).ee.gpr = s.ee.gpr := rfl
@[simp] theorem setF_ee_index (s : State) (r : RegIdx) (v : Word) : (s.setF r v).ee.index = s.ee.index := rfl
@[simp] theorem setF_ee_entryLo0 (s : State) (r : RegIdx) (v : Word) : (s.setF r v).ee.entryLo0 = s.ee.entryLo0 := rfl
@[simp] theorem setF_ee_entryLo1 (s : State) (r : RegIdx) (v : Word) : (s.setF r v).ee.entryLo1 = s.ee.entryLo1 := rfl
@[simp] theorem setF_ee_pageMask (s : State) (r : RegIdx) (v : Word) : (s.setF r v).ee.pageMask = s.ee.pageMask := rfl
@[simp] theorem setF_ee_entryHi (s : State) (r : RegIdx) (v : Word) : (s.setF r v).ee.entryHi = s.ee.entryHi := rfl
@[simp] theorem setF_ee_errorEpc (s : State) (r : RegIdx) (v : Word) : (s.setF r v).ee.errorEpc = s.ee.errorEpc := rfl
@[simp] theorem setF_ee_tlb (s : State) (r : RegIdx) (v : Word) : (s.setF r v).ee.tlb = s.ee.tlb := rfl
@[simp] theorem setF_ee_acc (s : State) (r : RegIdx) (v : Word) : (s.setF r v).ee.acc = s.ee.acc := rfl
@[simp] theorem setF_ee_fcr31 (s : State) (r : RegIdx) (v : Word) : (s.setF r v).ee.fcr31 = s.ee.fcr31 := rfl
@[simp] theorem setF_ee_int0 (s : State) (r : RegIdx) (v : Word) : (s.setF r v).ee.int0 = s.ee.int0 := rfl
@[simp] theorem setF_ee_int1 (s : State) (r : RegIdx) (v : Word) : (s.setF r v).ee.int1 = s.ee.int1 := rfl
@[simp] theorem setF_ee_timer (s : State) (r : RegIdx) (v : Word) : (s.setF r v).ee.timer = s.ee.timer := rfl
@[simp] theorem setF_ee_ctl (s : State) (r : RegIdx) (v : Word) : (s.setF r v).ee.ctl = s.ee.ctl := rfl
@[simp] theorem setF_ctl (s : State) (r : RegIdx) (v : Word) : (s.setF r v).ctl = s.ctl := by simp [State.ctl]
@[simp] theorem setF_q (s : State) (r : RegIdx) (v : Word) (k : RegIdx) : (s.setF r v).q k = s.q k := by simp [State.q]
@[simp] theorem setF_r32 (s : State) (r : RegIdx) (v : Word) (k : RegIdx) : (s.setF r v).r32 k = s.r32 k := by simp [State.r32]

/-- What reading a floating-point register gives after a write of one (R21, R48). -/
theorem setF_f (s : State) (r : RegIdx) (v : Word) (k : RegIdx) : (s.setF r v).f k = if k = r then v else s.f k := by
  unfold State.f State.setF
  by_cases h : k = r
  · subst h; simp
  · have hn : r.toNat ≠ k.toNat := fun e => h (BitVec.eq_of_toNat_eq e.symm)
    simp [h, Vector.getElem_set_ne, hn]

/-! ### The operations that change the control part only: advance, arm, raise, resolve, mirror, sample, returnIOP -/

@[simp] theorem advance_turn (s : State) : s.advance.turn = s.turn := by simp [State.advance]
@[simp] theorem advance_mem (s : State) : s.advance.mem = s.mem := by simp [State.advance]
@[simp] theorem advance_physMap (s : State) : s.advance.physMap = s.physMap := by simp [State.advance]
@[simp] theorem advance_params (s : State) : s.advance.params = s.params := by simp [State.advance]
@[simp] theorem advance_run (s : State) : s.advance.run = s.run := by simp [State.advance]
@[simp] theorem advance_log (s : State) : s.advance.log = s.log := by simp [State.advance]
@[simp] theorem advance_inFlight (s : State) : s.advance.inFlight = s.inFlight := by simp [State.advance]
@[simp] theorem advance_agenda (s : State) : s.advance.agenda = s.agenda := by simp [State.advance]
@[simp] theorem advance_freeCount (s : State) : s.advance.freeCount = s.freeCount := by simp [State.advance]
@[simp] theorem advance_ee_gpr (s : State) : s.advance.ee.gpr = s.ee.gpr := by simp [State.advance]
@[simp] theorem advance_ee_index (s : State) : s.advance.ee.index = s.ee.index := by simp [State.advance]
@[simp] theorem advance_ee_entryLo0 (s : State) : s.advance.ee.entryLo0 = s.ee.entryLo0 := by simp [State.advance]
@[simp] theorem advance_ee_entryLo1 (s : State) : s.advance.ee.entryLo1 = s.ee.entryLo1 := by simp [State.advance]
@[simp] theorem advance_ee_pageMask (s : State) : s.advance.ee.pageMask = s.ee.pageMask := by simp [State.advance]
@[simp] theorem advance_ee_entryHi (s : State) : s.advance.ee.entryHi = s.ee.entryHi := by simp [State.advance]
@[simp] theorem advance_ee_errorEpc (s : State) : s.advance.ee.errorEpc = s.ee.errorEpc := by simp [State.advance]
@[simp] theorem advance_ee_tlb (s : State) : s.advance.ee.tlb = s.ee.tlb := by simp [State.advance]
@[simp] theorem advance_ee_fpr (s : State) : s.advance.ee.fpr = s.ee.fpr := by simp [State.advance]
@[simp] theorem advance_ee_acc (s : State) : s.advance.ee.acc = s.ee.acc := by simp [State.advance]
@[simp] theorem advance_ee_fcr31 (s : State) : s.advance.ee.fcr31 = s.ee.fcr31 := by simp [State.advance]
@[simp] theorem advance_ee_int0 (s : State) : s.advance.ee.int0 = s.ee.int0 := by simp [State.advance]
@[simp] theorem advance_ee_int1 (s : State) : s.advance.ee.int1 = s.ee.int1 := by simp [State.advance]
@[simp] theorem advance_ee_timer (s : State) : s.advance.ee.timer = s.ee.timer := by simp [State.advance]
@[simp] theorem advance_iop_gpr (s : State) : s.advance.iop.gpr = s.iop.gpr := by simp [State.advance]
@[simp] theorem advance_iop_lines (s : State) : s.advance.iop.lines = s.iop.lines := by simp [State.advance]
@[simp] theorem advance_q (s : State) (r : RegIdx) : s.advance.q r = s.q r := by simp [State.advance]
@[simp] theorem advance_r32 (s : State) (r : RegIdx) : s.advance.r32 r = s.r32 r := by simp [State.advance]
@[simp] theorem advance_x (s : State) (r : RegIdx) (n : Nat) : s.advance.x r n = s.x r n := by simp [State.advance]
@[simp] theorem advance_f (s : State) (r : RegIdx) : s.advance.f r = s.f r := by simp [State.advance]
@[simp] theorem advance_ctl_bd (s : State) : s.advance.ctl.bd = s.ctl.bd := by simp [State.advance]
@[simp] theorem advance_ctl_xq (s : State) : s.advance.ctl.xq = s.ctl.xq := by simp [State.advance]
@[simp] theorem advance_ctl_status (s : State) : s.advance.ctl.status = s.ctl.status := by simp [State.advance]
@[simp] theorem advance_ctl_cause (s : State) : s.advance.ctl.cause = s.ctl.cause := by simp [State.advance]
@[simp] theorem advance_ctl_epc (s : State) : s.advance.ctl.epc = s.ctl.epc := by simp [State.advance]
@[simp] theorem advance_ctl_badVAddr (s : State) : s.advance.ctl.badVAddr = s.ctl.badVAddr := by simp [State.advance]
@[simp] theorem advance_ctl_cyclesTotal (s : State) : s.advance.ctl.cyclesTotal = s.ctl.cyclesTotal := by simp [State.advance]
@[simp] theorem advance_ctl_returned (s : State) : s.advance.ctl.returned = s.ctl.returned := by simp [State.advance]
theorem advance_iop_of_ee (s : State) (h : s.turn = .ee) : s.advance.iop = s.iop := setCtl_iop_of_ee _ _ h
theorem advance_ee_of_iop (s : State) (h : s.turn = .iop) : s.advance.ee = s.ee := setCtl_ee_of_iop _ _ h
@[simp] theorem arm_turn (s : State) (t : Word) : (s.arm t).turn = s.turn := by simp [State.arm]
@[simp] theorem arm_mem (s : State) (t : Word) : (s.arm t).mem = s.mem := by simp [State.arm]
@[simp] theorem arm_physMap (s : State) (t : Word) : (s.arm t).physMap = s.physMap := by simp [State.arm]
@[simp] theorem arm_params (s : State) (t : Word) : (s.arm t).params = s.params := by simp [State.arm]
@[simp] theorem arm_run (s : State) (t : Word) : (s.arm t).run = s.run := by simp [State.arm]
@[simp] theorem arm_log (s : State) (t : Word) : (s.arm t).log = s.log := by simp [State.arm]
@[simp] theorem arm_inFlight (s : State) (t : Word) : (s.arm t).inFlight = s.inFlight := by simp [State.arm]
@[simp] theorem arm_agenda (s : State) (t : Word) : (s.arm t).agenda = s.agenda := by simp [State.arm]
@[simp] theorem arm_freeCount (s : State) (t : Word) : (s.arm t).freeCount = s.freeCount := by simp [State.arm]
@[simp] theorem arm_ee_gpr (s : State) (t : Word) : (s.arm t).ee.gpr = s.ee.gpr := by simp [State.arm]
@[simp] theorem arm_ee_index (s : State) (t : Word) : (s.arm t).ee.index = s.ee.index := by simp [State.arm]
@[simp] theorem arm_ee_entryLo0 (s : State) (t : Word) : (s.arm t).ee.entryLo0 = s.ee.entryLo0 := by simp [State.arm]
@[simp] theorem arm_ee_entryLo1 (s : State) (t : Word) : (s.arm t).ee.entryLo1 = s.ee.entryLo1 := by simp [State.arm]
@[simp] theorem arm_ee_pageMask (s : State) (t : Word) : (s.arm t).ee.pageMask = s.ee.pageMask := by simp [State.arm]
@[simp] theorem arm_ee_entryHi (s : State) (t : Word) : (s.arm t).ee.entryHi = s.ee.entryHi := by simp [State.arm]
@[simp] theorem arm_ee_errorEpc (s : State) (t : Word) : (s.arm t).ee.errorEpc = s.ee.errorEpc := by simp [State.arm]
@[simp] theorem arm_ee_tlb (s : State) (t : Word) : (s.arm t).ee.tlb = s.ee.tlb := by simp [State.arm]
@[simp] theorem arm_ee_fpr (s : State) (t : Word) : (s.arm t).ee.fpr = s.ee.fpr := by simp [State.arm]
@[simp] theorem arm_ee_acc (s : State) (t : Word) : (s.arm t).ee.acc = s.ee.acc := by simp [State.arm]
@[simp] theorem arm_ee_fcr31 (s : State) (t : Word) : (s.arm t).ee.fcr31 = s.ee.fcr31 := by simp [State.arm]
@[simp] theorem arm_ee_int0 (s : State) (t : Word) : (s.arm t).ee.int0 = s.ee.int0 := by simp [State.arm]
@[simp] theorem arm_ee_int1 (s : State) (t : Word) : (s.arm t).ee.int1 = s.ee.int1 := by simp [State.arm]
@[simp] theorem arm_ee_timer (s : State) (t : Word) : (s.arm t).ee.timer = s.ee.timer := by simp [State.arm]
@[simp] theorem arm_iop_gpr (s : State) (t : Word) : (s.arm t).iop.gpr = s.iop.gpr := by simp [State.arm]
@[simp] theorem arm_iop_lines (s : State) (t : Word) : (s.arm t).iop.lines = s.iop.lines := by simp [State.arm]
@[simp] theorem arm_q (s : State) (t : Word) (r : RegIdx) : (s.arm t).q r = s.q r := by simp [State.arm]
@[simp] theorem arm_r32 (s : State) (t : Word) (r : RegIdx) : (s.arm t).r32 r = s.r32 r := by simp [State.arm]
@[simp] theorem arm_x (s : State) (t : Word) (r : RegIdx) (n : Nat) : (s.arm t).x r n = s.x r n := by simp [State.arm]
@[simp] theorem arm_f (s : State) (t : Word) (r : RegIdx) : (s.arm t).f r = s.f r := by simp [State.arm]
@[simp] theorem arm_ctl_pc (s : State) (t : Word) : (s.arm t).ctl.pc = s.ctl.pc := by simp [State.arm]
@[simp] theorem arm_ctl_xq (s : State) (t : Word) : (s.arm t).ctl.xq = s.ctl.xq := by simp [State.arm]
@[simp] theorem arm_ctl_status (s : State) (t : Word) : (s.arm t).ctl.status = s.ctl.status := by simp [State.arm]
@[simp] theorem arm_ctl_cause (s : State) (t : Word) : (s.arm t).ctl.cause = s.ctl.cause := by simp [State.arm]
@[simp] theorem arm_ctl_epc (s : State) (t : Word) : (s.arm t).ctl.epc = s.ctl.epc := by simp [State.arm]
@[simp] theorem arm_ctl_badVAddr (s : State) (t : Word) : (s.arm t).ctl.badVAddr = s.ctl.badVAddr := by simp [State.arm]
@[simp] theorem arm_ctl_cyclesTotal (s : State) (t : Word) : (s.arm t).ctl.cyclesTotal = s.ctl.cyclesTotal := by simp [State.arm]
@[simp] theorem arm_ctl_returned (s : State) (t : Word) : (s.arm t).ctl.returned = s.ctl.returned := by simp [State.arm]
theorem arm_iop_of_ee (s : State) (t : Word) (h : s.turn = .ee) : (s.arm t).iop = s.iop := setCtl_iop_of_ee _ _ h
theorem arm_ee_of_iop (s : State) (t : Word) (h : s.turn = .iop) : (s.arm t).ee = s.ee := setCtl_ee_of_iop _ _ h
@[simp] theorem raise_turn (s : State) (e : ExcKind) : (s.raise e).turn = s.turn := by simp [State.raise]
@[simp] theorem raise_mem (s : State) (e : ExcKind) : (s.raise e).mem = s.mem := by simp [State.raise]
@[simp] theorem raise_physMap (s : State) (e : ExcKind) : (s.raise e).physMap = s.physMap := by simp [State.raise]
@[simp] theorem raise_params (s : State) (e : ExcKind) : (s.raise e).params = s.params := by simp [State.raise]
@[simp] theorem raise_run (s : State) (e : ExcKind) : (s.raise e).run = s.run := by simp [State.raise]
@[simp] theorem raise_log (s : State) (e : ExcKind) : (s.raise e).log = s.log := by simp [State.raise]
@[simp] theorem raise_inFlight (s : State) (e : ExcKind) : (s.raise e).inFlight = s.inFlight := by simp [State.raise]
@[simp] theorem raise_agenda (s : State) (e : ExcKind) : (s.raise e).agenda = s.agenda := by simp [State.raise]
@[simp] theorem raise_freeCount (s : State) (e : ExcKind) : (s.raise e).freeCount = s.freeCount := by simp [State.raise]
@[simp] theorem raise_ee_gpr (s : State) (e : ExcKind) : (s.raise e).ee.gpr = s.ee.gpr := by simp [State.raise]
@[simp] theorem raise_ee_index (s : State) (e : ExcKind) : (s.raise e).ee.index = s.ee.index := by simp [State.raise]
@[simp] theorem raise_ee_entryLo0 (s : State) (e : ExcKind) : (s.raise e).ee.entryLo0 = s.ee.entryLo0 := by simp [State.raise]
@[simp] theorem raise_ee_entryLo1 (s : State) (e : ExcKind) : (s.raise e).ee.entryLo1 = s.ee.entryLo1 := by simp [State.raise]
@[simp] theorem raise_ee_pageMask (s : State) (e : ExcKind) : (s.raise e).ee.pageMask = s.ee.pageMask := by simp [State.raise]
@[simp] theorem raise_ee_entryHi (s : State) (e : ExcKind) : (s.raise e).ee.entryHi = s.ee.entryHi := by simp [State.raise]
@[simp] theorem raise_ee_errorEpc (s : State) (e : ExcKind) : (s.raise e).ee.errorEpc = s.ee.errorEpc := by simp [State.raise]
@[simp] theorem raise_ee_tlb (s : State) (e : ExcKind) : (s.raise e).ee.tlb = s.ee.tlb := by simp [State.raise]
@[simp] theorem raise_ee_fpr (s : State) (e : ExcKind) : (s.raise e).ee.fpr = s.ee.fpr := by simp [State.raise]
@[simp] theorem raise_ee_acc (s : State) (e : ExcKind) : (s.raise e).ee.acc = s.ee.acc := by simp [State.raise]
@[simp] theorem raise_ee_fcr31 (s : State) (e : ExcKind) : (s.raise e).ee.fcr31 = s.ee.fcr31 := by simp [State.raise]
@[simp] theorem raise_ee_int0 (s : State) (e : ExcKind) : (s.raise e).ee.int0 = s.ee.int0 := by simp [State.raise]
@[simp] theorem raise_ee_int1 (s : State) (e : ExcKind) : (s.raise e).ee.int1 = s.ee.int1 := by simp [State.raise]
@[simp] theorem raise_ee_timer (s : State) (e : ExcKind) : (s.raise e).ee.timer = s.ee.timer := by simp [State.raise]
@[simp] theorem raise_iop_gpr (s : State) (e : ExcKind) : (s.raise e).iop.gpr = s.iop.gpr := by simp [State.raise]
@[simp] theorem raise_iop_lines (s : State) (e : ExcKind) : (s.raise e).iop.lines = s.iop.lines := by simp [State.raise]
@[simp] theorem raise_q (s : State) (e : ExcKind) (r : RegIdx) : (s.raise e).q r = s.q r := by simp [State.raise]
@[simp] theorem raise_r32 (s : State) (e : ExcKind) (r : RegIdx) : (s.raise e).r32 r = s.r32 r := by simp [State.raise]
@[simp] theorem raise_x (s : State) (e : ExcKind) (r : RegIdx) (n : Nat) : (s.raise e).x r n = s.x r n := by simp [State.raise]
@[simp] theorem raise_f (s : State) (e : ExcKind) (r : RegIdx) : (s.raise e).f r = s.f r := by simp [State.raise]
@[simp] theorem raise_ctl_pc (s : State) (e : ExcKind) : (s.raise e).ctl.pc = s.ctl.pc := by simp [State.raise]
@[simp] theorem raise_ctl_bd (s : State) (e : ExcKind) : (s.raise e).ctl.bd = s.ctl.bd := by simp [State.raise]
@[simp] theorem raise_ctl_status (s : State) (e : ExcKind) : (s.raise e).ctl.status = s.ctl.status := by simp [State.raise]
@[simp] theorem raise_ctl_cause (s : State) (e : ExcKind) : (s.raise e).ctl.cause = s.ctl.cause := by simp [State.raise]
@[simp] theorem raise_ctl_epc (s : State) (e : ExcKind) : (s.raise e).ctl.epc = s.ctl.epc := by simp [State.raise]
@[simp] theorem raise_ctl_badVAddr (s : State) (e : ExcKind) : (s.raise e).ctl.badVAddr = s.ctl.badVAddr := by simp [State.raise]
@[simp] theorem raise_ctl_cyclesTotal (s : State) (e : ExcKind) : (s.raise e).ctl.cyclesTotal = s.ctl.cyclesTotal := by simp [State.raise]
@[simp] theorem raise_ctl_returned (s : State) (e : ExcKind) : (s.raise e).ctl.returned = s.ctl.returned := by simp [State.raise]
theorem raise_iop_of_ee (s : State) (e : ExcKind) (h : s.turn = .ee) : (s.raise e).iop = s.iop := setCtl_iop_of_ee _ _ h
theorem raise_ee_of_iop (s : State) (e : ExcKind) (h : s.turn = .iop) : (s.raise e).ee = s.ee := setCtl_ee_of_iop _ _ h
@[simp] theorem returnIOP_turn (s : State) : s.returnIOP.turn = s.turn := by simp [State.returnIOP]
@[simp] theorem returnIOP_mem (s : State) : s.returnIOP.mem = s.mem := by simp [State.returnIOP]
@[simp] theorem returnIOP_physMap (s : State) : s.returnIOP.physMap = s.physMap := by simp [State.returnIOP]
@[simp] theorem returnIOP_params (s : State) : s.returnIOP.params = s.params := by simp [State.returnIOP]
@[simp] theorem returnIOP_run (s : State) : s.returnIOP.run = s.run := by simp [State.returnIOP]
@[simp] theorem returnIOP_log (s : State) : s.returnIOP.log = s.log := by simp [State.returnIOP]
@[simp] theorem returnIOP_inFlight (s : State) : s.returnIOP.inFlight = s.inFlight := by simp [State.returnIOP]
@[simp] theorem returnIOP_agenda (s : State) : s.returnIOP.agenda = s.agenda := by simp [State.returnIOP]
@[simp] theorem returnIOP_freeCount (s : State) : s.returnIOP.freeCount = s.freeCount := by simp [State.returnIOP]
@[simp] theorem returnIOP_ee_gpr (s : State) : s.returnIOP.ee.gpr = s.ee.gpr := by simp [State.returnIOP]
@[simp] theorem returnIOP_ee_index (s : State) : s.returnIOP.ee.index = s.ee.index := by simp [State.returnIOP]
@[simp] theorem returnIOP_ee_entryLo0 (s : State) : s.returnIOP.ee.entryLo0 = s.ee.entryLo0 := by simp [State.returnIOP]
@[simp] theorem returnIOP_ee_entryLo1 (s : State) : s.returnIOP.ee.entryLo1 = s.ee.entryLo1 := by simp [State.returnIOP]
@[simp] theorem returnIOP_ee_pageMask (s : State) : s.returnIOP.ee.pageMask = s.ee.pageMask := by simp [State.returnIOP]
@[simp] theorem returnIOP_ee_entryHi (s : State) : s.returnIOP.ee.entryHi = s.ee.entryHi := by simp [State.returnIOP]
@[simp] theorem returnIOP_ee_errorEpc (s : State) : s.returnIOP.ee.errorEpc = s.ee.errorEpc := by simp [State.returnIOP]
@[simp] theorem returnIOP_ee_tlb (s : State) : s.returnIOP.ee.tlb = s.ee.tlb := by simp [State.returnIOP]
@[simp] theorem returnIOP_ee_fpr (s : State) : s.returnIOP.ee.fpr = s.ee.fpr := by simp [State.returnIOP]
@[simp] theorem returnIOP_ee_acc (s : State) : s.returnIOP.ee.acc = s.ee.acc := by simp [State.returnIOP]
@[simp] theorem returnIOP_ee_fcr31 (s : State) : s.returnIOP.ee.fcr31 = s.ee.fcr31 := by simp [State.returnIOP]
@[simp] theorem returnIOP_ee_int0 (s : State) : s.returnIOP.ee.int0 = s.ee.int0 := by simp [State.returnIOP]
@[simp] theorem returnIOP_ee_int1 (s : State) : s.returnIOP.ee.int1 = s.ee.int1 := by simp [State.returnIOP]
@[simp] theorem returnIOP_ee_timer (s : State) : s.returnIOP.ee.timer = s.ee.timer := by simp [State.returnIOP]
@[simp] theorem returnIOP_iop_gpr (s : State) : s.returnIOP.iop.gpr = s.iop.gpr := by simp [State.returnIOP]
@[simp] theorem returnIOP_iop_lines (s : State) : s.returnIOP.iop.lines = s.iop.lines := by simp [State.returnIOP]
@[simp] theorem returnIOP_q (s : State) (r : RegIdx) : s.returnIOP.q r = s.q r := by simp [State.returnIOP]
@[simp] theorem returnIOP_r32 (s : State) (r : RegIdx) : s.returnIOP.r32 r = s.r32 r := by simp [State.returnIOP]
@[simp] theorem returnIOP_x (s : State) (r : RegIdx) (n : Nat) : s.returnIOP.x r n = s.x r n := by simp [State.returnIOP]
@[simp] theorem returnIOP_f (s : State) (r : RegIdx) : s.returnIOP.f r = s.f r := by simp [State.returnIOP]
@[simp] theorem returnIOP_ctl_pc (s : State) : s.returnIOP.ctl.pc = s.ctl.pc := by simp [State.returnIOP]
@[simp] theorem returnIOP_ctl_bd (s : State) : s.returnIOP.ctl.bd = s.ctl.bd := by simp [State.returnIOP]
@[simp] theorem returnIOP_ctl_xq (s : State) : s.returnIOP.ctl.xq = s.ctl.xq := by simp [State.returnIOP]
@[simp] theorem returnIOP_ctl_cause (s : State) : s.returnIOP.ctl.cause = s.ctl.cause := by simp [State.returnIOP]
@[simp] theorem returnIOP_ctl_epc (s : State) : s.returnIOP.ctl.epc = s.ctl.epc := by simp [State.returnIOP]
@[simp] theorem returnIOP_ctl_badVAddr (s : State) : s.returnIOP.ctl.badVAddr = s.ctl.badVAddr := by simp [State.returnIOP]
@[simp] theorem returnIOP_ctl_cyclesTotal (s : State) : s.returnIOP.ctl.cyclesTotal = s.ctl.cyclesTotal := by simp [State.returnIOP]
@[simp] theorem returnIOP_ctl_returned (s : State) : s.returnIOP.ctl.returned = s.ctl.returned := by simp [State.returnIOP]
theorem returnIOP_iop_of_ee (s : State) (h : s.turn = .ee) : s.returnIOP.iop = s.iop := setCtl_iop_of_ee _ _ h
theorem returnIOP_ee_of_iop (s : State) (h : s.turn = .iop) : s.returnIOP.ee = s.ee := setCtl_ee_of_iop _ _ h
@[simp] theorem mirrorLines_turn (s : State) : s.mirrorLines.turn = s.turn := by simp [State.mirrorLines]
@[simp] theorem mirrorLines_mem (s : State) : s.mirrorLines.mem = s.mem := by simp [State.mirrorLines]
@[simp] theorem mirrorLines_physMap (s : State) : s.mirrorLines.physMap = s.physMap := by simp [State.mirrorLines]
@[simp] theorem mirrorLines_params (s : State) : s.mirrorLines.params = s.params := by simp [State.mirrorLines]
@[simp] theorem mirrorLines_run (s : State) : s.mirrorLines.run = s.run := by simp [State.mirrorLines]
@[simp] theorem mirrorLines_log (s : State) : s.mirrorLines.log = s.log := by simp [State.mirrorLines]
@[simp] theorem mirrorLines_inFlight (s : State) : s.mirrorLines.inFlight = s.inFlight := by simp [State.mirrorLines]
@[simp] theorem mirrorLines_agenda (s : State) : s.mirrorLines.agenda = s.agenda := by simp [State.mirrorLines]
@[simp] theorem mirrorLines_freeCount (s : State) : s.mirrorLines.freeCount = s.freeCount := by simp [State.mirrorLines]
@[simp] theorem mirrorLines_ee_gpr (s : State) : s.mirrorLines.ee.gpr = s.ee.gpr := by simp [State.mirrorLines]
@[simp] theorem mirrorLines_ee_index (s : State) : s.mirrorLines.ee.index = s.ee.index := by simp [State.mirrorLines]
@[simp] theorem mirrorLines_ee_entryLo0 (s : State) : s.mirrorLines.ee.entryLo0 = s.ee.entryLo0 := by simp [State.mirrorLines]
@[simp] theorem mirrorLines_ee_entryLo1 (s : State) : s.mirrorLines.ee.entryLo1 = s.ee.entryLo1 := by simp [State.mirrorLines]
@[simp] theorem mirrorLines_ee_pageMask (s : State) : s.mirrorLines.ee.pageMask = s.ee.pageMask := by simp [State.mirrorLines]
@[simp] theorem mirrorLines_ee_entryHi (s : State) : s.mirrorLines.ee.entryHi = s.ee.entryHi := by simp [State.mirrorLines]
@[simp] theorem mirrorLines_ee_errorEpc (s : State) : s.mirrorLines.ee.errorEpc = s.ee.errorEpc := by simp [State.mirrorLines]
@[simp] theorem mirrorLines_ee_tlb (s : State) : s.mirrorLines.ee.tlb = s.ee.tlb := by simp [State.mirrorLines]
@[simp] theorem mirrorLines_ee_fpr (s : State) : s.mirrorLines.ee.fpr = s.ee.fpr := by simp [State.mirrorLines]
@[simp] theorem mirrorLines_ee_acc (s : State) : s.mirrorLines.ee.acc = s.ee.acc := by simp [State.mirrorLines]
@[simp] theorem mirrorLines_ee_fcr31 (s : State) : s.mirrorLines.ee.fcr31 = s.ee.fcr31 := by simp [State.mirrorLines]
@[simp] theorem mirrorLines_ee_int0 (s : State) : s.mirrorLines.ee.int0 = s.ee.int0 := by simp [State.mirrorLines]
@[simp] theorem mirrorLines_ee_int1 (s : State) : s.mirrorLines.ee.int1 = s.ee.int1 := by simp [State.mirrorLines]
@[simp] theorem mirrorLines_ee_timer (s : State) : s.mirrorLines.ee.timer = s.ee.timer := by simp [State.mirrorLines]
@[simp] theorem mirrorLines_iop_gpr (s : State) : s.mirrorLines.iop.gpr = s.iop.gpr := by simp [State.mirrorLines]
@[simp] theorem mirrorLines_iop_lines (s : State) : s.mirrorLines.iop.lines = s.iop.lines := by simp [State.mirrorLines]
@[simp] theorem mirrorLines_q (s : State) (r : RegIdx) : s.mirrorLines.q r = s.q r := by simp [State.mirrorLines]
@[simp] theorem mirrorLines_r32 (s : State) (r : RegIdx) : s.mirrorLines.r32 r = s.r32 r := by simp [State.mirrorLines]
@[simp] theorem mirrorLines_x (s : State) (r : RegIdx) (n : Nat) : s.mirrorLines.x r n = s.x r n := by simp [State.mirrorLines]
@[simp] theorem mirrorLines_f (s : State) (r : RegIdx) : s.mirrorLines.f r = s.f r := by simp [State.mirrorLines]
@[simp] theorem mirrorLines_ctl_pc (s : State) : s.mirrorLines.ctl.pc = s.ctl.pc := by simp [State.mirrorLines]
@[simp] theorem mirrorLines_ctl_bd (s : State) : s.mirrorLines.ctl.bd = s.ctl.bd := by simp [State.mirrorLines]
@[simp] theorem mirrorLines_ctl_xq (s : State) : s.mirrorLines.ctl.xq = s.ctl.xq := by simp [State.mirrorLines]
@[simp] theorem mirrorLines_ctl_status (s : State) : s.mirrorLines.ctl.status = s.ctl.status := by simp [State.mirrorLines]
@[simp] theorem mirrorLines_ctl_epc (s : State) : s.mirrorLines.ctl.epc = s.ctl.epc := by simp [State.mirrorLines]
@[simp] theorem mirrorLines_ctl_badVAddr (s : State) : s.mirrorLines.ctl.badVAddr = s.ctl.badVAddr := by simp [State.mirrorLines]
@[simp] theorem mirrorLines_ctl_cyclesTotal (s : State) : s.mirrorLines.ctl.cyclesTotal = s.ctl.cyclesTotal := by simp [State.mirrorLines]
@[simp] theorem mirrorLines_ctl_returned (s : State) : s.mirrorLines.ctl.returned = s.ctl.returned := by simp [State.mirrorLines]
theorem mirrorLines_iop_of_ee (s : State) (h : s.turn = .ee) : s.mirrorLines.iop = s.iop := setCtl_iop_of_ee _ _ h
theorem mirrorLines_ee_of_iop (s : State) (h : s.turn = .iop) : s.mirrorLines.ee = s.ee := setCtl_ee_of_iop _ _ h
@[simp] theorem advance_ctl_pc (s : State) : s.advance.ctl.pc = s.ctl.pc + 4#32 := by simp [State.advance]
@[simp] theorem arm_ctl_bd (s : State) (t : Word) : (s.arm t).ctl.bd = .pending t 1 := by simp [State.arm, Config.delaySlots]
@[simp] theorem raise_ctl_xq (s : State) (e : ExcKind) : (s.raise e).ctl.xq = s.ctl.xq ++ [⟨e, (returnPoint s.ctl).1, (returnPoint s.ctl).2⟩] := by
  simp [State.raise]
@[simp] theorem returnIOP_ctl_status (s : State) : s.returnIOP.ctl.status = statusPopped s.ctl.status := by simp [State.returnIOP]
@[simp] theorem mirrorLines_ctl_cause (s : State) : s.mirrorLines.ctl.cause = setBits s.ctl.cause (lineMask s.turn) s.lineBits := by
  simp [State.mirrorLines]

/-! ### abort and finish -/

@[simp] theorem abort_turn (s : State) (r : AbortReason) : (s.abort r).turn = s.turn := rfl
@[simp] theorem abort_ee (s : State) (r : AbortReason) : (s.abort r).ee = s.ee := rfl
@[simp] theorem abort_iop (s : State) (r : AbortReason) : (s.abort r).iop = s.iop := rfl
@[simp] theorem abort_mem (s : State) (r : AbortReason) : (s.abort r).mem = s.mem := rfl
@[simp] theorem abort_physMap (s : State) (r : AbortReason) : (s.abort r).physMap = s.physMap := rfl
@[simp] theorem abort_params (s : State) (r : AbortReason) : (s.abort r).params = s.params := rfl
@[simp] theorem abort_agenda (s : State) (r : AbortReason) : (s.abort r).agenda = s.agenda := rfl
@[simp] theorem abort_freeCount (s : State) (r : AbortReason) : (s.abort r).freeCount = s.freeCount := rfl
@[simp] theorem abort_inFlight (s : State) (r : AbortReason) : (s.abort r).inFlight = none := rfl
@[simp] theorem abort_ctl (s : State) (r : AbortReason) : (s.abort r).ctl = s.ctl := rfl
@[simp] theorem abort_run (s : State) (r : AbortReason) : (s.abort r).run = .aborted r ⟨s.turn, s.ctl.pc, s.inFlight, s.ctl.cyclesTotal⟩ := rfl
@[simp] theorem finish_turn (s : State) (c : Nat) : (s.finish c).turn = s.turn := by simp [State.finish]
@[simp] theorem finish_mem (s : State) (c : Nat) : (s.finish c).mem = s.mem := by simp [State.finish]
@[simp] theorem finish_physMap (s : State) (c : Nat) : (s.finish c).physMap = s.physMap := by simp [State.finish]
@[simp] theorem finish_params (s : State) (c : Nat) : (s.finish c).params = s.params := by simp [State.finish]
@[simp] theorem finish_run (s : State) (c : Nat) : (s.finish c).run = s.run := by simp [State.finish]
@[simp] theorem finish_log (s : State) (c : Nat) : (s.finish c).log = s.log := by simp [State.finish]
@[simp] theorem finish_agenda (s : State) (c : Nat) : (s.finish c).agenda = s.agenda := by simp [State.finish]
@[simp] theorem finish_ee_gpr (s : State) (c : Nat) : (s.finish c).ee.gpr = s.ee.gpr := by simp [State.finish]
@[simp] theorem finish_ee_index (s : State) (c : Nat) : (s.finish c).ee.index = s.ee.index := by simp [State.finish]
@[simp] theorem finish_ee_entryLo0 (s : State) (c : Nat) : (s.finish c).ee.entryLo0 = s.ee.entryLo0 := by simp [State.finish]
@[simp] theorem finish_ee_entryLo1 (s : State) (c : Nat) : (s.finish c).ee.entryLo1 = s.ee.entryLo1 := by simp [State.finish]
@[simp] theorem finish_ee_pageMask (s : State) (c : Nat) : (s.finish c).ee.pageMask = s.ee.pageMask := by simp [State.finish]
@[simp] theorem finish_ee_entryHi (s : State) (c : Nat) : (s.finish c).ee.entryHi = s.ee.entryHi := by simp [State.finish]
@[simp] theorem finish_ee_errorEpc (s : State) (c : Nat) : (s.finish c).ee.errorEpc = s.ee.errorEpc := by simp [State.finish]
@[simp] theorem finish_ee_tlb (s : State) (c : Nat) : (s.finish c).ee.tlb = s.ee.tlb := by simp [State.finish]
@[simp] theorem finish_ee_fpr (s : State) (c : Nat) : (s.finish c).ee.fpr = s.ee.fpr := by simp [State.finish]
@[simp] theorem finish_ee_acc (s : State) (c : Nat) : (s.finish c).ee.acc = s.ee.acc := by simp [State.finish]
@[simp] theorem finish_ee_fcr31 (s : State) (c : Nat) : (s.finish c).ee.fcr31 = s.ee.fcr31 := by simp [State.finish]
@[simp] theorem finish_ee_int0 (s : State) (c : Nat) : (s.finish c).ee.int0 = s.ee.int0 := by simp [State.finish]
@[simp] theorem finish_ee_int1 (s : State) (c : Nat) : (s.finish c).ee.int1 = s.ee.int1 := by simp [State.finish]
@[simp] theorem finish_ee_timer (s : State) (c : Nat) : (s.finish c).ee.timer = s.ee.timer := by simp [State.finish]
@[simp] theorem finish_iop_gpr (s : State) (c : Nat) : (s.finish c).iop.gpr = s.iop.gpr := by simp [State.finish]
@[simp] theorem finish_iop_lines (s : State) (c : Nat) : (s.finish c).iop.lines = s.iop.lines := by simp [State.finish]
@[simp] theorem finish_inFlight (s : State) (c : Nat) : (s.finish c).inFlight = none := rfl
@[simp] theorem finish_freeCount (s : State) (c : Nat) : (s.finish c).freeCount = s.freeCount + 1 := rfl
@[simp] theorem finish_ctl (s : State) (c : Nat) : (s.finish c).ctl = { s.ctl with cyclesTotal := s.ctl.cyclesTotal + BitVec.ofNat 64 c, returned := BitVec.ofNat 64 c } := by
  simp only [State.finish]; exact setCtl_ctl _ _
@[simp] theorem finish_q (s : State) (c : Nat) (r : RegIdx) : (s.finish c).q r = s.q r := by simp [State.q]
@[simp] theorem finish_r32 (s : State) (c : Nat) (r : RegIdx) : (s.finish c).r32 r = s.r32 r := by simp [State.r32]
@[simp] theorem finish_f (s : State) (c : Nat) (r : RegIdx) : (s.finish c).f r = s.f r := by simp [State.f]
theorem finish_iop_of_ee (s : State) (c : Nat) (h : s.turn = .ee) : (s.finish c).iop = s.iop := setCtl_iop_of_ee _ _ h
theorem finish_ee_of_iop (s : State) (c : Nat) (h : s.turn = .iop) : (s.finish c).ee = s.ee := setCtl_ee_of_iop _ _ h

end Sys2Proof.Machine
end

