-- ==== Sys2Proof/Laws/Memory.lean ====
section
/-! SUPPORT. What the memory operations do: every one keeps the canonical form, and what a read gives after a write. -/

namespace Sys2Proof.Machine

/-! ### The canonical form -/

/-- An address above a bound, where there is one. -/
def above : Option Nat → Nat → Prop
  | none, _ => True
  | some l, a => l < a

theorem wfAbove_cons (lo : Option Nat) (k : Nat) (b : Byte) (m : Memory) :
    Memory.wfAbove lo ((k, b) :: m) = true ↔
      above lo k ∧ b ≠ Memory.unlisted ∧ Memory.wfAbove (some k) m = true := by
  cases lo <;> simp [Memory.wfAbove, above, and_assoc]

/-- A lower bound may be lowered. -/
theorem wfAbove_mono (m : Memory) (lo lo' : Option Nat) (h : Memory.wfAbove lo m = true)
    (hl : ∀ a, above lo a → above lo' a) : Memory.wfAbove lo' m = true := by
  cases m with
  | nil => cases lo' <;> rfl
  | cons c m =>
    obtain ⟨k, b⟩ := c
    rw [wfAbove_cons] at h ⊢
    exact ⟨hl _ h.1, h.2⟩

theorem wfAbove_some_of (m : Memory) (k : Nat) (lo : Option Nat) (hk : above lo k)
    (h : Memory.wfAbove (some k) m = true) : Memory.wfAbove lo m = true :=
  wfAbove_mono m (some k) lo h (fun a ha => by
    cases lo with
    | none => trivial
    | some l => exact Nat.lt_trans hk ha)

/-- Writing a byte above the bound keeps the form. -/
theorem wfAbove_write (m : Memory) (lo : Option Nat) (a : Nat) (v : Byte) (h : Memory.wfAbove lo m = true)
    (ha : above lo a) : Memory.wfAbove lo (Memory.write m a v) = true := by
  induction m generalizing lo with
  | nil =>
    unfold Memory.write
    split
    · cases lo <;> rfl
    · rw [wfAbove_cons]; exact ⟨ha, by assumption, rfl⟩
  | cons c m ih =>
    obtain ⟨k, b⟩ := c
    rw [wfAbove_cons] at h
    unfold Memory.write
    split
    · split
      · rw [wfAbove_cons]; exact h
      · rw [wfAbove_cons, wfAbove_cons]; exact ⟨ha, by assumption, by assumption, h.2⟩
    · split
      · subst a
        split
        · exact wfAbove_some_of m k lo ha h.2.2
        · rw [wfAbove_cons]; exact ⟨ha, by assumption, h.2.2⟩
      · rw [wfAbove_cons]
        refine ⟨h.1, h.2.1, ih _ h.2.2 ?_⟩
        show k < a; omega

/-- Writing one byte keeps the canonical form. -/
theorem write_wf (m : Memory) (a : Nat) (v : Byte) (h : Memory.wf m = true) : Memory.wf (Memory.write m a v) = true :=
  wfAbove_write m none a v h trivial

/-- Writing several bytes keeps the canonical form. -/
theorem writeLE_wf (m : Memory) (a n v : Nat) (h : Memory.wf m = true) :
    Memory.wf (Memory.writeLE m a n v) = true := by
  induction n generalizing m a v with
  | zero => exact h
  | succ n ih => exact ih _ _ _ (write_wf m a _ h)

/-- A physical read keeps the canonical form. -/
theorem physRead_wf (pa : Word) (n : Nat) (s t : State) (v : BitVec (8 * n)) (h : Memory.wf s.mem = true)
    (hr : physRead pa n s = .ok (v, t)) : Memory.wf t.mem = true := by
  unfold physRead at hr
  split at hr
  · cases hr
  · split at hr <;> (cases hr; first | exact h | exact writeLE_wf _ _ _ _ h)

/-- A physical write keeps the canonical form. -/
theorem physWrite_wf (pa : Word) (n : Nat) (v : BitVec (8 * n)) (s t : State) (h : Memory.wf s.mem = true)
    (hw : physWrite pa n v s = .ok t) : Memory.wf t.mem = true := by
  unfold physWrite at hw
  split at hw
  · cases hw
  · split at hw <;> (cases hw; first | exact h | exact writeLE_wf _ _ _ _ h)

/-! ### Reading after writing -/

/-- Below every listed address a byte reads as an unlisted one. -/
theorem read_of_below (m : Memory) (k a : Nat) (h : Memory.wfAbove (some k) m = true) (ha : a ≤ k) :
    Memory.read m a = Memory.unlisted := by
  induction m generalizing k with
  | nil => rfl
  | cons c m ih =>
    obtain ⟨j, b⟩ := c
    rw [wfAbove_cons] at h
    have hj : k < j := h.1
    rw [Memory.read, if_neg (by omega)]
    exact ih j h.2.2 (by omega)

theorem read_write_above (m : Memory) (lo : Option Nat) (a b : Nat) (v : Byte) (h : Memory.wfAbove lo m = true) :
    Memory.read (Memory.write m a v) b = if a = b then v else Memory.read m b := by
  induction m generalizing lo with
  | nil =>
    unfold Memory.write
    split
    · rename_i hv; subst hv; simp [Memory.read]
    · simp [Memory.read]
  | cons c m ih =>
    obtain ⟨k, w⟩ := c
    rw [wfAbove_cons] at h
    unfold Memory.write
    split
    · rename_i hak
      split
      · rename_i hv
        subst hv
        split
        · subst b
          rw [Memory.read, if_neg (by omega)]
          exact read_of_below m k a h.2.2 (by omega)
        · rfl
      · simp [Memory.read]
    · split
      · rename_i hak
        subst hak
        split
        · rename_i hv
          subst hv
          split
          · subst b; exact read_of_below m a a h.2.2 (Nat.le_refl _)
          · rename_i hab; rw [Memory.read, if_neg hab]
        · by_cases hab : a = b <;> simp [Memory.read, hab]
      · rename_i h1 h2
        rw [Memory.read, ih _ h.2.2, Memory.read]
        by_cases hkb : k = b
        · subst hkb; simp [h2]
        · simp [hkb]

/-- What one byte reads as after a write of one byte. -/
theorem read_write (m : Memory) (a b : Nat) (v : Byte) (h : Memory.wf m = true) :
    Memory.read (Memory.write m a v) b = if a = b then v else Memory.read m b :=
  read_write_above m none a b v h

/-- What one byte reads as after a write of `n` bytes: byte `b - a` of the value inside, the old byte outside (R87). -/
theorem read_writeLE (m : Memory) (a n v b : Nat) (h : Memory.wf m = true) :
    Memory.read (Memory.writeLE m a n v) b =
      if a ≤ b ∧ b < a + n then BitVec.ofNat 8 (v / 256 ^ (b - a)) else Memory.read m b := by
  induction n generalizing m a v with
  | zero => rw [if_neg (by omega)]; rfl
  | succ n ih =>
    rw [Memory.writeLE, ih _ _ _ (write_wf m a _ h), read_write m a b _ h]
    by_cases h1 : a = b
    · subst h1; simp
    · by_cases h2 : a + 1 ≤ b ∧ b < a + 1 + n
      · rw [if_pos h2, if_pos ⟨by omega, by omega⟩, Nat.div_div_eq_div_mul, ← Nat.pow_succ',
          show (b - (a + 1)).succ = b - a by omega]
      · rw [if_neg h2, if_neg h1, if_neg (by omega)]

/-- Bytes outside a write keep what they read as. -/
theorem read_writeLE_outside (m : Memory) (a n v b : Nat) (h : Memory.wf m = true) (hb : b < a ∨ a + n ≤ b) :
    Memory.read (Memory.writeLE m a n v) b = Memory.read m b := by
  rw [read_writeLE m a n v b h, if_neg (by omega)]

/-- A little-endian read depends on the bytes it covers only. -/
theorem readLE_congr (m m' : Memory) (a n : Nat)
    (h : ∀ b, a ≤ b → b < a + n → Memory.read m b = Memory.read m' b) : Memory.readLE m a n = Memory.readLE m' a n := by
  induction n generalizing a with
  | zero => rfl
  | succ n ih =>
    rw [Memory.readLE, Memory.readLE, h a (Nat.le_refl _) (by omega), ih (a + 1) (fun b h1 h2 => h b (by omega) (by omega))]

/-- A little-endian read has no more than its bytes. -/
theorem readLE_lt (m : Memory) (a n : Nat) : Memory.readLE m a n < 256 ^ n := by
  induction n generalizing a with
  | zero => simp [Memory.readLE]
  | succ n ih =>
    rw [Memory.readLE, Nat.pow_succ]
    have h1 := (Memory.read m a).isLt
    have h2 := ih (a + 1)
    omega

/-- What was written reads back (R82 (a), R87). -/
theorem readLE_writeLE (m : Memory) (a n v : Nat) (h : Memory.wf m = true) :
    Memory.readLE (Memory.writeLE m a n v) a n = v % 256 ^ n := by
  induction n generalizing m a v with
  | zero => simp [Memory.readLE, Nat.mod_one]
  | succ n ih =>
    have hw := write_wf m a (BitVec.ofNat 8 v) h
    rw [Memory.readLE, Memory.writeLE, ih _ _ _ hw, read_writeLE_outside _ _ _ _ _ hw (by omega), read_write m a a _ h,
      if_pos rfl, BitVec.toNat_ofNat, Nat.pow_succ' (n := n) (m := 256), Nat.mod_mul (x := v) (a := 256)]

/-- The memory right after reset lists nothing, which is canonical. -/
theorem reset_memory_wf : Memory.wf State.reset.mem = true := rfl

end Sys2Proof.Machine
end

