-- ==== Sys2Proof/Laws/Frames.lean ====
section
/-! SUPPORT. One lemma per shared operation that says all it does, in the terms of Sys2Proof/Safety.lean. -/

namespace Sys2Proof.Machine

theorem setCtl_sameRest (s : State) (k : Control) : SameRest s (s.setCtl k) := by
  constructor <;> try simp
  · exact setCtl_iop_of_ee s k
  · exact setCtl_ee_of_iop s k

theorem setCtl_sameCop0 (s : State) (k : Control) : SameCop0 s (s.setCtl k) := by constructor <;> simp

theorem setX_sameRest (s : State) (r : RegIdx) (v : (n : Nat) → BitVec n) : SameRest s (s.setX r v) := by
  constructor <;> try simp
  · exact (setX_other_core s r v).1
  · exact (setX_other_core s r v).2

theorem setX_sameCop0 (s : State) (r : RegIdx) (v : (n : Nat) → BitVec n) : SameCop0 s (s.setX r v) := by
  constructor <;> simp

theorem SameRest.trans {s t u : State} (h : SameRest s t) (g : SameRest t u) : SameRest s u where
  turn := g.turn.trans h.turn
  physMap := g.physMap.trans h.physMap
  params := g.params.trans h.params
  run := g.run.trans h.run
  log := g.log.trans h.log
  inFlight := g.inFlight.trans h.inFlight
  agenda := g.agenda.trans h.agenda
  freeCount := g.freeCount.trans h.freeCount
  acc := g.acc.trans h.acc
  int0 := g.int0.trans h.int0
  int1 := g.int1.trans h.int1
  timer := g.timer.trans h.timer
  lines := g.lines.trans h.lines
  otherIop := fun e => (g.otherIop (h.turn.trans e)).trans (h.otherIop e)
  otherEe := fun e => (g.otherEe (h.turn.trans e)).trans (h.otherEe e)

theorem SameCop0.trans {s t u : State} (h : SameCop0 s t) (g : SameCop0 t u) : SameCop0 s u where
  index := g.index.trans h.index
  entryLo0 := g.entryLo0.trans h.entryLo0
  entryLo1 := g.entryLo1.trans h.entryLo1
  pageMask := g.pageMask.trans h.pageMask
  entryHi := g.entryHi.trans h.entryHi
  errorEpc := g.errorEpc.trans h.errorEpc

/-- All that a register result followed by the advance does (R25, R178, R221). -/
theorem setX_advance_writesReg (s : State) (rd : RegIdx) (v : (n : Nat) → BitVec n) :
    WritesReg rd v s (s.setX rd v).advance where
  frame :=
    { rest := (setX_sameRest s rd v).trans (setCtl_sameRest _ _)
      table := by simp [SameTable]
      cop0 := (setX_sameCop0 s rd v).trans (setCtl_sameCop0 _ _)
      fp := ⟨by simp, by simp⟩
      memory := fun a => by simp
      regs := fun r h => by simpa using setX_other s rd r v h
      upper := fun r => by simpa using setX_upper s rd r v
      control := by simp [SameControl, State.advance] }
  pc := by simp
  zero := fun h r => by subst h; simp [setX_zero]
  value := fun h => by simpa using setX_x_self s rd v h

/-- All that the advance alone does (R178). -/
theorem advance_onlyPc (s : State) : OnlyPc s s.advance where
  rest := setCtl_sameRest _ _
  table := by simp [SameTable]
  cop0 := setCtl_sameCop0 _ _
  fp := ⟨by simp, by simp⟩
  memory := fun a => by simp
  regs := fun r => by simp
  control := by simp [SameControl, State.advance]

/-- The return point of a raise, in the two cases of R335. -/
theorem returnPoint_cases (s : State) :
    (InSlot s → returnPoint s.ctl = (s.ctl.pc - 4#32, true)) ∧ (¬ InSlot s → returnPoint s.ctl = (s.ctl.pc, false)) := by
  unfold returnPoint InSlot
  rcases s.ctl.bd with _ | ⟨t, _ | r⟩ <;> simp

/-- All that a raise does (R334). -/
theorem raise_raises (s : State) (kind : ExcKind) : Raises kind s (s.raise kind) where
  rest := setCtl_sameRest _ _
  table := by simp [SameTable]
  cop0 := setCtl_sameCop0 _ _
  fp := ⟨by simp, by simp⟩
  memory := fun a => by simp
  regs := fun r => by simp
  record := ⟨_, _, setCtl_ctl _ _, fun h => by rw [(returnPoint_cases s).1 h]; exact ⟨rfl, rfl⟩,
    fun h => by rw [(returnPoint_cases s).2 h]; exact ⟨rfl, rfl⟩⟩

/-- All that an abort does (R182). -/
theorem abort_aborts (s : State) (r : AbortReason) : Aborts r s (s.abort r) where
  run := rfl
  log := rfl
  inFlight := rfl
  rest := ⟨rfl, rfl, rfl, rfl, rfl, rfl, rfl, rfl, rfl, rfl, rfl, rfl, rfl, fun _ => rfl, fun _ => rfl⟩
  ee := rfl
  iop := rfl
  mem := rfl

/-- All that the unknown-instruction handler does (R148, R180). -/
theorem unknownInstruction_does (s : State) (w : Word) :
    (s.unknownInstruction w).ctl = { s.ctl with pc := s.ctl.pc + 4#32 } ∧
      (s.unknownInstruction w).log = s.log ++ [.unknownInstruction s.turn s.ctl.pc w] ∧
      SameRest s { s.unknownInstruction w with log := s.log } ∧ SameRegs s (s.unknownInstruction w) ∧
      SameFp s (s.unknownInstruction w) ∧ SameCop0 s (s.unknownInstruction w) ∧ SameTable s (s.unknownInstruction w) ∧
      SameMemory s (s.unknownInstruction w) := by
  unfold State.unknownInstruction State.advance
  refine ⟨setCtl_ctl _ _, by simp, ?_, fun r => by simp [State.q, State.r32], ⟨fun r => by simp [State.f], by simp⟩,
    by constructor <;> simp, by simp [SameTable], fun a => by simp⟩
  constructor <;> (try simp)
  · intro h; simp [State.setCtl, h]
  · intro h; simp [State.setCtl, h]

/-- All that the end of a step does outside the control part (R184, R53). -/
theorem finish_ends (s : State) (c : Nat) : EndsStep s (s.finish c) where
  rest := by
    constructor <;> (try simp)
    · intro h; simp [State.finish, State.setCtl, h]
    · intro h; simp [State.finish, State.setCtl, h]
  inFlight := rfl
  freeCount := by simp

/-- All that arming the tracker after a register result, and the advance, do (R178, R231). -/
theorem setX_arm_advance (s : State) (rd : RegIdx) (v : (n : Nat) → BitVec n) (target : Word) :
    OnlyTrackerAndReg rd s ((s.setX rd v).arm target).advance where
  rest := ((setX_sameRest s rd v).trans (setCtl_sameRest _ _)).trans (setCtl_sameRest _ _)
  table := by simp [SameTable]
  cop0 := ((setX_sameCop0 s rd v).trans (setCtl_sameCop0 _ _)).trans (setCtl_sameCop0 _ _)
  fp := ⟨by simp, by simp⟩
  memory := fun a => by simp
  regs := fun r h => by simpa using setX_other s rd r v h
  upper := fun r => by simpa using setX_upper s rd r v
  control := by simp [State.advance, State.arm]

/-- What `readVirtual` can answer: the three raises and aborts, or the value of one physical read (R89, R105, R108). -/
theorem readVirtual_cases (kind : AccessKind) (va : Word) (n : Nat) (s : State) :
    (va.toNat % n ≠ 0 ∧ readVirtual kind va n s = .raised (.addressError va .loadOrFetch)) ∨
    (va.toNat % n = 0 ∧
      ((∃ k, translate va kind s = .fault k ∧ readVirtual kind va n s = .raised k) ∨
       (∃ r, translate va kind s = .abort r ∧ readVirtual kind va n s = .aborted r) ∨
       (∃ pa e, translate va kind s = .ok pa ∧ physRead pa n s = .error e ∧
          readVirtual kind va n s = .aborted (.bus e pa n .read)) ∨
       (∃ pa v t, translate va kind s = .ok pa ∧ physRead pa n s = .ok (v, t) ∧ readVirtual kind va n s = .ok v t))) := by
  by_cases ha : va.toNat % n = 0
  · refine .inr ⟨ha, ?_⟩
    unfold readVirtual
    rw [if_neg (by simp [ha])]
    cases ht : translate va kind s with
    | fault k => exact .inl ⟨k, rfl, rfl⟩
    | abort r => exact .inr (.inl ⟨r, rfl, rfl⟩)
    | ok pa =>
      cases hp : physRead pa n s with
      | error e => exact .inr (.inr (.inl ⟨pa, e, rfl, hp, by simp [hp]⟩))
      | ok p => exact .inr (.inr (.inr ⟨pa, p.1, p.2, rfl, hp, by simp [hp]⟩))
  · exact .inl ⟨ha, by unfold readVirtual; rw [if_pos ha]⟩

/-- What `memWrite` can answer (R89, R109). -/
theorem memWrite_cases (va : Word) (n : Nat) (v : BitVec (8 * n)) (s : State) :
    (va.toNat % n ≠ 0 ∧ memWrite va n v s = .raised (.addressError va .store)) ∨
    (va.toNat % n = 0 ∧
      ((∃ k, translate va .store s = .fault k ∧ memWrite va n v s = .raised k) ∨
       (∃ r, translate va .store s = .abort r ∧ memWrite va n v s = .aborted r) ∨
       (∃ pa e, translate va .store s = .ok pa ∧ physWrite pa n v s = .error e ∧
          memWrite va n v s = .aborted (.bus e pa n .write)) ∨
       (∃ pa t, translate va .store s = .ok pa ∧ physWrite pa n v s = .ok t ∧ memWrite va n v s = .ok () t))) := by
  by_cases ha : va.toNat % n = 0
  · refine .inr ⟨ha, ?_⟩
    unfold memWrite
    rw [if_neg (by simp [ha])]
    cases ht : translate va .store s with
    | fault k => exact .inl ⟨k, rfl, rfl⟩
    | abort r => exact .inr (.inl ⟨r, rfl, rfl⟩)
    | ok pa =>
      cases hp : physWrite pa n v s with
      | error e => exact .inr (.inr (.inl ⟨pa, e, rfl, hp, by simp [hp]⟩))
      | ok t => exact .inr (.inr (.inr ⟨pa, t, rfl, hp, by simp [hp]⟩))
  · exact .inl ⟨ha, by unfold memWrite; rw [if_pos ha]⟩

/-- A physical read changes at most memory and the free-value counter. -/
theorem physRead_shape (pa : Word) (n : Nat) (s t : State) (v : BitVec (8 * n)) (h : physRead pa n s = .ok (v, t)) :
    ∃ m c, t = { s with mem := m, freeCount := c } := by
  unfold physRead at h
  split at h
  · cases h
  · split at h <;> (cases h; exact ⟨_, _, rfl⟩)

/-- A physical write changes at most memory and the free-value counter. -/
theorem physWrite_shape (pa : Word) (n : Nat) (v : BitVec (8 * n)) (s t : State) (h : physWrite pa n v s = .ok t) :
    ∃ m c, t = { s with mem := m, freeCount := c } := by
  unfold physWrite at h
  split at h
  · cases h
  · split at h <;> (cases h; exact ⟨_, _, rfl⟩)

end Sys2Proof.Machine
end

