-- ==== Sys2Proof/Laws/PerInstr.lean ====
section
/-! SUPPORT. Statements made for every instruction, with one lemma per constructor of `Instr`. -/

namespace Sys2Proof.Laws

/-- The canonical word of an instruction selects the instruction's own row of the opcode map (R142, R150). -/
def EncodeHasKey.Statement (i : Instr) : Prop :=
  ∃ r, opcodeTable[i.row]? = some r ∧ r.matches (encode i) = true

theorem EncodeHasKey.sll (rd : RegIdx) (rt : RegIdx) (sa : BitVec 5) : EncodeHasKey.Statement (.sll rd rt sa) :=
  ⟨_, rfl, decide_eq_true (rWord_key _ _ _ _ _)⟩

theorem EncodeHasKey.srl (rd : RegIdx) (rt : RegIdx) (sa : BitVec 5) : EncodeHasKey.Statement (.srl rd rt sa) :=
  ⟨_, rfl, decide_eq_true (rWord_key _ _ _ _ _)⟩

theorem EncodeHasKey.sra (rd : RegIdx) (rt : RegIdx) (sa : BitVec 5) : EncodeHasKey.Statement (.sra rd rt sa) :=
  ⟨_, rfl, decide_eq_true (rWord_key _ _ _ _ _)⟩

theorem EncodeHasKey.jr (rs : RegIdx) : EncodeHasKey.Statement (.jr rs) :=
  ⟨_, rfl, decide_eq_true (rWord_key _ _ _ _ _)⟩

theorem EncodeHasKey.jalr (rd : RegIdx) (rs : RegIdx) : EncodeHasKey.Statement (.jalr rd rs) :=
  ⟨_, rfl, decide_eq_true (rWord_key _ _ _ _ _)⟩

theorem EncodeHasKey.add (rd : RegIdx) (rs : RegIdx) (rt : RegIdx) : EncodeHasKey.Statement (.add rd rs rt) :=
  ⟨_, rfl, decide_eq_true (rWord_key _ _ _ _ _)⟩

theorem EncodeHasKey.addu (rd : RegIdx) (rs : RegIdx) (rt : RegIdx) : EncodeHasKey.Statement (.addu rd rs rt) :=
  ⟨_, rfl, decide_eq_true (rWord_key _ _ _ _ _)⟩

theorem EncodeHasKey.sub (rd : RegIdx) (rs : RegIdx) (rt : RegIdx) : EncodeHasKey.Statement (.sub rd rs rt) :=
  ⟨_, rfl, decide_eq_true (rWord_key _ _ _ _ _)⟩

theorem EncodeHasKey.subu (rd : RegIdx) (rs : RegIdx) (rt : RegIdx) : EncodeHasKey.Statement (.subu rd rs rt) :=
  ⟨_, rfl, decide_eq_true (rWord_key _ _ _ _ _)⟩

theorem EncodeHasKey.and (rd : RegIdx) (rs : RegIdx) (rt : RegIdx) : EncodeHasKey.Statement (.and rd rs rt) :=
  ⟨_, rfl, decide_eq_true (rWord_key _ _ _ _ _)⟩

theorem EncodeHasKey.or (rd : RegIdx) (rs : RegIdx) (rt : RegIdx) : EncodeHasKey.Statement (.or rd rs rt) :=
  ⟨_, rfl, decide_eq_true (rWord_key _ _ _ _ _)⟩

theorem EncodeHasKey.xor (rd : RegIdx) (rs : RegIdx) (rt : RegIdx) : EncodeHasKey.Statement (.xor rd rs rt) :=
  ⟨_, rfl, decide_eq_true (rWord_key _ _ _ _ _)⟩

theorem EncodeHasKey.nor (rd : RegIdx) (rs : RegIdx) (rt : RegIdx) : EncodeHasKey.Statement (.nor rd rs rt) :=
  ⟨_, rfl, decide_eq_true (rWord_key _ _ _ _ _)⟩

theorem EncodeHasKey.slt (rd : RegIdx) (rs : RegIdx) (rt : RegIdx) : EncodeHasKey.Statement (.slt rd rs rt) :=
  ⟨_, rfl, decide_eq_true (rWord_key _ _ _ _ _)⟩

theorem EncodeHasKey.sltu (rd : RegIdx) (rs : RegIdx) (rt : RegIdx) : EncodeHasKey.Statement (.sltu rd rs rt) :=
  ⟨_, rfl, decide_eq_true (rWord_key _ _ _ _ _)⟩

theorem EncodeHasKey.j (target : BitVec 26) : EncodeHasKey.Statement (.j target) :=
  ⟨_, rfl, decide_eq_true (jWord_key _ _)⟩

theorem EncodeHasKey.jal (target : BitVec 26) : EncodeHasKey.Statement (.jal target) :=
  ⟨_, rfl, decide_eq_true (jWord_key _ _)⟩

theorem EncodeHasKey.beq (rs : RegIdx) (rt : RegIdx) (imm : BitVec 16) : EncodeHasKey.Statement (.beq rs rt imm) :=
  ⟨_, rfl, decide_eq_true (iWord_key _ _ _ _)⟩

theorem EncodeHasKey.bne (rs : RegIdx) (rt : RegIdx) (imm : BitVec 16) : EncodeHasKey.Statement (.bne rs rt imm) :=
  ⟨_, rfl, decide_eq_true (iWord_key _ _ _ _)⟩

theorem EncodeHasKey.addi (rt : RegIdx) (rs : RegIdx) (imm : BitVec 16) : EncodeHasKey.Statement (.addi rt rs imm) :=
  ⟨_, rfl, decide_eq_true (iWord_key _ _ _ _)⟩

theorem EncodeHasKey.addiu (rt : RegIdx) (rs : RegIdx) (imm : BitVec 16) : EncodeHasKey.Statement (.addiu rt rs imm) :=
  ⟨_, rfl, decide_eq_true (iWord_key _ _ _ _)⟩

theorem EncodeHasKey.slti (rt : RegIdx) (rs : RegIdx) (imm : BitVec 16) : EncodeHasKey.Statement (.slti rt rs imm) :=
  ⟨_, rfl, decide_eq_true (iWord_key _ _ _ _)⟩

theorem EncodeHasKey.sltiu (rt : RegIdx) (rs : RegIdx) (imm : BitVec 16) : EncodeHasKey.Statement (.sltiu rt rs imm) :=
  ⟨_, rfl, decide_eq_true (iWord_key _ _ _ _)⟩

theorem EncodeHasKey.andi (rt : RegIdx) (rs : RegIdx) (imm : BitVec 16) : EncodeHasKey.Statement (.andi rt rs imm) :=
  ⟨_, rfl, decide_eq_true (iWord_key _ _ _ _)⟩

theorem EncodeHasKey.ori (rt : RegIdx) (rs : RegIdx) (imm : BitVec 16) : EncodeHasKey.Statement (.ori rt rs imm) :=
  ⟨_, rfl, decide_eq_true (iWord_key _ _ _ _)⟩

theorem EncodeHasKey.xori (rt : RegIdx) (rs : RegIdx) (imm : BitVec 16) : EncodeHasKey.Statement (.xori rt rs imm) :=
  ⟨_, rfl, decide_eq_true (iWord_key _ _ _ _)⟩

theorem EncodeHasKey.lui (rt : RegIdx) (imm : BitVec 16) : EncodeHasKey.Statement (.lui rt imm) :=
  ⟨_, rfl, decide_eq_true (iWord_key _ _ _ _)⟩

theorem EncodeHasKey.beql (rs : RegIdx) (rt : RegIdx) (imm : BitVec 16) : EncodeHasKey.Statement (.beql rs rt imm) :=
  ⟨_, rfl, decide_eq_true (iWord_key _ _ _ _)⟩

theorem EncodeHasKey.bnel (rs : RegIdx) (rt : RegIdx) (imm : BitVec 16) : EncodeHasKey.Statement (.bnel rs rt imm) :=
  ⟨_, rfl, decide_eq_true (iWord_key _ _ _ _)⟩

theorem EncodeHasKey.lq (rt : RegIdx) (rs : RegIdx) (imm : BitVec 16) : EncodeHasKey.Statement (.lq rt rs imm) :=
  ⟨_, rfl, decide_eq_true (iWord_key _ _ _ _)⟩

theorem EncodeHasKey.sq (rt : RegIdx) (rs : RegIdx) (imm : BitVec 16) : EncodeHasKey.Statement (.sq rt rs imm) :=
  ⟨_, rfl, decide_eq_true (iWord_key _ _ _ _)⟩

theorem EncodeHasKey.lb (rt : RegIdx) (rs : RegIdx) (imm : BitVec 16) : EncodeHasKey.Statement (.lb rt rs imm) :=
  ⟨_, rfl, decide_eq_true (iWord_key _ _ _ _)⟩

theorem EncodeHasKey.lh (rt : RegIdx) (rs : RegIdx) (imm : BitVec 16) : EncodeHasKey.Statement (.lh rt rs imm) :=
  ⟨_, rfl, decide_eq_true (iWord_key _ _ _ _)⟩

theorem EncodeHasKey.lw (rt : RegIdx) (rs : RegIdx) (imm : BitVec 16) : EncodeHasKey.Statement (.lw rt rs imm) :=
  ⟨_, rfl, decide_eq_true (iWord_key _ _ _ _)⟩

theorem EncodeHasKey.lbu (rt : RegIdx) (rs : RegIdx) (imm : BitVec 16) : EncodeHasKey.Statement (.lbu rt rs imm) :=
  ⟨_, rfl, decide_eq_true (iWord_key _ _ _ _)⟩

theorem EncodeHasKey.lhu (rt : RegIdx) (rs : RegIdx) (imm : BitVec 16) : EncodeHasKey.Statement (.lhu rt rs imm) :=
  ⟨_, rfl, decide_eq_true (iWord_key _ _ _ _)⟩

theorem EncodeHasKey.lwu (rt : RegIdx) (rs : RegIdx) (imm : BitVec 16) : EncodeHasKey.Statement (.lwu rt rs imm) :=
  ⟨_, rfl, decide_eq_true (iWord_key _ _ _ _)⟩

theorem EncodeHasKey.sb (rt : RegIdx) (rs : RegIdx) (imm : BitVec 16) : EncodeHasKey.Statement (.sb rt rs imm) :=
  ⟨_, rfl, decide_eq_true (iWord_key _ _ _ _)⟩

theorem EncodeHasKey.sh (rt : RegIdx) (rs : RegIdx) (imm : BitVec 16) : EncodeHasKey.Statement (.sh rt rs imm) :=
  ⟨_, rfl, decide_eq_true (iWord_key _ _ _ _)⟩

theorem EncodeHasKey.sw (rt : RegIdx) (rs : RegIdx) (imm : BitVec 16) : EncodeHasKey.Statement (.sw rt rs imm) :=
  ⟨_, rfl, decide_eq_true (iWord_key _ _ _ _)⟩

theorem EncodeHasKey.ld (rt : RegIdx) (rs : RegIdx) (imm : BitVec 16) : EncodeHasKey.Statement (.ld rt rs imm) :=
  ⟨_, rfl, decide_eq_true (iWord_key _ _ _ _)⟩

theorem EncodeHasKey.sd (rt : RegIdx) (rs : RegIdx) (imm : BitVec 16) : EncodeHasKey.Statement (.sd rt rs imm) :=
  ⟨_, rfl, decide_eq_true (iWord_key _ _ _ _)⟩

theorem EncodeHasKey.mfc0 (rt : RegIdx) (rd : RegIdx) : EncodeHasKey.Statement (.mfc0 rt rd) :=
  ⟨_, rfl, decide_eq_true (copWord_sub_key _ _ _ _ _ _)⟩

theorem EncodeHasKey.mtc0 (rt : RegIdx) (rd : RegIdx) : EncodeHasKey.Statement (.mtc0 rt rd) :=
  ⟨_, rfl, decide_eq_true (copWord_sub_key _ _ _ _ _ _)⟩

theorem EncodeHasKey.tlbwi : EncodeHasKey.Statement .tlbwi :=
  ⟨_, rfl, decide_eq_true (copWord_key _ _ _ _ _ _)⟩

theorem EncodeHasKey.rfe : EncodeHasKey.Statement .rfe :=
  ⟨_, rfl, decide_eq_true (copWord_key _ _ _ _ _ _)⟩

theorem EncodeHasKey.eret : EncodeHasKey.Statement .eret :=
  ⟨_, rfl, decide_eq_true (copWord_key _ _ _ _ _ _)⟩

theorem EncodeHasKey.mfc1 (rt : RegIdx) (fs : RegIdx) : EncodeHasKey.Statement (.mfc1 rt fs) :=
  ⟨_, rfl, decide_eq_true (copWord_sub_key _ _ _ _ _ _)⟩

theorem EncodeHasKey.cfc1 (rt : RegIdx) (fs : RegIdx) : EncodeHasKey.Statement (.cfc1 rt fs) :=
  ⟨_, rfl, decide_eq_true (copWord_sub_key _ _ _ _ _ _)⟩

theorem EncodeHasKey.mtc1 (rt : RegIdx) (fs : RegIdx) : EncodeHasKey.Statement (.mtc1 rt fs) :=
  ⟨_, rfl, decide_eq_true (copWord_sub_key _ _ _ _ _ _)⟩

theorem EncodeHasKey.ctc1 (rt : RegIdx) (fs : RegIdx) : EncodeHasKey.Statement (.ctc1 rt fs) :=
  ⟨_, rfl, decide_eq_true (copWord_sub_key _ _ _ _ _ _)⟩

theorem EncodeHasKey.addS (fd : RegIdx) (fs : RegIdx) (ft : RegIdx) : EncodeHasKey.Statement (.addS fd fs ft) :=
  ⟨_, rfl, decide_eq_true (copWord_key _ _ _ _ _ _)⟩

theorem EncodeHasKey.subS (fd : RegIdx) (fs : RegIdx) (ft : RegIdx) : EncodeHasKey.Statement (.subS fd fs ft) :=
  ⟨_, rfl, decide_eq_true (copWord_key _ _ _ _ _ _)⟩

theorem EncodeHasKey.mulS (fd : RegIdx) (fs : RegIdx) (ft : RegIdx) : EncodeHasKey.Statement (.mulS fd fs ft) :=
  ⟨_, rfl, decide_eq_true (copWord_key _ _ _ _ _ _)⟩

theorem EncodeHasKey.divS (fd : RegIdx) (fs : RegIdx) (ft : RegIdx) : EncodeHasKey.Statement (.divS fd fs ft) :=
  ⟨_, rfl, decide_eq_true (copWord_key _ _ _ _ _ _)⟩

theorem EncodeHasKey.maddS (fd : RegIdx) (fs : RegIdx) (ft : RegIdx) : EncodeHasKey.Statement (.maddS fd fs ft) :=
  ⟨_, rfl, decide_eq_true (copWord_key _ _ _ _ _ _)⟩

theorem EncodeHasKey.msubS (fd : RegIdx) (fs : RegIdx) (ft : RegIdx) : EncodeHasKey.Statement (.msubS fd fs ft) :=
  ⟨_, rfl, decide_eq_true (copWord_key _ _ _ _ _ _)⟩

end Sys2Proof.Laws
end

