-- ==== Sys2Proof/Laws/Step.lean ====
section
/-! SUPPORT. What one transition can do: the ways `front` can answer, the fetch, and what a memory row gives. -/

namespace Sys2Proof.Machine

/-! ### Memory rows -/

/-- What a load row can give: a raise, an abort, or the register write at the state after one physical read (R259). -/
theorem loadRow_cases (n : Nat) (va : Word) (put : State → BitVec (8 * n) → State) (s : State) :
    (∃ k, memRead va n s = .raised k ∧ loadRow n va put s = .next (s.raise k)) ∨
    (∃ r, memRead va n s = .aborted r ∧ loadRow n va put s = .next (s.abort r)) ∨
    (∃ v t, memRead va n s = .ok v t ∧ loadRow n va put s = .next (put t v).advance) := by
  unfold loadRow
  cases h : memRead va n s with
  | ok v t => exact .inr (.inr ⟨v, t, rfl, rfl⟩)
  | raised k => exact .inl ⟨k, rfl, rfl⟩
  | aborted r => exact .inr (.inl ⟨r, rfl, rfl⟩)

/-- What a store row can give: a raise, an abort, or the advance of the state after one physical write (R259). -/
theorem storeRow_cases (n : Nat) (va : Word) (v : BitVec (8 * n)) (s : State) :
    (∃ k, memWrite va n v s = .raised k ∧ storeRow n va v s = .next (s.raise k)) ∨
    (∃ r, memWrite va n v s = .aborted r ∧ storeRow n va v s = .next (s.abort r)) ∨
    (∃ t, memWrite va n v s = .ok () t ∧ storeRow n va v s = .next t.advance) := by
  unfold storeRow
  cases h : memWrite va n v s with
  | ok u t => exact .inr (.inr ⟨t, rfl, rfl⟩)
  | raised k => exact .inl ⟨k, rfl, rfl⟩
  | aborted r => exact .inr (.inl ⟨r, rfl, rfl⟩)

/-- A physical read of RAM or of a register object that keeps its value: the bytes in memory, and no change (R82, R83). -/
theorem physRead_plain {s : State} {pa : Word} {n : Nat} (h : PlainAccess s pa n) :
    physRead pa n s = .ok (BitVec.ofNat (8 * n) (Memory.readLE s.mem pa.toNat n), s) := by
  obtain ⟨o, off, hl, h⟩ := h
  unfold physRead; rw [hl]
  rcases h with ⟨_, h⟩ | ⟨_, h⟩ <;> simp only [h]

/-- A physical write of the same: the bytes written, and nothing else (R82, R83). -/
theorem physWrite_plain {s : State} {pa : Word} {n : Nat} (v : BitVec (8 * n)) (h : PlainAccess s pa n) :
    physWrite pa n v s = .ok { s with mem := Memory.writeLE s.mem pa.toNat n v.toNat } := by
  obtain ⟨o, off, hl, h⟩ := h
  unfold physWrite; rw [hl]
  rcases h with ⟨_, h⟩ | ⟨_, h⟩ <;> simp only [h]

/-- Byte `k` of a little-endian read is the byte `k` addresses up (R87). -/
theorem readLE_byte (m : Memory) (a n k : Nat) (h : k < n) :
    Memory.readLE m a n / 256 ^ k % 256 = (Memory.read m (a + k)).toNat := by
  induction n generalizing a k with
  | zero => omega
  | succ n ih =>
    have hb := (Memory.read m a).isLt
    cases k with
    | zero => simp only [Memory.readLE, Nat.pow_zero, Nat.div_one, Nat.add_zero]; omega
    | succ k =>
      rw [Memory.readLE, Nat.pow_succ', ← Nat.div_div_eq_div_mul, Nat.add_mul_div_left _ _ (by omega),
        Nat.div_eq_of_lt hb, Nat.zero_add, ih (a + 1) k (by omega), show a + 1 + k = a + (k + 1) by omega]

/-! ### One transition -/

/-- When no interrupt is eligible, step 1 is the mirror alone (R348, R349). -/
theorem sampleInterrupts_quiet {s : State} (h : eligible s.turn s.mirrorLines.ctl = false) :
    s.sampleInterrupts = s.mirrorLines := by
  unfold State.sampleInterrupts
  simp only [mirrorLines_turn, h, Bool.false_eq_true, if_false]

/-- When one is, step 1 appends an Interrupt record with the return point of R336. -/
theorem sampleInterrupts_eligible {s : State} (h : eligible s.turn s.mirrorLines.ctl = true) :
    s.sampleInterrupts = s.mirrorLines.setCtl { s.mirrorLines.ctl with
      xq := s.ctl.xq ++ [⟨.interrupt (pendingLines s.turn s.mirrorLines.ctl),
        (interruptReturnPoint s.mirrorLines.ctl).1, (interruptReturnPoint s.mirrorLines.ctl).2⟩] } := by
  unfold State.sampleInterrupts
  simp only [mirrorLines_turn, h, if_true, mirrorLines_ctl_xq]

/-- In a running machine with a valid map and nothing on the agenda, a transition is a step of the instance of `turn`. -/
theorem front_core {s : State} (hr : s.run = .running) (hm : physMapValid s.physMap = true) (ha : s.agenda = []) :
    front s = coreFront s := by
  unfold front; simp only [hr, hm, ha, if_true]

/-- The scheduler's call of the step function of instance `c` (R112). -/
theorem front_callsStep {s : State} {c : CoreId} (h : CallsStep c s) : front s = coreFront (s.called c) := by
  unfold State.called
  rcases h.due with ⟨ha, ht⟩ | ⟨rest, ha⟩
  · rw [front_core h.run h.map ha]
    subst ht; rw [ha, List.tail_nil, ← ha]
  · rw [ha, List.tail_cons]
    unfold front; simp only [h.run, h.map, ha, if_true]

/-- A step that is ready to fetch goes on to the fetch (R171 to R173). -/
theorem front_ready {s : State} {c : CoreId} (h : ReadyToFetch c s) : front s = fetchFront (s.called c).mirrorLines := by
  rw [front_callsStep h.calls]
  have hq : eligible (s.called c).turn (s.called c).mirrorLines.ctl = false := h.quiet
  unfold coreFront
  simp only [sampleInterrupts_quiet hq, mirrorLines_ctl_xq, h.queue]

/-- The ways a step can go past step 3: a raise at the fetch, an abort at the fetch, the unknown word, or a row (R174 to R176,
R180). -/
theorem fetchFront_cases (m : State) :
    (∃ k, fetchWord m.resolveBranchDelay = .raised k ∧
      fetchFront m = .done ((m.resolveBranchDelay.raise k).finish (earlyCost m.params))) ∨
    (∃ r, fetchWord m.resolveBranchDelay = .aborted r ∧
      fetchFront m = .done (State.abort { m.resolveBranchDelay with inFlight := none } r)) ∨
    (∃ w t, fetchWord m.resolveBranchDelay = .ok w t ∧ decode t.turn w = .unknown ∧
      fetchFront m = .done ((t.unknownInstruction w).finish (unknownCost m.params))) ∨
    (∃ w t i, fetchWord m.resolveBranchDelay = .ok w t ∧ decode t.turn w = .row i ∧
      fetchFront m = .run i { t with inFlight := some w }) := by
  unfold fetchFront
  cases h : fetchWord m.resolveBranchDelay with
  | raised k => exact .inl ⟨k, rfl, by simp only [h]⟩
  | aborted r => exact .inr (.inl ⟨r, rfl, by simp only [h]⟩)
  | ok w t =>
    cases hd : decode t.turn w with
    | unknown => exact .inr (.inr (.inl ⟨w, t, rfl, hd, by simp only [h, hd]⟩))
    | row i => exact .inr (.inr (.inr ⟨w, t, i, rfl, hd, by simp only [h, hd]⟩))

/-- A fetch, aligned and translated, is one physical read, of whatever kind of object (R105). -/
theorem fetchWord_ok {b u : State} {pa w : Word} (ha : b.ctl.pc.toNat % 4 = 0)
    (ht : translate b.ctl.pc .fetch b = .ok pa) (hr : physRead pa 4 b = .ok (w, u)) : fetchWord b = .ok w u := by
  unfold fetchWord readVirtual
  simp only [ha, ht, hr, ne_eq, not_true_eq_false, if_false]

/-- A fetch from RAM, aligned and translated, gives the four bytes at the physical address and changes nothing (R105). -/
theorem fetchWord_plain {b : State} {pa : Word} (ha : b.ctl.pc.toNat % 4 = 0)
    (ht : translate b.ctl.pc .fetch b = .ok pa) (hp : PlainAccess b pa 4) :
    fetchWord b = .ok (BitVec.ofNat 32 (Memory.readLE b.mem pa.toNat 4)) b :=
  fetchWord_ok ha ht (physRead_plain hp)

/-- The word that four bytes in memory order make is their little-endian number (R87, R140). -/
theorem wordOfBytes_readLE (s : State) (pa : Word) :
    wordOfBytes [byteAt s pa 0, byteAt s pa 1, byteAt s pa 2, byteAt s pa 3] =
      BitVec.ofNat 32 (Memory.readLE s.mem pa.toNat 4) := by
  apply BitVec.eq_of_toNat_eq
  show ((byteAt s pa 3 ++ byteAt s pa 2) ++ byteAt s pa 1 ++ byteAt s pa 0 : BitVec (8 + 8 + 8 + 8)).toNat = _
  rw [BitVec.toNat_append, BitVec.toNat_append, BitVec.toNat_append, BitVec.toNat_ofNat,
    ← Nat.shiftLeft_add_eq_or_of_lt (byteAt s pa 0).isLt, ← Nat.shiftLeft_add_eq_or_of_lt (byteAt s pa 1).isLt,
    ← Nat.shiftLeft_add_eq_or_of_lt (byteAt s pa 2).isLt]
  simp only [Nat.shiftLeft_eq, Memory.readLE]
  have h0 := (byteAt s pa 0).isLt
  have h1 := (byteAt s pa 1).isLt
  have h2 := (byteAt s pa 2).isLt
  have h3 := (byteAt s pa 3).isLt
  unfold byteAt at *
  simp only [Nat.add_zero, Nat.add_assoc, Nat.reduceAdd] at *
  omega

/-- A transition that gives a next state: `front` was done, or a row ran and was retired (R171). -/
theorem step_next {s t : State} (h : step s = .next t) :
    front s = .done t ∨ ∃ i u v, front s = .run i u ∧ exec i u = .next v ∧ t = retire i v := by
  unfold step at h
  split at h
  · cases h
  · cases h
  · cases h; exact .inl (by assumption)
  · rename_i i u hf
    split at h
    · rename_i v he
      cases h; exact .inr ⟨i, u, v, hf, he, rfl⟩
    · cases h
    · cases h

/-! ### Bits of a masked write -/

/-- A masked write takes the bits inside the mask and keeps the others (R21, R282). -/
theorem setBits_bit (w m v : Word) (k : Nat) :
    (setBits w m v).getLsbD k = if m.getLsbD k then v.getLsbD k else w.getLsbD k := by
  unfold setBits
  by_cases hk : k < 32
  · simp only [BitVec.getLsbD_or, BitVec.getLsbD_and, BitVec.getLsbD_not, hk, decide_true, Bool.true_and]
    cases m.getLsbD k <;> simp
  · simp [BitVec.getLsbD_of_ge _ _ (Nat.le_of_not_lt hk)]

/-! ### Every handler gives a next state -/

/-- No row faults or is refused: `exec` always gives a next state (R177). -/
theorem exec_next (i : Instr) (s : State) : ∃ t, exec i s = .next t := by
  have ee : ∀ (i : Instr) (s : State) (body : State → Result), (∀ s, ∃ t, body s = .next t) →
      ∃ t, eeRow i s body = .next t := by
    intro i s body h; unfold eeRow; split
    · exact h s
    · exact ⟨_, rfl⟩
  have usable : ∀ (c : BitVec 2) (s : State) (body : State → Result), (∀ s, ∃ t, body s = .next t) →
      ∃ t, usableRow c s body = .next t := by
    intro c s body h; unfold usableRow; split
    · exact h s
    · exact ⟨_, rfl⟩
  have load : ∀ (n : Nat) (va : Word) (put : State → BitVec (8 * n) → State) (s : State),
      ∃ t, loadRow n va put s = .next t := by
    intro n va put s
    rcases loadRow_cases n va put s with ⟨_, _, h⟩ | ⟨_, _, h⟩ | ⟨_, _, _, h⟩ <;> exact ⟨_, h⟩
  have store : ∀ (n : Nat) (va : Word) (v : BitVec (8 * n)) (s : State), ∃ t, storeRow n va v s = .next t := by
    intro n va v s
    rcases storeRow_cases n va v s with ⟨_, _, h⟩ | ⟨_, _, h⟩ | ⟨_, _, h⟩ <;> exact ⟨_, h⟩
  have checked : ∀ (rd : RegIdx) (k : Int) (s : State), ∃ t, checkedResult rd k s = .next t := by
    intro rd k s; unfold checkedResult; split <;> exact ⟨_, rfl⟩
  cases i with
  | add rd rs rt => simp only [exec, execAdd]; exact checked _ _ _
  | sub rd rs rt => simp only [exec, execSub]; exact checked _ _ _
  | addi rt rs imm => simp only [exec, execAddi]; exact checked _ _ _
  | beql rs rt imm => simp only [exec, execBeql]; exact ee _ _ _ fun _ => ⟨_, rfl⟩
  | bnel rs rt imm => simp only [exec, execBnel]; exact ee _ _ _ fun _ => ⟨_, rfl⟩
  | lq rt rs imm => simp only [exec, execLq]; exact ee _ _ _ fun _ => load _ _ _ _
  | sq rt rs imm => simp only [exec, execSq]; exact ee _ _ _ fun _ => store _ _ _ _
  | lb rt rs imm => simp only [exec, execLb]; exact load _ _ _ _
  | lh rt rs imm => simp only [exec, execLh]; exact load _ _ _ _
  | lw rt rs imm => simp only [exec, execLw]; exact load _ _ _ _
  | lbu rt rs imm => simp only [exec, execLbu]; exact load _ _ _ _
  | lhu rt rs imm => simp only [exec, execLhu]; exact load _ _ _ _
  | lwu rt rs imm => simp only [exec, execLwu]; exact ee _ _ _ fun _ => load _ _ _ _
  | sb rt rs imm => simp only [exec, execSb]; exact store _ _ _ _
  | sh rt rs imm => simp only [exec, execSh]; exact store _ _ _ _
  | sw rt rs imm => simp only [exec, execSw]; exact store _ _ _ _
  | ld rt rs imm => simp only [exec, execLd]; exact ee _ _ _ fun _ => load _ _ _ _
  | sd rt rs imm => simp only [exec, execSd]; exact ee _ _ _ fun _ => store _ _ _ _
  | mfc0 rt rd => simp only [exec, execMfc0]; exact usable _ _ _ fun _ => ⟨_, rfl⟩
  | mtc0 rt rd => simp only [exec, execMtc0]; exact usable _ _ _ fun _ => ⟨_, rfl⟩
  | tlbwi => simp only [exec, execTlbwi]; exact ee _ _ _ fun _ => usable _ _ _ fun _ => ⟨_, rfl⟩
  | rfe =>
    simp only [exec, execRfe, iopRow]; split
    · exact ⟨_, rfl⟩
    · exact usable _ _ _ fun _ => ⟨_, rfl⟩
  | eret => simp only [exec, execEret]; exact ee _ _ _ fun _ => usable _ _ _ fun _ => ⟨_, rfl⟩
  | mfc1 rt fs => simp only [exec, execMfc1]; exact ee _ _ _ fun _ => usable _ _ _ fun _ => ⟨_, rfl⟩
  | cfc1 rt fs => simp only [exec, execCfc1]; exact ee _ _ _ fun _ => usable _ _ _ fun _ => ⟨_, rfl⟩
  | mtc1 rt fs => simp only [exec, execMtc1]; exact ee _ _ _ fun _ => usable _ _ _ fun _ => ⟨_, rfl⟩
  | ctc1 rt fs => simp only [exec, execCtc1]; exact ee _ _ _ fun _ => usable _ _ _ fun _ => ⟨_, rfl⟩
  | addS fd fs ft => simp only [exec, execAddS]; exact ee _ _ _ fun _ => usable _ _ _ fun _ => ⟨_, rfl⟩
  | subS fd fs ft => simp only [exec, execSubS]; exact ee _ _ _ fun _ => usable _ _ _ fun _ => ⟨_, rfl⟩
  | mulS fd fs ft => simp only [exec, execMulS]; exact ee _ _ _ fun _ => usable _ _ _ fun _ => ⟨_, rfl⟩
  | divS fd fs ft => simp only [exec, execDivS]; exact ee _ _ _ fun _ => usable _ _ _ fun _ => ⟨_, rfl⟩
  | maddS fd fs ft => simp only [exec, execMaddS]; exact ee _ _ _ fun _ => usable _ _ _ fun _ => ⟨_, rfl⟩
  | msubS fd fs ft => simp only [exec, execMsubS]; exact ee _ _ _ fun _ => usable _ _ _ fun _ => ⟨_, rfl⟩
  | _ => simp only [exec]; exact ⟨_, rfl⟩

end Sys2Proof.Machine
end

