-- ==== Sys2Proof/Tests/Slice0.lean ====
section
/-! SUPPORT. Checks of this model on fixed values: what the decoder and the well-formedness check say of single words, one step
of each instruction on a small state, and for every statement with hypotheses a state and operands that meet them. Expected
values are the examples of the rules named. -/

namespace Sys2Proof.Tests

open Sys2Proof.Machine

/-! ### Well-formedness (R146): every row of one core's table only, refused on the other -/

theorem test_wf_refuses_ee_rows_on_iop :
    [Instr.beql 1#5 2#5 3#16, .bnel 1#5 2#5 3#16, .lwu 2#5 1#5 4#16, .ld 2#5 1#5 8#16, .lq 2#5 1#5 16#16,
      .sd 2#5 1#5 8#16, .sq 2#5 1#5 16#16, .eret, .tlbwi, .mfc1 2#5 1#5, .mtc1 2#5 1#5, .cfc1 2#5 31#5,
      .ctc1 0#5 31#5, .addS 3#5 1#5 2#5, .subS 3#5 1#5 2#5, .mulS 3#5 1#5 2#5, .divS 3#5 1#5 2#5,
      .maddS 3#5 1#5 2#5, .msubS 3#5 1#5 2#5].all (fun i => !i.wf .iop && i.wf .ee) = true := by decide

theorem test_wf_refuses_iop_row_on_ee : Instr.rfe.wf .ee = false ∧ Instr.rfe.wf .iop = true := by decide

theorem test_wf_shared_row : (Instr.add 3#5 1#5 2#5).wf .ee = true ∧ (Instr.add 3#5 1#5 2#5).wf .iop = true := by decide

/-! ### Decoding (R142, R145, R150): the words of the rules' own examples -/

theorem test_decode_bits_add : ∀ c, decode c 0b00000000001000100001100000100000#32 = .row (.add 3#5 1#5 2#5) := by
  intro c; cases c <;> decide

theorem test_decode_bits_addi : ∀ c, decode c 0b00100000001000101111111111111111#32 = .row (.addi 2#5 1#5 0xFFFF#16) := by
  intro c; cases c <;> decide

theorem test_decode_bits_jal : ∀ c, decode c 0b00001100000000000000010000000000#32 = .row (.jal 0x400#26) := by
  intro c; cases c <;> decide

theorem test_decode_bits_lw : ∀ c, decode c 0b10001100001000100000000000000100#32 = .row (.lw 2#5 1#5 4#16) := by
  intro c; cases c <;> decide

theorem test_decode_bits_mtc0 : ∀ c, decode c 0b01000000100000100110000000000000#32 = .row (.mtc0 2#5 12#5) := by
  intro c; cases c <;> decide

theorem test_decode_bits_divS : decode .ee 0b01000110000000100000100011000011#32 = .row (.divS 3#5 1#5 2#5) := by decide

theorem test_decode_register_rows (c : CoreId) :
    decode c 0x00021900#32 = .row (.sll 3#5 2#5 4#5) ∧ decode c 0x00021902#32 = .row (.srl 3#5 2#5 4#5) ∧
    decode c 0x00021903#32 = .row (.sra 3#5 2#5 4#5) ∧ decode c 0x03E00008#32 = .row (.jr 31#5) ∧
    decode c 0x0040F809#32 = .row (.jalr 31#5 2#5) ∧ decode c 0x00221821#32 = .row (.addu 3#5 1#5 2#5) ∧
    decode c 0x00221822#32 = .row (.sub 3#5 1#5 2#5) ∧ decode c 0x00221823#32 = .row (.subu 3#5 1#5 2#5) ∧
    decode c 0x00221824#32 = .row (.and 3#5 1#5 2#5) ∧ decode c 0x00221825#32 = .row (.or 3#5 1#5 2#5) ∧
    decode c 0x00221826#32 = .row (.xor 3#5 1#5 2#5) ∧ decode c 0x00221827#32 = .row (.nor 3#5 1#5 2#5) ∧
    decode c 0x0022182A#32 = .row (.slt 3#5 1#5 2#5) ∧ decode c 0x0022182B#32 = .row (.sltu 3#5 1#5 2#5) := by
  cases c <;> decide

theorem test_decode_immediate_rows (c : CoreId) :
    decode c 0x08000400#32 = .row (.j 0x400#26) ∧ decode c 0x10220003#32 = .row (.beq 1#5 2#5 3#16) ∧
    decode c 0x1420FFFD#32 = .row (.bne 1#5 0#5 0xFFFD#16) ∧ decode c 0x2422FFFF#32 = .row (.addiu 2#5 1#5 0xFFFF#16) ∧
    decode c 0x2822FFFF#32 = .row (.slti 2#5 1#5 0xFFFF#16) ∧ decode c 0x2C22FFFF#32 = .row (.sltiu 2#5 1#5 0xFFFF#16) ∧
    decode c 0x3022FF00#32 = .row (.andi 2#5 1#5 0xFF00#16) ∧ decode c 0x3422FF00#32 = .row (.ori 2#5 1#5 0xFF00#16) ∧
    decode c 0x3822FF00#32 = .row (.xori 2#5 1#5 0xFF00#16) ∧ decode c 0x3C028000#32 = .row (.lui 2#5 0x8000#16) := by
  cases c <;> decide

theorem test_decode_memory_rows (c : CoreId) :
    decode c 0x80220003#32 = .row (.lb 2#5 1#5 3#16) ∧ decode c 0x90220003#32 = .row (.lbu 2#5 1#5 3#16) ∧
    decode c 0x84220002#32 = .row (.lh 2#5 1#5 2#16) ∧ decode c 0x94220002#32 = .row (.lhu 2#5 1#5 2#16) ∧
    decode c 0xA0220003#32 = .row (.sb 2#5 1#5 3#16) ∧ decode c 0xA4220002#32 = .row (.sh 2#5 1#5 2#16) ∧
    decode c 0xAC220004#32 = .row (.sw 2#5 1#5 4#16) ∧ decode c 0x40026000#32 = .row (.mfc0 2#5 12#5) := by
  cases c <;> decide

theorem test_decode_ee_rows :
    decode .ee 0x50220003#32 = .row (.beql 1#5 2#5 3#16) ∧ decode .ee 0x54220003#32 = .row (.bnel 1#5 2#5 3#16) ∧
    decode .ee 0x9C220004#32 = .row (.lwu 2#5 1#5 4#16) ∧ decode .ee 0xDC220008#32 = .row (.ld 2#5 1#5 8#16) ∧
    decode .ee 0x78220010#32 = .row (.lq 2#5 1#5 16#16) ∧ decode .ee 0xFC220008#32 = .row (.sd 2#5 1#5 8#16) ∧
    decode .ee 0x7C220010#32 = .row (.sq 2#5 1#5 16#16) ∧ decode .ee 0x42000018#32 = .row .eret ∧
    decode .ee 0x42000002#32 = .row .tlbwi ∧ decode .ee 0x44020800#32 = .row (.mfc1 2#5 1#5) ∧
    decode .ee 0x44820800#32 = .row (.mtc1 2#5 1#5) ∧ decode .ee 0x4442F800#32 = .row (.cfc1 2#5 31#5) ∧
    decode .ee 0x44C0F800#32 = .row (.ctc1 0#5 31#5) ∧ decode .ee 0x460208C0#32 = .row (.addS 3#5 1#5 2#5) ∧
    decode .ee 0x460208C1#32 = .row (.subS 3#5 1#5 2#5) ∧ decode .ee 0x460208C2#32 = .row (.mulS 3#5 1#5 2#5) ∧
    decode .ee 0x460208DC#32 = .row (.maddS 3#5 1#5 2#5) ∧ decode .ee 0x460208DD#32 = .row (.msubS 3#5 1#5 2#5) := by
  decide

theorem test_decode_iop_row : decode .iop 0x42000010#32 = .row .rfe ∧ decode .ee 0x42000010#32 = .unknown := by decide

/-- A word of the other core's table, SYNC, SYSCALL, and the opcodes of coprocessors 2 and 3 are `Unknown` (R113, R146, R354). -/
theorem test_decode_unknown (c : CoreId) :
    decode .iop 0x460208C0#32 = .unknown ∧ decode .iop 0x42000018#32 = .unknown ∧ decode c 0x0000000F#32 = .unknown ∧
    decode c 0x0000000C#32 = .unknown ∧ decode c 0x48000000#32 = .unknown ∧ decode c 0x4C000000#32 = .unknown := by
  cases c <;> decide

/-- Bits a row ignores do not matter (R145): ADD with `sa` = 31, ERET with bits 20:6 set, MFC0 with bits 10:0 set; bits 24:21
of ERET are key (spec/95_test_vectors.md, lines 137 to 151). -/
theorem test_decode_ignored_bits :
    decode .ee 0x00221FE0#32 = .row (.add 3#5 1#5 2#5) ∧ decode .ee 0x421FFFD8#32 = .row .eret ∧
    decode .ee 0x43FFFFD8#32 = .unknown ∧ decode .ee 0x42FFFFD8#32 = .unknown ∧
    decode .iop 0x400267FF#32 = .row (.mfc0 2#5 12#5) := by decide

/-- The host's reading of a table word: ADD, and RFE, which the IOP table alone has. -/
theorem test_table_word :
    decodeTableWord 32 0x00221820 = some (.add 3#5 1#5 2#5) ∧ decodeTableWord 32 0x42000010 = some .rfe ∧
    decodeTableWord 32 0x0000000C = none := by decide

/-- The counts of R146, and no word matches two rows of the map (R150). -/
theorem test_opcode_map :
    opcodeTable.length = 57 ∧ (opcodeTable.filter (fun r => r.on .ee)).length = 56 ∧
    (opcodeTable.filter (fun r => r.on .iop)).length = 38 ∧
    opcodeTable.Pairwise (fun r t => r.disjoint t = true) := by decide

/-! ### Helpers -/

/-- EE right after reset, with some general registers set. -/
def onEE (regs : List (RegIdx × Quad)) : State := regs.foldl (fun s p => s.setQ p.1 p.2) State.reset

/-- IOP right after reset, with some general registers set. -/
def onIOP (regs : List (RegIdx × Word)) : State :=
  regs.foldl (fun s p => s.setR32 p.1 p.2) { State.reset with turn := .iop }

/-- The next state of one instruction, or the state itself when there is none. -/
def after (i : Instr) (s : State) : State :=
  match exec i s with
  | .next t => t
  | .fault _ => s
  | .refused _ => s

/-- The next state of one transition, or the state itself when there is none. -/
def stepped (s : State) : State :=
  match step s with
  | .next t => t
  | .fault _ => s
  | .refused _ => s

/-- With `pc` of the stepping core. -/
def at_ (pc : Word) (s : State) : State := s.setCtl { s.ctl with pc := pc }

/-- With Status of the stepping core. -/
def withStatus (w : Word) (s : State) : State := s.setCtl { s.ctl with status := w }

/-- With the tracker of the stepping core. -/
def withTracker (b : Tracker) (s : State) : State := s.setCtl { s.ctl with bd := b }

/-- The memory image of spec/42_load_store.md: sixteen bytes at physical 0x100. -/
def image (s : State) : State :=
  { s with mem := Memory.writeLE s.mem 0x100 16 0x0F0E0D0C0B0A0908F7E6D5C4B3A29180 }

/-! ### Integer rows -/

theorem test_add : (after (.add 3#5 1#5 2#5) (onEE [(1#5, 5#128), (2#5, 10#128)])).q 3#5 = 15#128 := by decide

theorem test_add_overflow_raises :
    (after (.add 1#5 1#5 2#5) (onIOP [(1#5, 0x7FFFFFFF#32), (2#5, 1#32)])).r32 1#5 = 0x7FFFFFFF#32 ∧
    (after (.add 1#5 1#5 2#5) (onIOP [(1#5, 0x7FFFFFFF#32), (2#5, 1#32)])).ctl.xq =
      [⟨.arithmeticOverflow, 0xBFC00000#32, false⟩] := by decide

/-- The upper half of the cell stays; bits 63:32 are the sign (R201, R221). -/
theorem test_addu_wraps :
    (after (.addu 3#5 1#5 2#5) (onEE [(1#5, 0x7FFFFFFF#128), (2#5, 1#128), (3#5, 0x5#128 <<< 64)])).q 3#5 =
      0x0000000000000005FFFFFFFF80000000#128 := by decide

theorem test_sub : (after (.sub 3#5 1#5 2#5) (onIOP [(1#5, 5#32), (2#5, 10#32)])).r32 3#5 = 0xFFFFFFFB#32 := by decide

theorem test_sub_overflow : (after (.sub 3#5 0#5 2#5) (onEE [(2#5, 0x80000000#128)])).ctl.xq.length = 1 := by decide

theorem test_subu : (after (.subu 3#5 1#5 2#5) (onIOP [(2#5, 1#32)])).r32 3#5 = 0xFFFFFFFF#32 := by decide

theorem test_and : (after (.and 3#5 1#5 2#5) (onEE [(1#5, 0xF0F0#128), (2#5, 0xFF00#128)])).q 3#5 = 0xF000#128 := by decide

theorem test_or : (after (.or 3#5 1#5 2#5) (onEE [(1#5, 0xF0F0#128), (2#5, 0xFF00#128)])).q 3#5 = 0xFFF0#128 := by decide

theorem test_xor : (after (.xor 3#5 1#5 2#5) (onEE [(1#5, 0xF0F0#128), (2#5, 0xFF00#128)])).q 3#5 = 0x0FF0#128 := by decide

theorem test_nor :
    (after (.nor 3#5 1#5 2#5) (onEE [(1#5, 0xF0F0#128), (2#5, 0xFF00#128)])).q 3#5 = 0xFFFFFFFFFFFF000F#128 := by decide

/-- On EE 0x00000000FFFFFFFF is positive (R208). -/
theorem test_slt :
    (after (.slt 3#5 1#5 0#5) (onEE [(1#5, 0xFFFFFFFF#128)])).q 3#5 = 0#128 ∧
    (after (.slt 3#5 1#5 0#5) (onIOP [(1#5, 0xFFFFFFFF#32)])).r32 3#5 = 1#32 := by decide

theorem test_sltu : (after (.sltu 3#5 0#5 2#5) (onIOP [(2#5, 0xFFFFFFFF#32)])).r32 3#5 = 1#32 := by decide

theorem test_sll : (after (.sll 3#5 2#5 4#5) (onEE [(2#5, 0x0FFFFFFF#128)])).q 3#5 = 0xFFFFFFFFFFFFFFF0#128 := by decide

theorem test_srl : (after (.srl 3#5 2#5 4#5) (onEE [(2#5, 0x80000000#128)])).q 3#5 = 0x08000000#128 := by decide

theorem test_sra : (after (.sra 3#5 2#5 4#5) (onEE [(2#5, 0x80000000#128)])).q 3#5 = 0xFFFFFFFFF8000000#128 := by decide

theorem test_addi : (after (.addi 2#5 1#5 0xFFFF#16) (onEE [(1#5, 5#128)])).q 2#5 = 4#128 := by decide

theorem test_addi_overflow : (after (.addi 2#5 1#5 0xFFFF#16) (onIOP [(1#5, 0x80000000#32)])).ctl.xq.length = 1 := by decide

theorem test_addiu : (after (.addiu 2#5 1#5 0xFFFF#16) (onEE [])).q 2#5 = 0xFFFFFFFFFFFFFFFF#128 := by decide

theorem test_slti : (after (.slti 2#5 1#5 0xFFFF#16) (onIOP [(1#5, 0xFFFFFFFE#32)])).r32 2#5 = 1#32 := by decide

theorem test_sltiu : (after (.sltiu 2#5 1#5 0xFFFF#16) (onEE [(1#5, 5#128)])).q 2#5 = 1#128 := by decide

theorem test_andi : (after (.andi 2#5 1#5 0xFF00#16) (onEE [(1#5, 0x12345678#128)])).q 2#5 = 0x5600#128 := by decide

theorem test_ori : (after (.ori 2#5 1#5 0xFF00#16) (onEE [(1#5, 0x12345678#128)])).q 2#5 = 0x1234FF78#128 := by decide

theorem test_xori : (after (.xori 2#5 1#5 0xFF00#16) (onEE [(1#5, 0x12345678#128)])).q 2#5 = 0x1234A978#128 := by decide

theorem test_lui : (after (.lui 2#5 0x8000#16) (onEE [])).q 2#5 = 0xFFFFFFFF80000000#128 := by decide

theorem test_register_zero_discards : (after (.ori 0#5 0#5 0xFFFF#16) (onIOP [])).r32 0#5 = 0#32 := by decide

/-! ### Control transfers -/

theorem test_beq :
    (after (.beq 1#5 2#5 3#16) (at_ 0x80001000#32 (onEE []))).ctl.bd = .pending 0x80001010#32 1 ∧
    (after (.beq 1#5 2#5 3#16) (at_ 0x80001000#32 (onEE []))).ctl.pc = 0x80001004#32 := by decide

/-- Equal low words, different upper words (R237). -/
theorem test_bne :
    (after (.bne 1#5 0#5 0xFFFD#16) (at_ 0x80001010#32 (onEE [(1#5, 0x100000000#128)]))).ctl.bd =
      .pending 0x80001008#32 1 := by decide

theorem test_beql_not_taken :
    (after (.beql 1#5 2#5 3#16) (at_ 0x80001000#32 (onEE [(1#5, 1#128)]))).ctl.pc = 0x80001008#32 := by decide

theorem test_bnel_taken :
    (after (.bnel 1#5 2#5 3#16) (at_ 0x80001000#32 (onEE [(1#5, 1#128)]))).ctl.bd = .pending 0x80001010#32 1 := by decide

theorem test_j : (after (.j 0x400#26) (at_ 0x80000010#32 (onEE []))).ctl.bd = .pending 0x80001000#32 1 := by decide

theorem test_jal :
    (after (.jal 0x400#26) (at_ 0x80000010#32 (onEE []))).q 31#5 = 0x80000018#128 ∧
    (after (.jal 0x400#26) (at_ 0x80000010#32 (onEE []))).ctl.bd = .pending 0x80001000#32 1 := by decide

theorem test_jr : (after (.jr 31#5) (onIOP [(31#5, 0x80000018#32)])).ctl.bd = .pending 0x80000018#32 1 := by decide

/-- The target is read before the link is written (R243). -/
theorem test_jalr_same_register :
    (after (.jalr 2#5 2#5) (at_ 0x80000020#32 (onEE [(2#5, 0x80002000#128)]))).q 2#5 = 0x80000028#128 ∧
    (after (.jalr 2#5 2#5) (at_ 0x80000020#32 (onEE [(2#5, 0x80002000#128)]))).ctl.bd = .pending 0x80002000#32 1 := by
  decide

/-- A jump in a slot overwrites the pending record (R233). -/
theorem test_branch_in_slot :
    (after (.j 0x400#26) (withTracker (.pending 0x80001010#32 0) (at_ 0x80000010#32 (onEE [])))).ctl.bd =
      .pending 0x80001000#32 1 := by decide

/-! ### Loads and stores -/

theorem test_lb : (after (.lb 2#5 1#5 3#16) (image (onEE [(1#5, 0x80000100#128)]))).q 2#5 = 0xFFFFFFFFFFFFFFB3#128 := by decide

theorem test_lbu : (after (.lbu 2#5 1#5 3#16) (image (onIOP [(1#5, 0x80000100#32)]))).r32 2#5 = 0xB3#32 := by decide

theorem test_lh : (after (.lh 2#5 1#5 2#16) (image (onIOP [(1#5, 0x80000100#32)]))).r32 2#5 = 0xFFFFB3A2#32 := by decide

theorem test_lhu : (after (.lhu 2#5 1#5 2#16) (image (onEE [(1#5, 0x80000100#128)]))).q 2#5 = 0xB3A2#128 := by decide

theorem test_lw : (after (.lw 2#5 1#5 4#16) (image (onEE [(1#5, 0x80000100#128)]))).q 2#5 = 0xFFFFFFFFF7E6D5C4#128 := by decide

theorem test_lw_misaligned :
    (after (.lw 2#5 1#5 1#16) (image (onEE [(1#5, 0x80000100#128)]))).ctl.xq =
      [⟨.addressError 0x80000101#32 .loadOrFetch, 0xBFC00000#32, false⟩] := by decide

theorem test_lwu : (after (.lwu 2#5 1#5 4#16) (image (onEE [(1#5, 0x80000100#128)]))).q 2#5 = 0xF7E6D5C4#128 := by decide

theorem test_ld : (after (.ld 2#5 1#5 8#16) (image (onEE [(1#5, 0x80000100#128)]))).q 2#5 = 0x0F0E0D0C0B0A0908#128 := by decide

theorem test_lq :
    (after (.lq 2#5 1#5 16#16) (image (onEE [(1#5, 0x800000F3#128)]))).q 2#5 = 0x0F0E0D0C0B0A0908F7E6D5C4B3A29180#128 := by
  decide

theorem test_sb :
    Memory.readLE (after (.sb 2#5 1#5 3#16) (image (onEE [(1#5, 0x80000100#128), (2#5, 0x12345678#128)]))).mem 0x100 4 =
      0x78A29180 := by decide

theorem test_sh :
    Memory.readLE (after (.sh 2#5 1#5 2#16) (image (onIOP [(1#5, 0x80000100#32), (2#5, 0x12345678#32)]))).mem 0x100 4 =
      0x56789180 := by decide

theorem test_sw :
    Memory.readLE (after (.sw 2#5 1#5 4#16) (image (onIOP [(1#5, 0x80000100#32), (2#5, 0x11223344#32)]))).mem 0x104 4 =
      0x11223344 := by decide

theorem test_sw_misaligned :
    (after (.sw 2#5 1#5 2#16) (at_ 0x80001000#32 (onIOP [(1#5, 0x80000100#32)]))).ctl.xq =
      [⟨.addressError 0x80000102#32 .store, 0x80001000#32, false⟩] := by decide

theorem test_sd :
    Memory.readLE (after (.sd 2#5 1#5 8#16) (image (onEE [(1#5, 0x80000100#128), (2#5, 0x1122334455667788#128)]))).mem
      0x108 8 = 0x1122334455667788 := by decide

theorem test_sq :
    Memory.readLE (after (.sq 2#5 1#5 16#16) (onEE [(1#5, 0x800000F0#128), (2#5, 0x0F0E0D0C0B0A0908F7E6D5C4B3A29180#128)])).mem
      0x100 16 = 0x0F0E0D0C0B0A0908F7E6D5C4B3A29180 := by decide

/-- Byte order (R87): a word write, then a half and two bytes. -/
theorem test_little_endian :
    let m := Memory.writeLE [] 0x40 4 0x11223344
    Memory.readLE m 0x40 1 = 0x44 ∧ Memory.readLE m 0x43 1 = 0x11 ∧ Memory.readLE m 0x42 2 = 0x1122 := by decide

/-- Writing the value an unlisted byte reads as removes the entry. -/
theorem test_memory_canonical : Memory.write (Memory.write [] 5 7#8) 5 0#8 = [] := by decide

/-! ### System coprocessor -/

theorem test_mfc0_status_at_reset : (after (.mfc0 2#5 12#5) (onEE [])).q 2#5 = 4#128 := by decide

theorem test_mtc0_status_mask : (after (.mtc0 2#5 12#5) (onEE [(2#5, 0xFFFFFFFF#128)])).ctl.status = 0xF0018C1F#32 := by decide

theorem test_mtc0_cause_iop : (after (.mtc0 2#5 13#5) (onIOP [(2#5, 0xFFFFFFFF#32)])).ctl.cause = 0x300#32 := by decide

theorem test_mfc0_user_raises :
    (after (.mfc0 2#5 12#5) (withStatus 0x10#32 (at_ 0x2000#32 (onEE [])))).ctl.xq =
      [⟨.coprocessorUnusable 0#2, 0x2000#32, false⟩] := by decide

theorem test_eret :
    let s := State.reset.setCtl { State.reset.ctl with status := 0x00010003#32, epc := 0x80001234#32 }
    (after .eret s).ctl.pc = 0x80001234#32 ∧ (after .eret s).ctl.status = 0x00010001#32 := by decide

theorem test_rfe : (after .rfe (withStatus 0x0000040C#32 (onIOP []))).ctl.status = 0x00000403#32 := by decide

/-- EE with the four registers of R286's example. -/
def tlbwiState (index : Word) : State :=
  { State.reset with ee := { State.reset.ee with
      index := index, entryHi := 0x2000#32, entryLo0 := 0x407#32, entryLo1 := 0x443#32, pageMask := 0#32 } }

theorem test_tlbwi :
    (after .tlbwi (tlbwiState 0#32)).ee.tlb[0] =
      ⟨0#12, 1#19, 0#8, true, false, ⟨0x10#20, 0#3, true, true⟩, ⟨0x11#20, 0#3, false, true⟩⟩ := by decide

theorem test_tlbwi_index_48_aborts :
    (after .tlbwi (tlbwiState 48#32)).run =
      .aborted (.tlbIndexOutOfRange 48#6) ⟨.ee, 0xBFC00000#32, none, 0#64⟩ := by decide

/-! ### Floating-point coprocessor -/

/-- EE with CU[1], two floating registers and the accumulator. -/
def fpState (a b acc : Word) : State :=
  { ((withStatus 0x20000000#32 State.reset).setF 1#5 a).setF 2#5 b with
    ee := { ((withStatus 0x20000000#32 State.reset).setF 1#5 a |>.setF 2#5 b).ee with acc := acc } }

theorem test_mfc1 : (after (.mfc1 2#5 1#5) (fpState 0xC0A00000#32 0#32 0#32)).q 2#5 = 0xFFFFFFFFC0A00000#128 := by decide

theorem test_mtc1 :
    (after (.mtc1 2#5 1#5) (withStatus 0x20000000#32 (onEE [(2#5, 0x3FC00000#128)]))).f 1#5 = 0x3FC00000#32 := by decide

theorem test_cfc1 :
    (after (.cfc1 2#5 31#5) { fpState 0#32 0#32 0#32 with
      ee := { (fpState 0#32 0#32 0#32).ee with fcr31 := 0x8010#32 } }).q 2#5 = 0x8010#128 := by decide

theorem test_ctc1 :
    (after (.ctc1 2#5 31#5) (withStatus 0x20000000#32 (onEE [(2#5, 0xFFFFFFFF#128)]))).ee.fcr31 = 0xFFFFFFFF#32 := by decide

theorem test_addS : (after (.addS 3#5 1#5 2#5) (fpState 0x3FC00000#32 0x40100000#32 0#32)).f 3#5 = 0x40700000#32 := by decide

theorem test_addS_overflow :
    let t := after (.addS 3#5 1#5 2#5) (fpState 0xFF7FFFFF#32 0xFF7FFFFF#32 0#32)
    t.f 3#5 = 0xFF7FFFFF#32 ∧ t.ee.fcr31 = 0x8010#32 := by decide

theorem test_subS : (after (.subS 3#5 1#5 2#5) (fpState 0x40B00000#32 0x40100000#32 0#32)).f 3#5 = 0x40500000#32 := by decide

theorem test_mulS : (after (.mulS 3#5 1#5 2#5) (fpState 0x40000000#32 0x40400000#32 0#32)).f 3#5 = 0x40C00000#32 := by decide

theorem test_mulS_underflow :
    let t := after (.mulS 3#5 1#5 2#5) (fpState 0x00800000#32 0x3F000000#32 0#32)
    t.f 3#5 = 0#32 ∧ t.ee.fcr31 = 0x4008#32 := by decide

theorem test_divS : (after (.divS 3#5 1#5 2#5) (fpState 0x3F800000#32 0x40800000#32 0#32)).f 3#5 = 0x3E800000#32 := by decide

theorem test_divS_by_zero :
    let t := after (.divS 3#5 1#5 2#5) (fpState 0x3F800000#32 0#32 0#32)
    t.f 3#5 = 0x7F7FFFFF#32 ∧ t.ee.fcr31 = 0x8010#32 := by decide

theorem test_maddS : (after (.maddS 3#5 1#5 2#5) (fpState 0x40000000#32 0x40400000#32 0x3F800000#32)).f 3#5 = 0x40E00000#32 := by
  decide

theorem test_msubS : (after (.msubS 3#5 1#5 2#5) (fpState 0x40000000#32 0x40400000#32 0x3F800000#32)).f 3#5 = 0xC0A00000#32 := by
  decide

/-- The rounded product is already infinite (spec/95_test_vectors.md, line 389). -/
theorem test_maddS_product_overflow :
    let t := after (.maddS 3#5 1#5 2#5) (fpState 0x7F7FFFFF#32 0x40000000#32 0xFF7FFFFF#32)
    t.f 3#5 = 0x7F7FFFFF#32 ∧ t.ee.fcr31 = 0x8010#32 := by decide

/-- 2^-100 × 2^-100 is not zero and too small for a normal number (law L2, R306). -/
theorem test_mulS_far_below :
    let t := after (.mulS 3#5 1#5 2#5) (fpState 0x0D800000#32 0x8D800000#32 0#32)
    t.f 3#5 = 0x80000000#32 ∧ t.ee.fcr31 = 0x4008#32 := by decide

/-! ### The translator: the vectors of spec/95_test_vectors.md, B7 -/

/-- The table of B7. -/
def vectorTable : Vector TlbEntry 48 :=
  ((((EECore.reset.tlb.set 0 ⟨0#12, 0x00001#19, 0#8, true, false, ⟨0x10#20, 0#3, true, true⟩, ⟨0x11#20, 0#3, false, true⟩⟩).set
    1 ⟨3#12, 0x00004#19, 5#8, false, false, ⟨0x120#20, 0#3, true, false⟩, ⟨0x125#20, 0#3, true, true⟩⟩).set
    2 ⟨0#12, 0x38000#19, 0#8, true, true, ⟨0#20, 0#3, true, true⟩, ⟨0#20, 0#3, true, true⟩⟩).set
    3 ⟨0#12, 0x00001#19, 0#8, true, false, ⟨0x99#20, 0#3, true, true⟩, ⟨0x99#20, 0#3, true, true⟩⟩)

/-- EE with that table, a Status and a current identifier. -/
def vectorState (status asid : Word) : State :=
  { withStatus status State.reset with
    ee := { (withStatus status State.reset).ee with tlb := vectorTable, entryHi := asid } }

theorem test_translate_ee_windows :
    [(0x80000000#32, AccessKind.fetch, 0#32), (0x9FFFFFFF#32, .load, 0x1FFFFFFF#32), (0xA0000004#32, .store, 4#32),
      (0xBFC00000#32, .fetch, 0x1FC00000#32)].all
      (fun p => translate p.1 p.2.1 (vectorState 4#32 5#32) = .ok p.2.2) = true := by decide

theorem test_translate_ee_pages :
    [(0x2ABC#32, AccessKind.load, 0x10ABC#32), (0x3ABC#32, .load, 0x11ABC#32), (0xC123#32, .load, 0x124123#32),
      (0xF123#32, .store, 0x127123#32), (0x70000010#32, .store, 0x70000010#32), (0x70001FFC#32, .load, 0x70001FFC#32)].all
      (fun p => translate p.1 p.2.1 (vectorState 4#32 5#32) = .ok p.2.2) = true := by decide

theorem test_translate_ee_faults :
    translate 0x3ABC#32 .store (vectorState 4#32 5#32) = .fault (.translationModified 0x3ABC#32 .store) ∧
    translate 0x8123#32 .load (vectorState 4#32 5#32) = .fault (.translationInvalid 0x8123#32 .loadOrFetch) ∧
    translate 0xC123#32 .load (vectorState 4#32 6#32) = .fault (.translationMiss 0xC123#32 .loadOrFetch) ∧
    translate 0x70003FFC#32 .load (vectorState 4#32 5#32) = .fault (.translationMiss 0x70003FFC#32 .loadOrFetch) ∧
    translate 0x4000#32 .load (vectorState 4#32 5#32) = .fault (.translationMiss 0x4000#32 .loadOrFetch) ∧
    translate 0xC0000000#32 .load (vectorState 4#32 5#32) = .fault (.translationMiss 0xC0000000#32 .loadOrFetch) := by decide

theorem test_translate_ee_modes :
    translate 0x80000000#32 .load (vectorState 0x10#32 5#32) = .fault (.addressError 0x80000000#32 .loadOrFetch) ∧
    translate 0x80000000#32 .store (vectorState 0x10#32 5#32) = .fault (.addressError 0x80000000#32 .store) ∧
    translate 0x2ABC#32 .load (vectorState 0x10#32 5#32) = .ok 0x10ABC#32 ∧
    translate 0x7FFFFFFF#32 .load (vectorState 0x10#32 5#32) = .fault (.translationMiss 0x7FFFFFFF#32 .loadOrFetch) ∧
    translate 0x80000000#32 .load (vectorState 0x12#32 5#32) = .ok 0#32 ∧
    translate 0x80000000#32 .load (vectorState 0x08#32 5#32) = .abort .unimplementedMode := by decide

theorem test_translate_iop :
    [(0x80001000#32, 0x1000#32), (0xA0001000#32, 0x1000#32), (0xBFC00000#32, 0x1FC00000#32), (0xFFC00000#32, 0x1FC00000#32),
      (0xFFFFFFFC#32, 0x1FFFFFFC#32), (0x001FFFFF#32, 0x001FFFFF#32)].all
      (fun p => translate p.1 .load (onIOP []) = .ok p.2) = true ∧
    translate 0x00200000#32 .load (onIOP []) = .abort .unimplementedStage2 ∧
    translate 0xC0000000#32 .load (onIOP []) = .abort .unimplementedStage2 ∧
    translate 0x80000000#32 .load (withStatus 2#32 (onIOP [])) = .fault (.addressError 0x80000000#32 .loadOrFetch) ∧
    translate 0x1000#32 .load (withStatus 2#32 (onIOP [])) = .abort .unimplementedStage2 := by decide

/-! ### Exceptions: the vectors of spec/95_test_vectors.md, B8 -/

/-- EE, Status 0, about to run the instruction at 0x80001000. -/
def handlerless (status : Word) (regs : List (RegIdx × Quad)) : State := withStatus status (at_ 0x80001000#32 (onEE regs))

/-- X1: a misaligned load in a slot records the branch, and the next step dispatches it. -/
theorem test_x1_slot_fault :
    let s := withTracker (.pending 0x80001010#32 0) (at_ 0x80001004#32 (handlerless 0#32 [(1#5, 0x80000100#128)]))
    let t := stepped (after (.lw 2#5 1#5 1#16) s)
    t.ctl.epc = 0x80001000#32 ∧ t.ctl.cause = 0x80000010#32 ∧ t.ctl.badVAddr = 0x80000101#32 ∧ t.ctl.status = 2#32 ∧
      t.ctl.bd = .idle ∧ t.ctl.pc = 0x80000180#32 := by decide

/-- X3: an eligible interrupt beats a queued overflow, which is discarded. -/
theorem test_x3_interrupt_first :
    let s := after (.add 3#5 1#5 2#5) (handlerless 0x00010401#32 [(1#5, 0x7FFFFFFF#128), (2#5, 1#128)])
    let t := stepped { s with ee := { s.ee with int0 := true } }
    t.ctl.epc = 0x80001000#32 ∧ t.ctl.cause = 0x400#32 ∧ t.ctl.status = 0x00010403#32 ∧ t.ctl.xq = [] ∧
      t.ctl.pc = 0x80000180#32 := by decide

/-- X4: CoprocessorUnusable(1). -/
theorem test_x4_coprocessor_unusable :
    let t := stepped (after (.addS 3#5 1#5 2#5) (handlerless 0#32 []))
    t.ctl.cause = 0x1000002C#32 ∧ t.ctl.epc = 0x80001000#32 ∧ t.ctl.status = 2#32 := by decide

/-- X7: a miss records the page in EntryHi and keeps the identifier. -/
theorem test_x7_miss :
    let s := handlerless 0#32 [(1#5, 0x4000#128)]
    let t := stepped (after (.lw 2#5 1#5 0#16) { s with ee := { s.ee with entryHi := 7#32 } })
    t.ctl.cause = 8#32 ∧ t.ctl.badVAddr = 0x4000#32 ∧ t.ee.entryHi = 0x4007#32 ∧ t.ctl.epc = 0x80001000#32 := by decide

/-- X10: branch and slot done, the interrupt returns to the target. -/
theorem test_x10_return_to_target :
    let s := withTracker (.pending 0x80001010#32 0) (at_ 0x80001008#32 (handlerless 0x00010401#32 []))
    let t := stepped { s with ee := { s.ee with int0 := true } }
    t.ctl.epc = 0x80001010#32 ∧ t.ctl.cause = 0x400#32 ∧ t.ctl.bd = .idle := by decide

/-- X12 and X1b: IOP, a misaligned fetch, then its dispatch. -/
theorem test_x12_misaligned_fetch :
    let t := stepped (at_ 0x80001001#32 (onIOP []))
    t.ctl.xq = [⟨.addressError 0x80001001#32 .loadOrFetch, 0x80001001#32, false⟩] ∧ t.ctl.pc = 0x80001001#32 ∧
      (stepped t).ctl.epc = 0x80001001#32 ∧ (stepped t).ctl.cause = 0x10#32 ∧ (stepped t).ctl.pc = 0x80000080#32 := by decide

/-- Eligibility on EE with line INT0 raised (B8, last paragraph). -/
theorem test_eligibility :
    [0x00010001#32, 0x00000401#32, 0x00010400#32, 0x00010403#32, 0x00010405#32].all
      (fun w => !eligible .ee { State.reset.ctl with status := w, cause := 0x400#32 }) = true ∧
    eligible .ee { State.reset.ctl with status := 0x00010401#32, cause := 0x400#32 } = true ∧
    eligible .iop { State.reset.ctl with status := 0x00000401#32, cause := 0x400#32 } = true ∧
    eligible .iop { State.reset.ctl with status := 0x00000400#32, cause := 0x400#32 } = false ∧
    eligible .iop { State.reset.ctl with status := 0x00000001#32, cause := 0x400#32 } = false := by decide

/-! ### The mapper (R82, R83) -/

/-- A platform with RAM, a word register, a quad register, a constant block and a register with functions of its own. -/
def platform : List MappedObject :=
  [⟨0, .ram 0x2000⟩, ⟨0x3000, .register .w32 .plain⟩, ⟨0x4000, .register .w128 .plain⟩,
   ⟨0x5000, .constant 8 [0xAB#8, 0xCD#8]⟩, ⟨0x6000, .register .w32 (.custom 1)⟩, ⟨0x1FC00000, .ram 0x1000⟩]

theorem test_mapper :
    physMapValid platform = true ∧ locate platform 0x2000#32 4 = .error .unmapped ∧
    locate platform 0x3000#32 2 = .error .sizeViolation ∧ locate platform 0x3002#32 4 = .error .alignViolation ∧
    locate platform 0x4008#32 8 = .ok (⟨0x4000, .register .w128 .plain⟩, 8) ∧
    locate platform 0x1FF8#32 16 = .error .alignViolation := by decide

/-- EE on that platform. -/
def onPlatform (regs : List (RegIdx × Quad)) : State := { onEE regs with physMap := platform }

theorem test_constant_block : (after (.lw 2#5 1#5 0#16) (onPlatform [(1#5, 0x80005000#128)])).q 2#5 = 0xFFFFFFFFCDABCDAB#128 := by
  decide

theorem test_bus_abort :
    (after (.lw 2#5 1#5 0#16) (onPlatform [(1#5, 0x80002000#128)])).run =
      .aborted (.bus .unmapped 0x2000#32 4 .read) ⟨.ee, 0xBFC00000#32, none, 0#64⟩ := by decide

/-! ### Steps -/

/-- The word placed for the next fetch is the one that runs, on the core whose table has its row. -/
theorem test_fetch_word_ee :
    (stepped (State.reset.withFetchWord 32 0x24020007)).ee.gpr[2] = 7#128 ∧
    (stepped (State.reset.withFetchWord 32 0x24020007)).ee.ctl.pc = 0xBFC00004#32 ∧
    (stepped (State.reset.withFetchWord 32 0x24020007)).ee.ctl.cyclesTotal = 1#64 := by decide

theorem test_fetch_word_iop :
    (stepped (State.reset.withFetchWord 32 0x42000010)).turn = .iop ∧
    (stepped (State.reset.withFetchWord 32 0x42000010)).iop.ctl.pc = 0xBFC00004#32 := by decide

/-- An unknown word logs and advances (R180). -/
theorem test_unknown_word :
    (stepped (State.reset.withFetchWord 32 0x0000000C)).log = [.unknownInstruction .ee 0xBFC00000#32 0x0000000C#32] ∧
    (stepped (State.reset.withFetchWord 32 0x0000000C)).ctl.pc = 0xBFC00004#32 := by decide

/-- The scheduler's agenda: the IOP steps, then a line of EE rises. -/
theorem test_agenda :
    (stepped { State.reset with agenda := [.step .iop] }).iop.ctl.pc = 0xBFC00004#32 ∧
    (stepped { State.reset with agenda := [.eeLines true false false] }).ee.int0 = true := by decide


/-! ### States and operands that meet the hypotheses of the statements

Each theorem is named after a statement of Certificates/Slice0/Obligations.lean and gives one state with operands for every
clause that has hypotheses of its own, at a boundary of its range where it has one. -/

/-- Whether a transition gives a next state. -/
def steps (s : State) : Bool :=
  match step s with
  | .next _ => true
  | .fault _ => false
  | .refused _ => false

theorem step_of_steps {s : State} (h : steps s = true) : step s = .next (stepped s) := by
  unfold steps at h
  unfold stepped
  split at h <;> simp_all

/-- An access that reaches RAM is plain. -/
theorem plain_of_locate {s : State} {pa : Word} {n off size base : Nat}
    (h : locate s.physMap pa n = .ok (⟨base, .ram size⟩, off)) : PlainAccess s pa n := ⟨_, _, h, .inl ⟨size, rfl⟩⟩

theorem plain_register {s : State} {pa : Word} {n off base : Nat} {w : RegWidth}
    (h : locate s.physMap pa n = .ok (⟨base, .register w .plain⟩, off)) : PlainAccess s pa n := ⟨_, _, h, .inr ⟨w, rfl⟩⟩

theorem witness_DecodeOfEncode : Instr.rfe.wf .iop = true ∧ (Instr.msubS 31#5 0#5 31#5).wf .ee = true := by decide

/-- The first and the last row of the map, each with a word that matches it on a core that has it. -/
theorem witness_DecodeFollowsTheMap :
    decode .ee 0x460208DD#32 = .row (.msubS 3#5 1#5 2#5) ∧
    (opcodeTable[0]?.any fun r => r.on .iop && r.matches 0x00021900#32) = true ∧
    (opcodeTable[56]?.any fun r => r.on .ee && r.matches 0x460208DD#32) = true := by decide

theorem witness_IgnoredBitsAreIgnored : decode .ee 0x421FFFD8#32 = .row .eret ∧ decode .iop 0x421FFFD0#32 = .row .rfe := by
  decide

theorem witness_ForeignRowIsNoOperation :
    Instr.rfe.wf (onEE []).turn = false ∧ Instr.eret.wf (onIOP []).turn = false := by decide

theorem witness_CellRoundTrip :
    cellSupports 128 8 15 = true ∧ cellSupports 128 8 16 = false ∧ cellSupports 32 32 0 = true ∧
    cellSupports 32 64 0 = false := by decide

theorem witness_EqualReadsEqualMemories :
    ∃ m n : Memory, Memory.wf m = true ∧ Memory.wf n = true ∧ ∀ a, Memory.read m a = Memory.read n a :=
  ⟨Memory.writeLE [] 0xFFFFFFFC 4 0x11223344, Memory.write (Memory.writeLE [] 0xFFFFFFFC 4 0x11223344) 7 0#8, by decide,
    by decide, by
      have h : Memory.write (Memory.writeLE [] 0xFFFFFFFC 4 0x11223344) 7 0#8 = Memory.writeLE [] 0xFFFFFFFC 4 0x11223344 := by
        decide
      simp [h]⟩

theorem witness_WrittenValueReadsBack :
    Memory.wf (onPlatform []).mem = true ∧ PlainAccess (onPlatform []) 0x1FF0#32 16 ∧
    PlainAccess (onPlatform []) 0x400F#32 1 ∧
    locate (onPlatform []).physMap 0x5007#32 1 = .ok (⟨0x5000, .constant 8 [0xAB#8, 0xCD#8]⟩, 7) :=
  ⟨by decide, plain_of_locate (off := 0x1FF0) (size := 0x2000) (base := 0) (by decide),
    plain_register (off := 15) (base := 0x4000) (w := .w128) (by decide), by decide⟩

/-- The last byte of an object, the first byte after it, a wrong size, and a misaligned offset. -/
theorem witness_MapperFindsTheObject :
    physMapValid platform = true ∧
    (∀ o ∈ platform, ¬ (o.base ≤ (0x2000#32).toNat ∧ (0x2000#32).toNat ≤ o.base + o.extent - 1 ∧ 0 < o.extent)) ∧
    (⟨0, .ram 0x2000⟩ : MappedObject) ∈ platform ∧ (0x1FFF#32).toNat < 0 + MappedObject.extent ⟨0, .ram 0x2000⟩ ∧
    Accepts (.ram 0x2000) 1 ∧ ¬ Accepts (.ram 0x2000) 3 ∧ Accepts (.ram 0x2000) 2 ∧ 0x1FFF % 2 ≠ 0 := by
  refine ⟨by decide, by decide, by decide, by decide, ?_, ?_, ?_, by decide⟩ <;> simp [Accepts]

theorem witness_KernelModeWindows :
    kernelMode (onEE []).turn (onEE []).ctl.status = true ∧ kernelMode (onIOP []).turn (onIOP []).ctl.status = true ∧
    0x80000000#32 ≤ 0x9FFFFFFF#32 ∧ 0xA0000000#32 ≤ 0xBFFFFFFF#32 ∧ 0x001FFFFF#32 < 0x00200000#32 ∧
    0x00200000#32 < 0x80000000#32 ∧ 0xBFFFFFFF#32 < 0xFFBFFFFF#32 ∧ 0xFFBFFFFF#32 < 0xFFC00000#32 := by decide

theorem witness_UserSegmentBound :
    userMode (withStatus 0x10#32 (onEE [])).turn (withStatus 0x10#32 (onEE [])).ctl.status = true ∧
    userMode (withStatus 2#32 (onIOP [])).turn (withStatus 2#32 (onIOP [])).ctl.status = true ∧
    0x7FFFFFFF#32 < 0x80000000#32 ∧ 0x7FFFFFFF#32 ≤ 0x7FFFFFFF#32 := by decide

theorem witness_UnimplementedPathsAbort :
    kernelMode (withStatus 8#32 (onEE [])).turn (withStatus 8#32 (onEE [])).ctl.status = false ∧
    userMode (withStatus 8#32 (onEE [])).turn (withStatus 8#32 (onEE [])).ctl.status = false ∧
    (withStatus 2#32 (onIOP [])).turn = .iop ∧
    userMode (withStatus 2#32 (onIOP [])).turn (withStatus 2#32 (onIOP [])).ctl.status = true ∧
    kernelMode (onIOP []).turn (onIOP []).ctl.status = true ∧ 0x001FFFFF#32 < 0x00200000#32 ∧
    0xFFBFFFFF#32 < 0xFFC00000#32 := by decide

/-- Whether an entry has the page number of an address, by the nineteen bits of it. -/
def pageAgreesB (e : TlbEntry) (va : Word) : Bool :=
  (List.range 19).all fun k => e.mask.getLsbD k || (va.getLsbD (13 + k) == e.vpn2.getLsbD k)

theorem pageAgrees_iff (e : TlbEntry) (va : Word) : PageAgrees e va ↔ pageAgreesB e va = true := by
  simp only [PageAgrees, pageAgreesB, List.all_eq_true, List.mem_range, Bool.or_eq_true, beq_iff_eq]
  constructor
  · intro h k hk
    cases hm : e.mask.getLsbD k
    · exact .inr (h k hk hm)
    · exact .inl rfl
  · intro h k hk hm
    rcases h k hk with h | h
    · rw [hm] at h; contradiction
    · exact h

/-- The entry that decides an address of the table of B7: its index, with no earlier one that agrees. -/
def decides (va : Word) (i : Fin 48) : Bool :=
  pageAgreesB vectorTable[i] va && (List.finRange 48).all (fun j => decide (i ≤ j) || !pageAgreesB vectorTable[j] va)

/-- No entry; an entry that is not global under another identifier; an even sub-page that is invalid, an odd one that may not
be modified, and one that translates; the scratchpad. -/
theorem witness_TableLookup :
    (vectorState 4#32 5#32).turn = .ee ∧
    (∀ i (h : i < 48), ¬ PageAgrees (vectorState 4#32 5#32).ee.tlb[i] 0xE0000000#32) ∧
    decides 0xC123#32 1 = true ∧ decides 0x8123#32 1 = true ∧ decides 0x2ABC#32 0 = true ∧ decides 0x3ABC#32 0 = true ∧
    decides 0x70000010#32 2 = true ∧
    (vectorTable[1].mask, 14) ∈ pageOffsetBits ∧ (vectorTable[0].mask, 12) ∈ pageOffsetBits ∧
    vectorTable[1].g = false ∧ vectorTable[1].asid ≠ (vectorState 4#32 6#32).ee.entryHi.extractLsb' 0 8 ∧
    vectorTable[1].asid = (vectorState 4#32 5#32).ee.entryHi.extractLsb' 0 8 ∧
    (0x8123#32).getLsbD 14 = false ∧ vectorTable[1].even.v = false ∧
    (0x3ABC#32).getLsbD 12 = true ∧ vectorTable[0].g = true ∧ vectorTable[0].odd.v = true ∧ vectorTable[0].odd.d = false ∧
    (0x2ABC#32).getLsbD 12 = false ∧ vectorTable[0].even.d = true ∧ vectorTable[2].s = true := by
  refine ⟨by decide, ?_, by decide⟩
  have h : ∀ i : Fin 48, pageAgreesB (vectorState 4#32 5#32).ee.tlb[i] 0xE0000000#32 = false := by decide
  intro i hi
  rw [pageAgrees_iff]
  have := h ⟨i, hi⟩
  simp_all

/-- The states of the loads and stores: register 1 is 0x80000100 in both instances. -/
def based (c : CoreId) : State := { image (onEE [(1#5, 0x80000100#128), (2#5, 7#128)]) with
  turn := c, iop := (image (onIOP [(1#5, 0x80000100#32), (2#5, 7#32)])).iop }

theorem witness_MisalignedAccessRaises :
    (Instr.lh 2#5 1#5 1#16).wf .iop = true ∧ (accessAddress (based .iop) 1#5 1#16 2).toNat % 2 ≠ 0 ∧
    IsLoad (.lh 2#5 1#5 1#16) 2#5 1#5 1#16 2 ∧
    (Instr.sd 0#5 1#5 7#16).wf .ee = true ∧ (accessAddress (based .ee) 1#5 7#16 8).toNat % 8 ≠ 0 ∧
    IsStore (.sd 0#5 1#5 7#16) 0#5 1#5 7#16 8 := ⟨by decide, by decide, .lh .., by decide, by decide, .sd ..⟩

/-- A translation that faults (no entry), one that aborts (Stage 2 on IOP), and an address no object contains, by a load and a
store. -/
theorem witness_FailedAccessEndsInstruction :
    IsLoad (.lw 2#5 1#5 0#16) 2#5 1#5 0#16 4 ∧ IsStore (.sw 2#5 1#5 0#16) 2#5 1#5 0#16 4 ∧
    (∃ k, translate (accessAddress (onEE [(1#5, 0x4000#128)]) 1#5 0#16 4) .load (onEE [(1#5, 0x4000#128)]) = .fault k) ∧
    (∃ k, translate (accessAddress (onEE [(1#5, 0x4000#128)]) 1#5 0#16 4) .store (onEE [(1#5, 0x4000#128)]) = .fault k) ∧
    (∃ r, translate (accessAddress (onIOP [(1#5, 0x200000#32)]) 1#5 0#16 4) .load (onIOP [(1#5, 0x200000#32)]) = .abort r) ∧
    translate (accessAddress (onPlatform [(1#5, 0x80002000#128)]) 1#5 0#16 4) .store (onPlatform [(1#5, 0x80002000#128)]) =
      .ok 0x2000#32 ∧ locate (onPlatform []).physMap 0x2000#32 4 = .error .unmapped :=
  ⟨.lw .., .sw .., ⟨.translationMiss 0x4000#32 .loadOrFetch, by decide⟩, ⟨.translationMiss 0x4000#32 .store, by decide⟩,
    ⟨.unimplementedStage2, by decide⟩, by decide, by decide⟩

/-- RAM on both cores, and a word register object. -/
theorem witness_LoadsReadMemory :
    translate (accessAddress (based .iop) 1#5 4#16 1) .load (based .iop) = .ok 0x104#32 ∧
    PlainAccess (based .iop) 0x104#32 1 ∧ PlainAccess (based .iop) 0x104#32 2 ∧ PlainAccess (based .iop) 0x104#32 4 ∧
    (accessAddress (based .iop) 1#5 4#16 2).toNat % 2 = 0 ∧ (accessAddress (based .iop) 1#5 4#16 4).toNat % 4 = 0 ∧
    translate (accessAddress (onPlatform [(1#5, 0x80003000#128)]) 1#5 0#16 1) .load (onPlatform [(1#5, 0x80003000#128)]) =
      .ok 0x3000#32 ∧
    PlainAccess (onPlatform [(1#5, 0x80003000#128)]) 0x3000#32 4 :=
  ⟨by decide, plain_of_locate (off := 0x104) (size := 2 ^ 32) (base := 0) (by decide),
    plain_of_locate (off := 0x104) (size := 2 ^ 32) (base := 0) (by decide),
    plain_of_locate (off := 0x104) (size := 2 ^ 32) (base := 0) (by decide), by decide, by decide, by decide,
    plain_register (off := 0) (base := 0x3000) (w := .w32) (by decide)⟩

/-- The quad address 0x80000103 has its low four bits cleared. -/
theorem witness_EeLoadsReadMemory :
    (based .ee).turn = .ee ∧ translate (accessAddress (based .ee) 1#5 8#16 4) .load (based .ee) = .ok 0x108#32 ∧
    PlainAccess (based .ee) 0x108#32 4 ∧ (accessAddress (based .ee) 1#5 8#16 4).toNat % 4 = 0 ∧
    translate (accessAddress (based .ee) 1#5 8#16 8) .load (based .ee) = .ok 0x108#32 ∧
    PlainAccess (based .ee) 0x108#32 8 ∧ (accessAddress (based .ee) 1#5 8#16 8).toNat % 8 = 0 ∧
    translate (accessAddress (based .ee) 1#5 3#16 16) .load (based .ee) = .ok 0x100#32 ∧
    PlainAccess (based .ee) 0x100#32 16 :=
  ⟨by decide, by decide, plain_of_locate (off := 0x108) (size := 2 ^ 32) (base := 0) (by decide), by decide, by decide,
    plain_of_locate (off := 0x108) (size := 2 ^ 32) (base := 0) (by decide), by decide, by decide,
    plain_of_locate (off := 0x100) (size := 2 ^ 32) (base := 0) (by decide)⟩

theorem witness_StoresWriteMemory :
    Memory.wf (based .iop).mem = true ∧ translate (accessAddress (based .iop) 1#5 4#16 1) .store (based .iop) = .ok 0x104#32 ∧
    PlainAccess (based .iop) 0x104#32 1 ∧ PlainAccess (based .iop) 0x104#32 2 ∧ PlainAccess (based .iop) 0x104#32 4 ∧
    (accessAddress (based .iop) 1#5 4#16 2).toNat % 2 = 0 ∧ (accessAddress (based .iop) 1#5 4#16 4).toNat % 4 = 0 :=
  ⟨by decide, by decide, plain_of_locate (off := 0x104) (size := 2 ^ 32) (base := 0) (by decide),
    plain_of_locate (off := 0x104) (size := 2 ^ 32) (base := 0) (by decide),
    plain_of_locate (off := 0x104) (size := 2 ^ 32) (base := 0) (by decide), by decide, by decide⟩

theorem witness_EeStoresWriteMemory :
    (based .ee).turn = .ee ∧ Memory.wf (based .ee).mem = true ∧
    translate (accessAddress (based .ee) 1#5 8#16 8) .store (based .ee) = .ok 0x108#32 ∧
    PlainAccess (based .ee) 0x108#32 8 ∧ (accessAddress (based .ee) 1#5 8#16 8).toNat % 8 = 0 ∧
    translate (accessAddress (based .ee) 1#5 3#16 16) .store (based .ee) = .ok 0x100#32 ∧
    PlainAccess (based .ee) 0x100#32 16 :=
  ⟨by decide, by decide, by decide, plain_of_locate (off := 0x108) (size := 2 ^ 32) (base := 0) (by decide), by decide,
    by decide, plain_of_locate (off := 0x100) (size := 2 ^ 32) (base := 0) (by decide)⟩

/-- A register object with functions of its own, read and written on EE, a signed half and an unsigned byte of a constant block,
and a write on IOP. -/
theorem witness_AccessOfAnyObject :
    (Instr.lw 2#5 1#5 0#16).wf .ee = true ∧
    (∃ v u, IsLoad (.lw 2#5 1#5 0#16) 2#5 1#5 0#16 4 ∧
      translate (accessAddress (onPlatform [(1#5, 0x80006000#128)]) 1#5 0#16 4) .load (onPlatform [(1#5, 0x80006000#128)]) =
        .ok 0x6000#32 ∧ physRead 0x6000#32 4 (onPlatform [(1#5, 0x80006000#128)]) = .ok (v, u)) ∧
    (∃ u, IsLoad (.lh 2#5 1#5 6#16) 2#5 1#5 6#16 2 ∧ IsLoad (.lhu 2#5 1#5 6#16) 2#5 1#5 6#16 2 ∧
      translate (accessAddress (onPlatform [(1#5, 0x80005000#128)]) 1#5 6#16 2) .load (onPlatform [(1#5, 0x80005000#128)]) =
        .ok 0x5006#32 ∧ physRead 0x5006#32 2 (onPlatform [(1#5, 0x80005000#128)]) = .ok (0xCDAB#16, u)) ∧
    (∃ u, IsStore (.sw 2#5 1#5 0#16) 2#5 1#5 0#16 4 ∧
      translate (accessAddress (onPlatform [(1#5, 0x80006000#128)]) 1#5 0#16 4) .store (onPlatform [(1#5, 0x80006000#128)]) =
        .ok 0x6000#32 ∧ physWrite 0x6000#32 4 7#32 (onPlatform [(1#5, 0x80006000#128)]) = .ok u) ∧
    (∃ u, translate (accessAddress (based .iop) 1#5 0#16 4) .store (based .iop) = .ok 0x100#32 ∧
      physWrite 0x100#32 4 7#32 (based .iop) = .ok u) :=
  ⟨by decide, ⟨_, _, .lw .., by decide, rfl⟩, ⟨_, .lh .., .lhu .., by decide, rfl⟩, ⟨_, .sw .., by decide, rfl⟩,
    ⟨_, by decide, rfl⟩⟩

theorem witness_FetchSeesStores :
    Memory.wf State.reset.mem = true ∧ PlainAccess State.reset 0x1FC00000#32 4 ∧ State.reset.ctl.pc.toNat % 4 = 0 ∧
    translate State.reset.ctl.pc .fetch State.reset = .ok 0x1FC00000#32 ∧
    ∃ t, physWrite 0x1FC00000#32 4 0x24020007#32 State.reset = .ok t :=
  ⟨by decide, plain_of_locate (off := 0x1FC00000) (size := 2 ^ 32) (base := 0) (by decide), by decide, by decide, ⟨_, rfl⟩⟩

/-- The greatest sum that fits, and the least that does not; likewise below. -/
theorem witness_CheckedRows :
    ((onIOP [(1#5, 0x7FFFFFFF#32)]).x 1#5 32).toInt + ((onIOP []).x 2#5 32).toInt = 2 ^ 31 - 1 ∧
    ((onIOP [(1#5, 0x80000000#32)]).x 1#5 32).toInt - ((onIOP []).x 2#5 32).toInt = -2 ^ 31 ∧
    ((onIOP [(1#5, 0x7FFFFFFF#32)]).x 1#5 32).toInt + (1#16).toInt = 2 ^ 31 ∧
    ((onIOP [(1#5, 0x80000000#32)]).x 1#5 32).toInt + (0xFFFF#16).toInt = -2 ^ 31 - 1 := by decide

/-- Equal and unequal operands, these only above bit 31. -/
theorem witness_BranchRows :
    (onEE []).x 1#5 (onEE []).turn.xlen = (onEE []).x 2#5 (onEE []).turn.xlen ∧
    (onEE [(1#5, 0x100000000#128)]).x 1#5 (onEE []).turn.xlen ≠ (onEE [(1#5, 0x100000000#128)]).x 2#5 (onEE []).turn.xlen := by
  decide

theorem witness_LikelyRows :
    (onEE []).turn = .ee ∧ (onEE []).x 1#5 64 = (onEE []).x 2#5 64 ∧
    (onEE [(1#5, 0x100000000#128)]).x 1#5 64 ≠ (onEE [(1#5, 0x100000000#128)]).x 2#5 64 := by decide

theorem witness_TrackerResolves :
    (onEE []).ctl.bd = .idle ∧ (withTracker (.pending 8#32 0) (onEE [])).ctl.bd = .pending 8#32 0 ∧
    (withTracker (.pending 8#32 1) (onEE [])).ctl.bd = .pending 8#32 (0 + 1) := by decide

theorem witness_ControlRegisterReads :
    (onEE []).copUsable 0#2 = true ∧ (onEE []).turn = .ee ∧ (onIOP []).copUsable 0#2 = true ∧ (onIOP []).turn = .iop := by
  decide

/-- A register with a mask, and a number without one. -/
theorem witness_ControlRegisterWrites :
    (onEE []).copUsable 0#2 = true ∧ (onIOP []).copUsable 0#2 = true ∧ (30#5, 0xFFFFFFFF#32) ∈ eeWriteMasks ∧
    (13#5, 0x300#32) ∈ iopWriteMasks ∧ (∀ m, (31#5, m) ∉ eeWriteMasks) ∧ (∀ m, (0#5, m) ∉ iopWriteMasks) := by
  refine ⟨by decide, by decide, by decide, by decide, ?_, ?_⟩ <;> intro m h <;> simp [eeWriteMasks, iopWriteMasks] at h

theorem witness_EretReturns :
    (onEE []).turn = .ee ∧ (onEE []).copUsable 0#2 = true ∧ (onEE []).ctl.status.getLsbD 2 = true ∧
    (withStatus 0#32 (onEE [])).copUsable 0#2 = true ∧ (withStatus 0#32 (onEE [])).ctl.status.getLsbD 2 = false := by decide

theorem witness_RfePops : (onIOP []).turn = .iop ∧ (onIOP []).copUsable 0#2 = true := by decide

theorem witness_TlbwiWritesEntry :
    (tlbwiState 47#32).turn = .ee ∧ (tlbwiState 47#32).copUsable 0#2 = true ∧
    ((tlbwiState 47#32).ee.index.extractLsb' 0 6).toNat = 47 ∧ (tlbwiState 48#32).copUsable 0#2 = true ∧
    48 ≤ ((tlbwiState 48#32).ee.index.extractLsb' 0 6).toNat := by decide

theorem witness_CoprocessorUnusableRows :
    (withStatus 0x10#32 (onEE [])).copUsable 0#2 = false ∧ Instr.eret.wf (withStatus 0x10#32 (onEE [])).turn = true ∧
    (withStatus 2#32 (onIOP [])).copUsable 0#2 = false ∧ Instr.rfe.wf (withStatus 2#32 (onIOP [])).turn = true ∧
    (onEE []).copUsable 1#2 = false ∧ (Instr.msubS 3#5 1#5 2#5).wf (onEE []).turn = true := by decide

theorem witness_FloatingMoves : (fpState 0#32 0#32 0#32).turn = .ee ∧ (fpState 0#32 0#32 0#32).copUsable 1#2 = true := by decide

/-- A sum, an overflow and an underflow: the three classes. -/
theorem witness_FloatingArithmeticRows :
    (fpState 1#32 2#32 3#32).turn = .ee ∧ (fpState 1#32 2#32 3#32).copUsable 1#2 = true ∧
    (fpCompute .ieee .add 0x3FC00000#32 0x40100000#32 0#32).1 = .normal ∧
    (fpCompute .ieee .add 0xFF7FFFFF#32 0xFF7FFFFF#32 0#32).1 = .overflow ∧
    (fpCompute .ieee .mul 0x00800000#32 0x3F000000#32 0#32).1 = .underflow := by decide

/-- A zero, a number and an infinity among the operands; two tiny numbers, two large ones, a sum of opposite signs and a
quotient by zero; a clamp constant with the greatest exponent and a written zero. -/
theorem witness_WrittenValueIsFinite :
    Finite32 0x3F800000#32 ∧ Finite32 0x80000000#32 ∧ Infinite32 0xFF800000#32 ∧ fpFraction 0x80000000#32 = 0 ∧
    FpIdeal .add 0x3F800000#32 0xBF800000#32 0#32 0 ∧ FpIdeal .mul 0x0D800000#32 0x0D800000#32 0#32 (2 ^ (-200 : ℤ)) ∧
    FpInfinite .div 0xBF800000#32 0#32 0#32 true ∧ FpInfinite .add 0xFF800000#32 0x3F800000#32 0#32 true ∧
    (FpOp.div ≠ .madd ∧ FpOp.div ≠ .msub) ∧ (∀ ch, Reads ch 0x3F800000#32 1) ∧ (∀ ch, Reads ch 0#32 0) ∧
    (0x7F7FFFFF#32).extractLsb' 23 8 ≠ 255#8 ∧ (0x7F7FFFFF#32).extractLsb' 23 8 ≠ 0#8 ∧
    (fpClamp 0x7F7FFFFF#32 (fpCompute .ieee .sub 0#32 0#32 0#32).1 (fpCompute .ieee .sub 0#32 0#32 0#32).2).extractLsb' 23 8 =
      0#8 := by
  have e : fpExponent 0x3F800000#32 = 127 ∧ fpFraction 0x3F800000#32 = 0 ∧ fpExponent 0xBF800000#32 = 127 ∧
    fpFraction 0xBF800000#32 = 0 ∧ fpExponent 0x0D800000#32 = 27 ∧ fpFraction 0x0D800000#32 = 0 ∧
    fpExponent 0#32 = 0 ∧ fpFraction 0#32 = 0 := by decide
  obtain ⟨e1, e2, e3, e4, e5, e6, e7, e8⟩ := e
  refine ⟨by unfold Finite32; decide, by unfold Finite32; decide, by unfold Infinite32; decide, by decide,
    ⟨by unfold Finite32; decide, by unfold Finite32; decide, ?_⟩, ⟨by unfold Finite32; decide, by unfold Finite32; decide, ?_⟩,
    ⟨.inr ⟨by unfold Finite32; decide, ?_, by unfold Finite32; decide, ?_⟩, by decide⟩,
    .inl ⟨by unfold Infinite32; decide, .inl (by unfold Finite32; decide), by decide⟩, by decide, fun ch => ⟨false, 2 ^ 149, ?_, ?_⟩,
    fun ch => ⟨false, 0, ?_, by norm_num⟩, by decide, by decide, by decide⟩
  · simp [binary32, e1, e2, e3, e4]
  · simp [binary32, e5, e6]; norm_num
  · simp [binary32, e3, e4]
  · simp [binary32, e7, e8]
  · cases ch <;> rfl
  · norm_num
  · cases ch <;> rfl

/-- Whether an outcome of the sequencer is CTC1 to register 31. -/
def writesFcr31 : Front → Bool
  | .run (.ctc1 _ fs) _ => fs = 31#5
  | _ => false

theorem witness_StickyFlagsStay :
    let s := { State.reset with ee := { State.reset.ee with fcr31 := 0x18#32 } }
    step s = .next (stepped s) ∧ s.ee.fcr31.getLsbD 4 = true ∧ s.ee.fcr31.getLsbD 3 = true ∧
      ∀ rt u, front s ≠ .run (.ctc1 rt 31#5) u := by
  intro s
  refine ⟨step_of_steps (by decide), by decide, by decide, fun rt u h => ?_⟩
  have : writesFcr31 (front s) = false := by decide
  rw [h] at this
  simp [writesFcr31] at this

/-- A step due by the agenda, and one due by an empty agenda. -/
theorem witness_EveryStepMirrorsLines :
    CallsStep .iop { State.reset with agenda := [.step .iop] } ∧ CallsStep .ee State.reset ∧
    steps { State.reset with agenda := [.step .iop] } = true ∧ steps State.reset = true :=
  ⟨⟨rfl, by decide, .inr ⟨[], rfl⟩⟩, ⟨rfl, by decide, .inl ⟨rfl, rfl⟩⟩, by decide, by decide⟩

theorem witness_StepLeavesOtherInstance :
    CallsStep .iop { State.reset with agenda := [.step .iop] } ∧
    step { State.reset with agenda := [.step .iop] } = .next (stepped { State.reset with agenda := [.step .iop] }) :=
  ⟨⟨rfl, by decide, .inr ⟨[], rfl⟩⟩, step_of_steps (by decide)⟩

/-- With one record in the queue of the stepping core. -/
def queued (r : Record) (s : State) : State := s.setCtl { s.ctl with xq := [r] }

/-- With the EE line `int0` raised. -/
def raised (s : State) : State := { s with ee := { s.ee with int0 := true } }

/-- A step due by an empty agenda, and one due by an agenda entry. -/
theorem witness_QueuedRecordIsDispatched :
    let r : Record := ⟨.translationMiss 0x4000#32 .store, 0x80001000#32, true⟩
    let s := queued r (handlerless 0#32 [])
    let u := { s with turn := .iop, agenda := [.step .ee] }
    CallsStep .ee s ∧ (s.called .ee).ctl.xq = [r] ∧ eligible .ee (s.called .ee).mirrorLines.ctl = false ∧
    CallsStep .ee u ∧ (u.called .ee).ctl.xq = [r] ∧ eligible .ee (u.called .ee).mirrorLines.ctl = false :=
  ⟨⟨rfl, by decide, .inl ⟨rfl, rfl⟩⟩, by decide, by decide, ⟨rfl, by decide, .inr ⟨[], rfl⟩⟩, by decide, by decide⟩

/-- An empty queue in each case of the tracker, and a queue with one synchronous record, the step due by an agenda entry. -/
theorem witness_EligibleInterruptIsTaken :
    let s := { raised (handlerless 0x00010401#32 []) with agenda := [.step .ee] }
    let r : Record := ⟨.arithmeticOverflow, 0x80001000#32, false⟩
    CallsStep .ee s ∧ (s.called .ee).ctl.xq = [] ∧ (s.called .ee).ctl.bd = .idle ∧
      eligible .ee (s.called .ee).mirrorLines.ctl = true ∧
      ((withTracker (.pending 8#32 1) s).called .ee).ctl.bd = .pending 8#32 1 ∧
      eligible .ee ((withTracker (.pending 8#32 1) s).called .ee).mirrorLines.ctl = true ∧
      ((withTracker (.pending 8#32 0) s).called .ee).ctl.bd = .pending 8#32 0 ∧
      eligible .ee ((withTracker (.pending 8#32 0) s).called .ee).mirrorLines.ctl = true ∧
      ((queued r s).called .ee).ctl.xq = [r] ∧ r.synchronous = true ∧
      eligible .ee ((queued r s).called .ee).mirrorLines.ctl = true :=
  ⟨⟨rfl, by decide, .inr ⟨[], rfl⟩⟩, by decide⟩

theorem witness_ReturnUndoesEntry :
    (handlerless 0x00010401#32 []).turn = .ee ∧ (handlerless 0x00010401#32 []).ctl.status.getLsbD 2 = false ∧
    (onIOP []).turn = .iop := by decide

/-- A step that is due by an empty agenda and goes on to the fetch. -/
theorem ready_of_agenda {s : State} {c : CoreId}
    (h : s.run = .running ∧ physMapValid s.physMap = true ∧ s.agenda = [] ∧ s.turn = c)
    (q : (s.called c).ctl.xq = [] ∧ eligible c (s.called c).mirrorLines.ctl = false) : ReadyToFetch c s :=
  ⟨⟨h.1, h.2.1, .inl ⟨h.2.2.1, h.2.2.2⟩⟩, q.1, q.2⟩

/-- One that is due by an agenda entry. -/
theorem ready_of_entry {s : State} {c : CoreId} {rest : List Action} (a : s.agenda = .step c :: rest)
    (h : s.run = .running ∧ physMapValid s.physMap = true)
    (q : (s.called c).ctl.xq = [] ∧ eligible c (s.called c).mirrorLines.ctl = false) : ReadyToFetch c s :=
  ⟨⟨h.1, h.2, .inr ⟨rest, a⟩⟩, q.1, q.2⟩

/-- A machine whose only object is a constant block over the reset vector, with a step of IOP on the agenda. -/
def withROM (pattern : List Byte) : State :=
  { State.reset with physMap := [⟨0x1FC00000, .constant 0x1000 pattern⟩], agenda := [.step .iop] }

/-- ADDIU at the reset vector of EE, due by an empty agenda; and by an agenda entry, from a constant block (a boot ROM) that
reads as ADDIU. -/
theorem witness_StepRunsDecodedInstruction :
    (let s := State.reset.withFetchWord 32 0x24020007
     let b := s.beforeFetch .ee
     ReadyToFetch .ee s ∧ b.ctl.pc.toNat % 4 = 0 ∧ translate b.ctl.pc .fetch b = .ok 0x1FC00000#32 ∧
       PlainAccess b 0x1FC00000#32 4 ∧ ∃ u, physRead 0x1FC00000#32 4 b = .ok (0x24020007#32, u) ∧
         decode .ee 0x24020007#32 = .row (.addiu 2#5 0#5 7#16)) ∧
    (let s := withROM [0x07#8, 0x00#8, 0x02#8, 0x24#8]
     let b := s.beforeFetch .iop
     ReadyToFetch .iop s ∧ b.ctl.pc.toNat % 4 = 0 ∧ translate b.ctl.pc .fetch b = .ok 0x1FC00000#32 ∧
       ∃ u, physRead 0x1FC00000#32 4 b = .ok (0x24020007#32, u) ∧
         decode .iop 0x24020007#32 = .row (.addiu 2#5 0#5 7#16)) :=
  ⟨⟨ready_of_agenda (by decide) (by decide), by decide, by decide,
      plain_of_locate (off := 0x1FC00000) (size := 2 ^ 32) (base := 0) (by decide), _, rfl, by decide⟩,
    ready_of_entry rfl (by decide) (by decide), by decide, by decide, _, rfl, by decide⟩

/-- SYSCALL, which no table has, at the reset vector of EE, and from a constant block on IOP. -/
theorem witness_UnknownWordIsNoOperation :
    (let s := State.reset.withFetchWord 32 0x0000000C
     let b := s.beforeFetch .ee
     ReadyToFetch .ee s ∧ b.ctl.pc.toNat % 4 = 0 ∧ translate b.ctl.pc .fetch b = .ok 0x1FC00000#32 ∧
       PlainAccess b 0x1FC00000#32 4 ∧ ∃ u, physRead 0x1FC00000#32 4 b = .ok (0x0000000C#32, u) ∧
         decode .ee 0x0000000C#32 = .unknown) ∧
    (let s := withROM [0x0C#8, 0x00#8, 0x00#8, 0x00#8]
     let b := s.beforeFetch .iop
     ReadyToFetch .iop s ∧ b.ctl.pc.toNat % 4 = 0 ∧ translate b.ctl.pc .fetch b = .ok 0x1FC00000#32 ∧
       ∃ u, physRead 0x1FC00000#32 4 b = .ok (0x0000000C#32, u) ∧ decode .iop 0x0000000C#32 = .unknown) :=
  ⟨⟨ready_of_agenda (by decide) (by decide), by decide, by decide,
      plain_of_locate (off := 0x1FC00000) (size := 2 ^ 32) (base := 0) (by decide), _, rfl, by decide⟩,
    ready_of_entry rfl (by decide) (by decide), by decide, by decide, _, rfl, by decide⟩

/-- A misaligned `pc`, a page no entry has, Stage 2 on IOP by an agenda entry, and an address no object contains. -/
theorem witness_FailedFetchEndsStep :
    (ReadyToFetch .iop (at_ 0x80001001#32 (onIOP [])) ∧
      ((at_ 0x80001001#32 (onIOP [])).beforeFetch .iop).ctl.pc.toNat % 4 ≠ 0) ∧
    (ReadyToFetch .ee (at_ 0x4000#32 (onEE [])) ∧
      translate 0x4000#32 .fetch ((at_ 0x4000#32 (onEE [])).beforeFetch .ee) =
        .fault (.translationMiss 0x4000#32 .loadOrFetch)) ∧
    (let s := { at_ 0x200000#32 (onIOP []) with turn := .ee, agenda := [.step .iop] }
     ReadyToFetch .iop s ∧ translate 0x200000#32 .fetch (s.beforeFetch .iop) = .abort .unimplementedStage2) ∧
    (ReadyToFetch .ee (at_ 0x80002000#32 (onPlatform [])) ∧
      translate 0x80002000#32 .fetch ((at_ 0x80002000#32 (onPlatform [])).beforeFetch .ee) = .ok 0x2000#32 ∧
      locate (onPlatform []).physMap 0x2000#32 4 = .error .unmapped) :=
  ⟨⟨ready_of_agenda (by decide) (by decide), by decide⟩, ⟨ready_of_agenda (by decide) (by decide), by decide⟩,
    ⟨ready_of_entry rfl (by decide) (by decide), by decide⟩,
    ⟨ready_of_agenda (by decide) (by decide), by decide, by decide⟩⟩

theorem witness_WhenTheMachineStops :
    (State.reset.run = .running ∧ physMapValid State.reset.physMap = true) ∧
    (State.reset.abort .unimplementedMode).run = .aborted .unimplementedMode ⟨.ee, 0xBFC00000#32, none, 0#64⟩ ∧
    physMapValid ({ State.reset with physMap := [⟨0, .ram 16⟩, ⟨8, .ram 16⟩] } : State).physMap = false ∧
    physMapValid ({ State.reset with physMap := [⟨0, .ram (2 ^ 32 + 1)⟩] } : State).physMap = false := by decide

theorem witness_AgentsTouchNoRegister :
    let s := { State.reset with agenda := [Action.busWrite 0x100#32 4 7#128, .step .iop] }
    s.run = .running ∧ physMapValid s.physMap = true ∧ s.agenda = .busWrite 0x100#32 4 7#128 :: [.step .iop] ∧
      ∀ c, Action.busWrite 0x100#32 4 7#128 ≠ .step c := by
  refine ⟨rfl, by decide, rfl, fun c h => ?_⟩
  cases h

/-- TLBWI at the reset vector changes the table. -/
theorem witness_AccumulatorAndTableWriters :
    let s := { tlbwiState 3#32 with mem := (State.reset.withFetchWord 32 0x42000002).mem }
    step s = .next (stepped s) ∧ (stepped s).ee.tlb ≠ s.ee.tlb := by
  intro s
  refine ⟨step_of_steps (by decide), fun h => ?_⟩
  have : (stepped s).ee.tlb[3] ≠ s.ee.tlb[3] := by decide
  exact this (by rw [h])

/-- EE in user mode at the mapped page 0x2000, by an empty agenda and by an agenda entry. -/
theorem witness_UserCodeKeepsControlRegisters :
    let s := at_ 0x2000#32 (vectorState 0x10#32 5#32)
    let u := { s with turn := .iop, agenda := [.step .ee] }
    ReadyToFetch .ee s ∧ userMode .ee (s.called .ee).ctl.status = true ∧ (s.called .ee).ctl.status.getLsbD 28 = false ∧
      step s = .next (stepped s) ∧
    ReadyToFetch .ee u ∧ userMode .ee (u.called .ee).ctl.status = true ∧ (u.called .ee).ctl.status.getLsbD 28 = false ∧
      step u = .next (stepped u) :=
  ⟨ready_of_agenda (by decide) (by decide), by decide, by decide, step_of_steps (by decide),
    ready_of_entry rfl (by decide) (by decide), by decide, by decide, step_of_steps (by decide)⟩

theorem reservedClear_zero (c : CoreId) (n : RegIdx) : ReservedClear c n 0#32 := by simp [ReservedClear]

/-- EE with a record to dispatch, memory in use, IOP in a delay slot: the invariant holds, and the machine steps. -/
theorem witness_StepKeepsInvariant :
    let t := queued ⟨.arithmeticOverflow, 0x80001000#32, true⟩ (image State.reset)
    let s := { t with iop := { t.iop with ctl := { t.iop.ctl with bd := .pending 0x80001010#32 1 } } }
    Inv s ∧ step s = .next (stepped s) :=
  ⟨⟨by decide, by decide, by decide,
    ⟨by unfold ReservedClear; decide, reservedClear_zero .., .inl rfl, .inr ⟨_, rfl, rfl, by intro va h; cases h⟩⟩,
    ⟨reservedClear_zero .., reservedClear_zero .., .inr ⟨_, .inr rfl⟩, .inl rfl⟩,
    reservedClear_zero .., reservedClear_zero .., reservedClear_zero .., reservedClear_zero .., reservedClear_zero .., rfl⟩,
    step_of_steps (by decide)⟩

end Sys2Proof.Tests
end

section
/-! PROOF. What one transition can do, said once: a step of a core is a chain of single effects, and an external action
reaches lines and memory only. A statement about all steps is then a fact about each single effect. -/

namespace Sys2Proof.Machine

/-! ### The single effects of a step -/

/-- A kind that the fetch or a handler raises: its record is synchronous, and TranslationModified is for stores (R97,
R339). -/
def Raisable (k : ExcKind) : Prop := ∀ epc flag, RaisedRecord ⟨k, epc, flag⟩

theorem raisable_addressError (va : Word) (d : Dir) : Raisable (.addressError va d) := fun _ _ => ⟨rfl, nofun⟩
theorem raisable_translationMiss (va : Word) (d : Dir) : Raisable (.translationMiss va d) := fun _ _ => ⟨rfl, nofun⟩
theorem raisable_translationInvalid (va : Word) (d : Dir) : Raisable (.translationInvalid va d) := fun _ _ => ⟨rfl, nofun⟩
theorem raisable_translationModified (va : Word) : Raisable (.translationModified va .store) := fun _ _ => ⟨rfl, nofun⟩
theorem raisable_arithmeticOverflow : Raisable .arithmeticOverflow := fun _ _ => ⟨rfl, nofun⟩
theorem raisable_coprocessorUnusable (n : BitVec 2) : Raisable (.coprocessorUnusable n) := fun _ _ => ⟨rfl, nofun⟩

/-- The faults of an entry with an illegal mask can be raised (R103). -/
theorem illegalMaskTranslation_raisable {count : Nat} {e : TlbEntry} {va : Word} {kind : AccessKind} {k : ExcKind}
    (h : illegalMaskTranslation count e va kind = .fault k) : Raisable k := by
  unfold illegalMaskTranslation at h
  split at h
  · cases h
  · split at h
    · cases h; exact raisable_translationMiss _ _
    · split at h
      · cases h; exact raisable_translationInvalid _ _
      · cases h; exact raisable_translationModified _

/-- The faults of Stages 2 to 4 can be raised (R95 to R97). -/
theorem translateTable_raisable {ee : EECore} {count : Nat} {va : Word} {kind : AccessKind} {k : ExcKind}
    (h : translateTable ee count va kind = .fault k) : Raisable k := by
  unfold translateTable at h
  split at h
  · cases h; exact raisable_translationMiss _ _
  · split at h
    · exact illegalMaskTranslation_raisable h
    split at h
    · cases h; exact raisable_translationMiss _ _
    split at h
    · cases h; exact raisable_translationInvalid _ _
    split at h
    · cases h; exact raisable_translationModified _
    split at h <;> cases h

/-- Every fault of the translator can be raised (R90, R91). -/
theorem translate_raisable {va : Word} {kind : AccessKind} {s : State} {k : ExcKind}
    (h : translate va kind s = .fault k) : Raisable k := by
  have mapped : translateMapped va kind s = .fault k → Raisable k := fun h => by
    unfold translateMapped at h
    split at h
    · exact translateTable_raisable h
    · cases h
  unfold translate at h
  split at h
  · split at h
    · cases h; exact raisable_addressError _ _
    · exact mapped h
  · split at h
    · split at h
      · cases h
      · exact mapped h
    · cases h

/-- One effect that a step of the core of `turn` has on the state, when the step runs row `i` (`none` where it need run no
row). A raise finds the queue empty, and a word is in flight only while the run goes on. -/
inductive Effect (i : Option Instr) : State → State → Prop
  | mirrorLines (s : State) : Effect i s s.mirrorLines
  | dispatch (s : State) (r : Record) : Effect i s (s.sampleInterrupts.takeException r)
  | resolveBranchDelay (s : State) : Effect i s s.resolveBranchDelay
  | hold (s : State) (w : Word) (hr : s.run = .running) : Effect i s { s with inFlight := some w }
  | advance (s : State) : Effect i s s.advance
  | finish (s : State) (c : Nat) : Effect i s (s.finish c)
  | log (s : State) (e : Event) : Effect i s { s with log := s.log ++ [e] }
  | raise (s : State) (k : ExcKind) (hq : s.ctl.xq = []) (hk : Raisable k) : Effect i s (s.raise k)
  | abort (s : State) (w : Option Word) (r : AbortReason) : Effect i s (State.abort { s with inFlight := w } r)
  | arm (s : State) (target : Word) : Effect i s (s.arm target)
  | setX (s : State) (r : RegIdx) (v : (n : Nat) → BitVec n) : Effect i s (s.setX r v)
  | setQ (s : State) (r : RegIdx) (v : Quad) (ht : s.turn = .ee) : Effect i s (s.setQ r v)
  | physRead {s t : State} (pa : Word) (n : Nat) (v : BitVec (8 * n)) (h : physRead pa n s = .ok (v, t)) : Effect i s t
  | physWrite {s t : State} (pa : Word) (n : Nat) (v : BitVec (8 * n)) (h : physWrite pa n v s = .ok t) : Effect i s t
  | cop0Write (s : State) (n : RegIdx) (v : Word) : Effect i s (s.cop0Write n v)
  | returnEE (s : State) (ht : s.turn = .ee) : Effect i s s.returnEE
  | returnIOP (s : State) : Effect i s s.returnIOP
  | tlbSet (s : State) (k : Nat) (hk : k < 48) (e : TlbEntry) (ht : s.turn = .ee) (hi : i = some .tlbwi) :
      Effect i s { s with ee := { s.ee with tlb := s.ee.tlb.set k e hk } }
  | setF (s : State) (r : RegIdx) (v : Word) (ht : s.turn = .ee) : Effect i s (s.setF r v)
  | fcrFlags (s : State) (cls : FpClass) (ht : s.turn = .ee) :
      Effect i s { s with ee := { s.ee with fcr31 := fcr31After s.ee.fcr31 cls } }
  | fcrWrite (s : State) (rt fs : RegIdx) (v : Word) (ht : s.turn = .ee) (hi : i = some (.ctc1 rt fs)) :
      Effect i s (fcrWrite s fs v)

/-- A chain of effects of a step that runs row `i`. -/
abbrev Effects (i : Option Instr) : State → State → Prop := Relation.ReflTransGen (Effect i)

/-- An answer of a handler is a next state that a chain of effects of row `i` leads to. -/
def Reaches (i : Instr) (s : State) (r : Result) : Prop := ∃ t, r = .next t ∧ Effects (some i) s t

theorem Reaches.of_effects {i : Instr} {s t : State} (h : Effects (some i) s t) : Reaches i s (.next t) := ⟨t, rfl, h⟩

/-- A single effect and the advance of step 7. -/
theorem Reaches.effect_advance {i : Instr} {s t : State} (h : Effect (some i) s t) : Reaches i s (.next t.advance) :=
  .of_effects (.tail (.single h) (.advance t))

section Handlers

variable {i : Instr} {s : State}

theorem regResult_reaches (f : (n : Nat) → BitVec n → BitVec n → BitVec n) (rd rs rt : RegIdx) :
    Reaches i s (regResult f rd rs rt s) := .effect_advance (.setX _ _ _)

theorem immResult_reaches (f : (n : Nat) → BitVec n → BitVec n → BitVec n) (rt rs : RegIdx) (imm : (n : Nat) → BitVec n) :
    Reaches i s (immResult f rt rs imm s) := .effect_advance (.setX _ _ _)

theorem wordResult_reaches (rd : RegIdx) (v : Word) : Reaches i s (wordResult rd v s) := .effect_advance (.setX _ _ _)

theorem checkedResult_reaches (rd : RegIdx) (n : Int) (hq : s.ctl.xq = []) : Reaches i s (checkedResult rd n s) := by
  unfold checkedResult
  split
  · exact .effect_advance (.setX _ _ _)
  · exact .of_effects (.single (.raise _ _ hq raisable_arithmeticOverflow))

theorem branchIf_reaches (taken : Bool) (imm : BitVec 16) : Reaches i s (branchIf taken imm s) := by
  unfold branchIf
  cases taken
  · exact .of_effects (.single (.advance _))
  · exact .effect_advance (.arm _ _)

theorem branchLikelyIf_reaches (taken : Bool) (imm : BitVec 16) : Reaches i s (branchLikelyIf taken imm s) := by
  unfold branchLikelyIf
  cases taken
  · exact .effect_advance (.advance _)
  · exact .effect_advance (.arm _ _)

/-- A jump that links: the register write, the tracker, the advance (R241, R243). -/
theorem link_reaches (rd : RegIdx) (v : (n : Nat) → BitVec n) (target : Word) :
    Reaches i s (.next (State.advance (State.arm (s.setX rd v) target))) :=
  .of_effects (.tail (.tail (.single (.setX _ _ _)) (.arm _ _)) (.advance _))

/-- A row of the EE table: on EE its body, on IOP the unknown word (R146, R148). -/
theorem eeRow_reaches {body : State → Result} (h : s.turn = .ee → Reaches i s (body s)) : Reaches i s (eeRow i s body) := by
  unfold eeRow
  split
  · exact h (by assumption)
  · exact .effect_advance (.log _ _)

theorem iopRow_reaches {body : State → Result} (h : Reaches i s (body s)) : Reaches i s (iopRow i s body) := by
  unfold iopRow
  split
  · exact .effect_advance (.log _ _)
  · exact h

theorem usableRow_reaches {cop : BitVec 2} {body : State → Result} (hq : s.ctl.xq = []) (h : Reaches i s (body s)) :
    Reaches i s (usableRow cop s body) := by
  unfold usableRow
  split
  · exact h
  · exact .of_effects (.single (.raise _ _ hq (raisable_coprocessorUnusable _)))

/-- An abort ends the instruction (R182). -/
theorem abort_reaches (r : AbortReason) : Reaches i s (.next (s.abort r)) := .of_effects (.single (.abort s s.inFlight r))

/-- What a virtual read leaves to its row: a raise that may be queued, an abort, or one physical read (R105, R108). -/
theorem readVirtual_effect (kind : AccessKind) (va : Word) (n : Nat) (s : State) :
    (∃ k, readVirtual kind va n s = .raised k ∧ Raisable k) ∨ (∃ r, readVirtual kind va n s = .aborted r) ∨
      ∃ v t, readVirtual kind va n s = .ok v t ∧ ∃ pa, physRead pa n s = .ok (v, t) := by
  rcases readVirtual_cases kind va n s with
    ⟨_, h⟩ | ⟨_, ⟨k, hk, h⟩ | ⟨r, _, h⟩ | ⟨pa, e, _, _, h⟩ | ⟨pa, v, t, _, hp, h⟩⟩
  · exact .inl ⟨_, h, raisable_addressError _ _⟩
  · exact .inl ⟨k, h, translate_raisable hk⟩
  · exact .inr (.inl ⟨r, h⟩)
  · exact .inr (.inl ⟨_, h⟩)
  · exact .inr (.inr ⟨v, t, h, pa, hp⟩)

/-- What a virtual write leaves to its row: the same with one physical write (R109). -/
theorem memWrite_effect (va : Word) (n : Nat) (v : BitVec (8 * n)) (s : State) :
    (∃ k, memWrite va n v s = .raised k ∧ Raisable k) ∨ (∃ r, memWrite va n v s = .aborted r) ∨
      ∃ t, memWrite va n v s = .ok () t ∧ ∃ pa, physWrite pa n v s = .ok t := by
  rcases memWrite_cases va n v s with
    ⟨_, h⟩ | ⟨_, ⟨k, hk, h⟩ | ⟨r, _, h⟩ | ⟨pa, e, _, _, h⟩ | ⟨pa, t, _, hp, h⟩⟩
  · exact .inl ⟨_, h, raisable_addressError _ _⟩
  · exact .inl ⟨k, h, translate_raisable hk⟩
  · exact .inr (.inl ⟨r, h⟩)
  · exact .inr (.inl ⟨_, h⟩)
  · exact .inr (.inr ⟨t, h, pa, hp⟩)

theorem loadRow_reaches (n : Nat) (va : Word) (put : State → BitVec (8 * n) → State) (hq : s.ctl.xq = [])
    (hput : ∀ t v, t.turn = s.turn → Effect (some i) t (put t v)) : Reaches i s (loadRow n va put s) := by
  unfold loadRow memRead
  rcases readVirtual_effect .load va n s with ⟨k, h, hk⟩ | ⟨r, h⟩ | ⟨v, t, h, pa, hp⟩ <;> rw [h]
  · exact .of_effects (.single (.raise _ _ hq hk))
  · exact abort_reaches r
  · obtain ⟨m, c, rfl⟩ := physRead_shape pa n s t v hp
    exact .of_effects (.tail (.tail (.single (.physRead pa n v hp)) (hput _ v rfl)) (.advance _))

theorem putSigned_effect {n : Nat} (rt : RegIdx) (t : State) (v : BitVec (8 * n)) :
    Effect (some i) t (putSigned rt t v) := .setX _ _ _

theorem putUnsigned_effect {n : Nat} (rt : RegIdx) (t : State) (v : BitVec (8 * n)) :
    Effect (some i) t (putUnsigned rt t v) := .setX _ _ _

theorem storeRow_reaches (n : Nat) (va : Word) (v : BitVec (8 * n)) (hq : s.ctl.xq = []) :
    Reaches i s (storeRow n va v s) := by
  unfold storeRow
  rcases memWrite_effect va n v s with ⟨k, h, hk⟩ | ⟨r, h⟩ | ⟨t, h, pa, hp⟩ <;> rw [h]
  · exact .of_effects (.single (.raise _ _ hq hk))
  · exact abort_reaches r
  · exact .effect_advance (.physWrite pa n v hp)

theorem fpRow_reaches (op : FpOp) (fd fs ft : RegIdx) (hq : s.ctl.xq = []) (ht : s.turn = .ee) :
    Reaches i s (fpRow op fd fs ft s) :=
  usableRow_reaches hq (.of_effects (.tail (.tail (.single (.fcrFlags _ _ ht)) (.setF _ _ _ ht)) (.advance _)))

theorem tableWrite_reaches (s : State) (ht : s.turn = .ee) : Reaches .tlbwi s (.next (tableWrite s)) := by
  simp only [tableWrite]
  split
  · exact .effect_advance (.tlbSet _ _ _ _ ht rfl)
  · exact abort_reaches _

end Handlers

/-- What every handler does, row by row: with an empty queue it ends in a next state that a chain of effects leads to
(R177). -/
theorem exec_reaches (i : Instr) (s : State) (hq : s.ctl.xq = []) : Reaches i s (exec i s) := by
  cases i with
  | sll rd rt sa => simp only [exec, execSll]; exact wordResult_reaches _ _
  | srl rd rt sa => simp only [exec, execSrl]; exact wordResult_reaches _ _
  | sra rd rt sa => simp only [exec, execSra]; exact wordResult_reaches _ _
  | jr rs => simp only [exec, execJr]; exact .effect_advance (.arm _ _)
  | jalr rd rs => simp only [exec, execJalr]; exact link_reaches _ _ _
  | add rd rs rt => simp only [exec, execAdd]; exact checkedResult_reaches _ _ hq
  | addu rd rs rt => simp only [exec, execAddu]; exact wordResult_reaches _ _
  | sub rd rs rt => simp only [exec, execSub]; exact checkedResult_reaches _ _ hq
  | subu rd rs rt => simp only [exec, execSubu]; exact wordResult_reaches _ _
  | and rd rs rt => simp only [exec, execAnd]; exact regResult_reaches _ _ _ _
  | or rd rs rt => simp only [exec, execOr]; exact regResult_reaches _ _ _ _
  | xor rd rs rt => simp only [exec, execXor]; exact regResult_reaches _ _ _ _
  | nor rd rs rt => simp only [exec, execNor]; exact regResult_reaches _ _ _ _
  | slt rd rs rt => simp only [exec, execSlt]; exact regResult_reaches _ _ _ _
  | sltu rd rs rt => simp only [exec, execSltu]; exact regResult_reaches _ _ _ _
  | j target => simp only [exec, execJ]; exact .effect_advance (.arm _ _)
  | jal target => simp only [exec, execJal]; exact link_reaches _ _ _
  | beq rs rt imm => simp only [exec, execBeq]; exact branchIf_reaches _ _
  | bne rs rt imm => simp only [exec, execBne]; exact branchIf_reaches _ _
  | addi rt rs imm => simp only [exec, execAddi]; exact checkedResult_reaches _ _ hq
  | addiu rt rs imm => simp only [exec, execAddiu]; exact wordResult_reaches _ _
  | slti rt rs imm => simp only [exec, execSlti]; exact immResult_reaches _ _ _ _
  | sltiu rt rs imm => simp only [exec, execSltiu]; exact immResult_reaches _ _ _ _
  | andi rt rs imm => simp only [exec, execAndi]; exact immResult_reaches _ _ _ _
  | ori rt rs imm => simp only [exec, execOri]; exact immResult_reaches _ _ _ _
  | xori rt rs imm => simp only [exec, execXori]; exact immResult_reaches _ _ _ _
  | lui rt imm => simp only [exec, execLui]; exact wordResult_reaches _ _
  | beql rs rt imm => simp only [exec, execBeql]; exact eeRow_reaches fun _ => branchLikelyIf_reaches _ _
  | bnel rs rt imm => simp only [exec, execBnel]; exact eeRow_reaches fun _ => branchLikelyIf_reaches _ _
  | lq rt rs imm =>
    simp only [exec, execLq]
    exact eeRow_reaches fun ht => loadRow_reaches _ _ _ hq fun _ _ h => .setQ _ _ _ (h.trans ht)
  | sq rt rs imm => simp only [exec, execSq]; exact eeRow_reaches fun _ => storeRow_reaches _ _ _ hq
  | lb rt rs imm => simp only [exec, execLb]; exact loadRow_reaches _ _ _ hq fun _ _ _ => putSigned_effect _ _ _
  | lh rt rs imm => simp only [exec, execLh]; exact loadRow_reaches _ _ _ hq fun _ _ _ => putSigned_effect _ _ _
  | lw rt rs imm => simp only [exec, execLw]; exact loadRow_reaches _ _ _ hq fun _ _ _ => putSigned_effect _ _ _
  | lbu rt rs imm => simp only [exec, execLbu]; exact loadRow_reaches _ _ _ hq fun _ _ _ => putUnsigned_effect _ _ _
  | lhu rt rs imm => simp only [exec, execLhu]; exact loadRow_reaches _ _ _ hq fun _ _ _ => putUnsigned_effect _ _ _
  | lwu rt rs imm =>
    simp only [exec, execLwu]
    exact eeRow_reaches fun _ => loadRow_reaches _ _ _ hq fun _ _ _ => putUnsigned_effect _ _ _
  | sb rt rs imm => simp only [exec, execSb]; exact storeRow_reaches _ _ _ hq
  | sh rt rs imm => simp only [exec, execSh]; exact storeRow_reaches _ _ _ hq
  | sw rt rs imm => simp only [exec, execSw]; exact storeRow_reaches _ _ _ hq
  | ld rt rs imm =>
    simp only [exec, execLd]
    exact eeRow_reaches fun _ => loadRow_reaches _ _ _ hq fun _ _ _ => putUnsigned_effect _ _ _
  | sd rt rs imm => simp only [exec, execSd]; exact eeRow_reaches fun _ => storeRow_reaches _ _ _ hq
  | mfc0 rt rd => simp only [exec, execMfc0]; exact usableRow_reaches hq (.effect_advance (.setX _ _ _))
  | mtc0 rt rd => simp only [exec, execMtc0]; exact usableRow_reaches hq (.effect_advance (.cop0Write _ _ _))
  | tlbwi => simp only [exec, execTlbwi]; exact eeRow_reaches fun ht => usableRow_reaches hq (tableWrite_reaches s ht)
  | rfe => simp only [exec, execRfe]; exact iopRow_reaches (usableRow_reaches hq (.effect_advance (.returnIOP _)))
  | eret =>
    simp only [exec, execEret]
    exact eeRow_reaches fun ht => usableRow_reaches hq (.of_effects (.single (.returnEE _ ht)))
  | mfc1 rt fs =>
    simp only [exec, execMfc1]
    exact eeRow_reaches fun _ => usableRow_reaches hq (.effect_advance (.setX _ _ _))
  | cfc1 rt fs =>
    simp only [exec, execCfc1]
    exact eeRow_reaches fun _ => usableRow_reaches hq (.effect_advance (.setX _ _ _))
  | mtc1 rt fs =>
    simp only [exec, execMtc1]
    exact eeRow_reaches fun ht => usableRow_reaches hq (.effect_advance (.setF _ _ _ ht))
  | ctc1 rt fs =>
    simp only [exec, execCtc1]
    exact eeRow_reaches fun ht => usableRow_reaches hq (.effect_advance (.fcrWrite _ _ _ _ ht rfl))
  | addS fd fs ft => simp only [exec, execAddS]; exact eeRow_reaches fun ht => fpRow_reaches _ _ _ _ hq ht
  | subS fd fs ft => simp only [exec, execSubS]; exact eeRow_reaches fun ht => fpRow_reaches _ _ _ _ hq ht
  | mulS fd fs ft => simp only [exec, execMulS]; exact eeRow_reaches fun ht => fpRow_reaches _ _ _ _ hq ht
  | divS fd fs ft => simp only [exec, execDivS]; exact eeRow_reaches fun ht => fpRow_reaches _ _ _ _ hq ht
  | maddS fd fs ft => simp only [exec, execMaddS]; exact eeRow_reaches fun ht => fpRow_reaches _ _ _ _ hq ht
  | msubS fd fs ft => simp only [exec, execMsubS]; exact eeRow_reaches fun ht => fpRow_reaches _ _ _ _ hq ht

/-! ### A step of a core as a chain of effects -/

/-- Step 3 on the control part (R232). -/
def Control.resolved (k : Control) : Control :=
  match k.bd with
  | .idle => k
  | .pending t 0 => { k with pc := t, bd := .idle }
  | .pending t (r + 1) => { k with bd := .pending t r }

/-- Step 3 changes the control part only. -/
theorem resolveBranchDelay_eq (s : State) : s.resolveBranchDelay = s.setCtl s.ctl.resolved := by
  unfold State.resolveBranchDelay Control.resolved
  rcases s.ctl.bd with _ | ⟨t, _ | r⟩ <;> simp

theorem resolved_xq (k : Control) : k.resolved.xq = k.xq := by
  unfold Control.resolved
  split <;> rfl

/-- Step 1 changes the control part only (R348). -/
theorem sampleInterrupts_eq (s : State) : ∃ rs, s.sampleInterrupts = s.setCtl { s.mirrorLines.ctl with xq := rs } := by
  cases he : eligible s.turn s.mirrorLines.ctl
  · exact ⟨s.ctl.xq, by rw [sampleInterrupts_quiet he]; simp [State.mirrorLines]⟩
  · exact ⟨_, (sampleInterrupts_eligible he).trans (setCtl_setCtl _ _ _)⟩

/-- A queue that is empty after step 1 was empty before it, and no interrupt is eligible (R172, R349). -/
theorem sampleInterrupts_of_empty {s : State} (h : s.sampleInterrupts.ctl.xq = []) :
    s.sampleInterrupts = s.mirrorLines ∧ s.ctl.xq = [] := by
  cases he : eligible s.turn s.mirrorLines.ctl
  · have hs := sampleInterrupts_quiet he
    rw [hs] at h
    exact ⟨hs, by simpa using h⟩
  · rw [sampleInterrupts_eligible he, setCtl_ctl] at h
    simp at h

/-- A dispatch on EE: the control part and EntryHi (R340 to R343). -/
theorem takeException_ee {s : State} (ht : s.turn = .ee) (r : Record) : s.takeException r =
    { s with ee := { s.ee with ctl := Control.take .ee s.ee.ctl r, entryHi := entryHiAfter s.ee.entryHi r } } := by
  simp only [State.takeException, ht]

/-- A dispatch on IOP: the control part (R340 to R343). -/
theorem takeException_iop {s : State} (ht : s.turn = .iop) (r : Record) :
    s.takeException r = { s with iop := { s.iop with ctl := Control.take .iop s.iop.ctl r } } := by
  simp only [State.takeException, ht]

/-- What the sequencer answers before the handler: the state at the end of the step, with no word in flight unless the run was
aborted; or a row to run, with an empty queue and a running machine (R171 to R176). -/
inductive FrontReaches (i : Option Instr) (s : State) : Front → Prop
  | done {t : State} (he : Effects i s t) (hf : t.inFlight = none) : FrontReaches i s (.done t)
  | run {t : State} (j : Instr) (he : Effects i s t) (hq : t.ctl.xq = []) (hr : t.run = .running) :
      FrontReaches i s (.run j t)

/-- Steps 3 to 5 after a mirror that found nothing to dispatch (R174 to R176, R180). -/
theorem fetchFront_reaches (i : Option Instr) (s m : State) (hm : Effects i s m) (hq : m.ctl.xq = [])
    (hr : m.run = .running) : FrontReaches i s (fetchFront m) := by
  have hb : Effects i s m.resolveBranchDelay := hm.tail (.resolveBranchDelay m)
  have hbq : m.resolveBranchDelay.ctl.xq = [] := by rw [resolveBranchDelay_eq, setCtl_ctl, resolved_xq, hq]
  have hbr : m.resolveBranchDelay.run = .running := by rw [resolveBranchDelay_eq, setCtl_run, hr]
  have fetch := readVirtual_effect .fetch m.resolveBranchDelay.ctl.pc 4 m.resolveBranchDelay
  have fetched : ∀ {w t}, fetchWord m.resolveBranchDelay = .ok w t →
      Effects i s t ∧ t.ctl.xq = [] ∧ t.run = .running := by
    intro w t h
    rcases fetch with ⟨_, hf, _⟩ | ⟨_, hf⟩ | ⟨v, u, hf, pa, hp⟩ <;> cases hf.symm.trans h
    obtain ⟨mem, c, rfl⟩ := physRead_shape pa 4 _ _ w hp
    exact ⟨hb.tail (.physRead pa 4 w hp), hbq, hbr⟩
  rcases fetchFront_cases m with ⟨k, h, he⟩ | ⟨r, -, he⟩ | ⟨w, t, h, -, he⟩ | ⟨w, t, j, h, -, he⟩ <;> rw [he]
  · rcases fetch with ⟨k', hf, hk⟩ | ⟨_, hf⟩ | ⟨_, _, hf, _⟩ <;> cases hf.symm.trans h
    exact .done ((hb.tail (.raise _ _ hbq hk)).tail (.finish _ _)) rfl
  · exact .done (hb.tail (.abort _ _ _)) rfl
  · exact .done ((((fetched h).1.tail (.log _ _)).tail (.advance _)).tail (.finish _ _)) rfl
  · obtain ⟨ht, htq, htr⟩ := fetched h
    exact .run j (ht.tail (.hold _ _ htr)) htq htr

/-- Steps 1 to 5 of a running machine (R171 to R176). -/
theorem coreFront_reaches (i : Option Instr) (s : State) (hr : s.run = .running) : FrontReaches i s (coreFront s) := by
  unfold coreFront
  cases hq : s.sampleInterrupts.ctl.xq with
  | cons r rs =>
    simp only [hq]
    exact .done (.tail (.single (.dispatch _ _)) (.finish _ _)) rfl
  | nil =>
    simp only [hq]
    obtain ⟨hs, hq⟩ := sampleInterrupts_of_empty hq
    rw [hs]
    exact fetchFront_reaches i s _ (.single (.mirrorLines s)) (by simpa using hq) (by simpa using hr)

/-- The end of a step is at most one more effect (R179, R182, R184). -/
theorem retire_effects (i : Option Instr) (j : Instr) (t : State) :
    Effects i t (retire j t) ∧ (t.run = .running → (retire j t).inFlight = none) ∧
      (t.run ≠ .running → retire j t = t) := by
  unfold retire
  cases h : t.run with
  | running => exact ⟨.single (.finish _ _), fun _ => rfl, fun h => absurd rfl h⟩
  | aborted r ctx => exact ⟨.refl, nofun, fun _ => rfl⟩

/-- All that a step of core `c` does: a chain of effects of the row it runs, if it runs one, from the state in which it is
called; and no word is in flight at its end while the run goes on (R53, R171). -/
theorem step_effects {s t : State} {c : CoreId} (h : CallsStep c s) (hs : step s = .next t) :
    ∃ i, (∀ j, i = some j → ∃ u, front s = .run j u) ∧ Effects i (s.called c) t ∧ (t.run = .running → t.inFlight = none) := by
  have hf := front_callsStep h
  have reaches := fun i => coreFront_reaches i (s.called c) h.run
  rcases step_next hs with hd | ⟨j, u, v, hd, he, rfl⟩
  · have hn := reaches none
    rw [← hf, hd] at hn
    cases hn with
    | done he hi => exact ⟨none, nofun, he, fun _ => hi⟩
  · have hn := reaches (some j)
    rw [← hf, hd] at hn
    cases hn with
    | run _ hc hq hr =>
      obtain ⟨v', hv, hx⟩ := exec_reaches j u hq
      cases he.symm.trans hv
      obtain ⟨hr, hi, hn⟩ := retire_effects (some j) j v
      refine ⟨some j, fun k hk => by cases hk; exact ⟨u, hd⟩, (hc.trans hx).trans hr, fun hrun => ?_⟩
      by_cases hv : v.run = .running
      · exact hi hv
      · rw [hn hv] at hrun; exact absurd hrun hv

/-- An external action, in a running machine with a valid map (R112). -/
theorem front_external {s : State} {a : Action} {rest : List Action} (hr : s.run = .running)
    (hm : physMapValid s.physMap = true) (ha : s.agenda = a :: rest) (hc : ∀ c, a ≠ .step c) :
    front s = .done (State.external { s with agenda := rest } a) := by
  unfold front
  simp only [hr, hm, ha, if_true]

/-- In a running machine with a valid map, a step of one core is called, or an external action is due (R112). -/
theorem called_or_external {s : State} (hr : s.run = .running) (hm : physMapValid s.physMap = true) :
    (∃ c, CallsStep c s) ∨ ∃ a rest, s.agenda = a :: rest ∧ ∀ c, a ≠ .step c := by
  cases ha : s.agenda with
  | nil => exact .inl ⟨s.turn, hr, hm, .inl ⟨ha, rfl⟩⟩
  | cons a rest =>
    by_cases hc : ∃ c, a = .step c
    · obtain ⟨c, rfl⟩ := hc
      exact .inl ⟨c, hr, hm, .inr ⟨rest, ha⟩⟩
    · exact .inr ⟨a, rest, rfl, fun c e => hc ⟨c, e⟩⟩

/-- A transition that gives a next state starts in a running machine with a valid map (R81, R182). -/
theorem running_of_step {s t : State} (h : step s = .next t) : s.run = .running ∧ physMapValid s.physMap = true := by
  cases hr : s.run with
  | aborted r ctx => simp [step, front, hr] at h
  | running =>
    cases hm : physMapValid s.physMap with
    | true => exact ⟨rfl, rfl⟩
    | false => simp [step, front, hr, hm] at h

/-- A transition that gives a next state: a step that the scheduler calls, or an external action (R112). -/
theorem step_cases {s t : State} (h : step s = .next t) :
    (∃ c, CallsStep c s) ∨ ∃ a rest, t = State.external { s with agenda := rest } a ∧ ∀ c, a ≠ .step c := by
  obtain ⟨hr, hm⟩ := running_of_step h
  rcases called_or_external hr hm with hc | ⟨a, rest, ha, hc⟩
  · exact .inl hc
  · refine .inr ⟨a, rest, ?_, hc⟩
    simp only [step, front_external hr hm ha hc] at h
    cases h
    rfl

/-- A device changes memory only, and keeps its canonical form (R112). -/
theorem deviceUpdate_cases (s : State) (pa : Word) (n : Nat) (v : Quad) :
    ∃ m, s.deviceUpdate pa n v = { s with mem := m } ∧ (Memory.wf s.mem = true → Memory.wf m = true) := by
  unfold State.deviceUpdate
  split
  · split
    · exact ⟨_, rfl, writeLE_wf _ _ _ _⟩
    · exact ⟨s.mem, rfl, id⟩
  · exact ⟨s.mem, rfl, id⟩

/-- What an external action can do: the input lines of one core, or memory and the counter of free values (R31, R112). -/
theorem external_cases (s : State) (a : Action) (hc : ∀ c, a ≠ .step c) :
    (∃ x y z, s.external a = { s with ee := { s.ee with int0 := x, int1 := y, timer := z } }) ∨
    (∃ l, s.external a = { s with iop := { s.iop with lines := l } }) ∨
    ∃ m c, s.external a = { s with mem := m, freeCount := c } ∧ (Memory.wf s.mem = true → Memory.wf m = true) := by
  cases a with
  | step c => exact absurd rfl (hc c)
  | eeLines x y z => exact .inl ⟨x, y, z, rfl⟩
  | iopLines l => exact .inr (.inl ⟨l, rfl⟩)
  | busRead pa n =>
    refine .inr (.inr ?_)
    cases h : physRead pa n s with
    | error e => exact ⟨s.mem, s.freeCount, by simp [State.external, h], id⟩
    | ok p =>
      obtain ⟨v, t⟩ := p
      obtain ⟨m, c, rfl⟩ := physRead_shape pa n s t v h
      exact ⟨m, c, by simp [State.external, h], fun hw => physRead_wf pa n s _ v hw h⟩
  | busWrite pa n v =>
    refine .inr (.inr ?_)
    cases h : physWrite pa n (v.setWidth (8 * n)) s with
    | error e => exact ⟨s.mem, s.freeCount, by simp [State.external, h], id⟩
    | ok t =>
      obtain ⟨m, c, rfl⟩ := physWrite_shape pa n _ s t h
      exact ⟨m, c, by simp [State.external, h], fun hw => physWrite_wf pa n _ s _ hw h⟩
  | deviceUpdate pa n v =>
    obtain ⟨m, h, hw⟩ := deviceUpdate_cases s pa n v
    exact .inr (.inr ⟨m, s.freeCount, h, hw⟩)

end Sys2Proof.Machine
end

section
/-! PROOF. What every step leaves unchanged, effect by effect: O54, O56 and O42. -/

namespace Sys2Proof.Machine

/-! ### What a step leaves unchanged -/

/-- What every effect of a step that runs row `i` leaves: the turn and the other core (R20), the accumulator (R48), the
translation table unless the row is TLBWI (R47), and a sticky flag that is set unless the row is CTC1 to register 31 (R49). -/
structure Confined (i : Option Instr) (s t : State) : Prop where
  turn : t.turn = s.turn
  otherIop : s.turn = .ee → t.iop = s.iop
  otherEe : s.turn = .iop → t.ee = s.ee
  acc : t.ee.acc = s.ee.acc
  table : i ≠ some .tlbwi → t.ee.tlb = s.ee.tlb
  sticky : (∀ rt, i ≠ some (.ctc1 rt 31#5)) → ∀ k, k = 4 ∨ k = 3 → s.ee.fcr31.getLsbD k = true →
    t.ee.fcr31.getLsbD k = true

theorem Confined.trans {i : Option Instr} {s t u : State} (h : Confined i s t) (g : Confined i t u) : Confined i s u where
  turn := g.turn.trans h.turn
  otherIop := fun e => (g.otherIop (h.turn.trans e)).trans (h.otherIop e)
  otherEe := fun e => (g.otherEe (h.turn.trans e)).trans (h.otherEe e)
  acc := g.acc.trans h.acc
  table := fun e => (g.table e).trans (h.table e)
  sticky := fun e k hk hs => g.sticky e k hk (h.sticky e k hk hs)

/-- An update that names neither core is confined. -/
theorem Confined.of_same (i : Option Instr) {s t : State} (turn : t.turn = s.turn) (ee : t.ee = s.ee) (iop : t.iop = s.iop) :
    Confined i s t :=
  ⟨turn, fun _ => iop, fun _ => ee, by rw [ee], fun _ => by rw [ee], fun _ _ _ h => by rw [ee]; exact h⟩

/-- So is one that keeps what almost no instruction touches, the table, and `fcr31`. -/
theorem Confined.of_sameRest (i : Option Instr) {s t : State} (h : SameRest s t) (ht : SameTable s t)
    (hf : t.ee.fcr31 = s.ee.fcr31) : Confined i s t :=
  ⟨h.turn, h.otherIop, h.otherEe, h.acc, fun _ => ht, fun _ _ _ hs => by rw [hf]; exact hs⟩

theorem Confined.setCtl (i : Option Instr) (s : State) (k : Control) : Confined i s (s.setCtl k) :=
  .of_sameRest i (setCtl_sameRest s k) (setCtl_ee_tlb s k) (setCtl_ee_fcr31 s k)

/-- On EE, so is an update of EE alone that keeps the three. -/
theorem Confined.of_ee (i : Option Instr) {s : State} (ht : s.turn = .ee) (e : EECore) (acc : e.acc = s.ee.acc)
    (table : i ≠ some .tlbwi → e.tlb = s.ee.tlb)
    (sticky : (∀ rt, i ≠ some (.ctc1 rt 31#5)) → ∀ k, k = 4 ∨ k = 3 → s.ee.fcr31.getLsbD k = true →
      e.fcr31.getLsbD k = true) : Confined i s { s with ee := e } :=
  ⟨rfl, fun _ => rfl, (fun h => by rw [ht] at h; cases h), acc, table, sticky⟩

/-- The flag procedure never clears a sticky flag (R49, R307). -/
theorem fcr31After_sticky (w : Word) (cls : FpClass) (k : Nat) (hk : k = 4 ∨ k = 3) (h : w.getLsbD k = true) :
    (fcr31After w cls).getLsbD k = true := by
  rcases hk with rfl | rfl <;> cases cls <;> simp [fcr31After, setBits_bit, h]

theorem takeException_confined (i : Option Instr) (s : State) (r : Record) : Confined i s (s.takeException r) := by
  cases ht : s.turn
  · rw [takeException_ee ht]
    exact .of_ee i ht _ rfl (fun _ => rfl) fun _ _ _ h => h
  · rw [takeException_iop ht]
    exact ⟨rfl, (fun h => by rw [ht] at h; cases h), fun _ => rfl, rfl, fun _ => rfl, fun _ _ _ h => h⟩

theorem returnEE_confined (i : Option Instr) {s : State} (ht : s.turn = .ee) : Confined i s s.returnEE := by
  simp only [State.returnEE]
  split <;> exact .of_ee i ht _ rfl (fun _ => rfl) fun _ _ _ h => h

/-- A store into the cell of a control register changes Status, Cause, EPC and BadVAddr of the control part, or on EE one of
its own control registers (R32 to R43). -/
theorem setCop0Cell_cases (s : State) (n : RegIdx) (v : Word) :
    (∃ status cause epc bad, s.setCop0Cell n v =
      s.setCtl { s.ctl with status := status, cause := cause, epc := epc, badVAddr := bad }) ∨
    s.turn = .ee ∧ ∃ index lo0 lo1 mask hi err, s.setCop0Cell n v = { s with ee := { s.ee with
      index := index, entryLo0 := lo0, entryLo1 := lo1, pageMask := mask, entryHi := hi, errorEpc := err } } := by
  unfold State.setCop0Cell
  split
  case h_7 | h_8 | h_9 | h_10 => exact .inl ⟨_, _, _, _, rfl⟩
  case h_11 => exact .inl ⟨_, _, _, _, (setCtl_self s).symm⟩
  all_goals exact .inr ⟨by assumption, _, _, _, _, _, _, rfl⟩

theorem cop0Write_confined (i : Option Instr) (s : State) (n : RegIdx) (v : Word) : Confined i s (s.cop0Write n v) := by
  unfold State.cop0Write
  split
  · rcases setCop0Cell_cases s n _ with ⟨_, _, _, _, h⟩ | ⟨ht, _, _, _, _, _, _, h⟩ <;> rw [h]
    · exact .setCtl i s _
    · exact .of_ee i ht _ rfl (fun _ => rfl) fun _ _ _ hs => hs
  · exact .of_same i rfl rfl rfl

/-- Every single effect is confined. -/
theorem Effect.confined {i : Option Instr} {s t : State} (h : Effect i s t) : Confined i s t := by
  cases h with
  | mirrorLines => exact .setCtl i s _
  | dispatch r =>
    obtain ⟨rs, h⟩ := sampleInterrupts_eq s
    exact Confined.trans (by rw [h]; exact .setCtl i s _) (takeException_confined i _ r)
  | resolveBranchDelay => rw [resolveBranchDelay_eq]; exact .setCtl i s _
  | hold => exact .of_same i rfl rfl rfl
  | advance => exact .setCtl i s _
  | finish c => exact (Confined.setCtl i s _).trans (.of_same i rfl rfl rfl)
  | log => exact .of_same i rfl rfl rfl
  | raise => exact .setCtl i s _
  | abort => exact .of_same i rfl rfl rfl
  | arm => exact .setCtl i s _
  | setX r v => exact .of_sameRest i (setX_sameRest s r v) (setX_ee_tlb s r v) (setX_ee_fcr31 s r v)
  | setQ r v ht =>
    unfold State.setQ
    split
    · exact .of_same i rfl rfl rfl
    · exact .of_ee i ht _ rfl (fun _ => rfl) fun _ _ _ h => h
  | physRead pa n v h => obtain ⟨m, c, rfl⟩ := physRead_shape pa n s t v h; exact .of_same i rfl rfl rfl
  | physWrite pa n v h => obtain ⟨m, c, rfl⟩ := physWrite_shape pa n v s t h; exact .of_same i rfl rfl rfl
  | cop0Write n v => exact cop0Write_confined i s n v
  | returnEE ht => exact returnEE_confined i ht
  | returnIOP => exact .setCtl i s _
  | tlbSet k hk e ht hi => exact .of_ee i ht _ rfl (fun h => absurd hi h) fun _ _ _ h => h
  | setF r v ht => exact .of_ee i ht _ rfl (fun _ => rfl) fun _ _ _ h => h
  | fcrFlags cls ht => exact .of_ee i ht _ rfl (fun _ => rfl) fun _ => fcr31After_sticky _ cls
  | fcrWrite rt fs v ht hi =>
    unfold Machine.fcrWrite
    split
    · rename_i h
      subst h
      exact .of_ee i ht _ rfl (fun _ => rfl) fun h => absurd hi (h rt)
    · exact .of_same i rfl rfl rfl

theorem Effects.confined {i : Option Instr} {s t : State} (h : Effects i s t) : Confined i s t := by
  induction h with
  | refl => exact .of_same i rfl rfl rfl
  | tail _ he ih => exact ih.trans he.confined

/-- Settles O54: every effect of a step is confined to the core of `turn`, which the scheduler's call has set. -/
theorem stepLeavesOtherInstance : Obligations.StepLeavesOtherInstance := by
  intro s t c hc hs
  obtain ⟨i, -, he, -⟩ := step_effects hc hs
  have h := he.confined
  exact ⟨h.turn, h.otherIop, h.otherEe⟩

/-- Settles O56: no effect changes the accumulator, and only that of TLBWI changes the table; an external action neither. -/
theorem accumulatorAndTableWriters : Obligations.AccumulatorAndTableWriters := by
  intro s t hs
  rcases step_cases hs with ⟨c, hc⟩ | ⟨a, rest, rfl, ha⟩
  · obtain ⟨i, hi, he, -⟩ := step_effects hc hs
    have h := he.confined
    refine ⟨h.acc, fun hne => ?_⟩
    by_cases hw : i = some .tlbwi
    · exact hi _ hw
    · exact absurd (h.table hw) hne
  · rcases external_cases _ a ha with ⟨x, y, z, h⟩ | ⟨l, h⟩ | ⟨m, n, h, -⟩ <;> rw [h] <;>
      exact ⟨rfl, fun hne => absurd rfl hne⟩

/-- Settles O42: the flag procedure only sets sticky flags, and nothing but CTC1 to register 31 writes `fcr31` otherwise. -/
theorem stickyFlagsStay : Obligations.StickyFlagsStay := by
  intro s t k hk hs hset hno
  rcases step_cases hs with ⟨c, hc⟩ | ⟨a, rest, rfl, ha⟩
  · obtain ⟨i, hi, he, -⟩ := step_effects hc hs
    refine he.confined.sticky (fun rt hw => ?_) k hk hset
    obtain ⟨u, hu⟩ := hi _ hw
    exact hno rt u hu
  · rcases external_cases _ a ha with ⟨x, y, z, h⟩ | ⟨l, h⟩ | ⟨m, n, h, -⟩ <;> rw [h] <;> exact hset

end Sys2Proof.Machine
end

section
/-! PROOF. The invariant, effect by effect: O60. -/

namespace Sys2Proof.Machine

/-! ### Reserved bits -/

/-- No reserved bit is set exactly when every bit that is set stands in a field (R44). -/
theorem reservedClear_iff (c : CoreId) (n : RegIdx) (w : Word) :
    ReservedClear c n w ↔ ∀ k, w.getLsbD k = true → (cop0ReadMask c n).getLsbD k = true := by
  unfold ReservedClear
  constructor
  · intro h k hw
    have hb := congrArg (fun x : Word => x.getLsbD k) h
    have hk := BitVec.lt_of_getLsbD hw
    simpa [hw, hk] using hb
  · intro h
    apply BitVec.eq_of_getLsbD_eq
    intro k hk
    cases hw : w.getLsbD k
    · simp [hw]
    · simp [hw, h k hw]

/-- A masked write sets no reserved bit when its mask has none (R21, R282). -/
theorem ReservedClear.setBits {c : CoreId} {n : RegIdx} {w m : Word} (v : Word) (hw : ReservedClear c n w)
    (hm : ReservedClear c n m) : ReservedClear c n (setBits w m v) := by
  rw [reservedClear_iff] at *
  intro k h
  rw [setBits_bit] at h
  split at h
  · exact hm k (by assumption)
  · exact hw k h

theorem ReservedClear.zero (c : CoreId) (n : RegIdx) : ReservedClear c n 0#32 := BitVec.zero_and

/-- A register all of whose bits belong to a field has no reserved bit to set. -/
theorem ReservedClear.of_full {c : CoreId} {n : RegIdx} (w : Word) (h : cop0ReadMask c n = 0xFFFFFFFF#32) :
    ReservedClear c n w := by
  unfold ReservedClear
  rw [h]
  exact BitVec.and_zero

/-- A fact about every register number, from its 32 cases. -/
theorem forall_regIdx {p : RegIdx → Prop} (h : ∀ k : Fin 32, p ⟨k⟩) (n : RegIdx) : p n := h n.toFin

/-- The write mask of a control register lies within its fields (R33 to R43). -/
theorem cop0WriteMask_reserved {c : CoreId} {n : RegIdx} {m : Word} (h : cop0WriteMask c n = some m) :
    ReservedClear c n m := by
  have all : ∀ n, ((cop0WriteMask c n).all fun m => m &&& ~~~(cop0ReadMask c n) == 0#32) = true :=
    forall_regIdx (by cases c <;> decide)
  have hn := all n
  rw [h] at hn
  exact eq_of_beq hn

theorem statusAfter_reserved {c : CoreId} {w : Word} (h : ReservedClear c 12#5 w) :
    ReservedClear c 12#5 (statusAfter c w) := by
  cases c <;> exact h.setBits _ (by unfold ReservedClear; decide)

theorem causeAfter_reserved {c : CoreId} {w : Word} (r : Record) (h : ReservedClear c 13#5 w) :
    ReservedClear c 13#5 (causeAfter w r) := by
  have bd : ReservedClear c 13#5 0x80000000#32 := by unfold ReservedClear; cases c <;> decide
  have code : ReservedClear c 13#5 0x0000007C#32 := by unfold ReservedClear; cases c <;> decide
  have cop : ReservedClear c 13#5 0x30000000#32 := by unfold ReservedClear; cases c <;> decide
  have base : ∀ b e, ReservedClear c 13#5 (setBits (setBits w 0x80000000#32 b) 0x0000007C#32 e) := fun _ _ =>
    (h.setBits _ bd).setBits _ code
  unfold causeAfter
  cases r.kind with
  | coprocessorUnusable n => exact (base _ _).setBits _ cop
  | _ => exact base _ _

theorem entryHiAfter_reserved {w : Word} (r : Record) (h : ReservedClear .ee 10#5 w) :
    ReservedClear .ee 10#5 (entryHiAfter w r) := by
  unfold entryHiAfter
  split
  · exact h.setBits _ (by unfold ReservedClear; decide)
  · exact h

/-! ### The invariant within a step -/

/-- The invariant within a step: that between transitions, but a word may be in flight as long as the run goes on. -/
structure StepInv (s : State) : Prop where
  inv : Inv { s with inFlight := none }
  aborted : s.run ≠ .running → s.inFlight = none

/-- The control part of the stepping core is EE's on EE. -/
theorem setCtl_eq_ee {s : State} (ht : s.turn = .ee) (k : Control) :
    s.setCtl k = { s with ee := { s.ee with ctl := k } } := by
  simp only [State.setCtl, ht]

/-- The control part of the stepping core is IOP's on IOP. -/
theorem setCtl_eq_iop {s : State} (ht : s.turn = .iop) (k : Control) :
    s.setCtl k = { s with iop := { s.iop with ctl := k } } := by
  simp only [State.setCtl, ht]

theorem Inv.stepInv {s : State} (h : Inv s) : StepInv s :=
  ⟨{ h with inFlight := rfl }, fun _ => h.inFlight⟩

/-- At the end of a step, with no word in flight, it is the invariant again. -/
theorem StepInv.toInv {s : State} (h : StepInv s) (hf : s.inFlight = none) : Inv s := { h.inv with inFlight := hf }

theorem StepInv.control {s : State} (h : StepInv s) : ControlInv s.turn s.ctl := by
  unfold State.ctl
  cases s.turn
  · exact h.inv.eeControl
  · exact h.inv.iopControl

theorem StepInv.setCtl {s : State} {k : Control} (h : StepInv s) (hk : ControlInv s.turn k) : StepInv (s.setCtl k) where
  inv := by
    cases ht : s.turn <;> rw [ht] at hk
    · rw [setCtl_eq_ee ht]; exact { h.inv with eeControl := hk }
    · rw [setCtl_eq_iop ht]; exact { h.inv with iopControl := hk }
  aborted := by simpa using h.aborted

/-- An update of the control part that keeps Status, Cause, the tracker and the queue. -/
theorem ControlInv.of_same {c : CoreId} {k l : Control} (h : ControlInv c k) (status : l.status = k.status)
    (cause : l.cause = k.cause) (bd : l.bd = k.bd) (xq : l.xq = k.xq) : ControlInv c l :=
  ⟨status ▸ h.status, cause ▸ h.cause, bd ▸ h.tracker, xq ▸ h.queue⟩

theorem ControlInv.resolved {c : CoreId} {k : Control} (h : ControlInv c k) : ControlInv c k.resolved := by
  unfold Control.resolved
  split
  · exact h
  · exact { h with tracker := .inl rfl }
  · rename_i t r hbd
    refine { h with tracker := .inr ⟨t, .inl ?_⟩ }
    obtain hi | ⟨t', h0 | h1⟩ := h.tracker
    · rw [hi] at hbd; cases hbd
    · rw [h0] at hbd; cases hbd
    · rw [h1] at hbd; cases hbd; rfl

/-- What the queue holds before a dispatch does not matter: a dispatch empties it (R345). -/
theorem ControlInv.take {c : CoreId} {k : Control} (r : Record) (hs : ReservedClear c 12#5 k.status)
    (hc : ReservedClear c 13#5 k.cause) : ControlInv c (Control.take c k r) :=
  ⟨statusAfter_reserved hs, causeAfter_reserved r hc, .inl rfl, .inl rfl⟩

theorem mirrorLines_controlInv {s : State} (h : StepInv s) : ControlInv s.turn s.mirrorLines.ctl := by
  have hm : ReservedClear s.turn 13#5 (lineMask s.turn) := by unfold ReservedClear; cases s.turn <;> decide
  unfold State.mirrorLines
  rw [setCtl_ctl]
  exact { h.control with cause := h.control.cause.setBits _ hm }

/-- The dispatch after step 1, whatever step 1 has queued (R173, R340). -/
theorem StepInv.dispatch {s : State} (h : StepInv s) (r : Record) : StepInv (s.sampleInterrupts.takeException r) := by
  obtain ⟨rs, hs⟩ := sampleInterrupts_eq s
  have hk := mirrorLines_controlInv h
  have hk : ControlInv s.turn (Control.take s.turn { s.mirrorLines.ctl with xq := rs } r) := .take r hk.status hk.cause
  rw [hs]
  generalize { s.mirrorLines.ctl with xq := rs } = k at hk
  cases ht : s.turn <;> rw [ht] at hk
  · rw [takeException_ee ((setCtl_turn _ _).trans ht), setCtl_eq_ee ht]
    exact ⟨{ h.inv with eeControl := hk, entryHi := entryHiAfter_reserved r h.inv.entryHi }, h.aborted⟩
  · rw [takeException_iop ((setCtl_turn _ _).trans ht), setCtl_eq_iop ht]
    exact ⟨{ h.inv with iopControl := hk }, h.aborted⟩

theorem StepInv.returnEE {s : State} (h : StepInv s) : StepInv s.returnEE := by
  have he := h.inv.eeControl
  have erl : ReservedClear .ee 12#5 0x00000004#32 := by unfold ReservedClear; decide
  have exl : ReservedClear .ee 12#5 0x00000002#32 := by unfold ReservedClear; decide
  simp only [State.returnEE]
  split
  · exact ⟨{ h.inv with eeControl := ⟨he.status.setBits _ erl, he.cause, .inl rfl, he.queue⟩ }, h.aborted⟩
  · exact ⟨{ h.inv with eeControl := ⟨he.status.setBits _ exl, he.cause, .inl rfl, he.queue⟩ }, h.aborted⟩

theorem StepInv.returnIOP {s : State} (h : StepInv s) : StepInv s.returnIOP := by
  have hm : ReservedClear s.turn 12#5 0x0000000F#32 := by unfold ReservedClear; cases s.turn <;> decide
  exact h.setCtl { h.control with status := h.control.status.setBits _ hm }

theorem StepInv.setQ {s : State} (h : StepInv s) (r : RegIdx) (v : Quad) : StepInv (s.setQ r v) := by
  unfold State.setQ
  split
  · exact h
  · rename_i hr
    have hr : r.toNat ≠ 0 := fun e => hr (BitVec.eq_of_toNat_eq e)
    exact ⟨{ h.inv with eeZero := (Vector.getElem_set_ne r.isLt _ hr).trans h.inv.eeZero }, h.aborted⟩

theorem StepInv.setR32 {s : State} (h : StepInv s) (r : RegIdx) (v : Word) : StepInv (s.setR32 r v) := by
  unfold State.setR32
  split
  · exact h
  · rename_i hr
    have hr : r.toNat ≠ 0 := fun e => hr (BitVec.eq_of_toNat_eq e)
    exact ⟨{ h.inv with iopZero := (Vector.getElem_set_ne r.isLt _ hr).trans h.inv.iopZero }, h.aborted⟩

theorem StepInv.setX {s : State} (h : StepInv s) (r : RegIdx) (v : (n : Nat) → BitVec n) : StepInv (s.setX r v) := by
  unfold State.setX
  split
  · exact h.setQ _ _
  · exact h.setR32 _ _

/-- The cell of every control register of the stepping core has its reserved bits 0 (R44). -/
theorem StepInv.cop0Cell {s : State} (h : StepInv s) (n : RegIdx) : ReservedClear s.turn n (s.cop0Cell n) := by
  have numbered : ∀ m : RegIdx, n.toNat = m.toNat → n = m := fun _ => BitVec.eq_of_toNat_eq
  unfold State.cop0Cell
  split
  case h_1 ht hn => rw [ht, numbered 0#5 hn]; exact h.inv.index
  case h_2 ht hn => rw [ht, numbered 2#5 hn]; exact h.inv.entryLo0
  case h_3 ht hn => rw [ht, numbered 3#5 hn]; exact h.inv.entryLo1
  case h_4 ht hn => rw [ht, numbered 5#5 hn]; exact h.inv.pageMask
  case h_5 ht hn => rw [ht, numbered 10#5 hn]; exact h.inv.entryHi
  case h_6 ht hn => rw [ht, numbered 30#5 hn]; exact .of_full _ rfl
  case h_7 hn => rw [numbered 8#5 hn]; exact .of_full _ (by cases s.turn <;> rfl)
  case h_8 hn => rw [numbered 12#5 hn]; exact h.control.status
  case h_9 hn => rw [numbered 13#5 hn]; exact h.control.cause
  case h_10 hn => rw [numbered 14#5 hn]; exact .of_full _ (by cases s.turn <;> rfl)
  case h_11 => exact .zero _ _

theorem StepInv.setCop0Cell {s : State} {n : RegIdx} {v : Word} (h : StepInv s) (hv : ReservedClear s.turn n v) :
    StepInv (s.setCop0Cell n v) := by
  have numbered : ∀ m : RegIdx, n.toNat = m.toNat → n = m := fun _ => BitVec.eq_of_toNat_eq
  unfold State.setCop0Cell
  split
  case h_1 ht hn => rw [ht, numbered 0#5 hn] at hv; exact ⟨{ h.inv with index := hv }, h.aborted⟩
  case h_2 ht hn => rw [ht, numbered 2#5 hn] at hv; exact ⟨{ h.inv with entryLo0 := hv }, h.aborted⟩
  case h_3 ht hn => rw [ht, numbered 3#5 hn] at hv; exact ⟨{ h.inv with entryLo1 := hv }, h.aborted⟩
  case h_4 ht hn => rw [ht, numbered 5#5 hn] at hv; exact ⟨{ h.inv with pageMask := hv }, h.aborted⟩
  case h_5 ht hn => rw [ht, numbered 10#5 hn] at hv; exact ⟨{ h.inv with entryHi := hv }, h.aborted⟩
  case h_6 => exact ⟨{ h.inv with }, h.aborted⟩
  case h_7 => exact h.setCtl (h.control.of_same rfl rfl rfl rfl)
  case h_8 hn => rw [numbered 12#5 hn] at hv; exact h.setCtl { h.control with status := hv }
  case h_9 hn => rw [numbered 13#5 hn] at hv; exact h.setCtl { h.control with cause := hv }
  case h_10 => exact h.setCtl (h.control.of_same rfl rfl rfl rfl)
  case h_11 => exact h

theorem StepInv.cop0Write {s : State} (h : StepInv s) (n : RegIdx) (v : Word) : StepInv (s.cop0Write n v) := by
  unfold State.cop0Write
  split
  · exact h.setCop0Cell ((h.cop0Cell n).setBits v (cop0WriteMask_reserved (by assumption)))
  · exact h

/-- Every single effect keeps the invariant within a step. -/
theorem Effect.stepInv {i : Option Instr} {s t : State} (he : Effect i s t) (h : StepInv s) : StepInv t := by
  have hk := h.control
  cases he with
  | mirrorLines => exact h.setCtl (by simpa [State.mirrorLines] using mirrorLines_controlInv h)
  | dispatch r => exact h.dispatch r
  | resolveBranchDelay => rw [resolveBranchDelay_eq]; exact h.setCtl hk.resolved
  | hold w hr => exact ⟨{ h.inv with }, fun hn => absurd hr hn⟩
  | advance => exact h.setCtl (hk.of_same rfl rfl rfl rfl)
  | finish c =>
    have h := h.setCtl (k := (s.finish c).ctl) (by rw [finish_ctl]; exact hk.of_same rfl rfl rfl rfl)
    rw [finish_ctl] at h
    exact ⟨{ h.inv with }, fun _ => rfl⟩
  | log => exact ⟨{ h.inv with }, h.aborted⟩
  | raise k hq hr => exact h.setCtl { hk with queue := .inr ⟨⟨k, _, _⟩, by rw [hq]; rfl, hr _ _⟩ }
  | abort => exact ⟨{ h.inv with }, fun _ => rfl⟩
  | arm target => exact h.setCtl { hk with tracker := .inr ⟨target, .inr rfl⟩ }
  | setX r v => exact h.setX r v
  | setQ r v => exact h.setQ r v
  | physRead pa n v hp =>
    have hm := physRead_wf pa n s t v h.inv.memory hp
    obtain ⟨m, c, rfl⟩ := physRead_shape pa n s t v hp
    exact ⟨{ h.inv with memory := hm }, h.aborted⟩
  | physWrite pa n v hp =>
    have hm := physWrite_wf pa n v s t h.inv.memory hp
    obtain ⟨m, c, rfl⟩ := physWrite_shape pa n v s t hp
    exact ⟨{ h.inv with memory := hm }, h.aborted⟩
  | cop0Write n v => exact h.cop0Write n v
  | returnEE => exact h.returnEE
  | returnIOP => exact h.returnIOP
  | tlbSet => exact ⟨{ h.inv with }, h.aborted⟩
  | setF => exact ⟨{ h.inv with }, h.aborted⟩
  | fcrFlags => exact ⟨{ h.inv with }, h.aborted⟩
  | fcrWrite rt fs v =>
    unfold Machine.fcrWrite
    split
    · exact ⟨{ h.inv with }, h.aborted⟩
    · exact h

theorem Effects.stepInv {i : Option Instr} {s t : State} (he : Effects i s t) (h : StepInv s) : StepInv t := by
  induction he with
  | refl => exact h
  | tail _ he ih => exact he.stepInv ih

/-- Settles O60: the invariant holds within every step, and at its end no word is in flight; an external action touches lines
and memory only. -/
theorem stepKeepsInvariant : Obligations.StepKeepsInvariant := by
  intro s t hinv hs
  rcases step_cases hs with ⟨c, hc⟩ | ⟨a, rest, rfl, ha⟩
  · obtain ⟨i, -, he, hf⟩ := step_effects hc hs
    have called : StepInv (s.called c) := ⟨{ hinv with inFlight := rfl }, fun _ => hinv.inFlight⟩
    have h := he.stepInv called
    refine h.toInv ?_
    by_cases hr : t.run = .running
    · exact hf hr
    · exact h.aborted hr
  · rcases external_cases _ a ha with ⟨x, y, z, h⟩ | ⟨l, h⟩ | ⟨m, n, h, hw⟩ <;> rw [h]
    · exact { hinv with }
    · exact { hinv with }
    · exact { hinv with memory := hw hinv.memory }

end Sys2Proof.Machine
end

section
/-! PROOF. Stops and external actions (O53, O55), the register cell (O6), register 0, reset, Status and eligibility (O7, O58,
O59, O11, O45). -/

namespace Sys2Proof.Machine

/-- Settles O53: a running machine with a valid map has a step to take or an external action, and every row gives a next
state. -/
theorem whenTheMachineStops : Obligations.WhenTheMachineStops := by
  intro s
  refine ⟨fun hr hm => ?_, fun r ctx h => by simp only [step, front, h], fun hr hm => by simp [step, front, hr, hm]⟩
  rcases called_or_external hr hm with ⟨c, hc⟩ | ⟨a, rest, ha, hn⟩
  · unfold step
    rw [front_callsStep hc]
    generalize hf : coreFront (s.called c) = f
    have hn := coreFront_reaches none (s.called c) hr
    rw [hf] at hn
    cases hn with
    | done => exact ⟨_, rfl⟩
    | @run u j =>
      obtain ⟨v, hv⟩ := exec_next j u
      exact ⟨retire j v, by simp only [hv]⟩
  · exact ⟨State.external { s with agenda := rest } a, by simp only [step, front_external hr hm ha hn]⟩

/-- Settles O55: an external action reaches the input lines, memory and the counter of free values only. -/
theorem agentsTouchNoRegister : Obligations.AgentsTouchNoRegister := by
  intro s a rest hr hm ha hn
  refine ⟨State.external { s with agenda := rest } a, by simp only [step, front_external hr hm ha hn], ?_⟩
  rcases external_cases { s with agenda := rest } a hn with ⟨x, y, z, h⟩ | ⟨l, h⟩ | ⟨m, c, h, -⟩ <;> rw [h] <;>
    exact ⟨rfl, fun _ => ⟨rfl, rfl⟩, ⟨fun _ => rfl, rfl⟩, ⟨rfl, rfl, rfl, rfl, rfl, rfl⟩, rfl, rfl, rfl, rfl, rfl, rfl, rfl,
      rfl⟩

/-! ### The register cell (R21 to R23) -/

/-- A supported element lies within the cell (R22). -/
theorem cellSupports_fits {w size k : Nat} (h : cellSupports w size k = true) : size * k + size ≤ w := by
  unfold cellSupports at h
  split at h
  · simp only [List.contains_eq_mem, List.mem_cons, List.not_mem_nil, or_false, Bool.and_eq_true, decide_eq_true_eq] at h
    obtain ⟨rfl | rfl | rfl | rfl | rfl, hk⟩ := h <;> omega
  · simp only [Bool.and_eq_true, decide_eq_true_eq] at h
    obtain ⟨⟨-, rfl⟩, rfl⟩ := h
    omega

/-- The bits of a cell after a write of `size` bits at position `lo`: the value's inside, the old ones outside (R21). -/
theorem insert_bit {w size : Nat} (cell : BitVec w) (v : BitVec size) (lo b : Nat) (hb : b < w) :
    ((cell &&& ~~~((BitVec.allOnes size).setWidth w <<< lo)) ||| (v.setWidth w <<< lo)).getLsbD b =
      if lo ≤ b ∧ b < lo + size then v.getLsbD (b - lo) else cell.getLsbD b := by
  by_cases hl : lo ≤ b
  · by_cases hs : b < lo + size
    · have hs' : b - lo < size := by omega
      simp [hb, hl, hs, hs', Nat.not_lt.mpr hl]
    · have hs' : ¬ b - lo < size := by omega
      simp [hb, hl, hs, hs', BitVec.getLsbD_of_ge v _ (Nat.le_of_not_lt hs')]
  · simp [hb, hl, Nat.lt_of_not_le hl]

/-- A supported write, element by element: the written one reads the value, every other one what it read before (R21, R22). -/
theorem cellWrite_supported {w size k : Nat} (cell : BitVec w) (v : BitVec size) (h : cellSupports w size k = true) :
    ∃ after, cellWrite cell size k v = .ok after ∧ cellRead after size k = .ok v ∧
      ∀ j, j ≠ k → cellRead after size j = cellRead cell size j := by
  have hk := cellSupports_fits h
  refine ⟨_, if_pos h, ?_, fun j hj => ?_⟩
  · unfold cellRead
    rw [if_pos h]
    refine congrArg Except.ok (BitVec.eq_of_getLsbD_eq fun b hb => ?_)
    rw [BitVec.getLsbD_extractLsb', insert_bit _ _ _ _ (by omega), if_pos (by omega), Nat.add_sub_cancel_left]
    simp [hb]
  · unfold cellRead
    split
    · rename_i hsj
      have hjw := cellSupports_fits hsj
      have apart : size * j + size ≤ size * k ∨ size * k + size ≤ size * j := by
        rcases Nat.lt_or_gt_of_ne hj with h | h
        · exact .inl (Nat.mul_le_mul_left size h)
        · exact .inr (Nat.mul_le_mul_left size h)
      refine congrArg Except.ok (BitVec.eq_of_getLsbD_eq fun b hb => ?_)
      rw [BitVec.getLsbD_extractLsb', BitVec.getLsbD_extractLsb', insert_bit _ _ _ _ (by omega), if_neg (by omega)]
    · rfl

/-- Settles O6: the two cases of `cellSupports`. -/
theorem cellRoundTrip : Obligations.CellRoundTrip := by
  intro w size k cell v
  refine ⟨cellWrite_supported cell v, fun h => ?_⟩
  have h : ¬ cellSupports w size k = true := by simp [h]
  exact ⟨if_neg h, if_neg h⟩

/-! ### Register 0, reset, and the predicates of Status -/

/-- Settles O7: reads of register 0 answer 0 and writes to it are discarded, in every operation. -/
theorem registerZeroIsConstant : Obligations.RegisterZeroIsConstant :=
  ⟨fun s n => ⟨q_zero s, r32_zero s, x_zero s n⟩, fun s _ _ u => ⟨if_pos rfl, if_pos rfl, setX_zero s u⟩, by decide,
    by decide⟩

/-- Settles O58: each value is the one State.reset is built with. -/
theorem resetValues : Obligations.ResetValues :=
  ⟨q_zero _, r32_zero _, rfl, rfl, rfl, rfl, rfl, rfl, rfl, rfl, by decide, rfl, rfl, rfl⟩

/-- A control part right after reset meets the invariant when its Status does. -/
theorem reset_controlInv {c : CoreId} {status : Word} (h : ReservedClear c 12#5 status) :
    ControlInv c (Control.reset status) := ⟨h, .zero _ _, .inl rfl, .inl rfl⟩

/-- Settles O59: no memory is listed, no tracker armed, nothing queued, and every control register but EE Status is 0. -/
theorem resetMeetsInvariant : Obligations.ResetMeetsInvariant where
  memory := reset_memory_wf
  eeZero := by decide
  iopZero := by decide
  eeControl := reset_controlInv (by unfold ReservedClear; decide)
  iopControl := reset_controlInv (.zero _ _)
  index := .zero _ _
  entryLo0 := .zero _ _
  entryLo1 := .zero _ _
  pageMask := .zero _ _
  entryHi := .zero _ _
  inFlight := rfl

/-- The two values of KSU that are neither kernel nor user (R33, R46). -/
theorem ksu_neither (x : BitVec 2) : (x ≠ 0#2 ∧ x ≠ 2#2) ↔ x = 1#2 ∨ x = 3#2 := by
  revert x; decide

/-- Settles O11: each predicate is the formula of R46, bit by bit. -/
theorem statusPredicates : Obligations.StatusPredicates := by
  intro st
  rw [show st.extractLsb' 3 2 = ksu st from rfl]
  have neither : (kernelMode .ee st = false ∧ userMode .ee st = false) ↔
      (ksu st = 1#2 ∨ ksu st = 3#2) ∧ st.getLsbD 1 = false ∧ st.getLsbD 2 = false := by
    rw [← ksu_neither]
    simp only [kernelMode, userMode]
    cases st.getLsbD 1 <;> cases st.getLsbD 2 <;> simp
  refine ⟨?_, ?_, neither, ?_, ?_, ?_, ?_, ?_, fun c => ⟨?_, fun n hn => ?_⟩⟩
  · simp [kernelMode, or_assoc]
  · simp [userMode, and_assoc]
  · simp [intEnabled, and_assoc]
  · simp [kernelMode]
  · simp [userMode]
  · cases h : st.getLsbD 1 <;> simp [kernelMode, userMode, h]
  · simp [intEnabled]
  · simp [copUsable]
  · simp [copUsable, hn]

/-! ### Eligibility (R349) -/

/-- A byte of a word is not zero exactly when one of its bits is set. -/
theorem byte_ne_zero (x : Word) : x.extractLsb' 8 8 ≠ 0#8 ↔ ∃ b ∈ [8, 9, 10, 11, 12, 13, 14, 15], x.getLsbD b = true := by
  constructor
  · intro h
    by_contra hn
    refine h (BitVec.eq_of_getLsbD_eq fun i hi => ?_)
    have hm : 8 + i ∈ [8, 9, 10, 11, 12, 13, 14, 15] := by simp; omega
    have hb : x.getLsbD (8 + i) = false := by simpa using fun hb => hn ⟨8 + i, hm, hb⟩
    simp [hb]
  · rintro ⟨b, hm, hb⟩ h
    have hr : 8 ≤ b ∧ b < 16 := by simp at hm; omega
    have hz := congrArg (fun y : BitVec 8 => y.getLsbD (b - 8)) h
    simp [show b - 8 < 8 by omega, show 8 + (b - 8) = b by omega, hb] at hz

/-- The pending lines are the bits 8 to 15 set in Cause and in Status that are fields of both (R34, R43, R349). -/
theorem pendingLines_ne_zero (c : CoreId) (k : Control) : pendingLines c k ≠ 0#8 ↔
    ∃ b ∈ [8, 9, 10, 11, 12, 13, 14, 15], (cop0ReadMask c 13#5 &&& cop0ReadMask c 12#5).getLsbD b = true ∧
      k.cause.getLsbD b = true ∧ k.status.getLsbD b = true := by
  unfold pendingLines
  rw [byte_ne_zero]
  refine exists_congr fun b => and_congr_right fun _ => ?_
  simp only [BitVec.getLsbD_and, Bool.and_eq_true]
  tauto

theorem eligible_iff (c : CoreId) (k : Control) :
    eligible c k = true ↔ intEnabled c k.status = true ∧ pendingLines c k ≠ 0#8 := by
  simp [eligible]

/-- Settles O45: on EE bits 10, 11 and 15 are fields of both registers, on IOP all of bits 8 to 15 are. -/
theorem eligibilityRule : Obligations.EligibilityRule := by
  intro k
  rw [eligible_iff, eligible_iff, pendingLines_ne_zero, pendingLines_ne_zero]
  constructor
  · simp [cop0ReadMask]
  · simp [cop0ReadMask]

end Sys2Proof.Machine
end

section
/-! PROOF. The system rows (O33, O34, O37) and the floating-point arithmetic rows (O40). -/

namespace Sys2Proof.Machine

/-! ### System rows -/

/-- On EE, an update of EE that keeps its accumulator and its lines leaves what almost no instruction touches. -/
theorem SameRest.of_ee {s : State} (ht : s.turn = .ee) (e : EECore) (acc : e.acc = s.ee.acc := by rfl)
    (int0 : e.int0 = s.ee.int0 := by rfl) (int1 : e.int1 = s.ee.int1 := by rfl) (timer : e.timer = s.ee.timer := by rfl) :
    SameRest s { s with ee := e } :=
  ⟨rfl, rfl, rfl, rfl, rfl, rfl, rfl, rfl, acc, int0, int1, timer, rfl, fun _ => rfl, fun h => by rw [ht] at h; cases h⟩

/-- A coprocessor row whose coprocessor is usable runs its body (R280, R300). -/
theorem usableRow_usable {cop : BitVec 2} {s : State} (body : State → Result) (h : s.copUsable cop = true) :
    usableRow cop s body = body s := if_pos h

/-- On EE a row of the EE table runs its body (R146). -/
theorem eeRow_ee {i : Instr} {s : State} (body : State → Result) (h : s.turn = .ee) : eeRow i s body = body s := by
  unfold eeRow
  rw [h]

/-- A read mask of all bits hides none. -/
theorem and_ones (w : Word) : w &&& 0xFFFFFFFF#32 = w := BitVec.and_allOnes

/-- Settles O33: the row is a register result, and each number's view is its cell under its read mask. -/
theorem controlRegisterReads : Obligations.ControlRegisterReads := by
  intro rt rd s hc
  have runs : exec (.mfc0 rt rd) s = .next (s.setX rt (sx (s.cop0Read rd))).advance := by
    simp only [exec, execMfc0]; exact usableRow_usable _ hc
  refine ⟨⟨_, runs, setX_advance_writesReg s rt _⟩, fun h => ?_, fun h => ?_⟩
  · simp [State.cop0Read, cop0WriteMask, State.cop0Cell, cop0ReadMask, h, and_ones]
  · simp [State.cop0Read, cop0WriteMask, State.cop0Cell, cop0ReadMask, h, and_ones]

/-- The control registers of a core that MTC0 reaches, each with its write mask (R33 to R43). -/
def writeMasks : CoreId → List (RegIdx × Word)
  | .ee => eeWriteMasks
  | .iop => iopWriteMasks

/-- The listed masks are those the write uses, and no other number has one (R45). -/
theorem mem_writeMasks (c : CoreId) (n : RegIdx) (m : Word) : (n, m) ∈ writeMasks c ↔ cop0WriteMask c n = some m := by
  have listed : ((writeMasks c).all fun p => cop0WriteMask c p.1 == some p.2) = true := by cases c <;> decide
  have all : ∀ n, ((cop0WriteMask c n).all fun m => decide ((n, m) ∈ writeMasks c)) = true :=
    forall_regIdx (by cases c <;> decide)
  constructor
  · intro h
    exact eq_of_beq (List.all_eq_true.mp listed _ h)
  · intro h
    have hn := all n
    rw [h] at hn
    exact of_decide_eq_true hn

/-- Which field of EE the cell of number `n` is (R32): an update of EE that keeps that field and the control part keeps the
cell. -/
theorem cop0Cell_ee {s : State} {n : RegIdx} (e : EECore) (ctl : e.ctl = s.ee.ctl := by rfl)
    (index : n.toNat ≠ 0 ∨ e.index = s.ee.index := by exact .inr rfl)
    (entryLo0 : n.toNat ≠ 2 ∨ e.entryLo0 = s.ee.entryLo0 := by exact .inr rfl)
    (entryLo1 : n.toNat ≠ 3 ∨ e.entryLo1 = s.ee.entryLo1 := by exact .inr rfl)
    (pageMask : n.toNat ≠ 5 ∨ e.pageMask = s.ee.pageMask := by exact .inr rfl)
    (entryHi : n.toNat ≠ 10 ∨ e.entryHi = s.ee.entryHi := by exact .inr rfl)
    (errorEpc : n.toNat ≠ 30 ∨ e.errorEpc = s.ee.errorEpc := by exact .inr rfl) :
    State.cop0Cell { s with ee := e } n = s.cop0Cell n := by
  have hc : State.ctl { s with ee := e } = s.ctl := by simp only [State.ctl, ctl]
  simp only [State.cop0Cell, hc]
  split <;> simp_all

/-- Which field of the control part it is: an update of the control part that keeps that field keeps the cell. -/
theorem cop0Cell_setCtl {s : State} {n : RegIdx} (k : Control)
    (badVAddr : n.toNat ≠ 8 ∨ k.badVAddr = s.ctl.badVAddr := by exact .inr rfl)
    (status : n.toNat ≠ 12 ∨ k.status = s.ctl.status := by exact .inr rfl)
    (cause : n.toNat ≠ 13 ∨ k.cause = s.ctl.cause := by exact .inr rfl)
    (epc : n.toNat ≠ 14 ∨ k.epc = s.ctl.epc := by exact .inr rfl) : (s.setCtl k).cop0Cell n = s.cop0Cell n := by
  simp only [State.cop0Cell, setCtl_turn, setCtl_ctl, setCtl_ee_index, setCtl_ee_entryLo0, setCtl_ee_entryLo1,
    setCtl_ee_pageMask, setCtl_ee_entryHi, setCtl_ee_errorEpc]
  split <;> simp_all

/-- The advance changes no control register. -/
theorem advance_cop0Cell (s : State) (n : RegIdx) : s.advance.cop0Cell n = s.cop0Cell n := cop0Cell_setCtl _

/-- A store into the cell of a defined register reads back (R21). -/
theorem setCop0Cell_self {s : State} {n : RegIdx} {m : Word} (v : Word) (h : cop0WriteMask s.turn n = some m) :
    (s.setCop0Cell n v).cop0Cell n = v := by
  unfold State.setCop0Cell
  split
  case h_11 =>
    unfold cop0WriteMask at h
    split at h <;> simp_all
  all_goals simp [State.cop0Cell, *]

/-- A store into the cell of one register leaves the cell of every other (R21). -/
theorem setCop0Cell_other (s : State) {n k : RegIdx} (v : Word) (h : k ≠ n) :
    (s.setCop0Cell n v).cop0Cell k = s.cop0Cell k := by
  have apart : ∀ {c : Nat}, n.toNat = c → k.toNat ≠ c := fun hn hk => h (BitVec.eq_of_toNat_eq (hk.trans hn.symm))
  unfold State.setCop0Cell
  split
  case h_1 hn => exact cop0Cell_ee _ (index := .inl (apart hn))
  case h_2 hn => exact cop0Cell_ee _ (entryLo0 := .inl (apart hn))
  case h_3 hn => exact cop0Cell_ee _ (entryLo1 := .inl (apart hn))
  case h_4 hn => exact cop0Cell_ee _ (pageMask := .inl (apart hn))
  case h_5 hn => exact cop0Cell_ee _ (entryHi := .inl (apart hn))
  case h_6 hn => exact cop0Cell_ee _ (errorEpc := .inl (apart hn))
  case h_7 hn => exact cop0Cell_setCtl _ (badVAddr := .inl (apart hn))
  case h_8 hn => exact cop0Cell_setCtl _ (status := .inl (apart hn))
  case h_9 hn => exact cop0Cell_setCtl _ (cause := .inl (apart hn))
  case h_10 hn => exact cop0Cell_setCtl _ (epc := .inl (apart hn))
  case h_11 => rfl

theorem OnlyPc.onlyControlRegs {s t : State} (h : OnlyPc s t) : OnlyControlRegs s t :=
  ⟨h.rest, h.table, h.fp, h.memory, h.regs⟩

theorem OnlyControlRegs.trans {s t u : State} (h : OnlyControlRegs s t) (g : OnlyControlRegs t u) : OnlyControlRegs s u where
  rest := h.rest.trans g.rest
  table := Eq.trans g.table h.table
  fp := ⟨fun r => (g.fp.1 r).trans (h.fp.1 r), g.fp.2.trans h.fp.2⟩
  memory := fun a => (g.memory a).trans (h.memory a)
  regs := fun r => ⟨(g.regs r).1.trans (h.regs r).1, (g.regs r).2.trans (h.regs r).2⟩

theorem advance_ctl (s : State) : s.advance.ctl = { s.ctl with pc := s.ctl.pc + 4#32 } := setCtl_ctl _ _

/-- A store into the cell of a control register changes control registers only: of the control part Status, Cause, EPC and
BadVAddr (R282). -/
theorem setCop0Cell_frame (s : State) (n : RegIdx) (v : Word) :
    OnlyControlRegs s (s.setCop0Cell n v) ∧
      (s.setCop0Cell n v).ctl = { s.ctl with
        status := (s.setCop0Cell n v).ctl.status, cause := (s.setCop0Cell n v).ctl.cause,
        epc := (s.setCop0Cell n v).ctl.epc, badVAddr := (s.setCop0Cell n v).ctl.badVAddr } := by
  rcases setCop0Cell_cases s n v with ⟨_, _, _, _, h⟩ | ⟨ht, _, _, _, _, _, _, h⟩ <;> rw [h]
  · exact ⟨⟨setCtl_sameRest _ _, setCtl_ee_tlb _ _, ⟨setCtl_f _ _, setCtl_ee_fcr31 _ _⟩, fun _ => by rw [setCtl_mem],
      fun r => ⟨setCtl_q _ _ r, setCtl_r32 _ _ r⟩⟩, by rw [setCtl_ctl]⟩
  · exact ⟨⟨.of_ee ht _, rfl, ⟨fun _ => rfl, rfl⟩, fun _ => rfl, fun _ => ⟨rfl, rfl⟩⟩, rfl⟩

/-- MTC0 to a register the core defines (R282). -/
theorem mtc0_defined {s : State} {rd : RegIdx} {m : Word} (v : Word) (h : cop0WriteMask s.turn rd = some m) :
    s.cop0Write rd v = s.setCop0Cell rd (setBits (s.cop0Cell rd) m v) := by
  simp only [State.cop0Write, h]

/-- MTC0 to any other number does nothing (R45). -/
theorem mtc0_undefined {s : State} {rd : RegIdx} (v : Word) (h : cop0WriteMask s.turn rd = none) : s.cop0Write rd v = s := by
  simp only [State.cop0Write, h]

/-- Settles O34: a defined number is a store of the masked value, an undefined one the advance alone. -/
theorem controlRegisterWrites : Obligations.ControlRegisterWrites := by
  intro rt rd s hc
  refine ⟨(s.cop0Write rd (s.x rt 32)).advance, by simp only [exec, execMtc0]; exact usableRow_usable _ hc, ?_⟩
  have listed : ∀ m, (rd, m) ∈ writeMasks s.turn → cop0WriteMask s.turn rd = some m := fun m => (mem_writeMasks _ _ _).mp
  cases hm : cop0WriteMask s.turn rd with
  | none =>
    rw [mtc0_undefined _ hm]
    have only := advance_onlyPc s
    have undefined : ∀ m, (rd, m) ∉ writeMasks s.turn := fun m h => by cases hm.symm.trans (listed m h)
    refine ⟨only.onlyControlRegs, by simp [State.advance], fun n _ => advance_cop0Cell s n, fun ht m h => ?_,
      fun ht m h => ?_, fun _ _ => only, fun _ _ => only⟩
    · rw [ht] at undefined; exact absurd h (undefined m)
    · rw [ht] at undefined; exact absurd h (undefined m)
  | some k =>
    rw [mtc0_defined _ hm]
    obtain ⟨frame, ctl⟩ := setCop0Cell_frame s rd (setBits (s.cop0Cell rd) k (s.x rt 32))
    have value : ∀ m, (rd, m) ∈ writeMasks s.turn →
        (s.setCop0Cell rd (setBits (s.cop0Cell rd) k (s.x rt 32))).advance.cop0Cell rd =
          (s.cop0Cell rd &&& ~~~m) ||| (s.x rt 32 &&& m) := fun m h => by
      cases hm.symm.trans (listed m h)
      rw [advance_cop0Cell, setCop0Cell_self _ hm]; rfl
    have defined : (rd, k) ∈ writeMasks s.turn := (mem_writeMasks _ _ _).mpr hm
    refine ⟨frame.trans (advance_onlyPc _).onlyControlRegs, by rw [advance_ctl, ctl],
      fun n hn => (advance_cop0Cell _ n).trans (setCop0Cell_other s _ hn),
      fun ht => ?_, fun ht => ?_, fun ht h => ?_, fun ht h => ?_⟩ <;> rw [ht] at value defined
    · exact value
    · exact value
    · exact absurd defined (h k)
    · exact absurd defined (h k)

/-- TLBWI with an index of the table: the entry, and the advance (R286). -/
theorem tableWrite_entry {s : State} (h : (s.ee.index.extractLsb' 0 6).toNat < 48) :
    tableWrite s = State.advance { s with ee := { s.ee with tlb := s.ee.tlb.set _ (tlbwiEntry s.ee) h } } := dif_pos h

/-- TLBWI with an index past the table: the abort (R286). -/
theorem tableWrite_abort {s : State} (h : 48 ≤ (s.ee.index.extractLsb' 0 6).toNat) :
    tableWrite s = s.abort (.tlbIndexOutOfRange (s.ee.index.extractLsb' 0 6)) := dif_neg (Nat.not_lt.mpr h)

/-- Settles O37: the entry of the index is set and the rest kept, or the run aborts where there is no such entry. -/
theorem tlbwiWritesEntry : Obligations.TlbwiWritesEntry := by
  rintro s i ht hc rfl
  have runs : exec .tlbwi s = .next (tableWrite s) := by
    simp only [exec, execTlbwi]
    exact (eeRow_ee _ ht).trans (usableRow_usable _ hc)
  refine ⟨fun h => ⟨_, runs.trans (congrArg _ (tableWrite_entry h)), ?_⟩, fun h => ⟨_, runs.trans
    (congrArg _ (tableWrite_abort h)), abort_aborts s _⟩⟩
  have only := advance_onlyPc { s with ee := { s.ee with tlb := s.ee.tlb.set _ (tlbwiEntry s.ee) h } }
  refine ⟨(SameRest.of_ee ht _).trans only.rest, SameCop0.trans ?_ only.cop0, only.fp, only.memory,
    only.regs, advance_ctl _, fun j g hj => ?_, ?_⟩
  · exact ⟨rfl, rfl, rfl, rfl, rfl, rfl⟩
  · rw [advance_ee_tlb]
    exact Vector.getElem_set_ne h g hj.symm
  · rw [advance_ee_tlb, Vector.getElem_set_self]
    exact ⟨rfl, rfl, rfl, Bool.and_eq_true _ _ ▸ Iff.rfl, rfl, rfl, rfl⟩

/-! ### Floating-point arithmetic rows (R307) -/

/-- The one-shot flags show this operation (R49, R307). -/
theorem fcr31After_oneShot (w : Word) (cls : FpClass) :
    (fcr31After w cls).getLsbD 15 = decide (cls = .overflow) ∧ (fcr31After w cls).getLsbD 14 = decide (cls = .underflow) := by
  cases cls <;> simp [fcr31After, setBits_bit, -BitVec.getLsbD_eq_getElem]

/-- The sticky flags gather it (R49, R307). -/
theorem fcr31After_gathers (w : Word) (cls : FpClass) :
    (fcr31After w cls).getLsbD 4 = (w.getLsbD 4 || decide (cls = .overflow)) ∧
      (fcr31After w cls).getLsbD 3 = (w.getLsbD 3 || decide (cls = .underflow)) := by
  cases cls <;> simp [fcr31After, setBits_bit, -BitVec.getLsbD_eq_getElem]

/-- A masked write changes no bit that is not in the mask. -/
theorem setBits_outside {w m v : Word} {k : Nat} (h : m.getLsbD k = false) : (setBits w m v).getLsbD k = w.getLsbD k := by
  rw [setBits_bit, h]
  rfl

/-- No other bit of `fcr31` changes (R49). -/
theorem fcr31After_others (w : Word) (cls : FpClass) {k : Nat} (hO : k ≠ 15) (hU : k ≠ 14) (hSO : k ≠ 4) (hSU : k ≠ 3) :
    (fcr31After w cls).getLsbD k = w.getLsbD k := by
  have flags : (0x0000C018#32).getLsbD k = false := by
    have bits : ∀ b : Fin 32, (0x0000C018#32).getLsbD b = true → b.val = 15 ∨ b.val = 14 ∨ b.val = 4 ∨ b.val = 3 := by decide
    by_contra hb
    have hb := eq_true_of_ne_false hb
    rcases bits ⟨k, BitVec.lt_of_getLsbD hb⟩ hb with h | h | h | h
    · exact hO h
    · exact hU h
    · exact hSO h
    · exact hSU h
  have outside : ∀ m : Word, m &&& 0x0000C018#32 = m → m.getLsbD k = false := fun m hm => by
    rw [← hm, BitVec.getLsbD_and, flags, Bool.and_false]
  cases cls <;> exact setBits_outside (outside _ (by decide))

/-- The clamped value has the sign of the result and the magnitude of the clamp constant (R307). -/
theorem signed_append (r : Word) (m : BitVec 31) :
    (r.extractLsb' 31 1 ++ m : Word).getLsbD 31 = r.getLsbD 31 ∧ (r.extractLsb' 31 1 ++ m : Word).extractLsb' 0 31 = m := by
  constructor
  · exact (BitVec.getLsbD_append (x := r.extractLsb' 31 1) (y := m) (i := 31)).trans (by simp)
  · exact (extract_append_low _ m 0 31 (by omega)).trans (extract_all m)

/-- What `FpArith` writes into `fcr31`. -/
theorem fpArith_fcr31 (s : State) (op : FpOp) (fd fs ft : RegIdx) : (fpArith op fd fs ft s).ee.fcr31 =
    fcr31After s.ee.fcr31 (fpCompute s.params.fpCompute op (s.f fs) (s.f ft) s.ee.acc).1 := rfl

/-- What `FpArith` leaves in the floating-point registers. -/
theorem fpArith_f (s : State) (op : FpOp) (fd fs ft r : RegIdx) : (fpArith op fd fs ft s).f r =
    if r = fd then fpClamp s.params.fpClampMax (fpCompute s.params.fpCompute op (s.f fs) (s.f ft) s.ee.acc).1
      (fpCompute s.params.fpCompute op (s.f fs) (s.f ft) s.ee.acc).2 else s.f r := setF_f _ _ _ _

/-- All that an arithmetic row does past the usable test (R307). -/
theorem fpArith_fpResult {s : State} (op : FpOp) (fd fs ft : RegIdx) (ht : s.turn = .ee) :
    FpResult op fd fs ft s (fpArith op fd fs ft s).advance := by
  have only := advance_onlyPc (fpArith op fd fs ft s)
  have cop0 : SameCop0 s (fpArith op fd fs ft s) := ⟨rfl, rfl, rfl, rfl, rfl, rfl⟩
  have control : (fpArith op fd fs ft s).ctl = s.ctl := by simp [fpArith, State.ctl]
  have written := (advance_f _ _).trans ((fpArith_f s op fd fs ft fd).trans (if_pos rfl))
  have flags := (advance_ee_fcr31 _).trans (fpArith_fcr31 s op fd fs ft)
  exact
    { frame :=
        { rest := (SameRest.of_ee ht _).trans only.rest
          table := only.table
          cop0 := cop0.trans only.cop0
          memory := only.memory
          regs := only.regs
          control := by rw [SameControl, advance_ctl, control] }
      pc := by rw [advance_ctl_pc, control]
      others := fun r hr => by rw [advance_f, fpArith_f, if_neg hr]
      normal := fun h => by rw [written, h]; rfl
      overflow := fun h => by rw [written, h]; exact signed_append _ _
      underflow := fun h => by rw [written, h]; exact signed_append _ _
      oneShotO := by rw [flags]; exact (fcr31After_oneShot _ _).1
      oneShotU := by rw [flags]; exact (fcr31After_oneShot _ _).2
      stickyO := by rw [flags]; exact (fcr31After_gathers _ _).1
      stickyU := by rw [flags]; exact (fcr31After_gathers _ _).2
      otherBits := fun k hO hU hSO hSU => by rw [flags]; exact fcr31After_others _ _ hO hU hSO hSU }

/-- Settles O40: the six rows run one body. -/
theorem floatingArithmeticRows : Obligations.FloatingArithmeticRows := by
  intro fd fs ft s ht hc
  have row : ∀ (i : Instr) (op : FpOp), exec i s = eeRow i s (fpRow op fd fs ft) →
      ∃ t, exec i s = .next t ∧ FpResult op fd fs ft s t := fun i op he =>
    ⟨_, he.trans ((eeRow_ee _ ht).trans (usableRow_usable _ hc)), fpArith_fpResult op fd fs ft ht⟩
  exact ⟨row (.addS fd fs ft) .add rfl, row (.subS fd fs ft) .sub rfl, row (.mulS fd fs ft) .mul rfl,
    row (.divS fd fs ft) .div rfl, row (.maddS fd fs ft) .madd rfl, row (.msubS fd fs ft) .msub rfl⟩

end Sys2Proof.Machine
end

section
/-! PROOF. Memory and the mapper: canonical memories (O8), what a written value reads back as (O9), and the object an access
reaches (O10). -/

namespace Sys2Proof.Machine

/-! ### Canonical memories -/

/-- The first listed byte of a canonical memory is no unlisted one, and reads as itself. -/
theorem read_head {lo : Option Nat} {k : Nat} {b : Byte} {m : Memory} (h : Memory.wfAbove lo ((k, b) :: m) = true) :
    Memory.read ((k, b) :: m) k = b ∧ b ≠ Memory.unlisted :=
  ⟨if_pos rfl, ((wfAbove_cons lo k b m).mp h).2.1⟩

/-- Of two canonical memories that read the same, neither lists a byte below the first of the other. -/
theorem head_le_of_reads {lo lo' : Option Nat} {k j : Nat} {b c : Byte} {m n : Memory}
    (hm : Memory.wfAbove lo ((k, b) :: m) = true) (hn : Memory.wfAbove lo' ((j, c) :: n) = true)
    (h : Memory.read ((k, b) :: m) k = Memory.read ((j, c) :: n) k) : j ≤ k := by
  obtain ⟨hb, hne⟩ := read_head hm
  by_contra hlt
  obtain ⟨-, hc, hn⟩ := (wfAbove_cons lo' j c n).mp hn
  have below : Memory.wfAbove (some k) ((j, c) :: n) = true :=
    (wfAbove_cons _ _ _ _).mpr ⟨Nat.lt_of_not_le hlt, hc, hn⟩
  rw [hb, read_of_below _ k k below (Nat.le_refl k)] at h
  exact hne h

/-- A canonical memory is determined by what it reads, whatever the bounds it lies above. -/
theorem eq_of_reads (m n : Memory) (lo lo' : Option Nat) (hm : Memory.wfAbove lo m = true)
    (hn : Memory.wfAbove lo' n = true) (h : ∀ a, Memory.read m a = Memory.read n a) : m = n := by
  induction m generalizing n lo lo' with
  | nil =>
    cases n with
    | nil => rfl
    | cons d n =>
      obtain ⟨hd, hne⟩ := read_head hn
      exact absurd (hd.symm.trans (h d.1).symm) hne
  | cons d m ih =>
    obtain ⟨k, b⟩ := d
    cases n with
    | nil =>
      obtain ⟨hb, hne⟩ := read_head hm
      exact absurd (hb.symm.trans (h k)) hne
    | cons d n =>
      obtain ⟨j, c⟩ := d
      have hkj : k = j := Nat.le_antisymm (head_le_of_reads hn hm (h j).symm) (head_le_of_reads hm hn (h k))
      subst hkj
      have hbc : b = c := by rw [← (read_head hm).1, h k, (read_head hn).1]
      obtain ⟨-, -, hm⟩ := (wfAbove_cons lo k b m).mp hm
      obtain ⟨-, -, hn⟩ := (wfAbove_cons lo' k c n).mp hn
      have tails : m = n := ih n _ _ hm hn fun a => by
        by_cases ha : k < a
        · have := h a
          rwa [Memory.read, Memory.read, if_neg (by omega), if_neg (by omega)] at this
        · rw [read_of_below m k a hm (by omega), read_of_below n k a hn (by omega)]
      rw [hbc, tails]

/-- Settles O8: two canonical memories that read the same have the same first byte, and so have their tails. -/
theorem equalReadsEqualMemories : Obligations.EqualReadsEqualMemories := fun m n hm hn h => eq_of_reads m n _ _ hm hn h

/-! ### Bytes of a value -/

/-- Byte `k` of a value is what is left of its number after `k` bytes are dropped (R87). -/
theorem byte_ofNat_toNat {w : Nat} (v : BitVec w) (k : Nat) :
    BitVec.ofNat 8 (v.toNat / 256 ^ k) = v.extractLsb' (8 * k) 8 := by
  unfold BitVec.extractLsb'
  rw [Nat.shiftRight_eq_div_pow, Nat.pow_mul]

/-- Byte `k` of a number taken at `n` bytes (R87). -/
theorem extract_byte_ofNat {n k : Nat} (x : Nat) (h : k < n) :
    (BitVec.ofNat (8 * n) x).extractLsb' (8 * k) 8 = BitVec.ofNat 8 (x / 256 ^ k) := by
  refine BitVec.eq_of_getLsbD_eq fun i hi => ?_
  rw [show 256 ^ k = 2 ^ (8 * k) from (Nat.pow_mul 2 8 k).symm, BitVec.getLsbD_extractLsb', BitVec.getLsbD_ofNat,
    BitVec.getLsbD_ofNat, Nat.testBit_div_two_pow, Nat.add_comm i]
  simp [hi, show 8 * k + i < 8 * n by omega]

/-- Byte `k` of the little-endian read of `n` bytes is the byte `k` addresses up (R87). -/
theorem extract_byte_readLE (s : State) (pa : Word) {n k : Nat} (h : k < n) :
    (BitVec.ofNat (8 * n) (Memory.readLE s.mem pa.toNat n)).extractLsb' (8 * k) 8 = byteAt s pa k := by
  rw [extract_byte_ofNat _ h]
  apply BitVec.eq_of_toNat_eq
  rw [BitVec.toNat_ofNat, readLE_byte _ _ _ _ h]
  rfl

/-- Byte `k` of a constant block's pattern from an offset on (R82 (c); log entries 18, 32). -/
theorem constantBytes_byte (pattern : List Byte) (off n k : Nat) (h : k < n) :
    constantBytes pattern off n / 256 ^ k % 256 = (pattern.getD ((off + k) % pattern.length) 0#8).toNat := by
  induction n generalizing off k with
  | zero => omega
  | succ n ih =>
    have hb := (pattern.getD (off % pattern.length) 0#8).isLt
    cases k with
    | zero => simp only [constantBytes, Nat.pow_zero, Nat.div_one, Nat.add_zero]; omega
    | succ k =>
      rw [constantBytes, Nat.pow_succ', ← Nat.div_div_eq_div_mul, Nat.add_mul_div_left _ _ (by omega),
        Nat.div_eq_of_lt hb, Nat.zero_add, ih (off + 1) k (by omega), show off + 1 + k = off + (k + 1) by omega]

/-! ### A write through the mapper -/

/-- What a plain write leaves in memory: its bytes in order, the least significant first, and every other byte as before
(R82, R87). -/
theorem writeLE_bytes {s : State} (pa : Word) (n : Nat) (v : BitVec (8 * n)) (hw : Memory.wf s.mem = true) :
    (∀ k, k < n → byteAt { s with mem := Memory.writeLE s.mem pa.toNat n v.toNat } pa k = v.extractLsb' (8 * k) 8) ∧
      SameMemoryOutside pa.toNat n s { s with mem := Memory.writeLE s.mem pa.toNat n v.toNat } := by
  refine ⟨fun k hk => ?_, fun a ha => read_writeLE_outside _ _ _ _ _ hw ha⟩
  unfold byteAt
  rw [read_writeLE _ _ _ _ _ hw, if_pos ⟨by omega, by omega⟩, Nat.add_sub_cancel_left, byte_ofNat_toNat]

/-- A plain access stays one whatever memory holds: the map decides (R82). -/
theorem PlainAccess.withMem {s : State} {pa : Word} {n : Nat} (h : PlainAccess s pa n) (m : Memory) :
    PlainAccess { s with mem := m } pa n := h

/-- A plain write reads back (R82, R87). -/
theorem physRead_physWrite_plain {s : State} {pa : Word} {n : Nat} (v : BitVec (8 * n)) (hw : Memory.wf s.mem = true)
    (hp : PlainAccess s pa n) : physRead pa n { s with mem := Memory.writeLE s.mem pa.toNat n v.toNat } =
      .ok (v, { s with mem := Memory.writeLE s.mem pa.toNat n v.toNat }) := by
  rw [physRead_plain (hp.withMem _), readLE_writeLE _ _ _ _ hw, show 256 ^ n = 2 ^ (8 * n) from (Nat.pow_mul 2 8 n).symm,
    Nat.mod_eq_of_lt v.isLt, BitVec.ofNat_toNat, BitVec.setWidth_eq]

/-- A constant block discards a write and answers its pattern (R82 (c)). -/
theorem constant_access {s : State} {pa : Word} {n off size : Nat} {o : MappedObject} {pattern : List Byte}
    (v : BitVec (8 * n)) (hl : locate s.physMap pa n = .ok (o, off)) (hk : o.kind = .constant size pattern) :
    physWrite pa n v s = .ok s ∧ physRead pa n s = .ok (BitVec.ofNat (8 * n) (constantBytes pattern off n), s) := by
  unfold physWrite physRead
  rw [hl]
  simp only [hk, and_self]

/-- Settles O9: a plain write by the bytes it leaves, a constant block by the bytes of its pattern. -/
theorem writtenValueReadsBack : Obligations.WrittenValueReadsBack := by
  intro s pa n v
  refine ⟨fun hw hp => ?_, fun o off size pattern hl hk => ?_⟩
  · obtain ⟨bytes, outside⟩ := writeLE_bytes pa n v hw
    exact ⟨_, physWrite_plain v hp, physRead_physWrite_plain v hw hp, rfl, bytes, outside⟩
  · obtain ⟨hw, hr⟩ := constant_access v hl hk
    refine ⟨hw, _, hr, fun k hkn => ?_⟩
    rw [extract_byte_ofNat _ hkn]
    apply BitVec.eq_of_toNat_eq
    rw [BitVec.toNat_ofNat, constantBytes_byte _ _ _ _ hkn]

/-! ### The object an access reaches -/

theorem contains_iff (o : MappedObject) (pa : Nat) : o.contains pa = true ↔ o.base ≤ pa ∧ pa < o.base + o.extent := by
  simp [MappedObject.contains]

/-- Two disjoint objects share no address (R81). -/
theorem not_contains_of_disjoint {o p : MappedObject} {pa : Nat} (h : o.disjoint p = true) (hp : p.contains pa = true) :
    o.contains pa = false := by
  rw [contains_iff] at hp
  rw [← Bool.not_eq_true, contains_iff]
  simp only [MappedObject.disjoint, Bool.or_eq_true, decide_eq_true_eq] at h
  omega

/-- In a valid map the search finds any object that contains the address, so there is only one (R81, R83). -/
theorem find_of_contains {objects : List MappedObject} {o : MappedObject} {pa : Nat} (hv : physMapValid objects = true)
    (ho : o ∈ objects) (hc : o.contains pa = true) : objects.find? (fun p => p.contains pa) = some o := by
  induction objects with
  | nil => cases ho
  | cons p os ih =>
    simp only [physMapValid, Bool.and_eq_true, List.all_eq_true] at hv
    obtain ⟨⟨-, apart⟩, hv⟩ := hv
    rcases List.mem_cons.mp ho with rfl | ho
    · exact List.find?_cons_of_pos hc
    · rw [List.find?_cons_of_neg (by simp [not_contains_of_disjoint (apart o ho) hc])]
      exact ih hv ho

/-- The sizes an object supports are those of R82. -/
theorem supports_iff (o : MappedObject) (n : Nat) : o.supports n = true ↔ Accepts o.kind n := by
  unfold MappedObject.supports
  cases o.kind with
  | ram size => simp [Accepts]
  | constant size pattern => simp [Accepts]
  | register w semantics =>
    cases w with
    | w128 => simp [Accepts]
    | _ =>
      simp only [List.contains_eq_mem, List.mem_cons, List.not_mem_nil, or_false, Bool.and_eq_true, decide_eq_true_eq,
        Accepts]
      simp only [RegWidth.bytes]
      omega

/-- An access that no object contains (R83). -/
theorem locate_unmapped {objects : List MappedObject} {pa : Word} (n : Nat)
    (h : objects.find? (fun o => o.contains pa.toNat) = none) : locate objects pa n = .error .unmapped := by
  simp only [locate, h]

/-- An access of a size the object does not support (R83). -/
theorem locate_size {objects : List MappedObject} {pa : Word} {n : Nat} {o : MappedObject}
    (h : objects.find? (fun o => o.contains pa.toNat) = some o) (hs : ¬ Accepts o.kind n) :
    locate objects pa n = .error .sizeViolation := by
  rw [← supports_iff] at hs
  simp only [locate, h, hs, Bool.false_eq_true, not_false_eq_true, if_true]

/-- An access of a supported size: its alignment and extent decide (R83). -/
theorem locate_align {objects : List MappedObject} {pa : Word} {n : Nat} {o : MappedObject}
    (h : objects.find? (fun o => o.contains pa.toNat) = some o) (hs : Accepts o.kind n) : locate objects pa n =
      if (pa.toNat - o.base) % n ≠ 0 ∨ pa.toNat - o.base + n > o.extent then .error .alignViolation
      else .ok (o, pa.toNat - o.base) := by
  rw [← supports_iff] at hs
  simp only [locate, h, hs, not_true_eq_false, if_false]

/-- Settles O10: in a valid map the search finds the one object, or none. -/
theorem mapperFindsTheObject : Obligations.MapperFindsTheObject := by
  intro objects pa n hv
  refine ⟨fun hno => locate_unmapped n (List.find?_eq_none.mpr fun o ho hc => hno o ho ?_), fun o ho hlo hhi => ?_⟩
  · rw [contains_iff] at hc
    omega
  · have hf := find_of_contains hv ho ((contains_iff o _).mpr ⟨hlo, hhi⟩)
    refine ⟨locate_size hf, fun hs hbad => ?_, fun hs ha he => ?_⟩
    · rw [locate_align hf hs, if_pos hbad]
    · rw [locate_align hf hs, if_neg (by omega)]

end Sys2Proof.Machine
end

section
/-! PROOF. The translator: Stage 1 (O12, O13, O14) and the table of EE (O15). -/

namespace Sys2Proof.Machine

/-! ### Stage 1 -/

/-- No status is both of kernel mode and of user mode (R46). -/
theorem userMode_of_kernelMode {c : CoreId} {status : Word} (h : kernelMode c status = true) : userMode c status = false := by
  cases c with
  | ee =>
    simp only [kernelMode, Bool.or_eq_true, decide_eq_true_eq] at h
    obtain (h | h) | h := h <;> simp [userMode, h]
  | iop => simpa [kernelMode, userMode] using h

/-- Stage 1 in user mode, past the segment bound (R91). -/
theorem translate_user_above {s : State} {va : Word} (kind : AccessKind) (h : userMode s.turn s.ctl.status = true)
    (hva : 0x7FFFFFFF#32 < va) : translate va kind s = .fault (.addressError va (dirOf kind)) :=
  (if_pos h).trans (if_pos hva)

/-- Stage 1 in user mode, up to the segment bound (R91). -/
theorem translate_user_below {s : State} {va : Word} (kind : AccessKind) (h : userMode s.turn s.ctl.status = true)
    (hva : va ≤ 0x7FFFFFFF#32) : translate va kind s = translateMapped va kind s :=
  (if_pos h).trans (if_neg (by unfold Config.usegTop; bv_omega))

/-- Stage 1 in kernel mode, inside a window (R92, R93). -/
theorem translate_window {s : State} {va pa : Word} (kind : AccessKind) (h : kernelMode s.turn s.ctl.status = true)
    (hw : window s.turn va = some pa) : translate va kind s = .ok pa := by
  simp only [translate, userMode_of_kernelMode h, h, hw, if_true, Bool.false_eq_true, if_false]

/-- Stage 1 in kernel mode, outside every window (R93). -/
theorem translate_mapped {s : State} {va : Word} (kind : AccessKind) (h : kernelMode s.turn s.ctl.status = true)
    (hw : window s.turn va = none) : translate va kind s = translateMapped va kind s := by
  simp only [translate, userMode_of_kernelMode h, h, hw, if_true, Bool.false_eq_true, if_false]

/-- Stage 1 in a mode that is neither (R94 (a)). -/
theorem translate_neither {s : State} (va : Word) (kind : AccessKind) (hk : kernelMode s.turn s.ctl.status = false)
    (hu : userMode s.turn s.ctl.status = false) : translate va kind s = .abort .unimplementedMode := by
  simp only [translate, hk, hu, Bool.false_eq_true, if_false]

/-- IOP has no Stage 2 (R94 (b)). -/
theorem translateMapped_iop {s : State} (va : Word) (kind : AccessKind) (h : s.turn = .iop) :
    translateMapped va kind s = .abort .unimplementedStage2 := by
  simp only [translateMapped, h]

theorem window_win0 (c : CoreId) {va : Word} (hlo : 0x80000000#32 ≤ va) (hhi : va ≤ 0x9FFFFFFF#32) :
    window c va = some (va - 0x80000000#32) := if_pos ⟨hlo, hhi⟩

theorem window_win1 (c : CoreId) {va : Word} (hlo : 0xA0000000#32 ≤ va) (hhi : va ≤ 0xBFFFFFFF#32) :
    window c va = some (va - 0xA0000000#32) := by
  unfold window Config.win0Hi
  rw [if_neg (by bv_omega)]
  exact if_pos ⟨hlo, hhi⟩

/-- Outside the two fixed windows the extra windows of IOP decide (R93). -/
theorem window_outside (c : CoreId) {va : Word} (h : va < 0x80000000#32 ∨ 0xBFFFFFFF#32 < va) : window c va =
    if c = .iop ∧ Config.xwinHiLo ≤ va then some (va - Config.xwinHiOffset)
    else if c = .iop ∧ va ≤ Config.xwinLoHi then some va else none := by
  have win0 : ¬ (Config.win0Lo ≤ va ∧ va ≤ Config.win0Hi) := by unfold Config.win0Lo Config.win0Hi; bv_omega
  have win1 : ¬ (Config.win1Lo ≤ va ∧ va ≤ Config.win1Hi) := by unfold Config.win1Lo Config.win1Hi; bv_omega
  unfold window
  rw [if_neg win0, if_neg win1]

theorem window_ee_none {va : Word} (h : va < 0x80000000#32 ∨ 0xBFFFFFFF#32 < va) : window .ee va = none := by
  rw [window_outside .ee h, if_neg (by simp), if_neg (by simp)]

theorem window_iop_high {va : Word} (h : 0xFFC00000#32 ≤ va) : window .iop va = some (va - 0xE0000000#32) := by
  rw [window_outside .iop (.inr (by bv_omega))]
  exact if_pos ⟨rfl, h⟩

theorem window_iop_low {va : Word} (h : va ≤ 0x001FFFFF#32) : window .iop va = some va := by
  have high : ¬ (CoreId.iop = .iop ∧ Config.xwinHiLo ≤ va) := by unfold Config.xwinHiLo; bv_omega
  rw [window_outside .iop (.inl (by bv_omega)), if_neg high]
  exact if_pos ⟨rfl, h⟩

theorem window_iop_none {va : Word} (hlo : 0x001FFFFF#32 < va) (h : va < 0x80000000#32 ∨ 0xBFFFFFFF#32 < va)
    (hhi : va < 0xFFC00000#32) : window .iop va = none := by
  have high : ¬ (CoreId.iop = .iop ∧ Config.xwinHiLo ≤ va) := by unfold Config.xwinHiLo; bv_omega
  have low : ¬ (CoreId.iop = .iop ∧ va ≤ Config.xwinLoHi) := by unfold Config.xwinLoHi; bv_omega
  rw [window_outside .iop h, if_neg high, if_neg low]

/-- Settles O12: each window by its bounds. -/
theorem kernelModeWindows : Obligations.KernelModeWindows := by
  intro s va kind hk
  refine ⟨fun hlo hhi => ⟨translate_window kind hk (window_win0 _ hlo hhi), by bv_omega⟩,
    fun hlo hhi => ⟨translate_window kind hk (window_win1 _ hlo hhi), by bv_omega⟩,
    fun ht h => translate_window kind hk ?_, fun ht h => translate_window kind hk ?_,
    fun ht hlo h hhi => translate_mapped kind hk ?_, fun ht h => translate_mapped kind hk ?_⟩ <;> rw [ht]
  · exact window_iop_high h
  · exact window_iop_low h
  · exact window_iop_none hlo h hhi
  · exact window_ee_none h

/-- The direction a fault records is `Store` for a store only (R90). -/
theorem dirOf_cases (kind : AccessKind) :
    (kind = .store → dirOf kind = .store) ∧ (kind ≠ .store → dirOf kind = .loadOrFetch) := by
  cases kind <;> simp [dirOf]

/-- Settles O13: the two sides of the segment bound. -/
theorem userSegmentBound : Obligations.UserSegmentBound := by
  intro s va kind hu
  refine ⟨fun h hk => ?_, fun h hk => ?_, translate_user_below kind hu⟩
  · rw [translate_user_above kind hu h, (dirOf_cases kind).1 hk]
  · rw [translate_user_above kind hu h, (dirOf_cases kind).2 hk]

/-- On IOP every status is of one of the two modes (R46). -/
theorem iop_kernel_or_user (status : Word) : kernelMode .iop status = true ∨ userMode .iop status = true := by
  cases h : status.getLsbD 1 <;> simp [kernelMode, userMode, h]

/-- Settles O14: the mode that is neither, and Stage 2 on IOP wherever Stage 1 leads to it. -/
theorem unimplementedPathsAbort : Obligations.UnimplementedPathsAbort := by
  intro s va kind
  refine ⟨fun hk hu => ⟨?_, translate_neither va kind hk hu⟩, translateMapped_iop va kind, fun ht hu h => ?_,
    fun ht hk hlo h hhi => ?_⟩
  · cases ht : s.turn with
    | ee => rfl
    | iop =>
      rw [ht] at hk hu
      rcases iop_kernel_or_user s.ctl.status with h | h
      · rw [hk] at h; cases h
      · rw [hu] at h; cases h
  · rw [translate_user_below kind hu h, translateMapped_iop va kind ht]
  · rw [translate_mapped kind hk (by rw [ht]; exact window_iop_none hlo h hhi), translateMapped_iop va kind ht]

/-! ### The table of EE -/

/-- An entry matches an address exactly when it has its page number (R95). -/
theorem entryMatches_iff (e : TlbEntry) (va : Word) : entryMatches e va = true ↔ PageAgrees e va := by
  unfold entryMatches PageAgrees
  rw [decide_eq_true_iff]
  constructor
  · intro h k hk hm
    have hb := congrArg (fun x : BitVec 19 => x.getLsbD k) h
    simpa [hk, hm] using hb
  · intro h
    refine BitVec.eq_of_getLsbD_eq fun k hk => ?_
    cases hm : e.mask.getLsbD k
    · simp [hk, hm, h k hk hm]
    · simp [hk, hm]

/-- The lookup finds nothing when no entry has the page number (R95). -/
theorem findEntry_none {tlb : Vector TlbEntry 48} {va : Word} (h : ∀ i (hi : i < 48), ¬ PageAgrees tlb[i] va) :
    findEntry tlb va = none := by
  refine List.find?_eq_none.mpr fun e he => ?_
  obtain ⟨i, hi, rfl⟩ := Vector.mem_iff_getElem.mp (Vector.mem_toList_iff.mp he)
  rw [entryMatches_iff]
  exact h i hi

/-- The lookup finds the entry of least index that has the page number (R95, R104). -/
theorem findEntry_least {tlb : Vector TlbEntry 48} {va : Word} {i : Nat} (hi : i < 48) (h : PageAgrees tlb[i] va)
    (least : ∀ j (hj : j < i), ¬ PageAgrees tlb[j] va) : findEntry tlb va = some tlb[i] := by
  refine List.find?_eq_some_iff_getElem.mpr ⟨(entryMatches_iff _ _).mpr h, i, by simpa using hi, by simp, fun j hj => ?_⟩
  have := least j hj
  rw [← entryMatches_iff] at this
  simpa using this

/-- What each legal page mask says: it is legal, where the sub-page bit is, and which bits are page offset (R39, R97, R98). -/
theorem pageOffsetBits_facts {mask : BitVec 12} {b : Nat} (h : (mask, b) ∈ pageOffsetBits) :
    Config.legalMasks.contains mask = true ∧ 12 + maskBits mask = b ∧
      ((mask.setWidth 32 <<< 12) ||| 0x00000FFF#32) = BitVec.ofNat 32 (2 ^ b - 1) := by
  have all : ∀ p ∈ pageOffsetBits, Config.legalMasks.contains p.1 = true ∧ 12 + maskBits p.1 = p.2 ∧
      ((p.1.setWidth 32 <<< 12) ||| 0x00000FFF#32) = BitVec.ofNat 32 (2 ^ p.2 - 1) := by decide
  exact all _ h

/-- Frame and offset combined: the bits from `b` up of the frame's address, the bits below `b` of the virtual one (R98). -/
theorem combine_ofNat (pfn : BitVec 20) (va : Word) (b : Nat) :
    (((pfn.setWidth 32 <<< 12) &&& ~~~(BitVec.ofNat 32 (2 ^ b - 1))) ||| (va &&& BitVec.ofNat 32 (2 ^ b - 1))) =
      BitVec.ofNat 32 (pfn.toNat * 4096 / 2 ^ b * 2 ^ b + va.toNat % 2 ^ b) := by
  rw [← Nat.shiftLeft_eq _ b, Nat.shiftLeft_add_eq_or_of_lt (Nat.mod_lt _ (Nat.two_pow_pos b)),
    show pfn.toNat * 4096 = pfn.toNat <<< 12 by rw [Nat.shiftLeft_eq]]
  refine BitVec.eq_of_getLsbD_eq fun k hk => ?_
  simp only [BitVec.getLsbD_or, BitVec.getLsbD_and, BitVec.getLsbD_not, BitVec.getLsbD_shiftLeft, BitVec.getLsbD_setWidth,
    BitVec.getLsbD_ofNat, Nat.testBit_or, Nat.testBit_shiftLeft, Nat.testBit_div_two_pow, Nat.testBit_mod_two_pow,
    Nat.testBit_two_pow_sub_one, BitVec.testBit_toNat, hk, decide_true, Bool.true_and]
  by_cases hb : k < b
  · simp [hb, Nat.not_le.mpr hb]
  · simp [hb, Nat.le_of_not_lt hb, show k - 12 < 32 by omega, ← decide_not]

/-- The scratchpad window holds the low 14 bits of the address (R99). -/
theorem scratchpad_ofNat (va : Word) :
    Config.sprBase + (va &&& (Config.sprSize - 1#32)) = BitVec.ofNat 32 (0x70000000 + va.toNat % 0x4000) := by
  have offset : va.toNat &&& 0x3FFF = va.toNat % 0x4000 := Nat.and_two_pow_sub_one_eq_mod va.toNat 14
  apply BitVec.eq_of_toNat_eq
  rw [BitVec.toNat_add, BitVec.toNat_and, BitVec.toNat_ofNat]
  exact congrArg (fun x => (0x70000000 + x) % 2 ^ 32) offset

/-- The physical address of an entry of a legal page size (R98). -/
theorem entryPhysical_legal {e : TlbEntry} {va : Word} {b : Nat} (h : (e.mask, b) ∈ pageOffsetBits) : entryPhysical e va =
    BitVec.ofNat 32 ((subPageOf e va).pfn.toNat * 4096 / 2 ^ b * 2 ^ b + va.toNat % 2 ^ b) := by
  obtain ⟨-, -, offset⟩ := pageOffsetBits_facts h
  unfold entryPhysical offMaskOf
  rw [offset, combine_ofNat]

/-- The sub-page of an entry of a legal page size, by the bit just above the page offset (R97). -/
theorem subPageOf_legal {e : TlbEntry} {va : Word} {b : Nat} {p : SubPage} (h : (e.mask, b) ∈ pageOffsetBits)
    (odd : va.getLsbD b = true → p = e.odd) (even : va.getLsbD b = false → p = e.even) : subPageOf e va = p := by
  obtain ⟨-, bit, -⟩ := pageOffsetBits_facts h
  unfold subPageOf
  rw [bit]
  cases hb : va.getLsbD b
  · exact (even hb).symm
  · exact (odd hb).symm

/-- Stages 2 to 4 past the lookup, for an entry of a legal page size: identifier, valid, dirty, scratchpad, frame (R96 to
R99). -/
theorem translateTable_legal {ee : EECore} {va : Word} {e : TlbEntry} (count : Nat) (kind : AccessKind)
    (hf : findEntry ee.tlb va = some e) (hl : Config.legalMasks.contains e.mask = true) : translateTable ee count va kind =
      if ¬ e.g ∧ e.asid ≠ ee.entryHi.extractLsb' 0 8 then .fault (.translationMiss va (dirOf kind))
      else if ¬ (subPageOf e va).v then .fault (.translationInvalid va (dirOf kind))
      else if kind = .store ∧ ¬ (subPageOf e va).d then .fault (.translationModified va .store)
      else if e.s then .ok (Config.sprBase + (va &&& (Config.sprSize - 1#32)))
      else .ok (entryPhysical e va) := by
  unfold translateTable
  simp only [hf, hl, not_true_eq_false, if_false]

/-- On EE Stage 2 is the table (R95). -/
theorem translateMapped_ee {s : State} (va : Word) (kind : AccessKind) (h : s.turn = .ee) :
    translateMapped va kind s = translateTable s.ee s.freeCount va kind := by
  simp only [translateMapped, h]

/-- Settles O15: the lookup finds no entry or the least one, and then each stage in its order. -/
theorem tableLookup : Obligations.TableLookup := by
  intro s va kind dir ht hstore hother
  have hd : dirOf kind = dir := by
    by_cases hk : kind = .store
    · rw [(dirOf_cases kind).1 hk, hstore hk]
    · rw [(dirOf_cases kind).2 hk, hother hk]
  rw [translateMapped_ee va kind ht]
  refine ⟨fun hno => ?_, fun i hi hp least e b p he hm odd even => ?_⟩
  · simp only [translateTable, findEntry_none hno, hd]
  · subst he
    obtain ⟨legal, -⟩ := pageOffsetBits_facts hm
    rw [translateTable_legal s.freeCount kind (findEntry_least hi hp least) legal, entryPhysical_legal hm,
      subPageOf_legal hm odd even, scratchpad_ofNat, hd]
    refine ⟨fun hg ha => by simp [hg, ha], fun hid => ?_⟩
    rw [if_neg fun h => hid.elim h.1 h.2]
    refine ⟨fun hv => by simp [hv], fun hv hk hdirty => by simp [hv, hk, hdirty], fun hv hw hs => ?_, fun hv hw hs => ?_⟩
    · rw [if_neg (by simp [hv]), if_neg fun h => hw.elim (fun hw => hw h.1) h.2, if_pos hs]
    · rw [if_neg (by simp [hv]), if_neg fun h => hw.elim (fun hw => hw h.1) h.2, if_neg (by simp [hs])]

end Sys2Proof.Machine
end

section
/-! PROOF. Loads and stores: O16 to O22. A memory row is one load row or one store row; what each of those answers is said
once, for every width. -/

namespace Sys2Proof.Machine

/-! ### What a memory row answers -/

/-- What a row answers when its access of `n` bytes at `va` fails: a misaligned address and a faulting translation raise, an
aborting translation and a typed error of the mapper abort the run (R86, R89, R94, R100). -/
structure FailsAs (kind : AccessKind) (dir : BusDir) (va : Word) (n : Nat) (s : State) (r : Result) : Prop where
  misaligned : va.toNat % n ≠ 0 → r = .next (s.raise (.addressError va (dirOf kind)))
  fault : va.toNat % n = 0 → ∀ k, translate va kind s = .fault k → r = .next (s.raise k)
  abort : va.toNat % n = 0 → ∀ a, translate va kind s = .abort a → r = .next (s.abort a)
  bus : va.toNat % n = 0 → ∀ pa e, translate va kind s = .ok pa → locate s.physMap pa n = .error e →
    r = .next (s.abort (.bus e pa n dir))

theorem physRead_error {s : State} {pa : Word} {n : Nat} {e : MapError} (h : locate s.physMap pa n = .error e) :
    physRead pa n s = .error e := by
  simp only [physRead, h]

theorem physWrite_error {s : State} {pa : Word} {n : Nat} {e : MapError} (v : BitVec (8 * n))
    (h : locate s.physMap pa n = .error e) : physWrite pa n v s = .error e := by
  simp only [physWrite, h]

/-- The failures of a load (R108, R259). -/
theorem loadRow_failsAs (n : Nat) (va : Word) (put : State → BitVec (8 * n) → State) (s : State) :
    FailsAs .load .read va n s (loadRow n va put s) := by
  unfold loadRow memRead readVirtual
  constructor
  · intro ha
    rw [if_pos ha]
    rfl
  · intro ha k ht
    simp only [ha, ht, ne_eq, not_true_eq_false, if_false]
  · intro ha a ht
    simp only [ha, ht, ne_eq, not_true_eq_false, if_false]
  · intro ha pa e ht hl
    simp only [ha, ht, physRead_error hl, ne_eq, not_true_eq_false, if_false]

/-- The failures of a store (R109, R259). -/
theorem storeRow_failsAs (n : Nat) (va : Word) (v : BitVec (8 * n)) (s : State) :
    FailsAs .store .write va n s (storeRow n va v s) := by
  unfold storeRow memWrite
  constructor
  · intro ha
    rw [if_pos ha]
    rfl
  · intro ha k ht
    simp only [ha, ht, ne_eq, not_true_eq_false, if_false]
  · intro ha a ht
    simp only [ha, ht, ne_eq, not_true_eq_false, if_false]
  · intro ha pa e ht hl
    simp only [ha, ht, physWrite_error v hl, ne_eq, not_true_eq_false, if_false]

/-- A load that succeeds: one physical read, the register write, the advance (R108, R259). -/
theorem loadRow_ok {n : Nat} {va pa : Word} {s u : State} {v : BitVec (8 * n)} (put : State → BitVec (8 * n) → State)
    (ha : va.toNat % n = 0) (ht : translate va .load s = .ok pa) (hr : physRead pa n s = .ok (v, u)) :
    loadRow n va put s = .next (put u v).advance := by
  simp only [loadRow, memRead, readVirtual, ha, ht, hr, ne_eq, not_true_eq_false, if_false]

/-- A store that succeeds: one physical write, the advance (R109, R259). -/
theorem storeRow_ok {n : Nat} {va pa : Word} {s u : State} {v : BitVec (8 * n)} (ha : va.toNat % n = 0)
    (ht : translate va .store s = .ok pa) (hw : physWrite pa n v s = .ok u) : storeRow n va v s = .next u.advance := by
  simp only [storeRow, memWrite, ha, ht, hw, ne_eq, not_true_eq_false, if_false]

/-! ### The rows -/

/-- A row of the EE table only runs on EE (R146). -/
theorem turn_ee_of_wf {i : Instr} {c : CoreId} (h : i.wf c = true) (he : i.eeOnly = true) : c = .ee := by
  cases c with
  | ee => rfl
  | iop => simp [Instr.wf, he] at h

/-- How a load row extends the value it read to `k` bits: LB, LH and LW by the sign, every other with zeros (R251 to R257). -/
def loadExtend (i : Instr) (rt rs : RegIdx) (imm : BitVec 16) {n : Nat} (v : BitVec (8 * n)) (k : Nat) : BitVec k :=
  if i ∈ [.lb rt rs imm, .lh rt rs imm, .lw rt rs imm] then v.signExtend k else v.setWidth k

theorem putSigned_eq {i : Instr} {rt rs : RegIdx} {imm : BitVec 16} {n : Nat}
    (h : i ∈ [.lb rt rs imm, .lh rt rs imm, .lw rt rs imm]) :
    (putSigned rt : State → BitVec (8 * n) → State) = fun t v => t.setX rt (loadExtend i rt rs imm v) :=
  funext₂ fun t _ => congrArg (t.setX rt) (funext fun _ => (if_pos h).symm)

theorem putUnsigned_eq {i : Instr} {rt rs : RegIdx} {imm : BitVec 16} {n : Nat}
    (h : i ∉ [.lb rt rs imm, .lh rt rs imm, .lw rt rs imm]) :
    (putUnsigned rt : State → BitVec (8 * n) → State) = fun t v => t.setX rt (loadExtend i rt rs imm v) :=
  funext₂ fun t _ => congrArg (t.setX rt) (funext fun _ => (if_neg h).symm)

/-- The register write of load row `i` on core `c`: bits `XLEN-1:0`, or the whole cell (R251 to R258). -/
inductive LoadWrite (c : CoreId) (i : Instr) (rt rs : RegIdx) (imm : BitVec 16) :
    (n : Nat) → (State → BitVec (8 * n) → State) → Prop
  | narrow {n : Nat} (hn : n ≠ 16) (hx : 8 * n ≤ c.xlen) :
      LoadWrite c i rt rs imm n (fun t v => t.setX rt (loadExtend i rt rs imm v))
  | quad (hc : c = .ee) : LoadWrite c i rt rs imm 16 (fun t v => t.setQ rt v)

/-- `XLEN` is at least 32 (R5). -/
theorem le_xlen (c : CoreId) {k : Nat} (h : k ≤ 32) : k ≤ c.xlen := by
  cases c <;> simp only [CoreId.xlen] <;> omega

theorem LoadWrite.signed {c : CoreId} {i : Instr} {rt rs : RegIdx} {imm : BitVec 16} {n : Nat} (hn : n ≤ 4)
    (h : i ∈ [.lb rt rs imm, .lh rt rs imm, .lw rt rs imm]) : LoadWrite c i rt rs imm n (putSigned rt) := by
  rw [putSigned_eq h]
  exact .narrow (by omega) (le_xlen c (by omega))

theorem LoadWrite.unsigned {c : CoreId} {i : Instr} {rt rs : RegIdx} {imm : BitVec 16} {n : Nat} (hx : 8 * n ≤ c.xlen)
    (h : i ∉ [.lb rt rs imm, .lh rt rs imm, .lw rt rs imm]) : LoadWrite c i rt rs imm n (putUnsigned rt) := by
  rw [putUnsigned_eq h]
  exact .narrow (by cases c <;> simp only [CoreId.xlen] at hx <;> omega) hx

/-- Every load is one load row at its access address (R250 to R258). -/
theorem exec_load {i : Instr} {rt rs : RegIdx} {imm : BitVec 16} {n : Nat} {s : State} (h : IsLoad i rt rs imm n)
    (hw : i.wf s.turn = true) : ∃ put, LoadWrite s.turn i rt rs imm n put ∧
      exec i s = loadRow n (accessAddress s rs imm n) put s := by
  cases h with
  | lb => exact ⟨_, .signed (by omega) (by simp), rfl⟩
  | lbu => exact ⟨_, .unsigned (le_xlen _ (by omega)) (by simp), rfl⟩
  | lh => exact ⟨_, .signed (by omega) (by simp), rfl⟩
  | lhu => exact ⟨_, .unsigned (le_xlen _ (by omega)) (by simp), rfl⟩
  | lw => exact ⟨_, .signed (by omega) (by simp), rfl⟩
  | lwu => exact ⟨_, .unsigned (le_xlen _ (by omega)) (by simp), eeRow_ee _ (turn_ee_of_wf hw rfl)⟩
  | ld =>
    have ht := turn_ee_of_wf hw rfl
    exact ⟨_, .unsigned (by rw [ht]; decide) (by simp), eeRow_ee _ ht⟩
  | lq =>
    have ht := turn_ee_of_wf hw rfl
    exact ⟨_, .quad ht, eeRow_ee _ ht⟩

/-- On EE the low bits of a register are those of its cell (R25). -/
theorem x_ee {s : State} (r : RegIdx) (n : Nat) (h : s.turn = .ee) : s.x r n = (s.q r).setWidth n := by
  simp only [State.x, h]

/-- On IOP the low bits of a register are those of its cell (R25). -/
theorem x_iop {s : State} (r : RegIdx) (n : Nat) (h : s.turn = .iop) : s.x r n = (s.r32 r).setWidth n := by
  simp only [State.x, h]

/-- Every store is one store row at its access address, of the low bytes of its register (R250, R260 to R264). -/
theorem exec_store {i : Instr} {rt rs : RegIdx} {imm : BitVec 16} {n : Nat} {s : State} (h : IsStore i rt rs imm n)
    (hw : i.wf s.turn = true) : exec i s = storeRow n (accessAddress s rs imm n) (s.x rt (8 * n)) s := by
  cases h with
  | sb => rfl
  | sh => rfl
  | sw => rfl
  | sd => exact eeRow_ee _ (turn_ee_of_wf hw rfl)
  | sq =>
    have ht := turn_ee_of_wf hw rfl
    rw [x_ee rt _ ht, BitVec.setWidth_eq]
    exact eeRow_ee _ ht

/-! ### Accesses that fail -/

/-- What a failing load or store answers (R259). -/
theorem exec_failsAs {i : Instr} {rt rs : RegIdx} {imm : BitVec 16} {n : Nat} {s : State} {kind : AccessKind} {dir : BusDir}
    (hw : i.wf s.turn = true) (h : IsLoad i rt rs imm n ∧ kind = .load ∧ dir = .read ∨
      IsStore i rt rs imm n ∧ kind = .store ∧ dir = .write) :
    FailsAs kind dir (accessAddress s rs imm n) n s (exec i s) := by
  rcases h with ⟨hl, rfl, rfl⟩ | ⟨hs, rfl, rfl⟩
  · obtain ⟨put, -, he⟩ := exec_load hl hw
    rw [he]
    exact loadRow_failsAs n _ put s
  · rw [exec_store hs hw]
    exact storeRow_failsAs n _ _ s

/-- Settles O16: the misaligned failure of a load, and of a store. -/
theorem misalignedAccessRaises : Obligations.MisalignedAccessRaises := by
  intro i rt rs imm n s hw ha
  exact ⟨fun h => ⟨_, (exec_failsAs hw (.inl ⟨h, rfl, rfl⟩)).misaligned ha, raise_raises s _⟩,
    fun h => ⟨_, (exec_failsAs hw (.inr ⟨h, rfl, rfl⟩)).misaligned ha, raise_raises s _⟩⟩

/-- Settles O17: the other three failures. -/
theorem failedAccessEndsInstruction : Obligations.FailedAccessEndsInstruction := by
  intro i rt rs imm n s kind dir hw h ha
  have fails := exec_failsAs hw h
  exact ⟨fun k ht => ⟨_, fails.fault ha k ht, raise_raises s k⟩, fun r ht => ⟨_, fails.abort ha r ht, abort_aborts s r⟩,
    fun pa e ht hl => ⟨_, fails.bus ha pa e ht hl, abort_aborts s _⟩⟩

/-! ### Loads of plain memory -/

/-- Two bytes, the higher first, make their 16-bit value (R87). -/
theorem append_bytes_half (v : BitVec 16) : v.extractLsb' 8 8 ++ v.extractLsb' 0 8 = v := by
  refine BitVec.eq_of_getLsbD_eq fun i hi => ?_
  rw [BitVec.getLsbD_append]
  by_cases h : i < 8
  · simp [h]
  · simp [h, show i - 8 < 8 by omega, show 8 + (i - 8) = i by omega]

/-- Four bytes, the highest first, make their 32-bit value (R87). -/
theorem append_bytes_word (v : Word) :
    v.extractLsb' 24 8 ++ v.extractLsb' 16 8 ++ v.extractLsb' 8 8 ++ v.extractLsb' 0 8 = v := by
  refine BitVec.eq_of_getLsbD_eq fun i hi => ?_
  rw [BitVec.getLsbD_append, BitVec.getLsbD_append, BitVec.getLsbD_append]
  by_cases h0 : i < 8
  · simp [h0]
  · by_cases h1 : i - 8 < 8
    · simp [h0, h1, show 8 + (i - 8) = i by omega]
    · by_cases h2 : i - 8 - 8 < 8
      · simp [h0, h1, h2, show 16 + (i - 8 - 8) = i by omega]
      · simp [h0, h1, h2, show i - 8 - 8 - 8 < 8 by omega, show 24 + (i - 8 - 8 - 8) = i by omega]

/-- The cell of a quad load, and the advance: all 128 bits written, and nothing else (R258). -/
structure WritesQuad (rt : RegIdx) (v : Quad) (s t : State) : Prop where
  rest : SameRest s t
  table : SameTable s t
  cop0 : SameCop0 s t
  fp : SameFp s t
  memory : SameMemory s t
  regs : SameRegsBut rt s t
  control : t.ctl = { s.ctl with pc := s.ctl.pc + 4#32 }
  zero : rt = 0#5 → SameRegs s t
  value : rt ≠ 0#5 → t.q rt = v

theorem setQ_advance_writesQuad {s : State} (rt : RegIdx) (v : Quad) (ht : s.turn = .ee) :
    WritesQuad rt v s (s.setQ rt v).advance where
  rest := by
    refine SameRest.trans ?_ (setCtl_sameRest _ _)
    constructor <;> simp [ht]
  table := by simp [SameTable]
  cop0 := by constructor <;> simp
  fp := ⟨fun r => by simp [State.f], by simp⟩
  memory := fun a => by simp
  regs := fun r h => by simp [setQ_q, h]
  control := by rw [advance_ctl, setQ_ctl]
  zero := fun h r => by simp [setQ_q, h]
  value := fun h => by simp [setQ_q, h]

/-- A narrow load of plain memory: the little-endian value of the bytes, extended (R87, R250). -/
theorem loadRow_plain {n : Nat} {va pa : Word} {s : State} (rt : RegIdx) (extend : BitVec (8 * n) → (k : Nat) → BitVec k)
    (ha : va.toNat % n = 0) (ht : translate va .load s = .ok pa) (hp : PlainAccess s pa n) :
    ∃ t, loadRow n va (fun t v => t.setX rt (extend v)) s = .next t ∧
      WritesReg rt (extend (BitVec.ofNat (8 * n) (Memory.readLE s.mem pa.toNat n))) s t :=
  ⟨_, loadRow_ok _ ha ht (physRead_plain hp), setX_advance_writesReg s rt _⟩

theorem readLE_byte_value (s : State) (pa : Word) : BitVec.ofNat 8 (Memory.readLE s.mem pa.toNat 1) = byteAt s pa 0 := by
  simpa using extract_byte_readLE s pa (n := 1) (k := 0) (by omega)

theorem readLE_half_value (s : State) (pa : Word) :
    BitVec.ofNat 16 (Memory.readLE s.mem pa.toNat 2) = byteAt s pa 1 ++ byteAt s pa 0 := by
  rw [← append_bytes_half (BitVec.ofNat 16 _)]
  exact congrArg₂ _ (extract_byte_readLE s pa (n := 2) (k := 1) (by omega))
    (extract_byte_readLE s pa (n := 2) (k := 0) (by omega))

theorem readLE_word_value (s : State) (pa : Word) : BitVec.ofNat 32 (Memory.readLE s.mem pa.toNat 4) =
    byteAt s pa 3 ++ byteAt s pa 2 ++ byteAt s pa 1 ++ byteAt s pa 0 := (wordOfBytes_readLE s pa).symm

/-- Settles O18: each row is a load row of plain memory at its width. -/
theorem loadsReadMemory : Obligations.LoadsReadMemory := by
  intro rt rs imm s pa ht
  refine ⟨fun hp => ?_, fun hp ha => ?_, fun hp ha => ?_⟩
  · rw [← readLE_byte_value]
    exact ⟨loadRow_plain rt (fun v k => v.signExtend k) (Nat.mod_one _) ht hp,
      loadRow_plain rt (fun v k => v.setWidth k) (Nat.mod_one _) ht hp⟩
  · rw [← readLE_half_value]
    exact ⟨loadRow_plain rt (fun v k => v.signExtend k) ha ht hp, loadRow_plain rt (fun v k => v.setWidth k) ha ht hp⟩
  · rw [← readLE_word_value]
    exact loadRow_plain rt (fun v k => v.signExtend k) ha ht hp

/-- A quad address is aligned, since its low four bits are cleared (R89, R258, R264). -/
theorem quad_aligned (s : State) (rs : RegIdx) (imm : BitVec 16) : (accessAddress s rs imm 16).toNat % 16 = 0 := by
  have low : ∀ x : Nat, (x &&& 0xFFFFFFF0) % 16 = 0 := fun x => by
    rw [← Nat.and_two_pow_sub_one_eq_mod _ 4, Nat.and_assoc]
    exact Nat.and_zero x
  exact (congrArg (· % 16) (BitVec.toNat_and _ _)).trans (low _)

/-- Settles O19: the same on EE, and for LQ the whole cell. -/
theorem eeLoadsReadMemory : Obligations.EeLoadsReadMemory := by
  intro rt rs imm s pa he
  refine ⟨fun ht hp ha => ?_, fun ht hp ha => ?_, fun ht hp => ?_⟩
  · rw [← readLE_word_value, show exec (.lwu rt rs imm) s = _ from eeRow_ee _ he]
    exact loadRow_plain rt (fun v k => v.setWidth k) ha ht hp
  · obtain ⟨t, hx, h⟩ := loadRow_plain rt (fun v k => v.setWidth k) ha ht hp
    refine ⟨t, (eeRow_ee _ he).trans hx, h.frame, h.pc, h.zero, fun hr k hk => ?_⟩
    have value := h.value hr
    rw [he] at value
    have value : t.x rt 64 = _ := value.trans (BitVec.setWidth_eq _)
    rw [value]
    exact extract_byte_readLE s pa hk
  · have h := setQ_advance_writesQuad rt (BitVec.ofNat (8 * 16) (Memory.readLE s.mem pa.toNat 16)) he
    have hx := loadRow_ok (fun t v => t.setQ rt v) (quad_aligned s rs imm) ht (physRead_plain hp)
    refine ⟨_, (eeRow_ee _ he).trans hx, h.rest, h.table, h.cop0, h.fp, h.memory, h.regs,
      by rw [SameControl, h.control], by rw [h.control], h.zero, fun hr k hk => ?_⟩
    rw [h.value hr]
    exact extract_byte_readLE s pa hk

/-! ### Stores to plain memory -/

/-- The EE control registers are kept from a state with the same EE core on. -/
theorem SameCop0.of_sameEE {s t u : State} (g : SameCop0 t u) (h : t.ee = s.ee) : SameCop0 s u :=
  SameCop0.trans (by constructor <;> rw [h]) g

/-- A state that differs in memory only keeps what almost no instruction touches. -/
theorem sameRest_withMem (s : State) (m : Memory) : SameRest s { s with mem := m } :=
  ⟨rfl, rfl, rfl, rfl, rfl, rfl, rfl, rfl, rfl, rfl, rfl, rfl, rfl, fun _ => rfl, fun _ => rfl⟩

/-- A store to plain memory: the bytes of the value, the least significant first, and nothing else (R87, R259). -/
theorem storeRow_plain {n : Nat} {va pa : Word} {s : State} (v : BitVec (8 * n)) (hw : Memory.wf s.mem = true)
    (ha : va.toNat % n = 0) (ht : translate va .store s = .ok pa) (hp : PlainAccess s pa n) :
    ∃ t, storeRow n va v s = .next t ∧ StoresAt pa.toNat n s t ∧
      ∀ k, k < n → byteAt t pa k = v.extractLsb' (8 * k) 8 := by
  obtain ⟨bytes, outside⟩ := writeLE_bytes pa n v hw
  have only := advance_onlyPc { s with mem := Memory.writeLE s.mem pa.toNat n v.toNat }
  exact ⟨_, storeRow_ok ha ht (physWrite_plain v hp),
    { rest := (sameRest_withMem s _).trans only.rest
      table := only.table
      cop0 := only.cop0.of_sameEE rfl
      fp := only.fp
      memory := fun a h => (only.memory a).trans (outside a h)
      regs := only.regs
      control := advance_ctl _ },
    fun k hk => (only.memory _).trans (bytes k hk)⟩

/-- Settles O20: each row is a store row to plain memory at its width. -/
theorem storesWriteMemory : Obligations.StoresWriteMemory := by
  intro rt rs imm s pa hw ht
  refine ⟨fun hp => ?_, fun hp ha => ?_, fun hp ha => ?_⟩
  · obtain ⟨t, hx, at1, bytes⟩ := storeRow_plain (n := 1) (s.x rt 8) hw (Nat.mod_one _) ht hp
    exact ⟨t, hx, at1, (bytes 0 (by omega)).trans (extract_all _)⟩
  · obtain ⟨t, hx, at2, bytes⟩ := storeRow_plain (n := 2) (s.x rt 16) hw ha ht hp
    refine ⟨t, hx, at2, ?_⟩
    rw [bytes 1 (by omega), bytes 0 (by omega)]
    exact append_bytes_half _
  · obtain ⟨t, hx, at4, bytes⟩ := storeRow_plain (n := 4) (s.x rt 32) hw ha ht hp
    refine ⟨t, hx, at4, ?_⟩
    rw [bytes 3 (by omega), bytes 2 (by omega), bytes 1 (by omega), bytes 0 (by omega)]
    exact append_bytes_word _

/-- Settles O21: the same on EE. -/
theorem eeStoresWriteMemory : Obligations.EeStoresWriteMemory := by
  intro rt rs imm s pa he hw
  refine ⟨fun ht hp ha => ?_, fun ht hp => ?_⟩
  · obtain ⟨t, hx, h⟩ := storeRow_plain (n := 8) (s.x rt 64) hw ha ht hp
    exact ⟨t, (eeRow_ee _ he).trans hx, h⟩
  · obtain ⟨t, hx, h⟩ := storeRow_plain (n := 16) (s.q rt) hw (quad_aligned s rs imm) ht hp
    exact ⟨t, (eeRow_ee _ he).trans hx, h⟩

/-! ### Accesses of any object -/

/-- Either extension keeps the value in the low bits (R251, R252). -/
theorem loadExtend_low (i : Instr) (rt rs : RegIdx) (imm : BitVec 16) {n k : Nat} (v : BitVec (8 * n)) (h : 8 * n ≤ k) :
    (loadExtend i rt rs imm v k).setWidth (8 * n) = v := by
  unfold loadExtend
  refine BitVec.eq_of_getLsbD_eq fun b hb => ?_
  split
  · rw [BitVec.getLsbD_setWidth, BitVec.getLsbD_signExtend]
    simp [hb, show b < k by omega]
  · rw [BitVec.getLsbD_setWidth, BitVec.getLsbD_setWidth]
    simp [hb, show b < k by omega]

/-- A register that holds a value of `XLEN` bits holds its low bits in its cell (R25). -/
theorem low_of_x {s : State} {c : CoreId} {r : RegIdx} {k : Nat} {v : BitVec k} (hc : s.turn = c) (hk : k ≤ c.xlen)
    (h : (s.x r c.xlen).setWidth k = v) :
    (c = .ee → (s.q r).setWidth k = v) ∧ (c = .iop → (s.r32 r).setWidth k = v) := by
  subst hc
  constructor <;> intro ht
  · rwa [x_ee r _ ht, BitVec.setWidth_setWidth_of_le _ hk] at h
  · rwa [x_iop r _ ht, BitVec.setWidth_setWidth_of_le _ hk] at h

/-- Settles O22: whatever the object, the access changes memory and the counter of free values only, and the row goes on from
there. -/
theorem accessOfAnyObject : Obligations.AccessOfAnyObject := by
  intro i rt rs imm n s u pa hw ha
  refine ⟨fun v hl ht hr => ?_, fun hs ht hp he => ?_, fun hs ht hp he => ?_⟩
  · obtain ⟨put, hput, hx⟩ := exec_load hl hw
    obtain ⟨m, c, rfl⟩ := physRead_shape pa n s u v hr
    refine ⟨_, hx.trans (loadRow_ok put ha ht hr), ?_⟩
    cases hput with
    | narrow hn hlen =>
      obtain ⟨frame, pc, zero, value⟩ :=
        setX_advance_writesReg { s with mem := m, freeCount := c } rt (loadExtend i rt rs imm v)
      have low := fun hr : rt ≠ 0#5 => low_of_x (v := v) frame.rest.turn hlen
        (by rw [value hr]; exact loadExtend_low i rt rs imm v hlen)
      exact ⟨frame.rest, frame.memory, frame.regs, frame.fp, frame.cop0.of_sameEE rfl, frame.table,
        by rw [advance_ctl, setX_ctl]; rfl, fun _ => frame.upper, zero, fun hr => (low hr).1, fun hr => (low hr).2,
        fun hr _ => value hr⟩
    | quad hc =>
      have h := setQ_advance_writesQuad (s := { s with mem := m, freeCount := c }) rt v hc
      have notIop : s.turn ≠ .iop := by rw [hc]; decide
      exact ⟨h.rest, h.memory, h.regs, h.fp, h.cop0.of_sameEE rfl, h.table, h.control,
        fun hn => absurd rfl hn, h.zero, fun hr _ => by rw [h.value hr, BitVec.setWidth_eq], fun _ hi => absurd hi notIop,
        fun _ hn => absurd rfl hn⟩
  · obtain ⟨m, c, rfl⟩ := physWrite_shape pa n _ s u hp
    rw [← x_ee rt _ he] at hp
    exact ⟨_, (exec_store hs hw).trans (storeRow_ok ha ht hp), advance_onlyPc _, advance_ctl_pc _⟩
  · obtain ⟨m, c, rfl⟩ := physWrite_shape pa n _ s u hp
    rw [← x_iop rt _ he] at hp
    exact ⟨_, (exec_store hs hw).trans (storeRow_ok ha ht hp), advance_onlyPc _, advance_ctl_pc _⟩

end Sys2Proof.Machine
end

section
/-! PROOF. The fetch (O23) and the step around it (O50, O51, O52). -/

namespace Sys2Proof.Machine

/-! ### The fetch -/

/-- A fetch that fails: misaligned or faulting (R89, R105). -/
theorem fetchWord_raised {b : State} {k : ExcKind}
    (h : b.ctl.pc.toNat % 4 ≠ 0 ∧ k = .addressError b.ctl.pc .loadOrFetch ∨
      b.ctl.pc.toNat % 4 = 0 ∧ translate b.ctl.pc .fetch b = .fault k) : fetchWord b = .raised k := by
  unfold fetchWord readVirtual
  rcases h with ⟨ha, rfl⟩ | ⟨ha, ht⟩
  · rw [if_pos ha]
  · simp only [ha, ht, ne_eq, not_true_eq_false, if_false]

/-- A fetch whose translation aborts (R94, R105). -/
theorem fetchWord_abort {b : State} {r : AbortReason} (ha : b.ctl.pc.toNat % 4 = 0)
    (ht : translate b.ctl.pc .fetch b = .abort r) : fetchWord b = .aborted r := by
  simp only [fetchWord, readVirtual, ha, ht, ne_eq, not_true_eq_false, if_false]

/-- A fetch that gets a typed error of the mapper (R86, R105). -/
theorem fetchWord_bus {b : State} {pa : Word} {e : MapError} (ha : b.ctl.pc.toNat % 4 = 0)
    (ht : translate b.ctl.pc .fetch b = .ok pa) (hl : locate b.physMap pa 4 = .error e) :
    fetchWord b = .aborted (.bus e pa 4 .read) := by
  simp only [fetchWord, readVirtual, ha, ht, physRead_error hl, ne_eq, not_true_eq_false, if_false]

/-- Settles O23: the write leaves `pc` and the translation as they are, and reads back. -/
theorem fetchSeesStores : Obligations.FetchSeesStores := by
  intro s t pa w hw hp ha ht hs
  rw [physWrite_plain (n := 4) w hp] at hs
  cases hs
  exact fetchWord_ok ha ht (physRead_physWrite_plain (n := 4) w hw hp)

/-- What a fetch from plain memory reads: the four bytes, and no change (R87, R105). -/
theorem fetched_plain {b u : State} {pa w : Word} (hr : physRead pa 4 b = .ok (w, u)) (hp : PlainAccess b pa 4) :
    u = b ∧ w = byteAt b pa 3 ++ byteAt b pa 2 ++ byteAt b pa 1 ++ byteAt b pa 0 := by
  rw [physRead_plain hp] at hr
  cases hr
  exact ⟨rfl, readLE_word_value b pa⟩

/-! ### What decodes stands in the core's table -/

/-- A row of one core's table only is decoded on that core only (R146). -/
theorem onCore_row {c owner : CoreId} {i j : Instr} (h : onCore c owner j = .row i) : c = owner ∧ j = i := by
  unfold onCore at h
  split at h
  · cases h; exact ⟨by assumption, rfl⟩
  · cases h

/-- A row of both tables is well-formed wherever it is decoded (R146). -/
theorem wf_of_row {c : CoreId} {i j : Instr} (h : Decoded.row j = .row i) (he : j.eeOnly = false)
    (hi : j.iopOnly = false) : i.wf c = true := by
  cases h
  cases c <;> simp [Instr.wf, he, hi]

theorem wf_of_onCore_ee {c : CoreId} {i j : Instr} (h : onCore c .ee j = .row i) (hj : j.iopOnly = false) :
    i.wf c = true := by
  obtain ⟨rfl, rfl⟩ := onCore_row h
  simp [Instr.wf, hj]

theorem decodeSpecial_wf {c : CoreId} {w : Word} {i : Instr} (h : decodeSpecial w = .row i) : i.wf c = true := by
  unfold decodeSpecial at h
  split at h
  case h_16 => cases h
  all_goals exact wf_of_row h rfl rfl

theorem decodeCop0_wf {c : CoreId} {w : Word} {i : Instr} (h : decodeCop0 c w = .row i) : i.wf c = true := by
  unfold decodeCop0 at h
  split at h
  · exact wf_of_row h rfl rfl
  · exact wf_of_row h rfl rfl
  · split at h
    · exact wf_of_onCore_ee h rfl
    · obtain ⟨rfl, rfl⟩ := onCore_row h
      rfl
    · exact wf_of_onCore_ee h rfl
    · cases h
  · cases h

theorem decodeCop1_wf {c : CoreId} {w : Word} {i : Instr} (h : decodeCop1 c w = .row i) : i.wf c = true := by
  unfold decodeCop1 at h
  split at h
  case h_5 =>
    split at h
    case h_7 => cases h
    all_goals exact wf_of_onCore_ee h rfl
  case h_6 => cases h
  all_goals exact wf_of_onCore_ee h rfl

/-- What a word decodes to on a core stands in that core's table (R144, R146). -/
theorem decode_wf {c : CoreId} {w : Word} {i : Instr} (h : decode c w = .row i) : i.wf c = true := by
  unfold decode at h
  split at h
  case h_1 => exact decodeSpecial_wf h
  case h_2 => exact decodeCop0_wf h
  case h_3 => exact decodeCop1_wf h
  case h_16 | h_17 | h_18 | h_19 | h_25 | h_29 | h_30 => exact wf_of_onCore_ee h rfl
  case h_31 => cases h
  all_goals exact wf_of_row h rfl rfl

/-! ### A step that fetches -/

/-- Steps 1 to 3 of a step that goes on to the fetch change the control part only, and leave the queue (R172 to R174). -/
theorem beforeFetch_eq (s : State) (c : CoreId) :
    ∃ k, s.beforeFetch c = (s.called c).setCtl k ∧ k.xq = (s.called c).ctl.xq := by
  refine ⟨(s.called c).mirrorLines.ctl.resolved, ?_, (resolved_xq _).trans (mirrorLines_ctl_xq _)⟩
  unfold State.beforeFetch
  rw [resolveBranchDelay_eq]
  exact setCtl_setCtl _ _ _

section Ready

variable {c : CoreId} {s : State}

@[simp] theorem beforeFetch_turn : (s.beforeFetch c).turn = c := by
  obtain ⟨k, h, -⟩ := beforeFetch_eq s c
  rw [h, setCtl_turn]
  rfl

@[simp] theorem beforeFetch_physMap : (s.beforeFetch c).physMap = s.physMap := by
  obtain ⟨k, h, -⟩ := beforeFetch_eq s c
  rw [h, setCtl_physMap]
  rfl

@[simp] theorem beforeFetch_log : (s.beforeFetch c).log = s.log := by
  obtain ⟨k, h, -⟩ := beforeFetch_eq s c
  rw [h, setCtl_log]
  rfl

theorem beforeFetch_run (h : ReadyToFetch c s) : (s.beforeFetch c).run = .running := by
  obtain ⟨k, hk, -⟩ := beforeFetch_eq s c
  rw [hk, setCtl_run]
  exact h.calls.run

theorem beforeFetch_xq (h : ReadyToFetch c s) : (s.beforeFetch c).ctl.xq = [] := by
  obtain ⟨k, hk, hx⟩ := beforeFetch_eq s c
  rw [hk, setCtl_ctl, hx]
  exact h.queue

/-- The step when the fetch raises: the record, and the early cost (R175, R181). -/
theorem step_fetch_raised {k : ExcKind} (h : ReadyToFetch c s) (hf : fetchWord (s.beforeFetch c) = .raised k) :
    step s = .next (((s.beforeFetch c).raise k).finish (earlyCost s.params)) := by
  unfold State.beforeFetch at *
  simp only [step, front_ready h, fetchFront, hf, mirrorLines_params]
  rfl

/-- The step when the fetch aborts (R182). -/
theorem step_fetch_aborted {r : AbortReason} (h : ReadyToFetch c s) (hf : fetchWord (s.beforeFetch c) = .aborted r) :
    step s = .next (State.abort { s.beforeFetch c with inFlight := none } r) := by
  unfold State.beforeFetch at *
  simp only [step, front_ready h, fetchFront, hf]

/-- The step when the word fetched is of no row: the handler of R148, and the unknown cost (R180). -/
theorem step_fetch_unknown {w : Word} {u : State} (h : ReadyToFetch c s) (hf : fetchWord (s.beforeFetch c) = .ok w u)
    (hd : decode u.turn w = .unknown) :
    step s = .next ((u.unknownInstruction w).finish (unknownCost s.params)) := by
  unfold State.beforeFetch at *
  simp only [step, front_ready h, fetchFront, hf, hd, mirrorLines_params]
  rfl

/-- The step when it is of a row: the row runs with the word in flight, and the step is retired (R176 to R179). -/
theorem step_fetch_row {w : Word} {u t : State} {i : Instr} (h : ReadyToFetch c s)
    (hf : fetchWord (s.beforeFetch c) = .ok w u) (hd : decode u.turn w = .row i)
    (hx : exec i { u with inFlight := some w } = .next t) : step s = .next (retire i t) := by
  unfold State.beforeFetch at *
  simp only [step, front_ready h, fetchFront, hf, hd, hx]

end Ready

/-- A handler that leaves the run going is followed by the row's cost (R179, R184). -/
theorem retire_running {i : Instr} {t : State} (h : t.run = .running) : retire i t = t.finish (rowCost t.params i) := by
  simp only [retire, h]

/-- Settles O50: the word fetched decodes to the row, the row runs, and the step is retired. -/
theorem stepRunsDecodedInstruction : Obligations.StepRunsDecodedInstruction := by
  rintro c s _ u pa w i h rfl ha ht hr hd
  obtain ⟨m, n, hu⟩ := physRead_shape pa 4 _ u w hr
  have turn : u.turn = c := by rw [hu]; exact beforeFetch_turn
  obtain ⟨t, hx⟩ := exec_next i { u with inFlight := some w }
  refine ⟨fetched_plain hr, t, retire i t, decode_wf hd, hx,
    step_fetch_row h (fetchWord_ok ha ht hr) (by rw [turn]; exact hd) hx, retire_running, fun hrun => ?_⟩
  obtain ⟨-, -, stays⟩ := retire_effects none i t
  exact stays hrun

/-- All that the handler of an unknown word and the end of its step do, outside the log (R148, R180, R184). -/
theorem unknownInstruction_finish_ends (u : State) (w : Word) (c : Nat) :
    EndsStep u { (u.unknownInstruction w).finish c with log := u.log } where
  rest := by
    obtain ⟨-, -, row, -⟩ := unknownInstruction_does u w
    have finish := (finish_ends (u.unknownInstruction w) c).rest
    exact
      { turn := finish.turn.trans row.turn
        physMap := finish.physMap.trans row.physMap
        params := finish.params.trans row.params
        run := finish.run.trans row.run
        log := rfl
        inFlight := rfl
        agenda := finish.agenda.trans row.agenda
        freeCount := rfl
        acc := finish.acc.trans row.acc
        int0 := finish.int0.trans row.int0
        int1 := finish.int1.trans row.int1
        timer := finish.timer.trans row.timer
        lines := finish.lines.trans row.lines
        otherIop := fun h => (finish.otherIop (row.turn.trans h)).trans (row.otherIop h)
        otherEe := fun h => (finish.otherEe (row.turn.trans h)).trans (row.otherEe h) }
  inFlight := rfl
  freeCount := by simp [State.unknownInstruction]

/-- The end of a step keeps every general register, floating-point register, EE control register and table entry (R184). -/
theorem finish_keeps {s t : State} (c : Nat) (regs : SameRegs s t) (fp : SameFp s t) (cop0 : SameCop0 s t)
    (table : SameTable s t) :
    SameRegs s (t.finish c) ∧ SameFp s (t.finish c) ∧ SameCop0 s (t.finish c) ∧ SameTable s (t.finish c) := by
  refine ⟨fun r => ?_, ⟨fun r => ?_, ?_⟩, cop0.trans (by constructor <;> simp), ?_⟩
  · rw [finish_q, finish_r32]
    exact regs r
  · rw [finish_f]
    exact fp.1 r
  · rw [finish_ee_fcr31]
    exact fp.2
  · rw [SameTable, finish_ee_tlb]
    exact table

/-- The end of a step keeps memory (R184). -/
theorem finish_sameMemory {s t : State} (c : Nat) (h : SameMemory s t) : SameMemory s (t.finish c) := fun a => by
  rw [finish_mem]
  exact h a

/-- Settles O51: the handler of R148, and the unknown cost. -/
theorem unknownWordIsNoOperation : Obligations.UnknownWordIsNoOperation := by
  rintro c s _ u pa w h rfl ha ht hr hd
  obtain ⟨m, n, hu⟩ := physRead_shape pa 4 _ u w hr
  have turn : u.turn = c := by rw [hu]; exact beforeFetch_turn
  have ctl : u.ctl = (s.beforeFetch c).ctl := by rw [hu]; rfl
  have log : u.log = s.log := by rw [hu]; exact beforeFetch_log
  have run : u.run = .running := by rw [hu]; exact beforeFetch_run h
  obtain ⟨uctl, ulog, urest, uregs, ufp, ucop0, utable, umem⟩ := unknownInstruction_does u w
  have keeps : SameRegs (s.beforeFetch c) (u.unknownInstruction w) ∧ SameFp (s.beforeFetch c) (u.unknownInstruction w) ∧
      SameCop0 (s.beforeFetch c) (u.unknownInstruction w) ∧ SameTable (s.beforeFetch c) (u.unknownInstruction w) := by
    rw [hu] at uregs ufp ucop0 utable ⊢
    exact ⟨uregs, ufp, ucop0.of_sameEE rfl, utable⟩
  obtain ⟨regs, fp, cop0, table⟩ := keeps
  obtain ⟨regs, fp, cop0, table⟩ := finish_keeps (unknownCost s.params) regs fp cop0 table
  refine ⟨fetched_plain hr, _, step_fetch_unknown h (fetchWord_ok ha ht hr) (by rw [turn]; exact hd), ?_, ?_,
    unknownInstruction_finish_ends u w _, regs, fp, cop0, table, finish_sameMemory _ umem, ?_⟩
  · rw [finish_log, ulog, turn, ctl, log]
  · rw [finish_ctl, uctl, ctl]
    rfl
  · rw [finish_run]
    exact urest.run.trans run

/-- A step that ends after nothing else of what it touches has changed. -/
theorem EndsStep.of_sameRest {s t u : State} (h : SameRest s t) (g : EndsStep t u) : EndsStep s u where
  rest := by
    have rest := h.trans g.rest
    rwa [h.inFlight, h.freeCount] at rest
  inFlight := g.inFlight
  freeCount := by rw [g.freeCount, h.freeCount]

/-- Settles O52: the record and the early cost, or the abort. -/
theorem failedFetchEndsStep : Obligations.FailedFetchEndsStep := by
  rintro c s _ h rfl
  refine ⟨fun k hk => ?_, fun r ha ht => ⟨_, step_fetch_aborted h (fetchWord_abort ha ht), abort_aborts _ r⟩,
    fun pa e ha ht hl => ⟨_, step_fetch_aborted h (fetchWord_bus ha ht (by rw [beforeFetch_physMap]; exact hl)),
      abort_aborts _ _⟩⟩
  have raises := raise_raises (s.beforeFetch c) k
  obtain ⟨epc, flag, ctl, inSlot, notInSlot⟩ := raises.record
  obtain ⟨regs, fp, cop0, table⟩ := finish_keeps (earlyCost s.params) raises.regs raises.fp raises.cop0 raises.table
  refine ⟨_, epc, flag, step_fetch_raised h (fetchWord_raised hk), (finish_ends _ _).of_sameRest raises.rest, regs, fp, cop0,
    table, finish_sameMemory _ raises.memory, ?_, ?_, inSlot, notInSlot⟩
  · rw [finish_run, raises.rest.run, beforeFetch_run h]
  · rw [finish_ctl, ctl, beforeFetch_xq h]
    rfl

end Sys2Proof.Machine
end

section
/-! PROOF. The encoding: what a decoded word's canonical word is (O3), decoding an assembled word (O1), the decoder and the
opcode map (O2), and the words the spec prints (O4). -/

namespace Sys2Proof.Machine

/-! ### A word and the fields of its formats (R141, R142) -/

/-- A word is put together from its fields as formats R and C have them. -/
theorem copWord_of_fields (w : Word) :
    copWord (opcodeOf w) (rsOf w) (rtOf w) (rdOf w) (saOf w) (functOf w) = w := by
  unfold copWord opcodeOf rsOf rtOf rdOf saOf functOf
  iterate 5 rw [BitVec.extractLsb'_append_extractLsb'_eq_extractLsb' (by decide)]
  exact extract_all w

/-- A word is put together from its fields as format I has them. -/
theorem iWord_of_fields (w : Word) : iWord (opcodeOf w) (rsOf w) (rtOf w) (immOf w) = w := by
  unfold iWord opcodeOf rsOf rtOf immOf
  iterate 3 rw [BitVec.extractLsb'_append_extractLsb'_eq_extractLsb' (by decide)]
  exact extract_all w

/-- A word is put together from its fields as format J has them. -/
theorem jWord_of_fields (w : Word) : jWord (opcodeOf w) (targetOf w) = w := by
  unfold jWord opcodeOf targetOf
  rw [BitVec.extractLsb'_append_extractLsb'_eq_extractLsb' (by decide)]
  exact extract_all w

/-- What a mask of format R or C keeps of a word, field by field. -/
theorem and_copWord (w : Word) (op : BitVec 6) (a b c d : BitVec 5) (f : BitVec 6) : w &&& copWord op a b c d f =
    copWord (opcodeOf w &&& op) (rsOf w &&& a) (rtOf w &&& b) (rdOf w &&& c) (saOf w &&& d) (functOf w &&& f) := by
  obtain ⟨hop, ha, hb, hc, hd, hf⟩ := copWord_fields op a b c d f
  rw [← copWord_of_fields (w &&& copWord op a b c d f)]
  unfold opcodeOf rsOf rtOf rdOf saOf functOf at *
  simp only [BitVec.extractLsb'_and, hop, ha, hb, hc, hd, hf]

/-- What a mask of format I keeps of a word, field by field. -/
theorem and_iWord (w : Word) (op : BitVec 6) (a b : BitVec 5) (imm : BitVec 16) : w &&& iWord op a b imm =
    iWord (opcodeOf w &&& op) (rsOf w &&& a) (rtOf w &&& b) (immOf w &&& imm) := by
  obtain ⟨hop, ha, hb, himm⟩ := iWord_fields op a b imm
  rw [← iWord_of_fields (w &&& iWord op a b imm)]
  unfold opcodeOf rsOf rtOf immOf at *
  simp only [BitVec.extractLsb'_and, hop, ha, hb, himm]

/-- A key that the decoder has read, as the encoder writes it. -/
theorem ofNat_of_toNat {n k : Nat} {x : BitVec n} (h : x.toNat = k) : BitVec.ofNat n k = x := by
  subst h
  simp

/-! ### The bits a row uses, by format (R142, R145) -/

section Used

variable {w : Word} {op sub f : Nat}

/-- SLL, SRL and SRA: all but `rs`. -/
theorem shift_used (hop : (opcodeOf w).toNat = 0) (hf : (functOf w).toNat = f) :
    rWord 0#5 (rtOf w) (rdOf w) (saOf w) (BitVec.ofNat 6 f) = w &&& 0xFC1FFFFF#32 := by
  rw [show 0xFC1FFFFF#32 = copWord (.allOnes 6) 0#5 (.allOnes 5) (.allOnes 5) (.allOnes 5) (.allOnes 6) by decide,
    and_copWord, rWord_eq, ofNat_of_toNat hop, ofNat_of_toNat hf]
  simp only [BitVec.and_allOnes, BitVec.and_zero]

/-- JR: `rs` and the keys. -/
theorem jr_used (hop : (opcodeOf w).toNat = 0) (hf : (functOf w).toNat = f) :
    rWord (rsOf w) 0#5 0#5 0#5 (BitVec.ofNat 6 f) = w &&& 0xFFE0003F#32 := by
  rw [show 0xFFE0003F#32 = copWord (.allOnes 6) (.allOnes 5) 0#5 0#5 0#5 (.allOnes 6) by decide,
    and_copWord, rWord_eq, ofNat_of_toNat hop, ofNat_of_toNat hf]
  simp only [BitVec.and_allOnes, BitVec.and_zero]

/-- JALR: `rs`, `rd` and the keys. -/
theorem jalr_used (hop : (opcodeOf w).toNat = 0) (hf : (functOf w).toNat = f) :
    rWord (rsOf w) 0#5 (rdOf w) 0#5 (BitVec.ofNat 6 f) = w &&& 0xFFE0F83F#32 := by
  rw [show 0xFFE0F83F#32 = copWord (.allOnes 6) (.allOnes 5) 0#5 (.allOnes 5) 0#5 (.allOnes 6) by decide,
    and_copWord, rWord_eq, ofNat_of_toNat hop, ofNat_of_toNat hf]
  simp only [BitVec.and_allOnes, BitVec.and_zero]

/-- Register arithmetic: all but `sa`. -/
theorem register_used (hop : (opcodeOf w).toNat = 0) (hf : (functOf w).toNat = f) :
    rWord (rsOf w) (rtOf w) (rdOf w) 0#5 (BitVec.ofNat 6 f) = w &&& 0xFFFFF83F#32 := by
  rw [show 0xFFFFF83F#32 = copWord (.allOnes 6) (.allOnes 5) (.allOnes 5) (.allOnes 5) 0#5 (.allOnes 6) by decide,
    and_copWord, rWord_eq, ofNat_of_toNat hop, ofNat_of_toNat hf]
  simp only [BitVec.and_allOnes, BitVec.and_zero]

/-- Format J: all bits. -/
theorem jump_used (hop : (opcodeOf w).toNat = op) :
    jWord (BitVec.ofNat 6 op) (targetOf w) = w &&& 0xFFFFFFFF#32 := by
  rw [ofNat_of_toNat hop, jWord_of_fields]
  exact BitVec.and_allOnes.symm

/-- Format I: all bits. -/
theorem immediate_used (hop : (opcodeOf w).toNat = op) :
    iWord (BitVec.ofNat 6 op) (rsOf w) (rtOf w) (immOf w) = w &&& 0xFFFFFFFF#32 := by
  rw [ofNat_of_toNat hop, iWord_of_fields]
  exact BitVec.and_allOnes.symm

/-- LUI: all but `rs`. -/
theorem lui_used (hop : (opcodeOf w).toNat = op) :
    iWord (BitVec.ofNat 6 op) 0#5 (rtOf w) (immOf w) = w &&& 0xFC1FFFFF#32 := by
  rw [show 0xFC1FFFFF#32 = iWord (.allOnes 6) 0#5 (.allOnes 5) (.allOnes 16) by decide, and_iWord, ofNat_of_toNat hop]
  simp only [BitVec.and_allOnes, BitVec.and_zero]

/-- Formats C0M and C1M: all but bits 10:0. -/
theorem move_used (hop : (opcodeOf w).toNat = op) (hs : (rsOf w).toNat = sub) :
    copWord (BitVec.ofNat 6 op) (BitVec.ofNat 5 sub) (rtOf w) (rdOf w) 0#5 0#6 = w &&& 0xFFFFF800#32 := by
  rw [show 0xFFFFF800#32 = copWord (.allOnes 6) (.allOnes 5) (.allOnes 5) (.allOnes 5) 0#5 0#6 by decide,
    and_copWord, ofNat_of_toNat hop, ofNat_of_toNat hs]
  simp only [BitVec.and_allOnes, BitVec.and_zero]

/-- Format C0O: the keys. -/
theorem operation_used (hop : (opcodeOf w).toNat = op) (hs : (rsOf w).toNat = sub) (hf : (functOf w).toNat = f) :
    copWord (BitVec.ofNat 6 op) (BitVec.ofNat 5 sub) 0#5 0#5 0#5 (BitVec.ofNat 6 f) = w &&& 0xFFE0003F#32 := by
  rw [show 0xFFE0003F#32 = copWord (.allOnes 6) (.allOnes 5) 0#5 0#5 0#5 (.allOnes 6) by decide,
    and_copWord, ofNat_of_toNat hop, ofNat_of_toNat hs, ofNat_of_toNat hf]
  simp only [BitVec.and_allOnes, BitVec.and_zero]

/-- Format C1A: all bits. -/
theorem arithmetic_used (hop : (opcodeOf w).toNat = op) (hs : (rsOf w).toNat = sub) (hf : (functOf w).toNat = f) :
    copWord (BitVec.ofNat 6 op) (BitVec.ofNat 5 sub) (rtOf w) (rdOf w) (saOf w) (BitVec.ofNat 6 f) =
      w &&& 0xFFFFFFFF#32 := by
  rw [ofNat_of_toNat hop, ofNat_of_toNat hs, ofNat_of_toNat hf, copWord_of_fields]
  exact BitVec.and_allOnes.symm

/-! ### The decoder, arm by arm -/

variable {c owner : CoreId} {i j : Instr}

/-- The canonical word of `i` is `w` with the bits cleared that `i` ignores. -/
def UsedOf (w : Word) (i : Instr) : Prop := encode i = w &&& usedBits i

theorem usedOf_of_row (h : Decoded.row j = .row i) (hj : UsedOf w j) : UsedOf w i := Decoded.row.inj h ▸ hj

theorem usedOf_of_onCore (h : onCore c owner j = .row i) (hj : UsedOf w j) : UsedOf w i :=
  (onCore_row h).2 ▸ hj

theorem decodeSpecial_used (hop : (opcodeOf w).toNat = 0) (h : decodeSpecial w = .row i) : UsedOf w i := by
  unfold decodeSpecial at h
  split at h
  case h_1 | h_2 | h_3 => exact usedOf_of_row h (shift_used hop ‹_›)
  case h_4 => exact usedOf_of_row h (jr_used hop ‹_›)
  case h_5 => exact usedOf_of_row h (jalr_used hop ‹_›)
  case h_16 => cases h
  all_goals exact usedOf_of_row h (register_used hop ‹_›)

theorem decodeCop0_used (hop : (opcodeOf w).toNat = 0x10) (h : decodeCop0 c w = .row i) : UsedOf w i := by
  unfold decodeCop0 at h
  split at h
  case h_1 | h_2 => exact usedOf_of_row h (move_used hop ‹_›)
  case h_3 hs =>
    split at h
    case h_4 => cases h
    all_goals exact usedOf_of_onCore h (operation_used hop hs ‹_›)
  case h_4 => cases h

theorem decodeCop1_used (hop : (opcodeOf w).toNat = 0x11) (h : decodeCop1 c w = .row i) : UsedOf w i := by
  unfold decodeCop1 at h
  split at h
  case h_5 hs =>
    split at h
    case h_7 => cases h
    all_goals exact usedOf_of_onCore h (arithmetic_used hop hs ‹_›)
  case h_6 => cases h
  all_goals exact usedOf_of_onCore h (move_used hop ‹_›)

/-- What every arm of the decoder gives has the used bits of the word for its canonical word (R142, R145). -/
theorem decode_used (h : decode c w = .row i) : UsedOf w i := by
  unfold decode at h
  split at h
  case h_1 hop => exact decodeSpecial_used hop h
  case h_2 hop => exact decodeCop0_used hop h
  case h_3 hop => exact decodeCop1_used hop h
  case h_4 | h_5 => exact usedOf_of_row h (jump_used ‹_›)
  case h_15 => exact usedOf_of_row h (lui_used ‹_›)
  case h_16 | h_17 | h_18 | h_19 | h_25 | h_29 | h_30 => exact usedOf_of_onCore h (immediate_used ‹_›)
  case h_31 => cases h
  all_goals exact usedOf_of_row h (immediate_used ‹_›)

end Used

/-- Settles O3: arm by arm of the decoder, by what the masks of the row's format keep. -/
theorem ignoredBitsAreIgnored : Obligations.IgnoredBitsAreIgnored := fun _ _ _ h => decode_used h

/-! ### Decoding an assembled word -/

/-- A core's own row is decoded there (R146). -/
theorem onCore_self (c : CoreId) (i : Instr) : onCore c c i = .row i := if_pos rfl

/-- Settles O1: constructor by constructor, from the fields of an assembled word. -/
theorem decodeOfEncode : Obligations.DecodeOfEncode := by
  intro c i h
  cases i
  case mfc0 | mtc0 => simp [encode, decode, decodeCop0, copWord_fields]
  case rfe =>
    cases c with
    | ee => cases h
    | iop => simp [encode, decode, decodeCop0, copWord_fields, onCore_self]
  case tlbwi | eret =>
    obtain rfl := turn_ee_of_wf h rfl
    simp [encode, decode, decodeCop0, copWord_fields, onCore_self]
  case mfc1 | cfc1 | mtc1 | ctc1 | addS | subS | mulS | divS | maddS | msubS =>
    obtain rfl := turn_ee_of_wf h rfl
    simp [encode, decode, decodeCop1, copWord_fields, onCore_self]
  case beql | bnel | lq | sq | lwu | ld | sd =>
    obtain rfl := turn_ee_of_wf h rfl
    simp [encode, decode, iWord_fields, onCore_self]
  case j | jal => simp [encode, decode, jWord_fields]
  case beq | bne | addi | addiu | slti | sltiu | andi | ori | xori | lui | lb | lh | lw | lbu | lhu | sb | sh | sw =>
    simp [encode, decode, iWord_fields]
  all_goals simp [encode, decode, decodeSpecial, rWord_eq, copWord_fields]

/-! ### The opcode map (R144, R146, R150) -/

/-- The place in the map of the row that a word decodes to. -/
def rowNumber : Decoded → Option Nat
  | .row i => some i.row
  | .unknown => none

/-- Two words with the same dispatch key: what the tree of R144 looks at on the way to the row of `v`. -/
structure SameKey (w v : Word) : Prop where
  opcode : opcodeOf w = opcodeOf v
  special : opcodeOf v = 0#6 → functOf w = functOf v
  sub : opcodeOf v = 0x10#6 ∨ opcodeOf v = 0x11#6 → rsOf w = rsOf v
  operation : opcodeOf v = 0x10#6 ∨ opcodeOf v = 0x11#6 → rsOf v = 0x10#5 → functOf w = functOf v

theorem onCore_rowNumber {c owner : CoreId} {i j : Instr} (h : i.row = j.row) :
    rowNumber (onCore c owner i) = rowNumber (onCore c owner j) := by
  unfold onCore
  split
  · exact congrArg some h
  · rfl

theorem decodeSpecial_sameKey {w v : Word} (h : functOf w = functOf v) :
    rowNumber (decodeSpecial w) = rowNumber (decodeSpecial v) := by
  unfold decodeSpecial
  rw [h]
  split <;> rfl

theorem decodeCop0_sameKey {c : CoreId} {w v : Word} (hs : rsOf w = rsOf v) (hf : rsOf v = 0x10#5 → functOf w = functOf v) :
    rowNumber (decodeCop0 c w) = rowNumber (decodeCop0 c v) := by
  unfold decodeCop0
  rw [hs]
  split
  case h_3 h => rw [hf (BitVec.eq_of_toNat_eq h)]
  all_goals rfl

theorem decodeCop1_sameKey {c : CoreId} {w v : Word} (hs : rsOf w = rsOf v) (hf : rsOf v = 0x10#5 → functOf w = functOf v) :
    rowNumber (decodeCop1 c w) = rowNumber (decodeCop1 c v) := by
  unfold decodeCop1
  rw [hs]
  split
  case h_5 h =>
    rw [hf (BitVec.eq_of_toNat_eq h)]
    split
    case h_7 => rfl
    all_goals exact onCore_rowNumber rfl
  case h_6 => rfl
  all_goals exact onCore_rowNumber rfl

/-- The decoder looks only at the dispatch keys (R144, R145). -/
theorem decode_sameKey {w v : Word} (c : CoreId) (h : SameKey w v) :
    rowNumber (decode c w) = rowNumber (decode c v) := by
  unfold decode
  rw [h.opcode]
  split
  case h_1 hop => exact decodeSpecial_sameKey (h.special (BitVec.eq_of_toNat_eq hop))
  case h_2 hop =>
    have hop : opcodeOf v = 0x10#6 := BitVec.eq_of_toNat_eq hop
    exact decodeCop0_sameKey (h.sub (.inl hop)) (h.operation (.inl hop))
  case h_3 hop =>
    have hop : opcodeOf v = 0x11#6 := BitVec.eq_of_toNat_eq hop
    exact decodeCop1_sameKey (h.sub (.inr hop)) (h.operation (.inr hop))
  case h_16 | h_17 | h_18 | h_19 | h_25 | h_29 | h_30 => exact onCore_rowNumber rfl
  all_goals rfl

/-- The mask of every row covers the dispatch key of its match (R150). -/
theorem mask_covers_key : ∀ r ∈ opcodeTable, opcodeOf r.mask = .allOnes 6 ∧
    (opcodeOf r.pattern = 0#6 → functOf r.mask = .allOnes 6) ∧
    (opcodeOf r.pattern = 0x10#6 ∨ opcodeOf r.pattern = 0x11#6 → rsOf r.mask = .allOnes 5) ∧
    (opcodeOf r.pattern = 0x10#6 ∨ opcodeOf r.pattern = 0x11#6 → rsOf r.pattern = 0x10#5 → functOf r.mask = .allOnes 6) := by
  decide

/-- The match of every row, as a word, decodes to that row on each core that has it (R146, R150). -/
theorem pattern_decodes : ∀ n : Fin opcodeTable.length, ∀ c ∈ [CoreId.ee, CoreId.iop], opcodeTable[n].on c = true →
    rowNumber (decode c opcodeTable[n].pattern) = some n := by
  decide

/-- A field that a mask covers is, in a word that agrees with `p` under the mask, the field of `p`. -/
theorem extract_of_covered {w m p : Word} {s l : Nat} (h : w &&& m = p) (hm : m.extractLsb' s l = .allOnes l) :
    w.extractLsb' s l = p.extractLsb' s l := by
  rw [← h, BitVec.extractLsb'_and, hm, BitVec.and_allOnes]

/-- A word that matches a row has the dispatch key of the row's match. -/
theorem sameKey_of_matches {r : OpcodeRow} {w : Word} (hr : r ∈ opcodeTable) (h : r.matches w = true) :
    SameKey w r.pattern := by
  obtain ⟨opcode, special, sub, operation⟩ := mask_covers_key r hr
  have h : w &&& r.mask = r.pattern := of_decide_eq_true h
  exact ⟨extract_of_covered h opcode, fun k => extract_of_covered h (special k), fun k => extract_of_covered h (sub k),
    fun k k' => extract_of_covered h (operation k k')⟩

theorem row_of_rowNumber {d : Decoded} {n : Nat} (h : rowNumber d = some n) : ∃ i, d = .row i ∧ i.row = n := by
  cases d with
  | row i => exact ⟨i, rfl, Option.some.inj h⟩
  | unknown => cases h

/-- A word that matches a row of the core's table decodes to that row (R150). -/
theorem decode_of_matches {c : CoreId} {w : Word} {n : Nat} {r : OpcodeRow} (hn : opcodeTable[n]? = some r)
    (hc : r.on c = true) (h : r.matches w = true) : ∃ i, decode c w = .row i ∧ i.row = n := by
  obtain ⟨hlt, rfl⟩ := List.getElem?_eq_some_iff.mp hn
  apply row_of_rowNumber
  rw [decode_sameKey c (sameKey_of_matches (List.getElem_mem hlt) h)]
  exact pattern_decodes ⟨n, hlt⟩ c (by cases c <;> simp) hc

/-- Well-formedness is what the map's column of cores says (R146). -/
theorem row_on_eq_wf {i : Instr} {c : CoreId} {r : OpcodeRow} (hr : opcodeTable[i.row]? = some r) : r.on c = i.wf c := by
  cases i
  all_goals
    cases hr
    cases c <;> rfl

/-- The dispatch keys of a row are among the bits it uses (R145). -/
theorem mask_used {i : Instr} {r : OpcodeRow} (hr : opcodeTable[i.row]? = some r) : usedBits i &&& r.mask = r.mask := by
  cases i
  all_goals
    cases hr
    simp [usedBits, Instr.row]

open Laws in
/-- Every instruction's canonical word selects its own row: the constructors' lemmas together. -/
theorem encode_hasKey (i : Instr) : EncodeHasKey.Statement i :=
  Instr.casesOn (motive := EncodeHasKey.Statement) i
    EncodeHasKey.sll EncodeHasKey.srl EncodeHasKey.sra EncodeHasKey.jr EncodeHasKey.jalr EncodeHasKey.add
    EncodeHasKey.addu EncodeHasKey.sub EncodeHasKey.subu EncodeHasKey.and EncodeHasKey.or EncodeHasKey.xor
    EncodeHasKey.nor EncodeHasKey.slt EncodeHasKey.sltu EncodeHasKey.j EncodeHasKey.jal EncodeHasKey.beq
    EncodeHasKey.bne EncodeHasKey.addi EncodeHasKey.addiu EncodeHasKey.slti EncodeHasKey.sltiu EncodeHasKey.andi
    EncodeHasKey.ori EncodeHasKey.xori EncodeHasKey.lui EncodeHasKey.beql EncodeHasKey.bnel EncodeHasKey.lq
    EncodeHasKey.sq EncodeHasKey.lb EncodeHasKey.lh EncodeHasKey.lw EncodeHasKey.lbu EncodeHasKey.lhu
    EncodeHasKey.lwu EncodeHasKey.sb EncodeHasKey.sh EncodeHasKey.sw EncodeHasKey.ld EncodeHasKey.sd
    EncodeHasKey.mfc0 EncodeHasKey.mtc0 EncodeHasKey.tlbwi EncodeHasKey.rfe EncodeHasKey.eret EncodeHasKey.mfc1
    EncodeHasKey.cfc1 EncodeHasKey.mtc1 EncodeHasKey.ctc1 EncodeHasKey.addS EncodeHasKey.subS EncodeHasKey.mulS
    EncodeHasKey.divS EncodeHasKey.maddS EncodeHasKey.msubS

/-- Settles O2. From a row to its mask: the canonical word matches the row, and it is the word itself on the bits of the mask.
From the mask to the row: the word has the key of the row's match. -/
theorem decodeFollowsTheMap : Obligations.DecodeFollowsTheMap := by
  refine ⟨fun c w i h => ?_, fun _ _ _ _ => decode_of_matches⟩
  have wf := decode_wf h
  obtain ⟨r, hr, hm⟩ := encode_hasKey i
  refine ⟨wf, r, hr, by rw [row_on_eq_wf hr, wf], decide_eq_true ?_⟩
  calc w &&& r.mask = w &&& usedBits i &&& r.mask := by rw [BitVec.and_assoc, mask_used hr]
    _ = encode i &&& r.mask := by rw [decode_used h]
    _ = r.pattern := of_decide_eq_true hm

/-! ### Words of the spec -/

/-- Settles O4: a printed word that is the canonical word of its instruction decodes by O1; a word that is unknown is read by
the decoder. -/
theorem specWordsDecode : Obligations.SpecWordsDecode := by
  have shared : ∀ (w : Word) (i : Instr), encode i = w → i.eeOnly = false → i.iopOnly = false →
      ∀ c, decode c w = .row i := by
    rintro w i rfl he hi c
    exact decodeOfEncode c i (by cases c <;> simp [Instr.wf, he, hi])
  refine ⟨shared _ _ (by decide) rfl rfl, shared _ _ (by decide) rfl rfl, shared _ _ (by decide) rfl rfl,
    shared _ _ (by decide) rfl rfl, shared _ _ (by decide) rfl rfl, by decide, by decide, by decide, by decide, by decide,
    by decide, fun c => ?_⟩
  cases c <;> decide

end Sys2Proof.Machine
end

section
/-! PROOF. Rows of the other core's table (O5), and the rows with an immediate (O28). -/

namespace Sys2Proof.Machine

/-! ### A row of the other core's table (R146, R148) -/

/-- On IOP a row of the EE table only runs as the unknown word it is there. -/
theorem eeRow_iop {i : Instr} {s : State} (body : State → Result) (h : s.turn = .iop) :
    eeRow i s body = .next (s.unknownInstruction (encode i)) := by
  unfold eeRow
  rw [h]

/-- On EE a row of the IOP table only runs as the unknown word it is there. -/
theorem iopRow_ee {i : Instr} {s : State} (body : State → Result) (h : s.turn = .ee) :
    iopRow i s body = .next (s.unknownInstruction (encode i)) := by
  unfold iopRow
  rw [h]

/-- The nineteen rows of the EE table only, on IOP. -/
theorem exec_eeOnly_iop {i : Instr} {s : State} (hi : i.eeOnly = true) (h : s.turn = .iop) :
    exec i s = .next (s.unknownInstruction (encode i)) := by
  cases i
  case beql | bnel | lwu | ld | lq | sd | sq | eret | tlbwi | mfc1 | cfc1 | mtc1 | ctc1 | addS | subS | mulS | divS |
      maddS | msubS =>
    simp only [exec, execBeql, execBnel, execLwu, execLd, execLq, execSd, execSq, execEret, execTlbwi, execMfc1, execCfc1,
      execMtc1, execCtc1, execAddS, execSubS, execMulS, execDivS, execMaddS, execMsubS, eeRow_iop _ h]
  all_goals cases hi

/-- The one row of the IOP table only, on EE. -/
theorem exec_iopOnly_ee {i : Instr} {s : State} (hi : i.iopOnly = true) (h : s.turn = .ee) :
    exec i s = .next (s.unknownInstruction (encode i)) := by
  obtain rfl : i = .rfe := of_decide_eq_true hi
  simp only [exec, execRfe, iopRow_ee _ h]

/-- A row that the stepping core's table lacks runs as the unknown word it is there. -/
theorem exec_foreign {i : Instr} {s : State} (h : i.wf s.turn = false) :
    exec i s = .next (s.unknownInstruction (encode i)) := by
  cases ht : s.turn with
  | ee => exact exec_iopOnly_ee (by simpa [ht, Instr.wf] using h) ht
  | iop => exact exec_eeOnly_iop (by simpa [ht, Instr.wf] using h) ht

/-- Settles O5: a foreign row takes the handler of an unknown word. -/
theorem foreignRowIsNoOperation : Obligations.ForeignRowIsNoOperation := by
  intro i s h
  obtain ⟨ctl, log, rest, regs, fp, cop0, table, memory⟩ := unknownInstruction_does s (encode i)
  exact ⟨_, exec_foreign h, log, ctl, rest, regs, fp, cop0, table, memory⟩

/-! ### Immediate rows (R215 to R219) -/

/-- All that a row with one register source and an immediate does, where `v` is its result at every width (R221 (b)). -/
theorem immResult_writesReg {f : (n : Nat) → BitVec n → BitVec n → BitVec n} {rt rs : RegIdx} {imm v : (n : Nat) → BitVec n}
    {s : State} (hv : ∀ n, f n (s.x rs n) (imm n) = v n) : ∃ t, immResult f rt rs imm s = .next t ∧ WritesReg rt v s t := by
  obtain rfl := funext hv
  exact ⟨_, rfl, setX_advance_writesReg s rt _⟩

theorem logicalImm_eq (imm : BitVec 16) (n : Nat) : logicalImm imm n = BitVec.ofNat n imm.toNat :=
  (BitVec.ofNat_toNat n imm).symm

theorem flagValue_slt {n : Nat} (a b : BitVec n) : flagValue (a.slt b) n = if a.toInt < b.toInt then 1 else 0 := by
  simp [flagValue, BitVec.slt_eq_decide]

theorem flagValue_ult {n : Nat} (a b : BitVec n) : flagValue (a.ult b) n = if a.toNat < b.toNat then 1 else 0 := by
  simp [flagValue, BitVec.ult_eq_decide]

/-- Settles O28: each row is one register result of the source and its extended immediate. -/
theorem immediateRows : Obligations.ImmediateRows := by
  intro rt rs imm s
  simp only [exec, execAndi, execOri, execXori, execSlti, execSltiu]
  exact ⟨immResult_writesReg fun n => by rw [logicalImm_eq], immResult_writesReg fun n => by rw [logicalImm_eq],
    immResult_writesReg fun n => by rw [logicalImm_eq], immResult_writesReg fun n => flagValue_slt _ _,
    immResult_writesReg fun n => flagValue_ult _ _⟩

end Sys2Proof.Machine
end

section
/-! PROOF. The integer rows: full-width results (O24), wrapping words (O25), checked words (O26) and shifts (O27). Each shared
result operation is said once to write its value, and what is left of a row is the arithmetic of that value. -/

namespace Sys2Proof.Machine

/-! ### The shared results (R200, R221) -/

/-- All that a row with two register sources does, where `v` is its result at every width (R221 (b)). -/
theorem regResult_writesReg {f : (n : Nat) → BitVec n → BitVec n → BitVec n} {rd rs rt : RegIdx} {v : (n : Nat) → BitVec n}
    {s : State} (hv : ∀ n, f n (s.x rs n) (s.x rt n) = v n) : ∃ t, regResult f rd rs rt s = .next t ∧ WritesReg rd v s t := by
  obtain rfl := funext hv
  exact ⟨_, rfl, setX_advance_writesReg s rd _⟩

/-- All that a row with a 32-bit result does, where `w` is that result (R221 (a)). -/
theorem wordResult_writesReg {rd : RegIdx} {v w : Word} {s : State} (hv : v = w) :
    ∃ t, wordResult rd v s = .next t ∧ WritesReg rd (fun n => w.signExtend n) s t :=
  ⟨_, rfl, hv ▸ setX_advance_writesReg s rd (sx v)⟩

/-- A 32-bit result sign-extended is its signed value at every width (R8). -/
theorem wordResult_writesReg_toInt {rd : RegIdx} {v : Word} {k : Int} {s : State} (hv : v.toInt = k) :
    ∃ t, wordResult rd v s = .next t ∧ WritesReg rd (fun n => BitVec.ofInt n k) s t :=
  hv ▸ wordResult_writesReg rfl

theorem fitsWord_iff (k : Int) : fitsWord k = true ↔ -2 ^ 31 ≤ k ∧ k ≤ 2 ^ 31 - 1 := by
  simp [fitsWord]

/-- A row that detects overflow writes an exact result that fits (R200). -/
theorem checkedResult_writesReg {rd : RegIdx} {k : Int} {s : State} (lo : -2 ^ 31 ≤ k) (hi : k ≤ 2 ^ 31 - 1) :
    ∃ t, checkedResult rd k s = .next t ∧ WritesReg rd (fun n => BitVec.ofInt n k) s t := by
  have hk : (BitVec.ofInt 32 k).toInt = k := BitVec.toInt_ofInt_eq_self (by decide) lo (by omega)
  rw [checkedResult, if_pos ((fitsWord_iff k).mpr ⟨lo, hi⟩)]
  exact wordResult_writesReg_toInt hk

/-- A row that detects overflow raises on an exact result that does not fit (R200, R334). -/
theorem checkedResult_raises {rd : RegIdx} {k : Int} {s : State} (h : k < -2 ^ 31 ∨ 2 ^ 31 - 1 < k) :
    ∃ t, checkedResult rd k s = .next t ∧ Raises .arithmeticOverflow s t := by
  rw [checkedResult, if_neg (by rw [fitsWord_iff]; omega)]
  exact ⟨_, rfl, raise_raises s _⟩

/-! ### The arithmetic of a word (R7, R143) -/

/-- The difference of two words is the exact difference, wrapped (R203). -/
theorem sub_eq_ofInt_toNat (a b : Word) : a - b = BitVec.ofInt 32 (a.toNat - b.toNat) := by
  simp only [Int.sub_eq_add_neg, BitVec.ofInt_add, BitVec.ofInt_neg, BitVec.ofInt_natCast, BitVec.ofNat_toNat,
    BitVec.setWidth_eq, BitVec.sub_eq_add_neg]

/-- The immediate in the high half is its product by 2^16 (R143 (c)). -/
theorem upperImm_eq_ofNat (imm : BitVec 16) : upperImm imm = BitVec.ofNat 32 (imm.toNat * 65536) := by
  have himm : imm.toNat * 65536 < 2 ^ 32 := by have := imm.isLt; omega
  apply BitVec.eq_of_toNat_eq
  rw [upperImm, BitVec.toNat_append, Nat.shiftLeft_eq, BitVec.toNat_ofNat, BitVec.toNat_ofNat, Nat.zero_mod, Nat.or_zero,
    Nat.mod_eq_of_lt himm]

/-- A sign-extended immediate has the immediate's signed value (R143 (a)). -/
theorem signedImm_toInt (imm : BitVec 16) : (signedImm imm 32).toInt = imm.toInt :=
  BitVec.toInt_signExtend_of_le (by decide)

/-- A left shift is the product by the power of two, wrapped (R210). -/
theorem shiftLeft_eq_ofNat (a : Word) (k : Nat) : a <<< k = BitVec.ofNat 32 (a.toNat * 2 ^ k) := by
  apply BitVec.eq_of_toNat_eq
  rw [BitVec.toNat_shiftLeft, Nat.shiftLeft_eq, BitVec.toNat_ofNat]

/-- A logical right shift is the unsigned quotient by the power of two (R211). -/
theorem ushiftRight_eq_ofNat (a : Word) (k : Nat) : a >>> k = BitVec.ofNat 32 (a.toNat / 2 ^ k) := by
  rw [← Nat.shiftRight_eq_div_pow, ← BitVec.toNat_ushiftRight, BitVec.ofNat_toNat, BitVec.setWidth_eq]

/-- An arithmetic right shift is the signed quotient by the power of two, toward minus infinity (R212). -/
theorem toInt_sshiftRight_eq_div (a : Word) (k : Nat) : (a.sshiftRight k).toInt = a.toInt / 2 ^ k := by
  rw [BitVec.toInt_sshiftRight, Int.shiftRight_eq_div_pow, Nat.cast_pow, Nat.cast_ofNat]

/-! ### The rows -/

/-- Settles O24: each row is one register result, and a flag is 1 or 0 by the comparison. -/
theorem fullWidthRows : Obligations.FullWidthRows := by
  intro rd rs rt s
  simp only [exec, execAnd, execOr, execXor, execNor, execSlt, execSltu]
  exact ⟨regResult_writesReg fun _ => rfl, regResult_writesReg fun _ => rfl, regResult_writesReg fun _ => rfl,
    regResult_writesReg fun _ => rfl, regResult_writesReg fun _ => flagValue_slt _ _,
    regResult_writesReg fun _ => flagValue_ult _ _⟩

/-- Settles O25: each row is one word result, equal to the exact result modulo 2^32. -/
theorem wrappingRows : Obligations.WrappingRows := by
  intro rd rs rt imm s
  simp only [exec, execAddu, execSubu, execAddiu, execLui]
  refine ⟨wordResult_writesReg ?addu, wordResult_writesReg (sub_eq_ofInt_toNat _ _), wordResult_writesReg ?addiu,
    wordResult_writesReg (upperImm_eq_ofNat imm)⟩
  case addu => simp only [BitVec.ofNat_add, BitVec.ofNat_toNat, BitVec.setWidth_eq]
  case addiu => rw [← signedImm_toInt, BitVec.ofInt_add, BitVec.ofInt_toInt, BitVec.ofInt_toInt]

/-- Settles O26: each row is one checked result of its exact integer. -/
theorem checkedRows : Obligations.CheckedRows := by
  rintro rd rs rt imm s _ _ _ rfl rfl rfl
  simp only [exec, execAdd, execSub, execAddi, exactSum, exactDiff, signedImm_toInt]
  exact ⟨checkedResult_writesReg, checkedResult_writesReg, checkedResult_writesReg, checkedResult_raises,
    checkedResult_raises, checkedResult_raises⟩

/-- Settles O27: each row is one word result, equal to the product or quotient by the power of two. -/
theorem shiftRows : Obligations.ShiftRows := by
  intro rd rt sa s
  simp only [exec, execSll, execSrl, execSra]
  exact ⟨wordResult_writesReg (shiftLeft_eq_ofNat _ _), wordResult_writesReg (ushiftRight_eq_ofNat _ _),
    wordResult_writesReg_toInt (toInt_sshiftRight_eq_div _ _)⟩

end Sys2Proof.Machine
end

section
/-! PROOF. The control transfers: branches (O29), likely branches (O30), jumps (O31) and the tracker before a fetch (O32). Each
way a transfer ends (armed, moved on, past the slot, armed with a link) is said once; what is left of a row is its target. -/

namespace Sys2Proof.Machine

/-! ### What a change of the tracker leaves unchanged (R178, R231, R232) -/

/-- Where the control part changes in `pc` and the tracker only, nothing else changes. -/
theorem setCtl_onlyTracker {s : State} {k : Control} (hk : k = { s.ctl with pc := k.pc, bd := k.bd }) :
    OnlyTracker s (s.setCtl k) where
  rest := setCtl_sameRest s k
  table := setCtl_ee_tlb s k
  cop0 := setCtl_sameCop0 s k
  fp := ⟨setCtl_f s k, setCtl_ee_fcr31 s k⟩
  memory := fun _ => by rw [setCtl_mem]
  regs := fun r => ⟨setCtl_q s k r, setCtl_r32 s k r⟩
  control := by rw [setCtl_ctl]; exact hk

theorem OnlyTracker.onlyPc {s t : State} (h : OnlyTracker s t) (hbd : t.ctl.bd = s.ctl.bd) : OnlyPc s t where
  rest := h.rest
  table := h.table
  cop0 := h.cop0
  fp := h.fp
  memory := h.memory
  regs := h.regs
  control := by
    have control := h.control
    rwa [hbd] at control

/-- All that arming the tracker and the advance do (R178, R231). -/
theorem arm_advance_onlyTracker (s : State) (target : Word) : OnlyTracker s (s.arm target).advance := by
  rw [State.advance, State.arm, setCtl_setCtl, setCtl_ctl]
  exact setCtl_onlyTracker rfl

/-- Two advances are one move of `pc` past the slot (R238). -/
theorem advance_advance (s : State) : s.advance.advance = s.setCtl { s.ctl with pc := s.ctl.pc + 8#32 } := by
  rw [State.advance, State.advance, setCtl_setCtl, setCtl_ctl, BitVec.add_assoc]
  rfl

/-! ### How a control transfer ends -/

/-- A row that arms the tracker and advances moves to the slot, with the target pending (R231, R236). -/
theorem armed_pending {r : Result} {s : State} {a target : Word} (hr : r = .next (s.arm a).advance) (ha : a = target) :
    ∃ t, r = .next t ∧ OnlyTracker s t ∧ t.ctl.pc = s.ctl.pc + 4#32 ∧ t.ctl.bd = .pending target 1 := by
  subst ha
  exact ⟨_, hr, arm_advance_onlyTracker s a, by rw [advance_ctl_pc, arm_ctl_pc], by rw [advance_ctl_bd, arm_ctl_bd]⟩

/-- A row that links besides reads the address after the slot back from the link register (R241, R243). -/
theorem linked_pending {r : Result} {s : State} {rd : RegIdx} {a target : Word}
    (hr : r = .next (State.advance (State.arm (s.setX rd (zx (linkValue s.ctl.pc))) a))) (ha : a = target) :
    ∃ t, r = .next t ∧ OnlyTrackerAndReg rd s t ∧ t.ctl.pc = s.ctl.pc + 4#32 ∧ t.ctl.bd = .pending target 1 ∧
      (rd = 0#5 → SameRegs s t) ∧ (rd ≠ 0#5 → (t.x rd s.turn.xlen).toNat = (s.ctl.pc + 8#32).toNat) := by
  subst ha
  refine ⟨_, hr, setX_arm_advance s rd _ a, by rw [advance_ctl_pc, arm_ctl_pc, setX_ctl],
    by rw [advance_ctl_bd, arm_ctl_bd], fun h => ?_, fun h => ?_⟩
  · subst h
    rw [setX_zero]
    exact (arm_advance_onlyTracker s a).regs
  · rw [advance_x, arm_x, setX_x_self s rd _ h]
    exact BitVec.toNat_setWidth_of_le (le_xlen s.turn (Nat.le_refl 32))

/-- A branch that is not taken moves to the next instruction (R236, R237). -/
theorem branchIf_false (imm : BitVec 16) (s : State) :
    ∃ t, branchIf false imm s = .next t ∧ OnlyPc s t ∧ t.ctl.pc = s.ctl.pc + 4#32 :=
  ⟨_, rfl, advance_onlyPc s, advance_ctl_pc s⟩

/-- A likely branch that is not taken moves past the slot (R238, R239). -/
theorem branchLikelyIf_false (imm : BitVec 16) (s : State) :
    ∃ t, branchLikelyIf false imm s = .next t ∧ OnlyPc s t ∧ t.ctl.pc = s.ctl.pc + 8#32 := by
  have skips : branchLikelyIf false imm s = .next (s.setCtl { s.ctl with pc := s.ctl.pc + 8#32 }) :=
    congrArg Host.Outcome.next (advance_advance s)
  refine ⟨_, skips, (setCtl_onlyTracker rfl).onlyPc ?_, ?_⟩ <;> rw [setCtl_ctl]

/-! ### Conditions and targets (R143, R235, R236) -/

/-- The comparison is that of the registers at the width of the stepping core (R236). -/
theorem sameX_eq_decide {s : State} {n : Nat} (hn : s.turn.xlen = n) (rs rt : RegIdx) :
    sameX s rs rt = decide (s.x rs n = s.x rt n) := by
  subst hn
  rfl

/-- The branch target is the exact sum of the address after the branch and four times the signed offset, wrapped (R235). -/
theorem branchTarget_eq_ofInt (a : Word) (imm : BitVec 16) :
    branchTarget a imm = BitVec.ofInt 32 (a.toNat + 4 + imm.toInt * 4) := by
  have offset : signedImm imm 32 <<< 2 = BitVec.ofInt 32 (imm.toInt * 4) := by
    rw [BitVec.shiftLeft_eq_mul_twoPow, BitVec.ofInt_mul, ← signedImm_toInt, BitVec.ofInt_toInt]
    rfl
  rw [branchTarget, offset, BitVec.ofInt_add, BitVec.ofInt_add, BitVec.ofInt_natCast, BitVec.ofNat_toNat,
    BitVec.setWidth_eq]
  rfl

/-- The jump target keeps the 256 MiB region of the slot and takes four times the index within it (R235). -/
theorem jumpTarget_eq_ofNat (a : Word) (index : BitVec 26) :
    jumpTarget a index = BitVec.ofNat 32 ((a + 4#32).toNat / 2 ^ 28 * 2 ^ 28 + index.toNat * 4) := by
  have hindex := index.isLt
  have hslot := (a + 4#32).isLt
  apply BitVec.eq_of_toNat_eq
  rw [jumpTarget, BitVec.toNat_append, BitVec.toNat_append, ← Nat.shiftLeft_add_eq_or_of_lt (BitVec.isLt _),
    ← Nat.shiftLeft_add_eq_or_of_lt (BitVec.isLt _), BitVec.extractLsb'_toNat, BitVec.toNat_ofNat, BitVec.toNat_ofNat]
  simp only [Nat.shiftLeft_eq, Nat.shiftRight_eq_div_pow]
  omega

/-! ### The rows -/

/-- Settles O29: the comparison decides between an armed tracker and a plain advance. -/
theorem branchRows : Obligations.BranchRows := by
  rintro rs rt imm s _ rfl
  simp only [exec, execBeq, execBne, sameX_eq_decide rfl rs rt]
  refine ⟨fun h => ?_, fun h => ?_⟩
  · rw [decide_eq_true h]
    exact ⟨armed_pending rfl (branchTarget_eq_ofInt _ _), branchIf_false imm s⟩
  · rw [decide_eq_false h]
    exact ⟨armed_pending rfl (branchTarget_eq_ofInt _ _), branchIf_false imm s⟩

/-- Settles O30: the comparison decides between an armed tracker and a move past the slot. -/
theorem likelyRows : Obligations.LikelyRows := by
  rintro rs rt imm s _ ht rfl
  have hx : s.turn.xlen = 64 := by rw [ht]; rfl
  simp only [exec, execBeql, execBnel, eeRow_ee _ ht, sameX_eq_decide hx rs rt]
  refine ⟨fun h => ?_, fun h => ?_⟩
  · rw [decide_eq_true h]
    exact ⟨armed_pending rfl (branchTarget_eq_ofInt _ _), branchLikelyIf_false imm s⟩
  · rw [decide_eq_false h]
    exact ⟨armed_pending rfl (branchTarget_eq_ofInt _ _), branchLikelyIf_false imm s⟩

/-- Settles O31: every jump arms the tracker; the link register of JAL is not register 0. -/
theorem jumpRows : Obligations.JumpRows := by
  rintro rd rs index s _ rfl
  simp only [exec, execJ, execJal, execJr, execJalr]
  obtain ⟨t, runs, frame, pc, bd, -, link⟩ := linked_pending (rd := 31#5) rfl (jumpTarget_eq_ofNat s.ctl.pc index)
  exact ⟨armed_pending rfl (jumpTarget_eq_ofNat _ _), ⟨t, runs, frame, pc, bd, link (by decide)⟩, armed_pending rfl rfl,
    linked_pending rfl rfl⟩

/-- Settles O32: the three forms of the tracker. -/
theorem trackerResolves : Obligations.TrackerResolves := by
  intro s target r
  rw [resolveBranchDelay_eq, Control.resolved]
  refine ⟨fun h => ?idle, fun h => ?slotDone, fun h => ?slotAhead⟩ <;> simp only [h, setCtl_ctl, and_true]
  case idle => exact setCtl_self s
  case slotDone => exact setCtl_onlyTracker rfl
  case slotAhead => exact setCtl_onlyTracker rfl

end Sys2Proof.Machine
end

section
/-! PROOF. The system rows that return or trap (O35, O36, O38), a return after a dispatch (O49), and what a step of user code
leaves of the control registers (O57). -/

namespace Sys2Proof.Machine

/-! ### Fields of a masked write -/

/-- A field inside the mask of a masked write is the value's (R21). -/
theorem setBits_field_inside {w m v : Word} {lo n : Nat} (h : ∀ k : Fin n, m.getLsbD (lo + k) = true) :
    (setBits w m v).extractLsb' lo n = v.extractLsb' lo n := by
  refine BitVec.eq_of_getLsbD_eq fun k hk => ?_
  rw [BitVec.getLsbD_extractLsb', BitVec.getLsbD_extractLsb', setBits_bit, if_pos (h ⟨k, hk⟩)]

/-- A field outside the mask keeps its value (R21). -/
theorem setBits_field_outside {w m v : Word} {lo n : Nat} (h : ∀ k : Fin n, m.getLsbD (lo + k) = false) :
    (setBits w m v).extractLsb' lo n = w.extractLsb' lo n := by
  refine BitVec.eq_of_getLsbD_eq fun k hk => ?_
  rw [BitVec.getLsbD_extractLsb', BitVec.getLsbD_extractLsb', setBits_outside (h ⟨k, hk⟩)]

/-- Writing 0 clears the bits of the mask. -/
theorem setBits_zero (w m : Word) : setBits w m 0#32 = w &&& ~~~m := by
  rw [setBits, BitVec.zero_and, BitVec.or_zero]

/-- Once the bits of the mask are cleared, nothing is left of a masked write. -/
theorem setBits_cleared (w m v : Word) : setBits w m v &&& ~~~m = w &&& ~~~m := by
  refine BitVec.eq_of_getLsbD_eq fun k hk => ?_
  rw [BitVec.getLsbD_and, BitVec.getLsbD_and, BitVec.getLsbD_not, setBits_bit]
  cases m.getLsbD k <;> simp

/-- A field of a field. -/
theorem extract_within {w lo n a l : Nat} (x : BitVec w) (h : a + l ≤ n) :
    (x.extractLsb' lo n).extractLsb' a l = x.extractLsb' (lo + a) l := by
  refine BitVec.eq_of_getLsbD_eq fun k hk => ?_
  simp only [BitVec.getLsbD_extractLsb', show a + k < n by omega, decide_true, Bool.true_and, Nat.add_assoc]

/-! ### Returns (R284, R285) -/

/-- A new control part leaves all but the control registers, `pc` and the tracker. -/
theorem setCtl_onlyControlRegs (s : State) (k : Control) : OnlyControlRegs s (s.setCtl k) where
  rest := setCtl_sameRest s k
  table := setCtl_ee_tlb s k
  fp := ⟨setCtl_f s k, setCtl_ee_fcr31 s k⟩
  memory := fun _ => by rw [setCtl_mem]
  regs := fun r => ⟨setCtl_q s k r, setCtl_r32 s k r⟩

/-- The control part after ERET (R284). -/
def Control.returnedEE (k : Control) (errorEpc : Word) : Control :=
  if k.status.getLsbD 2 then { k with pc := errorEpc, bd := .idle, status := k.status &&& 0xFFFFFFFB#32 }
  else { k with pc := k.epc, bd := .idle, status := k.status &&& 0xFFFFFFFD#32 }

/-- The return on EE changes the control part only. -/
theorem returnEE_eq {s : State} (ht : s.turn = .ee) : s.returnEE = s.setCtl (s.ctl.returnedEE s.ee.errorEpc) := by
  have hc : s.ctl = s.ee.ctl := by simp only [State.ctl, ht]
  rw [setCtl_eq_ee ht, hc]
  simp only [State.returnEE, Control.returnedEE, setBits_zero]
  split <;> rfl

/-- RFE changes Status and `pc` only. -/
theorem returnIOP_advance_eq (s : State) :
    s.returnIOP.advance = s.setCtl { s.ctl with pc := s.ctl.pc + 4#32, status := statusPopped s.ctl.status } := by
  rw [State.advance, State.returnIOP, setCtl_setCtl, setCtl_ctl]

/-- The pop moves the previous and the old pair of bits down (R285). -/
theorem statusPopped_low (w : Word) : (statusPopped w).extractLsb' 0 4 = w.extractLsb' 2 4 := by
  rw [statusPopped, setBits_field_inside (by decide)]
  refine BitVec.eq_of_getLsbD_eq fun k hk => ?_
  simp [hk]

theorem statusPopped_high (w : Word) : (statusPopped w).extractLsb' 4 28 = w.extractLsb' 4 28 :=
  setBits_field_outside (by decide)

/-- On IOP a row of the IOP table runs its body (R146). -/
theorem iopRow_iop {i : Instr} {s : State} (body : State → Result) (h : s.turn = .iop) : iopRow i s body = body s := by
  unfold iopRow
  rw [h]

/-- Settles O35: with coprocessor 0 usable the row is the return, whose control part has the two forms of R284. -/
theorem eretReturns : Obligations.EretReturns := by
  intro s ht hc
  have runs : exec .eret s = .next (s.setCtl (s.ctl.returnedEE s.ee.errorEpc)) := by
    simp only [exec, execEret, eeRow_ee _ ht, usableRow_usable _ hc, returnEE_eq ht]
  have only := setCtl_onlyControlRegs s (s.ctl.returnedEE s.ee.errorEpc)
  refine ⟨_, runs, only.rest, only.table, setCtl_sameCop0 _ _, only.fp, only.memory, only.regs, fun h => ?_, fun h => ?_⟩
  · rw [setCtl_ctl, Control.returnedEE, if_pos h]
  · rw [setCtl_ctl, Control.returnedEE, if_neg (by rw [h]; decide)]

/-- Settles O36: with coprocessor 0 usable the row is the pop and the advance. -/
theorem rfePops : Obligations.RfePops := by
  intro s ht hc
  have runs : exec .rfe s = .next (s.setCtl { s.ctl with pc := s.ctl.pc + 4#32, status := statusPopped s.ctl.status }) := by
    simp only [exec, execRfe, iopRow_iop _ ht, usableRow_usable _ hc, returnIOP_advance_eq]
  have only := setCtl_onlyControlRegs s { s.ctl with pc := s.ctl.pc + 4#32, status := statusPopped s.ctl.status }
  refine ⟨_, runs, only.rest, only.table, setCtl_sameCop0 _ _, only.fp, only.memory, only.regs, ?_⟩
  rw [setCtl_ctl]
  exact ⟨rfl, statusPopped_low _, statusPopped_high _⟩

/-! ### A return after a dispatch (R340 to R342, R352) -/

theorem takeException_turn (s : State) (r : Record) : (s.takeException r).turn = s.turn := by
  cases ht : s.turn
  · rw [takeException_ee ht]; exact ht
  · rw [takeException_iop ht]; exact ht

theorem takeException_ctl (s : State) (r : Record) : (s.takeException r).ctl = Control.take s.turn s.ctl r := by
  cases ht : s.turn
  · rw [takeException_ee ht]; simp only [State.ctl, ht]
  · rw [takeException_iop ht]; simp only [State.ctl, ht]

theorem takeException_status (s : State) (r : Record) :
    (s.takeException r).ctl.status = statusAfter s.turn s.ctl.status := by
  rw [takeException_ctl]
  rfl

/-- The push on IOP moves the current and the previous pair of bits up (R342). -/
theorem statusAfter_iop_pushed (w : Word) : (statusAfter .iop w).extractLsb' 2 4 = w.extractLsb' 0 4 := by
  rw [statusAfter, setBits_field_inside (by decide)]
  refine BitVec.eq_of_getLsbD_eq fun k hk => ?_
  have low : (0x0000000F#32).getLsbD k = true := (by decide : ∀ j : Fin 4, (0x0000000F#32).getLsbD j = true) ⟨k, hk⟩
  rw [BitVec.getLsbD_extractLsb', BitVec.getLsbD_extractLsb', BitVec.getLsbD_shiftLeft, Nat.add_sub_cancel_left,
    BitVec.getLsbD_and, low, Nat.zero_add]
  simp [hk, show 2 + k < 32 by omega, show ¬ 2 + k ≤ 1 by omega]

theorem statusAfter_iop_high (w : Word) : (statusAfter .iop w).extractLsb' 6 26 = w.extractLsb' 6 26 :=
  setBits_field_outside (by decide)

/-- After a dispatch the core is in kernel mode: EE has EXL set, and IOP has pushed a cleared mode bit (R46, R341, R342). -/
theorem kernelMode_statusAfter (c : CoreId) (w : Word) : kernelMode c (statusAfter c w) = true := by
  cases c with
  | ee =>
    have exl : (statusAfter .ee w).getLsbD 1 = true := setBits_bit _ _ _ _
    simp only [kernelMode, exl, Bool.or_true, Bool.true_or]
  | iop =>
    have user : (statusAfter .iop w).getLsbD 1 = false := by
      rw [statusAfter, setBits_bit, if_pos (by decide), BitVec.getLsbD_shiftLeft]
      rfl
    simp only [kernelMode, user, Bool.not_false]

theorem takeException_copUsable (s : State) (r : Record) : (s.takeException r).copUsable 0#2 = true := by
  rw [State.copUsable, takeException_turn, takeException_status, copUsable, if_pos rfl, kernelMode_statusAfter, Bool.true_or]

/-- Settles O49: ERET clears the EXL that the dispatch set, and RFE pops what it pushed. -/
theorem returnUndoesEntry : Obligations.ReturnUndoesEntry := by
  intro s r
  refine ⟨fun ht herl => ?_, fun ht => ?_⟩
  · have erl : (s.takeException r).ctl.status.getLsbD 2 = false := by
      rw [takeException_status, ht]
      exact (setBits_outside (by decide)).trans herl
    obtain ⟨t, runs, -, -, -, -, -, -, -, returns⟩ :=
      eretReturns (s.takeException r) ((takeException_turn s r).trans ht) (takeException_copUsable s r)
    refine ⟨t, runs, ?_⟩
    rw [returns erl, takeException_ctl, ht]
    exact ⟨rfl, setBits_cleared s.ctl.status 0x00000002#32 _, rfl, rfl⟩
  · obtain ⟨t, runs, -, -, -, -, -, -, ctl, low, high⟩ :=
      rfePops (s.takeException r) ((takeException_turn s r).trans ht) (takeException_copUsable s r)
    rw [takeException_status, ht] at low high
    have upper := congrArg (BitVec.extractLsb' 2 26) high
    rw [extract_within _ (by omega), extract_within _ (by omega)] at upper
    refine ⟨t, runs, low.trans (statusAfter_iop_pushed _), upper.trans (statusAfter_iop_high _), ?_⟩
    rw [ctl, takeException_ctl]
    rfl

/-! ### Coprocessor rows that trap (R280, R300) -/

/-- A coprocessor row whose coprocessor is not usable raises, whatever its body. -/
theorem usableRow_raises {cop : BitVec 2} {s : State} (body : State → Result) (h : s.copUsable cop = false) :
    ∃ t, usableRow cop s body = .next t ∧ Raises (.coprocessorUnusable cop) s t :=
  ⟨_, if_neg (by rw [h]; decide), raise_raises s _⟩

/-- So does one of the EE table only. -/
theorem eeRow_usableRow_raises {i : Instr} {cop : BitVec 2} {s : State} {body : State → Result} (hw : i.wf s.turn = true)
    (he : i.eeOnly = true) (h : s.copUsable cop = false) :
    ∃ t, eeRow i s (fun s => usableRow cop s body) = .next t ∧ Raises (.coprocessorUnusable cop) s t := by
  rw [eeRow_ee _ (turn_ee_of_wf hw he)]
  exact usableRow_raises body h

/-- RFE stands in the table of IOP only (R146). -/
theorem turn_iop_of_wf_rfe {c : CoreId} (h : Instr.rfe.wf c = true) : c = .iop := by
  cases c with
  | ee => cases h
  | iop => rfl

/-- Settles O38: in every coprocessor row the usable test comes first. -/
theorem coprocessorUnusableRows : Obligations.CoprocessorUnusableRows := by
  intro a b d s i hw
  refine ⟨fun hi hc => ?_, fun hi hc => ?_⟩ <;> simp only [List.mem_cons, List.not_mem_nil, or_false] at hi
  · rcases hi with rfl | rfl | rfl | rfl | rfl
    · simp only [exec, execMfc0]
      exact usableRow_raises _ hc
    · simp only [exec, execMtc0]
      exact usableRow_raises _ hc
    · exact eeRow_usableRow_raises hw rfl hc
    · simp only [exec, execRfe, iopRow_iop _ (turn_iop_of_wf_rfe hw)]
      exact usableRow_raises _ hc
    · exact eeRow_usableRow_raises hw rfl hc
  · rcases hi with rfl | rfl | rfl | rfl | rfl | rfl | rfl | rfl | rfl | rfl <;>
      exact eeRow_usableRow_raises hw rfl hc

/-! ### What leaves the control registers alone (R280, R288) -/

/-- The core whose turn it is, Status, Cause, EPC, BadVAddr, the control registers of EE and the table are the same. -/
structure KeepsControlRegs (s t : State) : Prop where
  turn : t.turn = s.turn
  status : t.ctl.status = s.ctl.status
  cause : t.ctl.cause = s.ctl.cause
  epc : t.ctl.epc = s.ctl.epc
  badVAddr : t.ctl.badVAddr = s.ctl.badVAddr
  cop0 : SameCop0 s t
  table : SameTable s t

namespace KeepsControlRegs

variable {s t u : State}

theorem trans (h : KeepsControlRegs s t) (g : KeepsControlRegs t u) : KeepsControlRegs s u where
  turn := g.turn.trans h.turn
  status := g.status.trans h.status
  cause := g.cause.trans h.cause
  epc := g.epc.trans h.epc
  badVAddr := g.badVAddr.trans h.badVAddr
  cop0 := h.cop0.trans g.cop0
  table := Eq.trans g.table h.table

/-- An update that names neither core. -/
theorem of_same (turn : t.turn = s.turn) (ee : t.ee = s.ee) (iop : t.iop = s.iop) : KeepsControlRegs s t := by
  have ctl : t.ctl = s.ctl := by simp only [State.ctl, turn, ee, iop]
  exact ⟨turn, by rw [ctl], by rw [ctl], by rw [ctl], by rw [ctl], by constructor <;> rw [ee], by rw [SameTable, ee]⟩

/-- An update of EE that keeps its control part, its control registers and the table. -/
theorem of_ee (e : EECore) (ctl : e.ctl = s.ee.ctl := by rfl) (cop0 : SameCop0 s { s with ee := e } := by constructor <;> rfl)
    (table : e.tlb = s.ee.tlb := by rfl) : KeepsControlRegs s { s with ee := e } := by
  have ctl : State.ctl { s with ee := e } = s.ctl := by simp only [State.ctl, ctl]
  exact ⟨rfl, by rw [ctl], by rw [ctl], by rw [ctl], by rw [ctl], cop0, table⟩

/-- In the frames of a step: where the control part changes in `pc`, the tracker and the queue only. -/
theorem of_frame {pc : Word} {bd : Tracker} {xq : List Record} (rest : SameRest s t) (cop0 : SameCop0 s t)
    (table : SameTable s t) (ctl : t.ctl = { s.ctl with pc := pc, bd := bd, xq := xq }) : KeepsControlRegs s t :=
  ⟨rest.turn, by rw [ctl], by rw [ctl], by rw [ctl], by rw [ctl], cop0, table⟩

theorem of_onlyPc (h : OnlyPc s t) : KeepsControlRegs s t := of_frame h.rest h.cop0 h.table h.control

theorem of_onlyFp (h : OnlyFp s t) : KeepsControlRegs s t := of_frame h.rest h.cop0 h.table h.control

theorem of_onlyTracker (h : OnlyTracker s t) : KeepsControlRegs s t := of_frame h.rest h.cop0 h.table h.control

theorem of_raises {k : ExcKind} (h : Raises k s t) : KeepsControlRegs s t := by
  obtain ⟨epc, flag, ctl, -⟩ := h.record
  exact of_frame h.rest h.cop0 h.table ctl

theorem advance (h : KeepsControlRegs s t) : KeepsControlRegs s t.advance := h.trans (of_onlyPc (advance_onlyPc t))

theorem raise (h : KeepsControlRegs s t) (k : ExcKind) : KeepsControlRegs s (t.raise k) :=
  h.trans (of_raises (raise_raises t k))

theorem setX (s : State) (r : RegIdx) (v : (n : Nat) → BitVec n) : KeepsControlRegs s (s.setX r v) :=
  of_frame (setX_sameRest s r v) (setX_sameCop0 s r v) (setX_ee_tlb s r v) (setX_ctl s r v)

theorem setQ (s : State) (r : RegIdx) (v : Quad) : KeepsControlRegs s (s.setQ r v) := by
  unfold State.setQ
  split
  · exact of_same rfl rfl rfl
  · exact of_ee _

theorem fcrWrite (s : State) (fs : RegIdx) (v : Word) : KeepsControlRegs s (fcrWrite s fs v) := by
  unfold Machine.fcrWrite
  split
  · exact of_ee _
  · exact of_same rfl rfl rfl

theorem resolveBranchDelay (s : State) : KeepsControlRegs s s.resolveBranchDelay := by
  rw [resolveBranchDelay_eq]
  refine of_onlyTracker (setCtl_onlyTracker ?_)
  unfold Control.resolved
  split <;> rfl

theorem finish (h : KeepsControlRegs s t) (c : Nat) : KeepsControlRegs s (t.finish c) := by
  refine h.trans ⟨finish_turn t c, ?_, ?_, ?_, ?_, by constructor <;> simp, finish_ee_tlb t c⟩ <;> rw [finish_ctl]

theorem retire (h : KeepsControlRegs s t) (i : Instr) : KeepsControlRegs s (retire i t) := by
  unfold Machine.retire
  split
  · exact h.finish _
  · exact h

/-- An unknown word is a logged no-operation (R148, R180). -/
theorem unknownInstruction (s : State) (w : Word) : KeepsControlRegs s (s.unknownInstruction w) :=
  advance (of_same rfl rfl rfl)

theorem physRead {pa : Word} {n : Nat} {v : BitVec (8 * n)} (h : physRead pa n s = .ok (v, t)) : KeepsControlRegs s t := by
  obtain ⟨m, c, rfl⟩ := physRead_shape pa n s t v h
  exact of_same rfl rfl rfl

theorem physWrite {pa : Word} {n : Nat} {v : BitVec (8 * n)} (h : physWrite pa n v s = .ok t) : KeepsControlRegs s t := by
  obtain ⟨m, c, rfl⟩ := physWrite_shape pa n v s t h
  exact of_same rfl rfl rfl

/-- A virtual read that gives a value is one physical read (R105, R108). -/
theorem readVirtual {kind : AccessKind} {va : Word} {n : Nat} {v : BitVec (8 * n)}
    (h : readVirtual kind va n s = .ok v t) : KeepsControlRegs s t := by
  rcases readVirtual_effect kind va n s with ⟨_, hr, -⟩ | ⟨_, hr⟩ | ⟨_, _, hr, pa, hp⟩ <;> cases hr.symm.trans h
  exact physRead hp

/-- A virtual write that ends is one physical write (R109). -/
theorem memWrite {va : Word} {n : Nat} {v : BitVec (8 * n)} (h : memWrite va n v s = .ok () t) : KeepsControlRegs s t := by
  rcases memWrite_effect va n v s with ⟨_, hw, -⟩ | ⟨_, hw⟩ | ⟨_, hw, pa, hp⟩ <;> cases hw.symm.trans h
  exact physWrite hp

/-- Status decides which coprocessors are usable (R46). -/
theorem copUsable (h : KeepsControlRegs s t) (cop : BitVec 2) : t.copUsable cop = s.copUsable cop := by
  rw [State.copUsable, State.copUsable, h.turn, h.status]

end KeepsControlRegs

/-! ### Rows that leave the control registers alone -/

/-- A handler's answer is a next state with the same control registers. -/
def EndsKeeping (s : State) (r : Result) : Prop := ∃ t, r = .next t ∧ KeepsControlRegs s t

section Rows

variable {i : Instr} {s : State}

/-- A register result and the advance, which every integer row but those that detect overflow is (R221). -/
theorem setX_endsKeeping (rd : RegIdx) (v : (n : Nat) → BitVec n) : EndsKeeping s (.next (s.setX rd v).advance) :=
  ⟨_, rfl, (KeepsControlRegs.setX s rd v).advance⟩

theorem raises_endsKeeping {r : Result} {k : ExcKind} (h : ∃ t, r = .next t ∧ Raises k s t) : EndsKeeping s r :=
  h.imp fun _ ⟨hr, hk⟩ => ⟨hr, .of_raises hk⟩

theorem checkedResult_endsKeeping (rd : RegIdx) (n : Int) : EndsKeeping s (checkedResult rd n s) := by
  unfold checkedResult
  split
  · exact setX_endsKeeping _ _
  · exact raises_endsKeeping ⟨_, rfl, raise_raises s _⟩

/-- A jump without a link: the tracker and the advance (R240, R242). -/
theorem arm_endsKeeping (target : Word) : EndsKeeping s (.next (s.arm target).advance) :=
  ⟨_, rfl, .of_onlyTracker (arm_advance_onlyTracker s target)⟩

/-- A jump that links (R241, R243). -/
theorem link_endsKeeping (rd : RegIdx) (v : (n : Nat) → BitVec n) (target : Word) :
    EndsKeeping s (.next ((s.setX rd v).arm target).advance) :=
  ⟨_, rfl, (KeepsControlRegs.setX s rd v).trans (.of_onlyTracker (arm_advance_onlyTracker _ target))⟩

theorem branchIf_endsKeeping (taken : Bool) (imm : BitVec 16) : EndsKeeping s (branchIf taken imm s) := by
  cases taken
  · exact ⟨_, rfl, .of_onlyPc (advance_onlyPc s)⟩
  · exact arm_endsKeeping _

theorem branchLikelyIf_endsKeeping (taken : Bool) (imm : BitVec 16) : EndsKeeping s (branchLikelyIf taken imm s) := by
  cases taken
  · exact ⟨_, rfl, (KeepsControlRegs.of_onlyPc (advance_onlyPc s)).advance⟩
  · exact arm_endsKeeping _

theorem eeRow_endsKeeping {body : State → Result} (hw : i.wf s.turn = true) (he : i.eeOnly = true)
    (h : s.turn = .ee → EndsKeeping s (body s)) : EndsKeeping s (eeRow i s body) := by
  have ht := turn_ee_of_wf hw he
  rw [eeRow_ee body ht]
  exact h ht

theorem usableRow_endsKeeping {cop : BitVec 2} {body : State → Result} (h : EndsKeeping s (body s)) :
    EndsKeeping s (usableRow cop s body) := by
  cases hc : s.copUsable cop
  · exact raises_endsKeeping (usableRow_raises body hc)
  · rw [usableRow_usable body hc]
    exact h

/-- A load: a raise, an abort, or one physical read and the register write (R259). -/
theorem load_endsKeeping {rt rs : RegIdx} {imm : BitVec 16} {n : Nat} (h : IsLoad i rt rs imm n)
    (hw : i.wf s.turn = true) : EndsKeeping s (exec i s) := by
  obtain ⟨put, writes, he⟩ := exec_load h hw
  have written : ∀ t v, KeepsControlRegs t (put t v) := fun t v => by
    cases writes with
    | narrow => exact .setX t _ _
    | quad => exact .setQ t _ _
  rw [he]
  rcases loadRow_cases n (accessAddress s rs imm n) put s with ⟨k, -, hr⟩ | ⟨r, -, hr⟩ | ⟨v, t, hm, hr⟩
  · exact raises_endsKeeping ⟨_, hr, raise_raises s k⟩
  · exact ⟨_, hr, .of_same rfl rfl rfl⟩
  · exact ⟨_, hr, ((KeepsControlRegs.readVirtual hm).trans (written t v)).advance⟩

/-- A store: a raise, an abort, or one physical write (R259). -/
theorem store_endsKeeping {rt rs : RegIdx} {imm : BitVec 16} {n : Nat} (h : IsStore i rt rs imm n)
    (hw : i.wf s.turn = true) : EndsKeeping s (exec i s) := by
  rw [exec_store h hw]
  rcases storeRow_cases n (accessAddress s rs imm n) (s.x rt (8 * n)) s with ⟨k, -, hr⟩ | ⟨r, -, hr⟩ | ⟨t, hm, hr⟩
  · exact raises_endsKeeping ⟨_, hr, raise_raises s k⟩
  · exact ⟨_, hr, .of_same rfl rfl rfl⟩
  · exact ⟨_, hr, (KeepsControlRegs.memWrite hm).advance⟩

/-- A floating-point move: the usable test, one update and the advance (R301 to R304). -/
theorem fpMove_endsKeeping {put : State → State} (hw : i.wf s.turn = true) (he : i.eeOnly = true)
    (h : KeepsControlRegs s (put s)) :
    EndsKeeping s (eeRow i s fun s => usableRow 1#2 s fun s => .next (put s).advance) :=
  eeRow_endsKeeping hw he fun _ => usableRow_endsKeeping ⟨_, rfl, h.advance⟩

/-- A floating-point arithmetic row (R307). -/
theorem fpRow_endsKeeping (op : FpOp) (fd fs ft : RegIdx) (hw : i.wf s.turn = true) (he : i.eeOnly = true) :
    EndsKeeping s (eeRow i s (fpRow op fd fs ft)) :=
  eeRow_endsKeeping hw he fun ht =>
    usableRow_endsKeeping ⟨_, rfl, .of_onlyFp (fpArith_fpResult op fd fs ft ht).frame⟩

end Rows

/-- The rows of the core's table, one shared operation each: with coprocessor 0 not usable the system rows raise, and no other
row reaches a control register (R280, R288). -/
theorem exec_endsKeeping (i : Instr) {s : State} (hw : i.wf s.turn = true) (hc : s.copUsable 0#2 = false) :
    EndsKeeping s (exec i s) := by
  cases i
  case sll | srl | sra | addu | subu | addiu | lui | and | or | xor | nor | slt | sltu | slti | sltiu | andi | ori |
      xori =>
    exact setX_endsKeeping _ _
  case add | sub | addi => exact checkedResult_endsKeeping _ _
  case j | jr => exact arm_endsKeeping _
  case jal | jalr => exact link_endsKeeping _ _ _
  case beq | bne => exact branchIf_endsKeeping _ _
  case beql | bnel => exact eeRow_endsKeeping hw rfl fun _ => branchLikelyIf_endsKeeping _ _
  case lb | lbu | lh | lhu | lw | lwu | ld | lq => exact load_endsKeeping (by constructor) hw
  case sb | sh | sw | sd | sq => exact store_endsKeeping (by constructor) hw
  case mfc0 rt rd | mtc0 rt rd => exact raises_endsKeeping ((coprocessorUnusableRows rt rd 0#5 s _ hw).1 (by simp) hc)
  case tlbwi | rfe | eret => exact raises_endsKeeping ((coprocessorUnusableRows 0#5 0#5 0#5 s _ hw).1 (by simp) hc)
  case mfc1 | cfc1 => exact fpMove_endsKeeping hw rfl (.setX _ _ _)
  case mtc1 => exact fpMove_endsKeeping hw rfl (.of_ee _)
  case ctc1 => exact fpMove_endsKeeping hw rfl (.fcrWrite _ _ _)
  case addS | subS | mulS | divS | maddS | msubS => exact fpRow_endsKeeping _ _ _ _ hw rfl

/-! ### A step of user code (R280, R288, R353) -/

/-- In user mode coprocessor 0 is usable by CU[0] only (R46). -/
theorem copUsable_zero_of_userMode {c : CoreId} {w : Word} (hu : userMode c w = true) (hcu : w.getLsbD 28 = false) :
    copUsable c w 0#2 = false := by
  have kernel : kernelMode c w = false := by
    cases c with
    | ee =>
      simp only [userMode, Bool.and_eq_true, decide_eq_true_eq, Bool.not_eq_true'] at hu
      obtain ⟨⟨hk, hexl⟩, herl⟩ := hu
      simp only [kernelMode, hk, hexl, herl]
      decide
    | iop => exact (congrArg not hu).trans rfl
  rw [copUsable, if_pos rfl, kernel, hcu]
  rfl

/-- A step that goes on to the fetch with coprocessor 0 not usable keeps the control registers as the mirror left them,
whatever the fetch gives (R174 to R181). -/
theorem step_keepsControlRegs {c : CoreId} {s t : State} (h : ReadyToFetch c s)
    (hc : (s.called c).mirrorLines.copUsable 0#2 = false) (hs : step s = .next t) :
    KeepsControlRegs (s.called c).mirrorLines t := by
  have fetches : KeepsControlRegs (s.called c).mirrorLines (s.beforeFetch c) := .resolveBranchDelay _
  cases hf : fetchWord (s.beforeFetch c) with
  | raised k =>
    cases (step_fetch_raised h hf).symm.trans hs
    exact (fetches.raise k).finish _
  | aborted r =>
    cases (step_fetch_aborted h hf).symm.trans hs
    exact fetches.trans (.of_same rfl rfl rfl)
  | ok w u =>
    have fetched := fetches.trans (.readVirtual hf)
    cases hd : decode u.turn w with
    | unknown =>
      cases (step_fetch_unknown h hf hd).symm.trans hs
      exact (fetched.trans (.unknownInstruction u w)).finish _
    | row i =>
      have held : KeepsControlRegs (s.called c).mirrorLines { u with inFlight := some w } :=
        fetched.trans (.of_same rfl rfl rfl)
      obtain ⟨v, hx, kept⟩ := exec_endsKeeping i (s := { u with inFlight := some w }) (decode_wf hd)
        ((held.copUsable _).trans hc)
      cases (step_fetch_row h hf hd hx).symm.trans hs
      exact (held.trans kept).retire i

/-- The mirror writes bits 10 to 15 of Cause at most (R348). -/
theorem lineMask_outside (c : CoreId) {k : Nat} (hk : k < 10 ∨ 15 < k) : (lineMask c).getLsbD k = false := by
  have bits : ∀ b : Fin 32, b.val < 10 ∨ 15 < b.val → (lineMask c).getLsbD b = false := by cases c <;> decide
  by_cases hlt : k < 32
  · exact bits ⟨k, hlt⟩ hk
  · exact BitVec.getLsbD_of_ge _ _ (Nat.le_of_not_lt hlt)

/-- Settles O57: before the fetch only the mirror writes, and user code without CU[0] cannot use coprocessor 0. -/
theorem userCodeKeepsControlRegisters : Obligations.UserCodeKeepsControlRegisters := by
  rintro c s _ t h rfl hu hcu hs
  have unusable : (s.called c).mirrorLines.copUsable 0#2 = false := by
    rw [State.copUsable, mirrorLines_turn, mirrorLines_ctl_status]
    exact copUsable_zero_of_userMode hu hcu
  have kept := step_keepsControlRegs h unusable hs
  refine ⟨kept.status.trans (mirrorLines_ctl_status _), kept.epc.trans (mirrorLines_ctl_epc _),
    kept.badVAddr.trans (mirrorLines_ctl_badVAddr _), fun k hk => ?_,
    SameCop0.trans (setCtl_sameCop0 _ _) kept.cop0, Eq.trans kept.table (setCtl_ee_tlb _ _)⟩
  rw [kept.cause, mirrorLines_ctl_cause]
  exact setBits_outside (lineMask_outside _ hk)

end Sys2Proof.Machine
end

section
/-! PROOF. The floating-point moves (O39). A move of coprocessor 1 either is a register result or replaces the floating-point
registers or `fcr31` of EE and nothing else. -/

namespace Sys2Proof.Machine

/-- A row of coprocessor 1 on EE, where it is usable, runs its body (R146, R300). -/
theorem eeRow_usable {i : Instr} {s : State} (body : State → Result) (ht : s.turn = .ee) (hc : s.copUsable 1#2 = true) :
    eeRow i s (fun s => usableRow 1#2 s body) = body s := by
  rw [eeRow_ee _ ht, usableRow_usable _ hc]

/-- Replacing the floating-point registers and `fcr31` of EE, and the advance, leave everything else (R178, R302, R304). -/
theorem replaceFp_advance_onlyFp {s : State} (ht : s.turn = .ee) (fpr : Vector Word 32) (fcr31 : Word) :
    OnlyFp s (State.advance { s with ee := { s.ee with fpr := fpr, fcr31 := fcr31 } }) := by
  have only := advance_onlyPc { s with ee := { s.ee with fpr := fpr, fcr31 := fcr31 } }
  have cop0 : SameCop0 s { s with ee := { s.ee with fpr := fpr, fcr31 := fcr31 } } := ⟨rfl, rfl, rfl, rfl, rfl, rfl⟩
  exact
    { rest := (SameRest.of_ee ht _).trans only.rest
      table := only.table
      cop0 := cop0.trans only.cop0
      memory := only.memory
      regs := only.regs
      control := only.control }

/-- All that writing one floating-point register, and the advance, do (R48, R178, R302). -/
theorem setF_advance_does {s : State} (ht : s.turn = .ee) (fs : RegIdx) (v : Word) :
    OnlyFp s (s.setF fs v).advance ∧ (s.setF fs v).advance.ctl.pc = s.ctl.pc + 4#32 ∧ (s.setF fs v).advance.f fs = v ∧
      (∀ r, r ≠ fs → (s.setF fs v).advance.f r = s.f r) ∧ (s.setF fs v).advance.ee.fcr31 = s.ee.fcr31 := by
  refine ⟨replaceFp_advance_onlyFp ht _ _, ?_, ?_, fun r hr => ?_, ?_⟩
  · rw [advance_ctl_pc, setF_ctl]
  · rw [advance_f, setF_f, if_pos rfl]
  · rw [advance_f, setF_f, if_neg hr]
  · rw [advance_ee_fcr31, setF_ee_fcr31]

/-- CTC1 writes `fcr31` for number 31 and nothing for any other (R304). -/
theorem fcrWrite_cases (s : State) (fs : RegIdx) (v : Word) :
    fs = 31#5 ∧ fcrWrite s fs v = { s with ee := { s.ee with fcr31 := v } } ∨ fs ≠ 31#5 ∧ fcrWrite s fs v = s := by
  by_cases h : fs = 31#5
  · exact .inl ⟨h, if_pos h⟩
  · exact .inr ⟨h, if_neg h⟩

/-- All that CTC1 does past the usable test (R178, R304). -/
theorem fcrWrite_advance_does {s : State} (ht : s.turn = .ee) (fs : RegIdx) (v : Word) :
    OnlyFp s (fcrWrite s fs v).advance ∧ (fcrWrite s fs v).advance.ctl.pc = s.ctl.pc + 4#32 ∧
      (∀ r, (fcrWrite s fs v).advance.f r = s.f r) ∧ (fs = 31#5 → (fcrWrite s fs v).advance.ee.fcr31 = v) ∧
      (fs ≠ 31#5 → (fcrWrite s fs v).advance.ee.fcr31 = s.ee.fcr31) := by
  rcases fcrWrite_cases s fs v with ⟨h31, hw⟩ | ⟨hne, hw⟩
  · rw [hw]
    refine ⟨replaceFp_advance_onlyFp ht _ _, ?_, fun r => advance_f _ r, fun _ => advance_ee_fcr31 _, fun h => absurd h31 h⟩
    rw [advance_ctl_pc]
    simp [State.ctl]
  · rw [hw]
    exact ⟨replaceFp_advance_onlyFp ht s.ee.fpr s.ee.fcr31, advance_ctl_pc s, advance_f s, fun h => absurd h hne,
      fun _ => advance_ee_fcr31 s⟩

/-- Settles O39: MFC1 and CFC1 are register results, MTC1 and CTC1 replace a floating-point register or `fcr31`. -/
theorem floatingMoves : Obligations.FloatingMoves := by
  intro rt fs s ht hc
  refine ⟨⟨_, eeRow_usable _ ht hc, setX_advance_writesReg s rt (sx (s.f fs))⟩,
    ⟨_, eeRow_usable _ ht hc, setF_advance_does ht fs (s.x rt 32)⟩,
    ⟨_, fcrRead s fs, eeRow_usable _ ht hc, setX_advance_writesReg s rt (fcrRead s fs), fun h31 => ?_⟩,
    ⟨_, eeRow_usable _ ht hc, fcrWrite_advance_does ht fs (s.x rt 32)⟩⟩
  funext n
  rw [fcrRead, if_pos h31, sx]

end Sys2Proof.Machine
end

section
/-! PROOF. The value function (O41). First what each operation gives on numbers, then what `fpCompute` makes of an exact
result, then the laws of every choice, and last all exact results of the default. -/

namespace Sys2Proof.Machine

/-! ### Operands and exact results as numbers -/

/-- The operand `v` is the number `q`, with sign `neg`. -/
def IsOperand (v : FpVal) (neg : Bool) (q : ℚ) : Prop := ∃ units, v = .fin neg units ∧ ratioVal neg units 1 = q

/-- The exact result `e` is the number `q`, with sign `neg`. -/
def IsNumber (e : FpExact) (neg : Bool) (q : ℚ) : Prop :=
  ∃ num den, 0 < den ∧ e = .ratio neg num den ∧ ratioVal neg num den = q

/-- `Reads` in terms of operands. -/
theorem reads_iff {ch : FpChoice} {w : Word} {q : ℚ} : Reads ch w q ↔ ∃ neg, IsOperand (fpRead ch w) neg q := by
  constructor
  · rintro ⟨neg, units, hr, hq⟩
    exact ⟨neg, units, hr, (ratioVal_one neg units).trans hq.symm⟩
  · rintro ⟨neg, units, hr, hq⟩
    exact ⟨neg, units, hr, hq.symm.trans (ratioVal_one neg units)⟩

theorem IsOperand.plain {v : FpVal} {s : Bool} {x : ℚ} (h : IsOperand v s x) : IsNumber (fpPlain v) s x := by
  obtain ⟨m, rfl, rfl⟩ := h
  exact ⟨m, 1, one_pos, rfl, rfl⟩

theorem IsNumber.neg {e : FpExact} {s : Bool} {x : ℚ} (h : IsNumber e s x) : IsNumber (fpNeg e) (!s) (-x) := by
  obtain ⟨n, d, hd, rfl, rfl⟩ := h
  exact ⟨n, d, hd, rfl, ratioVal_neg s n d⟩

/-- A sum of numbers is their sum; where that is zero, its sign is negative only if both are (R306). -/
theorem IsOperand.add {v : FpVal} {e : FpExact} {a b : Bool} {x y : ℚ} (hv : IsOperand v a x) (he : IsNumber e b y) :
    ∃ s, IsNumber (fpAdd v e) s (x + y) ∧ (x + y = 0 → s = (a && b)) := by
  obtain ⟨m, rfl, rfl⟩ := hv
  obtain ⟨n, d, hd, rfl, rfl⟩ := he
  obtain ⟨s, N, D, hsum, hD, hval, hzero⟩ := fpAdd_ratio a m b n d hd
  exact ⟨s, ⟨N, D, hD, hsum, hval⟩, fun h => hzero ((ratioVal_zero_iff hD).mp (hval.trans h))⟩

theorem IsOperand.mul {v w : FpVal} {a b : Bool} {x y : ℚ} (hv : IsOperand v a x) (hw : IsOperand w b y) :
    IsNumber (fpMul v w) (a ^^ b) (x * y) := by
  obtain ⟨m, rfl, rfl⟩ := hv
  obtain ⟨n, rfl, rfl⟩ := hw
  exact ⟨m * n, 2 ^ 149, by positivity, rfl, ratioVal_mul a m b n⟩

theorem IsOperand.div {v w : FpVal} {a b : Bool} {x y : ℚ} (hv : IsOperand v a x) (hw : IsOperand w b y) (hy : y ≠ 0) :
    IsNumber (fpDiv v w) (a ^^ b) (x / y) := by
  obtain ⟨m, rfl, rfl⟩ := hv
  obtain ⟨n, rfl, rfl⟩ := hw
  have hn : n ≠ 0 := fun h => hy ((ratioVal_zero_iff one_pos).mpr h)
  exact ⟨m * 2 ^ 149, n, Nat.pos_of_ne_zero hn, if_neg hn, ratioVal_div a m b n (Nat.pos_of_ne_zero hn)⟩

/-- A number over zero (R306): not a number where it is zero too, else an infinity. -/
theorem IsOperand.div_zero {v w : FpVal} {a b : Bool} {x : ℚ} (hv : IsOperand v a x) (hw : IsOperand w b 0) :
    (x = 0 → fpDiv v w = .nan) ∧ (x ≠ 0 → fpDiv v w = .inf (a ^^ b)) := by
  obtain ⟨m, rfl, rfl⟩ := hv
  obtain ⟨n, rfl, hn⟩ := hw
  obtain rfl := (ratioVal_zero_iff one_pos).mp hn
  rw [ne_eq, ratioVal_zero_iff one_pos]
  exact ⟨fun h => by simp [fpDiv, h], fun h => by simp [fpDiv, h]⟩

/-- A number over an infinity is a zero (R306). -/
theorem IsOperand.div_inf {v : FpVal} {a : Bool} {x : ℚ} (hv : IsOperand v a x) (b : Bool) :
    IsNumber (fpDiv v (.inf b)) (a ^^ b) 0 := by
  obtain ⟨m, rfl, -⟩ := hv
  exact ⟨0, 1, one_pos, rfl, (ratioVal_zero_iff one_pos).mpr rfl⟩

/-- An infinity times a number (R306): not a number where that is zero, else an infinity. -/
theorem IsOperand.inf_mul {v : FpVal} {b : Bool} {y : ℚ} (hv : IsOperand v b y) (a : Bool) :
    (y = 0 → fpMul (.inf a) v = .nan ∧ fpMul v (.inf a) = .nan) ∧
      (y ≠ 0 → fpMul (.inf a) v = .inf (a ^^ b) ∧ fpMul v (.inf a) = .inf (b ^^ a)) := by
  obtain ⟨n, rfl, rfl⟩ := hv
  rw [ne_eq, ratioVal_zero_iff one_pos]
  exact ⟨fun h => ⟨if_pos h, if_pos h⟩, fun h => ⟨if_neg h, if_neg h⟩⟩

/-! ### Exact results have positive denominators -/

/-- The denominator of an exact result that is a quotient is positive, so that the quotient is a number. -/
def PositiveDen : FpExact → Prop
  | .ratio _ _ den => 0 < den
  | _ => True

theorem fpPlain_positiveDen (v : FpVal) : PositiveDen (fpPlain v) := by
  cases v with
  | nan => trivial
  | inf => trivial
  | fin => exact one_pos

theorem fpNeg_positiveDen {e : FpExact} (h : PositiveDen e) : PositiveDen (fpNeg e) := by
  cases e <;> exact h

theorem fpAdd_positiveDen (v : FpVal) {e : FpExact} (h : PositiveDen e) : PositiveDen (fpAdd v e) := by
  unfold fpAdd
  split
  case h_6 =>
    dsimp only
    split
    · exact one_pos
    · exact h
  case h_3 => split <;> trivial
  all_goals trivial

theorem fpMul_positiveDen (v w : FpVal) : PositiveDen (fpMul v w) := by
  unfold fpMul
  split
  case h_4 => split <;> trivial
  case h_5 => split <;> trivial
  case h_6 => exact pow_pos two_pos 149
  all_goals trivial

theorem fpDiv_positiveDen (v w : FpVal) : PositiveDen (fpDiv v w) := by
  unfold fpDiv
  split
  case h_5 => exact one_pos
  case h_6 =>
    split
    · split <;> trivial
    · rename_i hn
      exact Nat.pos_of_ne_zero hn
  all_goals trivial

theorem fpRoundProduct_positiveDen (mode : FpRounding) (e : FpExact) : PositiveDen (fpRoundProduct mode e) := by
  unfold fpRoundProduct
  split
  case h_3 =>
    split
    · exact one_pos
    · split
      · exact one_pos
      · trivial
  all_goals trivial

theorem fpProduct_positiveDen (ch : FpChoice) (a b : Word) : PositiveDen (fpProduct ch a b) := by
  unfold fpProduct
  split
  · exact fpRoundProduct_positiveDen _ _
  · split
    · exact fpMul_positiveDen _ _
    · exact fpRoundProduct_positiveDen _ _

theorem fpExact_positiveDen (ch : FpChoice) (op : FpOp) (a b c : Word) : PositiveDen (fpExact ch op a b c) := by
  cases op with
  | add => exact fpAdd_positiveDen _ (fpPlain_positiveDen _)
  | sub => exact fpAdd_positiveDen _ (fpNeg_positiveDen (fpPlain_positiveDen _))
  | mul => exact fpMul_positiveDen _ _
  | div => exact fpDiv_positiveDen _ _
  | madd => exact fpAdd_positiveDen _ (fpProduct_positiveDen ch a b)
  | msub => exact fpAdd_positiveDen _ (fpNeg_positiveDen (fpProduct_positiveDen ch a b))

/-! ### What `fpCompute` makes of an exact result -/

section Compute

variable {ch : FpChoice} {op : FpOp} {a b c : Word}

/-- What is not a number is Overflow (R306). -/
theorem fpCompute_nan (h : fpExact ch op a b c = .nan) : (fpCompute ch op a b c).1 = .overflow := by
  simp only [fpCompute, h]

/-- An infinity is Overflow (R306). -/
theorem fpCompute_inf {neg : Bool} (h : fpExact ch op a b c = .inf neg) : (fpCompute ch op a b c).1 = .overflow := by
  simp only [fpCompute, h]

/-- In the default an infinity keeps its sign. -/
theorem fpCompute_inf_sign {neg : Bool} (h : fpExact .ieee op a b c = .inf neg) :
    (fpCompute .ieee op a b c).2.getLsbD 31 = neg := by
  simp only [fpCompute, h, fpEitherSign, ite_self]
  exact fpEncode_sign _ _

theorem fpCompute_ratio {neg : Bool} {num den : Nat} (h : fpExact ch op a b c = .ratio neg num den) :
    fpCompute ch op a b c = (fpClass num den, fpEncode (if num = 0 then fpEitherSign ch op a b c neg else neg)
      (fpRound (fpResultRounding ch op a b c) num den)) := by
  simp only [fpCompute, h]

/-- In the default a zero keeps its sign too, and the rounding is to nearest. -/
theorem fpCompute_ieee_ratio {neg : Bool} {num den : Nat} (h : fpExact .ieee op a b c = .ratio neg num den) :
    fpCompute .ieee op a b c = (fpClass num den, fpEncode neg (fpRound .nearestEven num den)) := by
  rw [fpCompute_ratio h, fpEitherSign, ite_self, fpResultRounding]

/-- Laws L2 and L3 hold of the number that the exact result is, whichever sign a zero is given (R306). -/
theorem fpCompute_law {s : Bool} {q : ℚ} (h : IsNumber (fpExact ch op a b c) s q) : FpLaw q (fpCompute ch op a b c) := by
  obtain ⟨num, den, hd, he, rfl⟩ := h
  rw [fpCompute_ratio he]
  by_cases h0 : num = 0
  · have same : ratioVal s num den = ratioVal (fpEitherSign ch op a b c s) num den :=
      ((ratioVal_zero_iff hd).mpr h0).trans ((ratioVal_zero_iff hd).mpr h0).symm
    rw [if_pos h0, same]
    exact fpClass_fpRound_law _ _ _ _ hd
  · rw [if_neg h0]
    exact fpClass_fpRound_law _ _ _ _ hd

/-- A result of class Normal satisfies the laws for some number. -/
theorem fpCompute_normal_law (h : (fpCompute ch op a b c).1 = .normal) : ∃ q, FpLaw q (fpCompute ch op a b c) := by
  have hpos := fpExact_positiveDen ch op a b c
  cases he : fpExact ch op a b c with
  | nan => rw [fpCompute_nan he] at h; cases h
  | inf neg => rw [fpCompute_inf he] at h; cases h
  | ratio neg num den =>
    rw [he] at hpos
    exact ⟨_, fpCompute_law ⟨num, den, hpos, he, rfl⟩⟩

/-- In the default, a number of the range becomes the nearest one of the format (R306). -/
theorem fpCompute_nearest {s : Bool} {q : ℚ} (h : IsNumber (fpExact .ieee op a b c) s q) (hq : |q| ≤ greatestFinite) :
    Nearest q (fpCompute .ieee op a b c).2 := by
  obtain ⟨num, den, hd, he, rfl⟩ := h
  rw [fpCompute_ieee_ratio he]
  have fits : num ≤ fpMaxUnits * den := not_lt.mp ((ratioVal_large_iff hd).not.mp (not_lt.mpr hq))
  exact (fpRound_spec .nearestEven s num den hd (fpRound_lt hd fits) _ rfl).nearest rfl

/-- In the default, zero is Normal and keeps its sign (R306). -/
theorem fpCompute_zero {s : Bool} (h : IsNumber (fpExact .ieee op a b c) s 0) :
    fpCompute .ieee op a b c = (.normal, BitVec.ofBool s ++ 0#31) := by
  obtain ⟨num, den, hd, he, hval⟩ := h
  obtain rfl := (ratioVal_zero_iff hd).mp hval
  rw [fpCompute_ieee_ratio he, (fpRound_zero .nearestEven s den).1, (fpRound_zero .nearestEven s den).2]

end Compute

/-! ### The laws of every choice (R306) -/

/-- A finite pattern is at most the greatest finite number. -/
theorem abs_binary32_le {w : Word} (h : Finite32 w) : |binary32 w| ≤ greatestFinite := by
  obtain ⟨m, k, hm, hk, -, hval⟩ := finite_reads w h
  have units : m * 2 ^ k ≤ fpMaxUnits * 1 := by
    rw [mul_one, fpMaxUnits, Nat.shiftLeft_eq]
    exact Nat.mul_le_mul (by omega) (Nat.pow_le_pow_right two_pos (by omega))
  rw [show binary32 w = ratioVal (w.getLsbD 31) (m * 2 ^ k) 1 from hval.trans (ratioVal_one _ _).symm]
  exact not_lt.mp ((ratioVal_large_iff one_pos).not.mpr (not_lt.mpr units))

/-- Beside a number past the range stands the greatest finite number of its sign. -/
theorem greatest_beside {s : Bool} {num den : Nat} (h : greatestFinite < |ratioVal s num den|) :
    ∃ p, Neighbour (ratioVal s num den) p ∧ binary32 p = ratioVal s fpMaxUnits 1 := by
  have units : (2 ^ 24 - 1) * 2 ^ 253 = fpMaxUnits := (Nat.shiftLeft_eq _ _).symm
  have below : (2 ^ 24 - 1) * 2 ^ 253 < fpInfUnits := units ▸ (by decide : fpMaxUnits < fpInfUnits)
  obtain ⟨-, finite, -, -⟩ := fpEncode_spec s (2 ^ 24 - 1) 253 (by norm_num) (by norm_num) below
  have value := binary32_encode s (2 ^ 24 - 1) 253 (by norm_num) (by norm_num) below
  rw [units] at finite value
  have greatest : binary32 (fpEncode s fpMaxUnits) = signOf s * greatestFinite := by
    rw [value, greatestFinite_units, mul_div_assoc]
  have past : ratioVal s num den = signOf s * |ratioVal s num den| := by
    rw [abs_ratioVal, ratioVal, mul_div_assoc]
  refine ⟨fpEncode s fpMaxUnits, ⟨finite, fun v hv => ?_⟩, value.trans (ratioVal_one _ _).symm⟩
  obtain ⟨lo, hi⟩ := abs_le.mp (abs_binary32_le hv)
  rw [greatest, past]
  cases s <;> simp only [signOf, Bool.false_eq_true, if_false, if_true] <;>
    exact ⟨fun ⟨h1, h2⟩ => by linarith, fun ⟨h1, h2⟩ => by linarith⟩

/-- What rounding a product gives (R306): a number beside it, or, past the range, an infinity. -/
theorem IsNumber.roundProduct {e : FpExact} {s : Bool} {q : ℚ} (mode : FpRounding) (h : IsNumber e s q) :
    (∃ p, Neighbour q p ∧ IsNumber (fpRoundProduct mode e) s (binary32 p)) ∨
      greatestFinite < |q| ∧ fpRoundProduct mode e = .inf s := by
  obtain ⟨num, den, hd, rfl, rfl⟩ := h
  rcases fpRoundProduct_cases mode s num den hd with ⟨p, beside, -, -, hr, hp⟩ | ⟨past, -, hr⟩ | ⟨past, -, hr⟩
  · exact .inl ⟨p, beside, _, 1, one_pos, hr, hp.symm⟩
  · obtain ⟨p, beside, hp⟩ := greatest_beside past
    exact .inl ⟨p, beside, _, 1, one_pos, hr, hp.symm⟩
  · exact .inr ⟨past, hr⟩

/-- The product of MADD.S and MSUB.S: exact, beside the exact one, or, past the range, an infinity (log entry 30). -/
theorem fpProduct_cases {ch : FpChoice} {a b : Word} {s t : Bool} {x y : ℚ} (hx : IsOperand (fpRead ch a) s x)
    (hy : IsOperand (fpRead ch b) t y) :
    IsNumber (fpProduct ch a b) (s ^^ t) (x * y) ∨
      (∃ p, Neighbour (x * y) p ∧ IsNumber (fpProduct ch a b) (s ^^ t) (binary32 p)) ∨
      greatestFinite < |x * y| ∧ fpProduct ch a b = .inf (s ^^ t) := by
  have product := hx.mul hy
  unfold fpProduct
  split
  · exact .inr (product.roundProduct _)
  · split
    · exact .inl product
    · exact .inr (product.roundProduct _)

/-- What holds with the product of MADD.S and MSUB.S, whichever it is. -/
theorem someProduct_intro {ch : FpChoice} {op : FpOp} {a b c : Word} {s t : Bool} {x y : ℚ} {law : ℚ → Prop}
    (hx : IsOperand (fpRead ch a) s x) (hy : IsOperand (fpRead ch b) t y)
    (number : ∀ p, IsNumber (fpProduct ch a b) (s ^^ t) p → law p)
    (infinity : fpProduct ch a b = .inf (s ^^ t) → (fpCompute ch op a b c).1 = .overflow) :
    SomeProduct x y (fpCompute ch op a b c) law := by
  rcases fpProduct_cases hx hy with h | ⟨p, beside, h⟩ | ⟨past, h⟩
  · exact .inl (number _ h)
  · exact .inr (.inl ⟨p, beside, number _ h⟩)
  · exact .inr (.inr ⟨past, infinity h⟩)

theorem fpAdd_nan (v : FpVal) : fpAdd v .nan = .nan := by cases v <;> rfl

theorem fpMul_nan (v : FpVal) : fpMul v .nan = .nan := by cases v <;> rfl

theorem fpDiv_nan (v : FpVal) : fpDiv v .nan = .nan := by cases v <;> rfl

/-- A product that is not a number is none when rounded. -/
theorem fpProduct_nan {ch : FpChoice} {a b : Word} (h : fpMul (fpRead ch a) (fpRead ch b) = .nan) :
    fpProduct ch a b = .nan := by
  unfold fpProduct
  split
  · rw [h]; rfl
  · split <;> rw [h]; rfl

/-- An operation on something that is not a number gives none (R306). -/
theorem fpExact_nan {ch : FpChoice} {op : FpOp} {a b c : Word}
    (h : fpRead ch a = .nan ∨ fpRead ch b = .nan ∨ (op = .madd ∨ op = .msub) ∧ fpRead ch c = .nan) :
    fpExact ch op a b c = .nan := by
  rcases h with ha | hb | ⟨rfl | rfl, hc⟩
  · have product : fpProduct ch a b = .nan := fpProduct_nan (by rw [ha]; rfl)
    cases op with
    | add | sub | mul | div => simp only [fpExact, ha]; rfl
    | madd | msub => simp only [fpExact, product]; exact fpAdd_nan _
  · have product : fpProduct ch a b = .nan := fpProduct_nan (by rw [hb, fpMul_nan])
    cases op with
    | add | sub => simp only [fpExact, hb]; exact fpAdd_nan _
    | mul => simp only [fpExact, hb]; exact fpMul_nan _
    | div => simp only [fpExact, hb]; exact fpDiv_nan _
    | madd | msub => simp only [fpExact, product]; exact fpAdd_nan _
  · simp only [fpExact, hc]; rfl
  · simp only [fpExact, hc]; rfl

/-- Every choice of the value function satisfies the laws (R306). -/
theorem fpCompute_laws (ch : FpChoice) (op : FpOp) (a b c : Word) : FpLaws ch op a b c (fpCompute ch op a b c) where
  add := by
    rintro x y rfl hx hy
    obtain ⟨_, hx⟩ := reads_iff.mp hx
    obtain ⟨_, hy⟩ := reads_iff.mp hy
    obtain ⟨_, sum, -⟩ := hx.add hy.plain
    exact fpCompute_law sum
  sub := by
    rintro x y rfl hx hy
    obtain ⟨_, hx⟩ := reads_iff.mp hx
    obtain ⟨_, hy⟩ := reads_iff.mp hy
    obtain ⟨_, sum, -⟩ := hx.add hy.plain.neg
    exact fpCompute_law (sub_eq_add_neg x y ▸ sum)
  mul := by
    rintro x y rfl hx hy
    obtain ⟨_, hx⟩ := reads_iff.mp hx
    obtain ⟨_, hy⟩ := reads_iff.mp hy
    exact fpCompute_law (hx.mul hy)
  div := by
    rintro x y rfl hx hy h0
    obtain ⟨_, hx⟩ := reads_iff.mp hx
    obtain ⟨_, hy⟩ := reads_iff.mp hy
    exact fpCompute_law (hx.div hy h0)
  divZero := by
    rintro x rfl hx hy
    obtain ⟨_, hx⟩ := reads_iff.mp hx
    obtain ⟨_, hy⟩ := reads_iff.mp hy
    obtain ⟨undefined, infinite⟩ := hx.div_zero hy
    rcases eq_or_ne x 0 with h0 | h0
    · exact fpCompute_nan (undefined h0)
    · exact fpCompute_inf (infinite h0)
  madd := by
    rintro x y z rfl hx hy hz
    obtain ⟨s, hx⟩ := reads_iff.mp hx
    obtain ⟨t, hy⟩ := reads_iff.mp hy
    obtain ⟨_, hz⟩ := reads_iff.mp hz
    refine someProduct_intro hx hy (fun p hp => ?_) fun h => fpCompute_inf (neg := s ^^ t) ?_
    · obtain ⟨_, sum, -⟩ := hz.add hp
      exact fpCompute_law sum
    · obtain ⟨m, hm, -⟩ := hz
      simp only [fpExact, h, hm]; rfl
  msub := by
    rintro x y z rfl hx hy hz
    obtain ⟨s, hx⟩ := reads_iff.mp hx
    obtain ⟨t, hy⟩ := reads_iff.mp hy
    obtain ⟨_, hz⟩ := reads_iff.mp hz
    refine someProduct_intro hx hy (fun p hp => ?_) fun h => fpCompute_inf (neg := !(s ^^ t)) ?_
    · obtain ⟨_, sum, -⟩ := hz.add hp.neg
      exact fpCompute_law (sub_eq_add_neg z p ▸ sum)
    · obtain ⟨m, hm, -⟩ := hz
      simp only [fpExact, h, hm]; rfl
  notNumber := fun h => fpCompute_nan (fpExact_nan h)

/-- MADD.S and MSUB.S alone use the accumulator (R306). -/
theorem fpCompute_acc_unused (ch : FpChoice) {op : FpOp} (a b c c' : Word) (hadd : op ≠ .madd) (hsub : op ≠ .msub) :
    fpCompute ch op a b c' = fpCompute ch op a b c := by
  cases op with
  | madd => exact absurd rfl hadd
  | msub => exact absurd rfl hsub
  | add | sub | mul | div => cases ch <;> rfl

/-! ### How operands are read (R305) -/

/-- In the default a finite pattern is its number, with its sign. -/
theorem finite_operand {w : Word} (h : Finite32 w) : IsOperand (fpRead .ieee w) (w.getLsbD 31) (binary32 w) := by
  obtain ⟨m, hr, hval⟩ := fpRead_finite h
  exact ⟨m, hr, hval.symm⟩

/-- Zeros and normal numbers are read as in the default, whichever the choice. -/
theorem fpRead_of_not_special (ch : FpChoice) {w : Word} (h : Finite32 w) (h0 : fpExponent w = 0 → fpFraction w = 0) :
    fpRead ch w = fpRead .ieee w := by
  cases ch with
  | ieee => rfl
  | other id =>
    have plain : ¬ fpSpecial w = true := by
      simp only [fpSpecial, Bool.or_eq_true, beq_iff_eq, Bool.and_eq_true, bne_iff_ne]
      rintro (h' | ⟨he, hf⟩)
      · exact h h'
      · exact hf (h0 he)
    exact if_neg plain

/-- Zeros and normal numbers are read as the number of the pattern and as no other (log entry 8). -/
theorem reads_finite_iff (ch : FpChoice) {w : Word} (h : Finite32 w) (h0 : fpExponent w = 0 → fpFraction w = 0) (q : ℚ) :
    Reads ch w q ↔ q = binary32 w := by
  obtain ⟨m, hm, hval⟩ := finite_operand h
  rw [reads_iff, fpRead_of_not_special ch h h0, hm]
  constructor
  · rintro ⟨_, _, hn, rfl⟩
    cases hn
    exact hval
  · rintro rfl
    exact ⟨_, m, rfl, hval⟩

/-! ### What a row writes (R307) -/

/-- The magnitude of a pattern with exponent 0 is a fraction of the least normal number (R305). -/
theorem abs_binary32_of_exponent_zero {w : Word} (h : fpExponent w = 0) :
    |binary32 w| = (fpFraction w : ℚ) / 2 ^ 23 * leastNormal := by
  have hpos : (0 : ℚ) ≤ (fpFraction w : ℚ) / 2 ^ 23 * leastNormal := by unfold leastNormal; positivity
  rw [binary32, if_pos h]
  exact (abs_signOf_mul (w.getLsbD 31) _).trans (abs_of_nonneg hpos)

/-- A pattern at least as large as the least normal number has an exponent other than 0. -/
theorem exponent_ne_zero {w : Word} (h : leastNormal ≤ |binary32 w|) : fpExponent w ≠ 0 := by
  intro h0
  have hf : (fpFraction w : ℚ) < 2 ^ 23 := by exact_mod_cast (w.extractLsb' 0 23).isLt
  have hl : (0 : ℚ) < leastNormal := by unfold leastNormal; positivity
  rw [abs_binary32_of_exponent_zero h0] at h
  have below : (fpFraction w : ℚ) / 2 ^ 23 * leastNormal < 1 * leastNormal :=
    mul_lt_mul_of_pos_right ((div_lt_one (by norm_num)).mpr hf) hl
  linarith

/-- A pattern of the number zero has fraction 0 where its exponent is 0. -/
theorem fraction_eq_zero {w : Word} (h : binary32 w = 0) (h0 : fpExponent w = 0) : fpFraction w = 0 := by
  have habs := abs_binary32_of_exponent_zero h0
  rw [h, abs_zero] at habs
  have hl : leastNormal ≠ 0 := by unfold leastNormal; positivity
  simpa [hl] using habs.symm

/-- The least normal number and its negation are numbers of the format. -/
theorem leastNormal_pattern (s : Bool) : ∃ w, Finite32 w ∧ binary32 w = signOf s * leastNormal := by
  obtain ⟨hs, he, hf, -⟩ := fp_fields s 1 0 (by norm_num) (by norm_num)
  refine ⟨_, fun h => absurd (he.symm.trans h) (by norm_num), ?_⟩
  rw [binary32, he, hf, hs]
  simp [signOf, leastNormal]

/-- Beside a number at least as large as the least normal one stands no smaller one. -/
theorem Neighbour.leastNormal_le {q : ℚ} {w : Word} (h : Neighbour q w) (hq : leastNormal ≤ |q|) :
    leastNormal ≤ |binary32 w| := by
  rcases le_abs.mp hq with hpos | hneg
  · obtain ⟨v, hv, value⟩ := leastNormal_pattern false
    have above := (h.2 v hv).2
    simp only [value, signOf, Bool.false_eq_true, if_false, one_mul] at above
    exact le_abs.mpr (.inl (not_lt.mp fun hlt => above ⟨hlt, hpos⟩))
  · obtain ⟨v, hv, value⟩ := leastNormal_pattern true
    have below := (h.2 v hv).1
    simp only [value, signOf, if_true, neg_one_mul] at below
    have hw : binary32 w ≤ -leastNormal := not_lt.mp fun hlt => below ⟨by linarith, hlt⟩
    exact le_abs.mpr (.inr (by linarith))

/-- Beside zero stands zero. -/
theorem Neighbour.eq_zero {w : Word} (h : Neighbour 0 w) : binary32 w = 0 := by
  have finite : Finite32 0#32 := by unfold Finite32; decide
  have fields : fpExponent 0#32 = 0 ∧ fpFraction 0#32 = 0 := by decide
  have value : binary32 0#32 = 0 := by simp [binary32, fields]
  obtain ⟨below, above⟩ := h.2 0#32 finite
  rw [value] at below above
  exact le_antisymm (not_lt.mp fun hlt => below ⟨le_refl 0, hlt⟩) (not_lt.mp fun hlt => above ⟨hlt, le_refl 0⟩)

/-- By the laws a Normal result is neither an infinity nor a NaN, and no subnormal number. -/
theorem FpLaw.not_special {q : ℚ} {out : FpClass × Word} (h : FpLaw q out) (hn : out.1 = .normal) :
    Finite32 out.2 ∧ (fpExponent out.2 = 0 → fpFraction out.2 = 0) := by
  have beside := h.normal hn
  refine ⟨beside.1, fun he => ?_⟩
  have notSmall : ¬ (q ≠ 0 ∧ |q| < leastNormal) := fun hs => by
    have := h.underflow.mpr hs
    rw [hn] at this
    cases this
  rcases eq_or_ne q 0 with rfl | h0
  · exact fraction_eq_zero beside.eq_zero he
  · exact absurd he (exponent_ne_zero (beside.leastNormal_le (not_lt.mp fun hlt => notSmall ⟨h0, hlt⟩)))

/-- The fields of a sign followed by a magnitude. -/
theorem signed_fields (s : BitVec 1) (m : BitVec 31) :
    (s ++ m : Word).extractLsb' 23 8 = m.extractLsb' 23 8 ∧ (s ++ m : Word).extractLsb' 0 23 = m.extractLsb' 0 23 :=
  ⟨extract_append_low s m 23 8 (by decide), extract_append_low s m 0 23 (by decide)⟩

/-- What a row writes is no infinity, NaN or subnormal number, when the clamp constant is none and is not zero (R307). -/
theorem fpClamp_not_special (ch : FpChoice) (op : FpOp) (a b c clampMax : Word) (hmax : clampMax.extractLsb' 23 8 ≠ 255#8)
    (hmin : clampMax.extractLsb' 23 8 ≠ 0#8) {v : Word}
    (hv : v = fpClamp clampMax (fpCompute ch op a b c).1 (fpCompute ch op a b c).2) :
    v.extractLsb' 23 8 ≠ 255#8 ∧ (v.extractLsb' 23 8 = 0#8 → v.extractLsb' 0 23 = 0#23) := by
  subst hv
  cases hcls : (fpCompute ch op a b c).1 with
  | normal =>
    obtain ⟨q, law⟩ := fpCompute_normal_law hcls
    obtain ⟨finite, notSubnormal⟩ := law.not_special hcls
    exact ⟨fun h => finite (congrArg BitVec.toNat h),
      fun h => BitVec.eq_of_toNat_eq (notSubnormal (congrArg BitVec.toNat h))⟩
  | overflow =>
    have exponent : (fpClamp clampMax .overflow (fpCompute ch op a b c).2).extractLsb' 23 8 = clampMax.extractLsb' 23 8 := by
      rw [fpClamp, (signed_fields _ _).1]
      ext i hi
      simp
    rw [exponent]
    exact ⟨hmax, fun h => absurd h hmin⟩
  | underflow =>
    rw [fpClamp, (signed_fields _ _).1, (signed_fields _ _).2]
    decide

/-! ### The exact results of the default (R306) -/

/-- The three readings of a pattern in the default (R305). -/
theorem ieee_operand (w : Word) :
    (Finite32 w ∧ IsOperand (fpRead .ieee w) (w.getLsbD 31) (binary32 w)) ∨
      (Infinite32 w ∧ fpRead .ieee w = .inf (w.getLsbD 31)) ∨
      (¬ Finite32 w ∧ ¬ Infinite32 w ∧ fpRead .ieee w = .nan) := by
  by_cases hf : Finite32 w
  · exact .inl ⟨hf, finite_operand hf⟩
  · by_cases hi : Infinite32 w
    · exact .inr (.inl ⟨hi, fpRead_infinite hi⟩)
    · exact .inr (.inr ⟨hf, hi, fpRead_nan hf hi⟩)

/-- The exact result `e`, of sign `neg`, is a number where it is `ideal`, an infinity where `infinite`, and else none. -/
structure Stands (e : FpExact) (ideal : ℚ → Prop) (infinite : Prop) (neg : Bool) : Prop where
  number : ∀ q, ideal q → IsNumber e neg q
  infinity : infinite → e = .inf neg
  neither : (∀ q, ¬ ideal q) → ¬ infinite → e = .nan

/-- The same of an exact result whose sign is known where it is zero or an infinity. -/
structure Meaning (e : FpExact) (ideal : ℚ → Prop) (infinite : Bool → Prop) (zeroNeg : Bool) : Prop where
  number : ∀ q, ideal q → ∃ s, IsNumber e s q ∧ (q = 0 → s = zeroNeg)
  infinity : ∀ neg, infinite neg → e = .inf neg
  neither : (∀ q, ¬ ideal q) → (∀ neg, ¬ infinite neg) → e = .nan

theorem Stands.meaning {e : FpExact} {ideal : ℚ → Prop} {infinite : Prop} {neg : Bool} (h : Stands e ideal infinite neg) :
    Meaning e ideal (fun s => infinite ∧ s = neg) neg where
  number q hq := ⟨neg, h.number q hq, fun _ => rfl⟩
  infinity s hs := by rw [hs.2]; exact h.infinity hs.1
  neither hq hs := h.neither hq fun hi => hs neg ⟨hi, rfl⟩

theorem Stands.neg {e : FpExact} {ideal : ℚ → Prop} {infinite : Prop} {neg : Bool} (h : Stands e ideal infinite neg) :
    Stands (fpNeg e) (fun q => ideal (-q)) infinite (!neg) where
  number q hq := neg_neg q ▸ (h.number (-q) hq).neg
  infinity hi := by rw [h.infinity hi]; rfl
  neither hq hi := by rw [h.neither (fun q => neg_neg q ▸ hq (-q)) hi]; rfl

/-- An operand is its number, an infinity or none (R305). -/
theorem plain_stands (w : Word) :
    Stands (fpPlain (fpRead .ieee w)) (fun q => Finite32 w ∧ q = binary32 w) (Infinite32 w) (w.getLsbD 31) where
  number := by
    rintro q ⟨hw, rfl⟩
    exact (finite_operand hw).plain
  infinity hw := by rw [fpRead_infinite hw]; rfl
  neither hq hi := by rw [fpRead_nan (fun hw => hq _ ⟨hw, rfl⟩) hi]; rfl

/-- A product of an infinity and zero is none (R306). -/
theorem mul_stands (a b : Word) :
    Stands (fpMul (fpRead .ieee a) (fpRead .ieee b)) (fun q => Finite32 a ∧ Finite32 b ∧ q = binary32 a * binary32 b)
      (InfiniteFactor a b) (a.getLsbD 31 ^^ b.getLsbD 31) where
  number := by
    rintro q ⟨ha, hb, rfl⟩
    exact (finite_operand ha).mul (finite_operand hb)
  infinity := by
    rintro (⟨ha, hb | ⟨hb, hne⟩⟩ | ⟨ha, hne, hb⟩)
    · rw [fpRead_infinite ha, fpRead_infinite hb]; rfl
    · rw [fpRead_infinite ha, (((finite_operand hb).inf_mul _).2 hne).1]
    · rw [fpRead_infinite hb, (((finite_operand ha).inf_mul _).2 hne).2]
  neither hq hi := by
    rcases ieee_operand a with ⟨ha, va⟩ | ⟨ha, va⟩ | ⟨-, -, va⟩
    · rcases ieee_operand b with ⟨hb, -⟩ | ⟨hb, vb⟩ | ⟨-, -, vb⟩
      · exact absurd ⟨ha, hb, rfl⟩ (hq _)
      · rw [vb, ((va.inf_mul _).1 (by_contra fun hne => hi (.inr ⟨ha, hne, hb⟩))).2]
      · rw [vb, fpMul_nan]
    · rcases ieee_operand b with ⟨hb, vb⟩ | ⟨hb, -⟩ | ⟨-, -, vb⟩
      · rw [va, ((vb.inf_mul _).1 (by_contra fun hne => hi (.inl ⟨ha, .inr ⟨hb, hne⟩⟩))).1]
      · exact absurd (.inl ⟨ha, .inl hb⟩) hi
      · rw [vb, fpMul_nan]
    · rw [va]; rfl

/-- A quotient of two infinities or of two zeros is none (R306). -/
theorem div_stands (a b c : Word) :
    Stands (fpDiv (fpRead .ieee a) (fpRead .ieee b)) (FpIdeal .div a b c)
      (Infinite32 a ∧ Finite32 b ∨ Finite32 a ∧ binary32 a ≠ 0 ∧ Finite32 b ∧ binary32 b = 0)
      (a.getLsbD 31 ^^ b.getLsbD 31) where
  number := by
    rintro q ⟨ha, ⟨hb, hne, rfl⟩ | ⟨hb, rfl⟩⟩
    · exact (finite_operand ha).div (finite_operand hb) hne
    · rw [fpRead_infinite hb]
      exact (finite_operand ha).div_inf _
  infinity := by
    rintro (⟨ha, hb⟩ | ⟨ha, hne, hb, hzero⟩)
    · obtain ⟨n, vb, -⟩ := finite_operand hb
      rw [fpRead_infinite ha, vb]; rfl
    · exact ((finite_operand ha).div_zero (hzero ▸ finite_operand hb)).2 hne
  neither hq hi := by
    rcases ieee_operand a with ⟨ha, va⟩ | ⟨ha, va⟩ | ⟨-, -, va⟩
    · rcases ieee_operand b with ⟨hb, vb⟩ | ⟨hb, -⟩ | ⟨-, -, vb⟩
      · have hzero : binary32 b = 0 := by_contra fun hne => hq _ ⟨ha, .inl ⟨hb, hne, rfl⟩⟩
        exact (va.div_zero (hzero ▸ vb)).1 (by_contra fun hne => hi (.inr ⟨ha, hne, hb, hzero⟩))
      · exact absurd ⟨ha, .inr ⟨hb, rfl⟩⟩ (hq 0)
      · rw [vb, fpDiv_nan]
    · rcases ieee_operand b with ⟨hb, -⟩ | ⟨-, vb⟩ | ⟨-, -, vb⟩
      · exact absurd (.inl ⟨ha, hb⟩) hi
      · rw [va, vb]; rfl
      · rw [vb, fpDiv_nan]
    · rw [va]; rfl

/-- A product of the range has a nearest number, and to that number it is rounded before the sum (R306). -/
theorem roundProduct_of_finite {a b : Word} (h : FiniteProduct a b) :
    (∃ p, Nearest (binary32 a * binary32 b) p) ∧ ∀ p, Nearest (binary32 a * binary32 b) p →
      IsNumber (fpProduct .ieee a b) (a.getLsbD 31 ^^ b.getLsbD 31) (binary32 p) := by
  obtain ⟨ha, hb, inRange⟩ := h
  obtain ⟨num, den, hd, he, hval⟩ := (finite_operand ha).mul (finite_operand hb)
  rw [← hval] at inRange ⊢
  have fits := (fpRound_finite_iff hd).mpr inRange
  refine ⟨⟨_, (fpRound_spec .nearestEven _ num den hd fits _ rfl).nearest rfl⟩, fun p hp => ⟨_, 1, one_pos, ?_,
    (nearest_unique hd fits hp).symm⟩⟩
  rw [fpProduct, he]
  exact if_pos fits

/-- A product past the range is rounded to an infinity (R306). -/
theorem roundProduct_of_infinite {a b : Word} (ha : Finite32 a) (hb : Finite32 b)
    (past : infiniteFrom ≤ |binary32 a * binary32 b|) :
    fpProduct .ieee a b = .inf (a.getLsbD 31 ^^ b.getLsbD 31) := by
  obtain ⟨num, den, hd, he, hval⟩ := (finite_operand ha).mul (finite_operand hb)
  rw [← hval] at past
  rw [fpProduct, he]
  exact (if_neg ((fpRound_finite_iff hd).not.mpr (not_lt.mpr past))).trans (if_neg (by decide))

/-- The product of MADD.S and MSUB.S (log entry 30). -/
theorem product_stands (a b : Word) :
    Stands (fpProduct .ieee a b) (fun q => FiniteProduct a b ∧ ∃ p, Nearest (binary32 a * binary32 b) p ∧ q = binary32 p)
      (InfiniteProduct a b) (a.getLsbD 31 ^^ b.getLsbD 31) where
  number := by
    rintro q ⟨hfin, p, hp, rfl⟩
    exact (roundProduct_of_finite hfin).2 p hp
  infinity := by
    rintro (hfactor | ⟨ha, hb, past⟩)
    · rw [fpProduct, (mul_stands a b).infinity hfactor]; rfl
    · exact roundProduct_of_infinite ha hb past
  neither hq hi := by
    refine fpProduct_nan ((mul_stands a b).neither ?_ fun hfactor => hi (.inl hfactor))
    rintro _ ⟨ha, hb, -⟩
    rcases lt_or_ge |binary32 a * binary32 b| infiniteFrom with inRange | past
    · obtain ⟨⟨p, hp⟩, -⟩ := roundProduct_of_finite ⟨ha, hb, inRange⟩
      exact hq _ ⟨⟨ha, hb, inRange⟩, p, hp, rfl⟩
    · exact hi (.inr ⟨ha, hb, past⟩)

/-- A sum of two infinities of opposite signs is none (R306). -/
theorem Stands.sum {e : FpExact} {ideal : ℚ → Prop} {infinite : Prop} {neg : Bool} (h : Stands e ideal infinite neg)
    (c : Word) {result : ℚ → Prop} {finite : Prop} (hresult : ∀ q, result q ↔ Finite32 c ∧ ∃ y, ideal y ∧ q = binary32 c + y)
    (hfinite : finite ↔ ∃ y, ideal y) :
    Meaning (fpAdd (fpRead .ieee c) e) result (InfiniteSum c infinite finite neg) (c.getLsbD 31 && neg) where
  number q hq := by
    obtain ⟨hc, y, hy, rfl⟩ := (hresult q).mp hq
    exact (finite_operand hc).add (h.number y hy)
  infinity := by
    rintro _ (⟨hc, hf | ⟨hi, hneg⟩, rfl⟩ | ⟨hc, hi, rfl⟩)
    · obtain ⟨y, hy⟩ := hfinite.mp hf
      obtain ⟨n, d, -, he, -⟩ := h.number y hy
      rw [fpRead_infinite hc, he]; rfl
    · rw [fpRead_infinite hc, h.infinity hi, hneg]
      exact if_pos rfl
    · obtain ⟨m, hm, -⟩ := finite_operand hc
      rw [hm, h.infinity hi]; rfl
  neither hq hi := by
    rcases ieee_operand c with ⟨hc, -⟩ | ⟨hc, vc⟩ | ⟨-, -, vc⟩
    · rw [h.neither (fun y hy => hq _ ((hresult _).mpr ⟨hc, y, hy, rfl⟩)) fun hinf => hi neg (.inr ⟨hc, hinf, rfl⟩), fpAdd_nan]
    · by_cases hinf : infinite
      · have opposite : c.getLsbD 31 ≠ neg := fun hs => hi _ (.inl ⟨hc, .inr ⟨hinf, hs.symm⟩, rfl⟩)
        rw [vc, h.infinity hinf]
        exact if_neg opposite
      · have noNumber : ∀ y, ¬ ideal y := fun y hy => hi _ (.inl ⟨hc, .inl (hfinite.mpr ⟨y, hy⟩), rfl⟩)
        rw [h.neither noNumber hinf, fpAdd_nan]
    · rw [vc]; rfl

/-- The rounded product is a number where the exact one is in the range. -/
theorem finiteProduct_iff (a b : Word) :
    FiniteProduct a b ↔ ∃ q, FiniteProduct a b ∧ ∃ p, Nearest (binary32 a * binary32 b) p ∧ q = binary32 p := by
  constructor
  · intro h
    obtain ⟨⟨p, hp⟩, -⟩ := roundProduct_of_finite h
    exact ⟨_, h, p, hp, rfl⟩
  · rintro ⟨_, h, -⟩
    exact h

/-- Every exact result of the default is the ideal one, an infinity or none, as R306 has it. -/
theorem fpExact_meaning (op : FpOp) (a b c : Word) :
    Meaning (fpExact .ieee op a b c) (FpIdeal op a b c) (FpInfinite op a b c) (zeroSign op a b c) := by
  cases op with
  | add =>
    refine (plain_stands b).sum a (fun q => ?_) ⟨fun hb => ⟨_, hb, rfl⟩, fun ⟨_, hb, _⟩ => hb⟩
    exact ⟨fun ⟨ha, hb, hq⟩ => ⟨ha, _, ⟨hb, rfl⟩, hq⟩, fun ⟨ha, _, ⟨hb, hy⟩, hq⟩ => ⟨ha, hb, hy ▸ hq⟩⟩
  | sub =>
    refine (plain_stands b).neg.sum a (fun q => ?_) ⟨fun hb => ⟨_, hb, neg_neg _⟩, fun ⟨_, hb, _⟩ => hb⟩
    constructor
    · rintro ⟨ha, hb, rfl⟩
      exact ⟨ha, _, ⟨hb, neg_neg _⟩, sub_eq_add_neg _ _⟩
    · rintro ⟨ha, y, ⟨hb, hy⟩, rfl⟩
      exact ⟨ha, hb, by rw [← hy, sub_neg_eq_add]⟩
  | mul => exact (mul_stands a b).meaning
  | div => exact (div_stands a b c).meaning
  | madd =>
    refine (product_stands a b).sum c (fun q => ?_) (finiteProduct_iff a b)
    constructor
    · rintro ⟨ha, hb, hc, inRange, p, hp, rfl⟩
      exact ⟨hc, _, ⟨⟨ha, hb, inRange⟩, p, hp, rfl⟩, rfl⟩
    · rintro ⟨hc, _, ⟨⟨ha, hb, inRange⟩, p, hp, rfl⟩, rfl⟩
      exact ⟨ha, hb, hc, inRange, p, hp, rfl⟩
  | msub =>
    refine (product_stands a b).neg.sum c (fun q => ?_) ?_
    · constructor
      · rintro ⟨ha, hb, hc, inRange, p, hp, rfl⟩
        exact ⟨hc, _, ⟨⟨ha, hb, inRange⟩, p, hp, neg_neg _⟩, sub_eq_add_neg _ _⟩
      · rintro ⟨hc, y, ⟨⟨ha, hb, inRange⟩, p, hp, hy⟩, rfl⟩
        exact ⟨ha, hb, hc, inRange, p, hp, by rw [← hy, sub_neg_eq_add]⟩
    · exact (finiteProduct_iff a b).trans (Equiv.neg ℚ).symm.exists_congr_left

/-- A number of the range is of class Normal (law L2). -/
theorem FpLaw.normal_of_range {q : ℚ} {out : FpClass × Word} (h : FpLaw q out) (hlo : leastNormal ≤ |q|)
    (hhi : |q| ≤ greatestFinite) : out.1 = .normal := by
  cases hcls : out.1 with
  | normal => rfl
  | overflow => exact absurd (h.overflow.mp hcls) (not_lt.mpr hhi)
  | underflow => exact absurd (h.underflow.mp hcls).2 (not_lt.mpr hlo)

/-- The default gives what R306 says of it. -/
theorem fpCompute_default (op : FpOp) (a b c : Word) : FpDefault op a b c (fpCompute .ieee op a b c) := by
  have meaning := fpExact_meaning op a b c
  have law : ∀ q, FpIdeal op a b c q → FpLaw q (fpCompute .ieee op a b c) := fun q hq => by
    obtain ⟨s, hs, -⟩ := meaning.number q hq
    exact fpCompute_law hs
  exact
    { large := fun q hq hlarge => by
        have cls := (law q hq).overflow.mpr hlarge
        exact ⟨cls, (law q hq).sign (by rw [cls]; decide)⟩
      small := fun q hq hne hsmall => by
        have cls := (law q hq).underflow.mpr ⟨hne, hsmall⟩
        exact ⟨cls, (law q hq).sign (by rw [cls]; decide)⟩
      fits := fun q hq hlo hhi => by
        obtain ⟨s, hs, -⟩ := meaning.number q hq
        exact ⟨(law q hq).normal_of_range hlo hhi, fpCompute_nearest hs hhi⟩
      zero := fun hq => by
        obtain ⟨s, hs, sign⟩ := meaning.number 0 hq
        rw [fpCompute_zero hs, sign rfl]
      infinite := fun neg hneg => by
        have he := meaning.infinity neg hneg
        exact ⟨fpCompute_inf he, fpCompute_inf_sign he⟩
      neither := fun hq hinf => fpCompute_nan (meaning.neither hq hinf) }

/-- Settles O41: the laws hold of the number each exact result is, and those of the default are the ideal results of R306. -/
theorem writtenValueIsFinite : Obligations.WrittenValueIsFinite := fun ch op a b c =>
  ⟨fpCompute_laws ch op a b c, fpCompute_default op a b c, fun hadd hsub c' => fpCompute_acc_unused ch a b c c' hadd hsub,
    fun _ hw h0 q => reads_finite_iff ch hw h0 q,
    fun clampMax _ hmax hmin hv => fpClamp_not_special ch op a b c clampMax hmax hmin hv⟩

end Sys2Proof.Machine
end

section
/-! PROOF. What a step does before it fetches: the lines are mirrored (O46), and a queued record or an eligible interrupt is
dispatched (O47, O48). The dispatch is said once, for any record, and each step that dispatches is an instance of it. -/

namespace Sys2Proof.Machine

/-! ### Bits and fields of masks -/

/-- A mask has no bit where a mask disjoint from it has one. -/
theorem getLsbD_of_disjoint {m n : Word} (h : m &&& n = 0#32) {k : Nat} (hk : n.getLsbD k = true) : m.getLsbD k = false := by
  have bit := congrArg (fun x : Word => x.getLsbD k) h
  rwa [BitVec.getLsbD_and, hk, Bool.and_true, BitVec.getLsbD_zero] at bit

/-- A mask within another has no bit where that one has none. -/
theorem getLsbD_of_within {m n : Word} (h : m &&& n = m) {k : Nat} (hk : n.getLsbD k = false) : m.getLsbD k = false := by
  rw [← h, BitVec.getLsbD_and, hk, Bool.and_false]

/-- A value moved to its place in a word is the field there. -/
theorem field_of_placed {n lo : Nat} (v : BitVec n) (h : lo + n ≤ 32) :
    (v.setWidth 32 <<< lo).extractLsb' lo n = v := by
  refine BitVec.eq_of_getLsbD_eq fun k hk => ?_
  simp [hk, show lo + k < 32 by omega]

/-! ### What a dispatch writes into Cause (R340) -/

/-- Cause with BD and ExcCode of a record, before CE. -/
def causeCoded (cause : Word) (r : Record) : Word :=
  setBits (setBits cause 0x80000000#32 (if r.bdflag then 0x80000000#32 else 0#32)) 0x0000007C#32
    ((excCode r.kind).setWidth 32 <<< 2)

/-- Only CoprocessorUnusable writes CE. -/
theorem causeAfter_cases (w : Word) (r : Record) :
    (∃ cop, r.kind = .coprocessorUnusable cop ∧
      causeAfter w r = setBits (causeCoded w r) 0x30000000#32 (cop.setWidth 32 <<< 28)) ∨
    (∀ cop, r.kind ≠ .coprocessorUnusable cop) ∧ causeAfter w r = causeCoded w r := by
  unfold causeAfter causeCoded
  cases r.kind with
  | coprocessorUnusable cop => exact .inl ⟨cop, rfl, rfl⟩
  | _ => exact .inr ⟨nofun, rfl⟩

/-- Outside CE, Cause is as BD and ExcCode leave it. -/
theorem causeAfter_outside_ce {w : Word} {r : Record} {k : Nat} (hk : (0x30000000#32).getLsbD k = false) :
    (causeAfter w r).getLsbD k = (causeCoded w r).getLsbD k := by
  rcases causeAfter_cases w r with ⟨cop, -, h⟩ | ⟨-, h⟩ <;> rw [h]
  exact setBits_outside hk

theorem causeAfter_branchDelay (w : Word) (r : Record) : (causeAfter w r).getLsbD 31 = r.bdflag := by
  rw [causeAfter_outside_ce (by decide), causeCoded, setBits_outside (by decide), setBits_bit, if_pos (by decide)]
  cases r.bdflag <;> rfl

theorem causeAfter_code (w : Word) (r : Record) : (causeAfter w r).extractLsb' 2 5 = excCode r.kind := by
  have coded : (causeCoded w r).extractLsb' 2 5 = excCode r.kind :=
    (setBits_field_inside (by decide)).trans (field_of_placed _ (by decide))
  rcases causeAfter_cases w r with ⟨cop, -, h⟩ | ⟨-, h⟩ <;> rw [h]
  · exact (setBits_field_outside (by decide)).trans coded
  · exact coded

theorem causeCoded_cop (w : Word) (r : Record) : (causeCoded w r).extractLsb' 28 2 = w.extractLsb' 28 2 :=
  (setBits_field_outside (by decide)).trans (setBits_field_outside (by decide))

/-- No bit but those of BD, CE and ExcCode changes. -/
theorem causeAfter_rest {w : Word} {r : Record} {k : Nat} (hk : (0xB000007C#32).getLsbD k = false) :
    (causeAfter w r).getLsbD k = w.getLsbD k := by
  have clear : ∀ m : Word, m &&& 0xB000007C#32 = m → m.getLsbD k = false := fun m hm => getLsbD_of_within hm hk
  rw [causeAfter_outside_ce (clear _ (by decide)), causeCoded, setBits_outside (clear _ (by decide)),
    setBits_outside (clear _ (by decide))]

/-- The bits of BD, CE and ExcCode, by number. -/
theorem dispatchedBits {k : Nat} (bd : k ≠ 31) (lo : k ≠ 28) (hi : k ≠ 29) (code : k < 2 ∨ 6 < k) :
    (0xB000007C#32).getLsbD k = false := by
  have bits : ∀ b : Fin 32, b.val ≠ 31 → b.val ≠ 28 → b.val ≠ 29 → (b.val < 2 ∨ 6 < b.val) →
      (0xB000007C#32).getLsbD b = false := by decide
  by_cases hlt : k < 32
  · exact bits ⟨k, hlt⟩ bd lo hi code
  · exact BitVec.getLsbD_of_ge _ _ (Nat.le_of_not_lt hlt)

/-! ### The dispatch of a record (R340 to R345) -/

/-- On EE a dispatch sets EXL (R341). -/
theorem statusAfter_ee (w : Word) : statusAfter .ee w = w ||| 0x00000002#32 := by
  refine BitVec.eq_of_getLsbD_eq fun k _ => ?_
  rw [statusAfter, setBits_bit, BitVec.getLsbD_or]
  cases (0x00000002#32).getLsbD k <;> simp

/-- The push on IOP clears the current pair of bits (R342). -/
theorem statusAfter_iop_current (w : Word) : (statusAfter .iop w).extractLsb' 0 2 = 0#2 := by
  rw [statusAfter, setBits_field_inside (by decide)]
  refine BitVec.eq_of_getLsbD_eq fun k hk => ?_
  rw [BitVec.getLsbD_extractLsb', Nat.zero_add, BitVec.getLsbD_shiftLeft]
  simp [hk]

/-- A dispatch leaves in the control part what R340 says. -/
theorem take_dispatched (c : CoreId) (k : Control) (r : Record) : Dispatched c r k (Control.take c k r) where
  epc := rfl
  branchDelay := causeAfter_branchDelay k.cause r
  code := causeAfter_code k.cause r
  cop := by
    show (causeAfter k.cause r).extractLsb' 28 2 = _
    rcases causeAfter_cases k.cause r with ⟨cop, hk, h⟩ | ⟨hk, h⟩ <;> rw [h]
    · rw [hk]
      exact (setBits_field_inside (by decide)).trans (field_of_placed _ (by decide))
    · rw [causeCoded_cop]
      cases hr : r.kind with
      | coprocessorUnusable cop => exact absurd hr (hk cop)
      | _ => rfl
  causeRest := fun _ bd lo hi code => causeAfter_rest (dispatchedBits bd lo hi code)
  badVAddr := by
    show (badAddress r.kind).getD k.badVAddr = _
    cases r.kind <;> rfl
  statusEE := fun h => by subst h; exact statusAfter_ee k.status
  statusIOP := fun h => by
    subst h
    exact ⟨statusAfter_iop_current k.status, statusAfter_iop_pushed k.status, statusAfter_iop_high k.status⟩
  tracker := rfl
  queue := rfl
  pcEE := fun h => by subst h; rfl
  pcIOP := fun h => by subst h; rfl

/-- EntryHi takes the page of a Translation record, and no other kind writes it (R343). -/
theorem entryHiAfter_pageRecorded (w : Word) (r : Record) : PageRecorded r w (entryHiAfter w r) := by
  have page : ∀ va : Word, (setBits w 0xFFFFE000#32 va).extractLsb' 13 19 = va.extractLsb' 13 19 ∧
      (setBits w 0xFFFFE000#32 va).extractLsb' 0 13 = w.extractLsb' 0 13 := fun _ =>
    ⟨setBits_field_inside (by decide), setBits_field_outside (by decide)⟩
  unfold PageRecorded entryHiAfter
  cases r.kind with
  | translationMiss va _ => exact page va
  | translationInvalid va _ => exact page va
  | translationModified va _ => exact page va
  | _ => rfl

theorem takeException_onlyControlRegs (s : State) (r : Record) : OnlyControlRegs s (s.takeException r) := by
  cases ht : s.turn
  · rw [takeException_ee ht]
    exact ⟨.of_ee ht _, rfl, ⟨fun _ => rfl, rfl⟩, fun _ => rfl, fun _ => ⟨rfl, rfl⟩⟩
  · rw [takeException_iop ht, ← setCtl_eq_iop ht]
    exact setCtl_onlyControlRegs s _

/-- Of the control registers of EE outside the control part, a dispatch writes EntryHi only (R343). -/
theorem takeException_sameCop0 (s : State) (r : Record) :
    SameCop0 s { s.takeException r with ee := { (s.takeException r).ee with entryHi := s.ee.entryHi } } := by
  cases ht : s.turn
  · rw [takeException_ee ht]
    constructor <;> rfl
  · rw [takeException_iop ht]
    constructor <;> rfl

theorem takeException_entryHi {s : State} (ht : s.turn = .ee) (r : Record) :
    (s.takeException r).ee.entryHi = entryHiAfter s.ee.entryHi r := by
  rw [takeException_ee ht]

/-- A step's dispatch changes nothing outside the control registers, `pc`, the tracker and the queue (R340, R184). -/
theorem dispatch_finish_frame (b : State) (r : Record) (n : Nat) :
    DispatchFrame b ((b.mirrorLines.takeException r).finish n) := by
  have only := (setCtl_onlyControlRegs b _).trans (takeException_onlyControlRegs b.mirrorLines r)
  have cop0 := (setCtl_sameCop0 b _).trans (takeException_sameCop0 b.mirrorLines r)
  exact
    { ends := (finish_ends _ n).of_sameRest only.rest
      regs := fun k => by
        rw [finish_q, finish_r32]
        exact only.regs k
      fp := ⟨fun k => (finish_f _ n k).trans (only.fp.1 k), (finish_ee_fcr31 _ n).trans only.fp.2⟩
      memory := finish_sameMemory n only.memory
      table := (finish_ee_tlb _ n).trans only.table
      index := (finish_ee_index _ n).trans cop0.index
      entryLo0 := (finish_ee_entryLo0 _ n).trans cop0.entryLo0
      entryLo1 := (finish_ee_entryLo1 _ n).trans cop0.entryLo1
      pageMask := (finish_ee_pageMask _ n).trans cop0.pageMask
      errorEpc := (finish_ee_errorEpc _ n).trans cop0.errorEpc }

/-! ### A step that dispatches (R172, R173, R181) -/

/-- A dispatch does not depend on the queue: it empties it (R345). -/
theorem takeException_setCtl_xq (s : State) (rs : List Record) (r : Record) :
    (s.setCtl { s.ctl with xq := rs }).takeException r = s.takeException r := by
  rcases s with ⟨_ | _, _⟩ <;> rfl

/-- So what step 1 has queued does not matter to it. -/
theorem sampleInterrupts_takeException (s : State) (r : Record) :
    s.sampleInterrupts.takeException r = s.mirrorLines.takeException r := by
  obtain ⟨rs, h⟩ := sampleInterrupts_eq s
  have queued : s.sampleInterrupts = s.mirrorLines.setCtl { s.mirrorLines.ctl with xq := rs } :=
    h.trans (setCtl_setCtl _ _ _).symm
  rw [queued, takeException_setCtl_xq]

/-- Step 2 with a queue that step 1 has left non-empty (R173). -/
theorem coreFront_dispatch {s : State} {r : Record} {rs : List Record} (h : s.sampleInterrupts.ctl.xq = r :: rs) :
    coreFront s = .done ((s.mirrorLines.takeException (topRecord r rs)).finish (earlyCost s.params)) := by
  simp only [coreFront, h, sampleInterrupts_takeException]

/-- A step that finds the queue non-empty after step 1 dispatches the record of highest priority: what it leaves, whatever
that record is (R173, R181, R184, R340). -/
theorem step_dispatches {c : CoreId} {s : State} {q r : Record} {rs : List Record} (h : CallsStep c s)
    (hq : (s.called c).sampleInterrupts.ctl.xq = q :: rs) (hr : topRecord q rs = r) :
    ∃ t, step s = .next t ∧ DispatchFrame (s.called c) t ∧ Dispatched c r (s.called c).mirrorLines.ctl t.ctl ∧
      (c = .ee → PageRecorded r (s.called c).ee.entryHi t.ee.entryHi) ∧
      t.ctl.cyclesTotal = (s.called c).ctl.cyclesTotal + BitVec.ofNat 64 (1 + (s.called c).params.earlyExtra) ∧
      t.ctl.returned = BitVec.ofNat 64 (1 + (s.called c).params.earlyExtra) := by
  generalize hb : s.called c = b at *
  have turn : b.mirrorLines.turn = c := by rw [mirrorLines_turn, ← hb]; rfl
  have taken := take_dispatched c b.mirrorLines.ctl r
  have ctl := takeException_ctl b.mirrorLines r
  rw [turn] at ctl
  refine ⟨(b.mirrorLines.takeException r).finish (earlyCost b.params), ?_, dispatch_finish_frame b r _, ?_, fun hc => ?_, ?_,
    ?_⟩
  · simp only [step, front_callsStep h, hb, coreFront_dispatch hq, hr]
  · rw [finish_ctl, ctl]
    exact { taken with }
  · rw [finish_ee_entryHi, takeException_entryHi (turn.trans hc), mirrorLines_ee_entryHi]
    exact entryHiAfter_pageRecorded _ r
  · rw [finish_ctl, ctl]
    exact congrArg (· + BitVec.ofNat 64 (earlyCost b.params)) (mirrorLines_ctl_cyclesTotal b)
  · rw [finish_ctl]
    rfl

/-- Settles O47: with no interrupt eligible, step 1 leaves the one record in the queue. -/
theorem queuedRecordIsDispatched : Obligations.QueuedRecordIsDispatched := by
  rintro c s _ r h rfl hq quiet
  have sampled : (s.called c).sampleInterrupts = (s.called c).mirrorLines := sampleInterrupts_quiet quiet
  exact step_dispatches h (by rw [sampled, mirrorLines_ctl_xq, hq]) rfl

/-! ### A step that takes an interrupt (R172, R336) -/

/-- The record that step 1 queues when an interrupt is eligible. -/
def State.interruptRecord (s : State) : Record :=
  ⟨.interrupt (pendingLines s.turn s.mirrorLines.ctl), (interruptReturnPoint s.mirrorLines.ctl).1,
    (interruptReturnPoint s.mirrorLines.ctl).2⟩

theorem sampleInterrupts_queue {s : State} (h : eligible s.turn s.mirrorLines.ctl = true) :
    s.sampleInterrupts.ctl.xq = s.ctl.xq ++ [s.interruptRecord] := by
  rw [sampleInterrupts_eligible h, setCtl_ctl]
  rfl

/-- Behind one synchronous record the return point is that record's (R336). -/
theorem interruptReturnPoint_queued {k : Control} {r : Record} (hq : k.xq = [r]) (hr : r.synchronous = true) :
    interruptReturnPoint k = (r.epc, r.bdflag) := by
  simp only [interruptReturnPoint, hq, List.find?_cons_of_pos hr]

/-- With an empty queue the tracker decides (R336). -/
theorem interruptReturnPoint_empty {k : Control} (hq : k.xq = []) :
    (k.bd = .idle → interruptReturnPoint k = (k.pc, false)) ∧
    (∀ target, k.bd = .pending target 1 → interruptReturnPoint k = (k.pc - 4#32, true)) ∧
    (∀ target, k.bd = .pending target 0 → interruptReturnPoint k = (target, false)) := by
  refine ⟨fun h => ?_, fun target h => ?_, fun target h => ?_⟩ <;>
    simp only [interruptReturnPoint, hq, List.find?_nil, h]

/-- An Interrupt record comes before a synchronous one (R337). -/
theorem priority_interrupt_lt {r : Record} (hr : r.synchronous = true) (lines : BitVec 8) :
    priority (.interrupt lines) < priority r.kind := by
  unfold Record.synchronous at hr
  cases hk : r.kind with
  | interrupt _ => rw [hk] at hr; cases hr
  | _ => exact Nat.zero_lt_succ _

/-- Appended to an empty queue or behind one synchronous record, the Interrupt record is the one serviced (R337). -/
theorem topRecord_interruptRecord (s : State) {xq : List Record} (hq : xq = [] ∨ ∃ r, xq = [r] ∧ r.synchronous = true) :
    ∃ q rs, xq ++ [s.interruptRecord] = q :: rs ∧ topRecord q rs = s.interruptRecord := by
  rcases hq with rfl | ⟨r, rfl, hr⟩
  · exact ⟨_, _, rfl, rfl⟩
  · exact ⟨_, _, rfl, if_pos (priority_interrupt_lt hr _)⟩

/-- Settles O48: the Interrupt record that step 1 appends is the one serviced, with the return point of R336. -/
theorem eligibleInterruptIsTaken : Obligations.EligibleInterruptIsTaken := by
  rintro c s _ h rfl hq elig
  obtain ⟨q, rs, queue, top⟩ := topRecord_interruptRecord (s.called c) hq
  obtain ⟨t, hs, frame, dispatched, entryHi, cycles, returned⟩ :=
    step_dispatches h ((sampleInterrupts_queue elig).trans queue) top
  have empty (he : (s.called c).ctl.xq = []) := interruptReturnPoint_empty ((mirrorLines_ctl_xq (s.called c)).trans he)
  simp only [mirrorLines_ctl_bd, mirrorLines_ctl_pc] at empty
  refine ⟨t, _, _, _, hs, frame, dispatched, entryHi, cycles, returned, fun r hr => ?_, fun he hbd => ?_,
    fun target he hbd => ?_, fun target he hbd => ?_⟩
  · have sync : r.synchronous = true := by
      rcases hq with he | ⟨r', hr', sync⟩
      · cases he.symm.trans hr
      · cases hr'.symm.trans hr
        exact sync
    rw [interruptReturnPoint_queued ((mirrorLines_ctl_xq _).trans hr) sync]
    exact ⟨rfl, rfl⟩
  · rw [(empty he).1 hbd]
    exact ⟨rfl, rfl⟩
  · rw [(empty he).2.1 target hbd]
    exact ⟨rfl, rfl⟩
  · rw [(empty he).2.2 target hbd]
    exact ⟨rfl, rfl⟩

/-! ### The mirror of the lines (R348) -/

/-- It is the turn of the core of `b`, with the lines of `b`, and Cause has them in its line bits. -/
structure MirrorsLines (b t : State) : Prop where
  turn : t.turn = b.turn
  lines : t.lineBits = b.lineBits
  cause : ∀ k, (lineMask b.turn).getLsbD k = true → t.ctl.cause.getLsbD k = b.lineBits.getLsbD k

theorem SameRest.lineBits {s t : State} (h : SameRest s t) : t.lineBits = s.lineBits := by
  simp only [State.lineBits, h.turn, h.int0, h.int1, h.timer, h.lines]

namespace MirrorsLines

variable {b s t : State}

/-- Step 1 mirrors the lines of the state it starts in. -/
theorem of_mirror (turn : s.turn = b.turn) (lines : s.lineBits = b.lineBits) : MirrorsLines b s.mirrorLines where
  turn := (mirrorLines_turn s).trans turn
  lines := (setCtl_sameRest s _).lineBits.trans lines
  cause := fun k hk => by rw [mirrorLines_ctl_cause, setBits_bit, turn, if_pos hk, lines]

/-- What keeps the turn, the lines and the line bits of Cause keeps the mirror. -/
theorem of_sameRest (h : MirrorsLines b s) (rest : SameRest s t)
    (cause : ∀ k, (lineMask s.turn).getLsbD k = true → t.ctl.cause.getLsbD k = s.ctl.cause.getLsbD k) :
    MirrorsLines b t where
  turn := rest.turn.trans h.turn
  lines := rest.lineBits.trans h.lines
  cause := fun k hk => (cause k (by rw [h.turn]; exact hk)).trans (h.cause k hk)

/-- An update of the control part that keeps Cause. -/
theorem setCtl (h : MirrorsLines b s) {k : Control} (cause : k.cause = s.ctl.cause) : MirrorsLines b (s.setCtl k) :=
  h.of_sameRest (setCtl_sameRest s k) fun _ _ => by rw [setCtl_ctl, cause]

/-- An update that names neither core. -/
theorem of_same (h : MirrorsLines b s) (turn : t.turn = s.turn) (ee : t.ee = s.ee) (iop : t.iop = s.iop) :
    MirrorsLines b t where
  turn := turn.trans h.turn
  lines := by rw [← h.lines]; simp only [State.lineBits, turn, ee, iop]
  cause := fun k hk => by rw [← h.cause k hk]; simp only [State.ctl, turn, ee, iop]

/-- An update of EE that keeps its control part and its lines. -/
theorem of_ee (h : MirrorsLines b s) (e : EECore) (ctl : e.ctl = s.ee.ctl := by rfl) (int0 : e.int0 = s.ee.int0 := by rfl)
    (int1 : e.int1 = s.ee.int1 := by rfl) (timer : e.timer = s.ee.timer := by rfl) : MirrorsLines b { s with ee := e } where
  turn := h.turn
  lines := by rw [← h.lines]; simp only [State.lineBits, int0, int1, timer]
  cause := fun k hk => by rw [← h.cause k hk]; simp only [State.ctl, ctl]

/-- A dispatch writes BD, CE and ExcCode of Cause, no line bit (R340). -/
theorem takeException (h : MirrorsLines b s) (r : Record) : MirrorsLines b (s.takeException r) :=
  h.of_sameRest (takeException_onlyControlRegs s r).rest fun k hk => by
    have apart : (0xB000007C#32) &&& lineMask s.turn = 0#32 := by cases s.turn <;> rfl
    rw [takeException_ctl]
    exact causeAfter_rest (getLsbD_of_disjoint apart hk)

/-- MTC0 cannot write a line bit (R34, R43). -/
theorem cop0Write (h : MirrorsLines b s) (n : RegIdx) (v : Word) : MirrorsLines b (s.cop0Write n v) := by
  have cell : ∀ u : State, u.cop0Cell 13#5 = u.ctl.cause := fun u => by unfold State.cop0Cell; cases u.turn <;> rfl
  unfold State.cop0Write
  split
  case h_1 m hm =>
    refine h.of_sameRest (setCop0Cell_frame s n _).1.rest fun k hk => ?_
    rw [← cell, ← cell]
    by_cases hn : n = 13#5
    · subst hn
      have apart : m &&& lineMask s.turn = 0#32 := by
        cases ht : s.turn <;> rw [ht] at hm <;> cases hm <;> rfl
      rw [setCop0Cell_self _ hm]
      exact setBits_outside (getLsbD_of_disjoint apart hk)
    · rw [setCop0Cell_other s _ (Ne.symm hn)]
  case h_2 => exact h

theorem finish (h : MirrorsLines b s) (c : Nat) : MirrorsLines b (s.finish c) :=
  (h.setCtl (k := { s.ctl with cyclesTotal := s.ctl.cyclesTotal + BitVec.ofNat 64 c, returned := BitVec.ofNat 64 c })
    rfl).of_same rfl rfl rfl

/-- Every single effect of a step keeps the mirror. -/
theorem effect {i : Option Instr} (h : MirrorsLines b s) (he : Effect i s t) : MirrorsLines b t := by
  cases he with
  | mirrorLines => exact .of_mirror h.turn h.lines
  | dispatch r =>
    rw [sampleInterrupts_takeException]
    exact (of_mirror h.turn h.lines).takeException r
  | resolveBranchDelay =>
    rw [resolveBranchDelay_eq]
    exact h.setCtl (by unfold Control.resolved; split <;> rfl)
  | hold => exact h.of_same rfl rfl rfl
  | advance => exact h.setCtl rfl
  | finish c => exact h.finish c
  | log => exact h.of_same rfl rfl rfl
  | raise => exact h.setCtl rfl
  | abort => exact h.of_same rfl rfl rfl
  | arm => exact h.setCtl rfl
  | setX r v => exact h.of_sameRest (setX_sameRest s r v) fun _ _ => by rw [setX_ctl]
  | setQ r v =>
    unfold State.setQ
    split
    · exact h
    · exact h.of_ee _
  | physRead pa n v hp =>
    obtain ⟨m, c, rfl⟩ := physRead_shape pa n s t v hp
    exact h.of_same rfl rfl rfl
  | physWrite pa n v hp =>
    obtain ⟨m, c, rfl⟩ := physWrite_shape pa n v s t hp
    exact h.of_same rfl rfl rfl
  | cop0Write n v => exact h.cop0Write n v
  | returnEE ht =>
    rw [returnEE_eq ht]
    exact h.setCtl (by unfold Control.returnedEE; split <;> rfl)
  | returnIOP => exact h.setCtl rfl
  | tlbSet => exact h.of_ee _
  | setF => exact h.of_ee _
  | fcrFlags => exact h.of_ee _
  | fcrWrite rt fs v =>
    unfold Machine.fcrWrite
    split
    · exact h.of_ee _
    · exact h

theorem effects {i : Option Instr} (h : MirrorsLines b s) (he : Effects i s t) : MirrorsLines b t := by
  induction he with
  | refl => exact h
  | tail _ he ih => exact ih.effect he

/-- On EE: the three lines, each in its bit of Cause. -/
theorem ee (h : MirrorsLines b t) (ht : b.turn = .ee) : t.ee.ctl.cause.getLsbD 10 = b.ee.int0 ∧
    t.ee.ctl.cause.getLsbD 11 = b.ee.int1 ∧ t.ee.ctl.cause.getLsbD 15 = b.ee.timer := by
  have ctl : t.ctl = t.ee.ctl := by simp only [State.ctl, h.turn, ht]
  have placed : ∀ x y z : Bool, (lineBit x 10 ||| lineBit y 11 ||| lineBit z 15).getLsbD 10 = x ∧
      (lineBit x 10 ||| lineBit y 11 ||| lineBit z 15).getLsbD 11 = y ∧
      (lineBit x 10 ||| lineBit y 11 ||| lineBit z 15).getLsbD 15 = z := by decide
  have bits := h.cause
  simp only [ctl, State.lineBits, ht] at bits
  obtain ⟨int0, int1, timer⟩ := placed b.ee.int0 b.ee.int1 b.ee.timer
  exact ⟨(bits 10 (by decide)).trans int0, (bits 11 (by decide)).trans int1, (bits 15 (by decide)).trans timer⟩

/-- On IOP: the six lines, in bits 10 to 15 of Cause. -/
theorem iop (h : MirrorsLines b t) (ht : b.turn = .iop) : t.iop.ctl.cause.extractLsb' 10 6 = b.iop.lines := by
  have ctl : t.ctl = t.iop.ctl := by simp only [State.ctl, h.turn, ht]
  have inMask : ∀ k : Fin 6, (lineMask .iop).getLsbD (10 + k) = true := by decide
  have bits := h.cause
  simp only [ctl, State.lineBits, ht] at bits
  refine Eq.trans (BitVec.eq_of_getLsbD_eq fun k hk => ?_) (field_of_placed b.iop.lines (lo := 10) (by decide))
  rw [BitVec.getLsbD_extractLsb', BitVec.getLsbD_extractLsb', bits _ (inMask ⟨k, hk⟩)]

end MirrorsLines

/-- Steps 1 to 5: the mirror and the dispatch of a record, or the mirror and, with an empty queue, the fetch (R172 to R176). -/
theorem coreFront_cases (s : State) :
    (∃ r, coreFront s = .done ((s.mirrorLines.takeException r).finish (earlyCost s.params))) ∨
    s.ctl.xq = [] ∧ coreFront s = fetchFront s.mirrorLines := by
  cases hq : s.sampleInterrupts.ctl.xq with
  | cons r rs => exact .inl ⟨_, coreFront_dispatch hq⟩
  | nil =>
    obtain ⟨sampled, empty⟩ := sampleInterrupts_of_empty hq
    exact .inr ⟨empty, by simp only [coreFront, sampled, mirrorLines_ctl_xq, empty]⟩

/-- A step whose front is reached from `m` is a chain of effects from `m` (R177 to R184). -/
theorem step_effects_of_front {s m t : State} (hf : ∀ i, FrontReaches i m (front s)) (hs : step s = .next t) :
    ∃ i, Effects i m t := by
  rcases step_next hs with hd | ⟨j, u, v, hd, he, rfl⟩
  · have hn := hf none
    rw [hd] at hn
    cases hn with
    | done he _ => exact ⟨none, he⟩
  · have hn := hf (some j)
    rw [hd] at hn
    cases hn with
    | run _ hc hq _ =>
      obtain ⟨v', hv, hx⟩ := exec_reaches j u hq
      cases he.symm.trans hv
      exact ⟨some j, (hc.trans hx).trans (retire_effects (some j) j v).1⟩

/-- Whatever a step does, it begins with the mirror, and nothing after that undoes it (R172, R348). -/
theorem step_mirrorsLines {c : CoreId} {s t : State} (h : CallsStep c s) (hs : step s = .next t) :
    MirrorsLines (s.called c) t := by
  have mirror : MirrorsLines (s.called c) (s.called c).mirrorLines := .of_mirror rfl rfl
  rcases coreFront_cases (s.called c) with ⟨r, hf⟩ | ⟨hq, hf⟩ <;> rw [← front_callsStep h] at hf
  · simp only [step, hf] at hs
    cases hs
    exact (mirror.takeException r).finish _
  · obtain ⟨i, he⟩ := step_effects_of_front (m := (s.called c).mirrorLines)
      (fun i => by
        rw [hf]
        exact fetchFront_reaches i _ _ .refl ((mirrorLines_ctl_xq _).trans hq) ((mirrorLines_run _).trans h.run)) hs
    exact mirror.effects he

/-- Settles O46: the lines of the state in which the step is called are those of the state before it. -/
theorem everyStepMirrorsLines : Obligations.EveryStepMirrorsLines := by
  intro s t c h hs
  have mirrors := step_mirrorsLines h hs
  exact ⟨mirrors.ee, mirrors.iop⟩

end Sys2Proof.Machine
end

section
/-! PROOF. The exception codes (O43) and the choice of the record serviced (O44): the choice is a running minimum of the
priority, so one lemma says what it keeps of two records, and an induction over the queue carries that along. -/

namespace Sys2Proof.Machine

/-! ### The exception codes (R331) -/

/-- The codes that Cause can hold after a dispatch; 6 to 10 and 13 to 31 are not among them (R331). -/
theorem excCode_mem_codes (k : ExcKind) : excCode k ∈ [0#5, 1#5, 2#5, 3#5, 4#5, 5#5, 11#5, 12#5] := by
  cases k with
  | interrupt | translationModified | coprocessorUnusable | arithmeticOverflow => simp [excCode]
  | addressError _ dir | translationMiss _ dir | translationInvalid _ dir => cases dir <;> simp [excCode]

/-- Settles O43: the table row by row, each from the definition, then the codes it leaves out. -/
theorem exceptionCodes : Obligations.ExceptionCodes := by
  intro va lines cop
  exact ⟨rfl, rfl, rfl, rfl, rfl, rfl, rfl, rfl, rfl, rfl, excCode_mem_codes⟩

/-! ### The record serviced (R337, R340) -/

/-- Of the first two records the choice goes on with one that neither of them precedes. -/
theorem topRecord_cons (r t : Record) (ts : List Record) :
    ∃ m, (m = r ∨ m = t) ∧ priority m.kind ≤ priority r.kind ∧ priority m.kind ≤ priority t.kind ∧
      topRecord r (t :: ts) = topRecord m ts := by
  by_cases h : priority t.kind < priority r.kind
  · exact ⟨t, .inr rfl, h.le, le_rfl, if_pos h⟩
  · exact ⟨r, .inl rfl, le_rfl, not_lt.mp h, if_neg h⟩

theorem topRecord_mem (r : Record) (rs : List Record) : topRecord r rs ∈ r :: rs := by
  induction rs generalizing r with
  | nil => exact List.mem_singleton_self r
  | cons t ts ih =>
    obtain ⟨m, which, -, -, top⟩ := topRecord_cons r t ts
    rw [top]
    rcases which with rfl | rfl
    · exact ((List.sublist_cons_self t ts).cons_cons m).subset (ih m)
    · exact List.mem_cons_of_mem r (ih m)

theorem priority_topRecord_le {r x : Record} {rs : List Record} (hx : x ∈ r :: rs) :
    priority (topRecord r rs).kind ≤ priority x.kind := by
  induction rs generalizing r x with
  | nil => rw [List.mem_singleton.mp hx, topRecord]
  | cons t ts ih =>
    obtain ⟨m, -, leFirst, leSecond, top⟩ := topRecord_cons r t ts
    have leChosen : priority (topRecord m ts).kind ≤ priority m.kind := ih List.mem_cons_self
    rw [top]
    rcases List.mem_cons.mp hx with rfl | hx
    · exact leChosen.trans leFirst
    rcases List.mem_cons.mp hx with rfl | hx
    · exact leChosen.trans leSecond
    · exact ih (List.mem_cons_of_mem m hx)

/-- Settles O44: in R337's order the kinds rank 0 to 6, whatever they carry. -/
theorem highestPriorityIsServiced : Obligations.HighestPriorityIsServiced := by
  refine ⟨fun r rs => ⟨topRecord_mem r rs, fun x => priority_topRecord_le⟩, fun v1 v2 v3 v4 d1 d2 d3 d4 lines cop => ?_⟩
  have ranks : [ExcKind.interrupt lines, .addressError v1 d1, .translationMiss v2 d2, .translationInvalid v3 d3,
      .translationModified v4 d4, .arithmeticOverflow, .coprocessorUnusable cop].map priority = List.range 7 := rfl
  rw [← List.pairwise_map (f := priority) (R := (· < ·)), ranks]
  exact List.pairwise_lt_range

end Sys2Proof.Machine
end
